-- ==== Sys2Proof/Word.lean ====
section
/-! DEFINITION. Sys2Proof/Word.lean: bytes, words and the plain data types that the rules of spec/ name: chips, fields,
trigger modes, register values and history events. -/

namespace Sys2Proof

/-- One byte of an SPI transfer, of a blob or of an operation's text. -/
abbrev Byte := BitVec 8

/-- A register value on the wire: 32 bits (R7, R30). A configuration with a shorter value uses the low bits. -/
abbrev Word := BitVec 32

/-- The control word. It has the low `cwBits` bits, 16 by default (R7, R20); the other bits are 0, which the invariant says. -/
abbrev CwWord := BitVec 32

/-- A value read or written in the window, zero-extended (R10): the control word, or a status word of `swBits` bits, 32 by default
(R7, R27). -/
abbrev WinVal := BitVec 64

/-- Text as the caller writes it (R121): a sequence of bytes. -/
abbrev Text := List Byte

/-- The five values of a chip operand (R90): the four chips and the broadcast marker `All`. -/
inductive Chip where
  | A | B | C | D | All
deriving DecidableEq, Repr, Inhabited

/-- The four physical chips (R2). -/
inductive PhysChip where
  | A | B | C | D
deriving DecidableEq, Repr, Inhabited

/-- idx of R92. -/
def chipIdx : PhysChip → Nat
  | .A => 0
  | .B => 1
  | .C => 2
  | .D => 3

/-- The four physical chips in the order of their index (R92). -/
def PhysChip.all : List PhysChip := [.A, .B, .C, .D]

/-- The four fields of the control word (R20). -/
inductive CwField where
  | hold | reset | cs | sysclk
deriving DecidableEq, Repr, Inhabited

/-- The fields of the status words (R28, R111). -/
inductive SwField where
  | err | tempA | tempB | tempC | tempD
deriving DecidableEq, Repr, Inhabited

/-- The two status words (R27). -/
inductive SwWord where
  | sw0 | sw1
deriving DecidableEq, Repr, Inhabited

/-- The three trigger modes (R260). -/
inductive TrigMode where
  | off | hz1 | khz1
deriving DecidableEq, Repr, Inhabited

/-- What a chip-select field bit means (R24, D2). -/
inductive CsPolarity where
  | selectOnOne | selectOnZero
deriving DecidableEq, Repr, Inhabited

/-- A byte order (R7 `wireByteOrder`, `mmioByteOrder`). -/
inductive ByteOrder where
  | big | little
deriving DecidableEq, Repr, Inhabited

/-- The unit of a duration that is written without a suffix (R7 `duration unit`, R121). -/
inductive TimeUnit where
  | micro | milli
deriving DecidableEq, Repr, Inhabited

/-- The content of a SIPHRA register (R30): a known value, or unknown. -/
inductive RegVal where
  | known (v : Word)
  | unknown
deriving DecidableEq, Repr, Inhabited

/-- One event of the history (R10, R44). A window value is zero-extended; `n` is the access width in bytes. The
selected set of a transfer is listed in chip order. -/
inductive Event where
  | mmioR (off n : Nat) (v : WinVal)
  | mmioW (off n : Nat) (v : WinVal)
  | xfer (sel : List PhysChip) (tx rx : List Byte)
  | sleep (d : Nat)
deriving DecidableEq, Repr, Inhabited

/-- One value for each physical chip. -/
structure PerChip (α : Type) where
  a : α
  b : α
  c : α
  d : α
deriving DecidableEq, Repr, Inhabited

/-- The entry of chip `p`. -/
def PerChip.get {α : Type} (x : PerChip α) : PhysChip → α
  | .A => x.a
  | .B => x.b
  | .C => x.c
  | .D => x.d

/-- The table that holds `f p` for every chip `p`. -/
def PerChip.ofFn {α : Type} (f : PhysChip → α) : PerChip α :=
  ⟨f .A, f .B, f .C, f .D⟩

/-- The value with its `n` low bits set: mask(n) of R8. -/
def lowMask {w : Nat} (n : Nat) : BitVec w := BitVec.ofNat w (2 ^ n - 1)

end Sys2Proof
end

