-- ==== Sys2Proof/Config.lean ====
section
/-! DEFINITION. Sys2Proof/Config.lean: the configuration record of R7 with its constraints, the values the spec leaves open
as opaque constants, and `Config.cfg`, the machine's own configuration. -/

namespace Sys2Proof

/-- Where a status field stands (R28): its word, its low bit and its width. -/
structure SwPos where
  word  : SwWord
  lo    : Nat
  width : Nat
deriving DecidableEq, Repr

/-- A register layout (R32): the named bit-fields in order, first field first. -/
abbrev Layout := List (String × Nat)

/-- The parameters of R7, one field a row; `Cfg.wf` says which values they may have. -/
structure Cfg where
  /-- The physical chips are the first `nchip` of A, B, C and D (R2, R90). -/
  nchip         : Nat
  /-- The bits of a register value on the wire (R30, R101). -/
  valueBits     : Nat
  /-- The bits of the control word (R20). -/
  cwBits        : Nat
  /-- How many of the status words SW0 and SW1 there are (R27). -/
  swCount       : Nat
  /-- The bits of a status word (R27, U18). -/
  swBits        : Nat
  /-- The window's size in bytes (R61). -/
  windowSize    : Nat
  /-- The SPI clock in Hz (R182). -/
  spiHz         : Nat
  /-- The register addresses of a chip are 0 to `nreg - 1` (R30). -/
  nreg          : Nat
  /-- SIGLEN of R31, one entry per address. -/
  siglens       : List Nat
  cwOffset      : Nat
  sw0Offset     : Nat
  sw1Offset     : Nat
  /-- The low bit of each control-word field (R21). -/
  cwLo          : CwField → Nat
  /-- The place of each status field (R28). -/
  swPos         : SwField → SwPos
  csPolarity    : CsPolarity
  /-- HOLD_OFF, HOLD_1HZ and HOLD_1KHZ (R25). -/
  holdCode      : TrigMode → BitVec 4
  /-- The bytes of one frame (R115). -/
  frameLen      : Nat
  wireByteOrder : ByteOrder
  mmioByteOrder : ByteOrder
  /-- The dummy byte of a read frame (R102). -/
  dummyByte     : Byte
  maxAttempts   : Nat
  /-- The unit of a duration written without a suffix (R121, D30). -/
  durationUnit  : TimeUnit
  ioMayFail     : Bool
  /-- The layout table of R32. -/
  layout        : Nat → Layout

/-- Whether the chip is there (R7 `NCHIP`): the first ones are (DESIGN CHOICE, notes/assumptions/25.md). -/
def Cfg.hasChip (g : Cfg) (p : PhysChip) : Bool := chipIdx p < g.nchip

/-- Whether the status word is there (R7, status word count; notes/assumptions/25.md). -/
def Cfg.hasWord (g : Cfg) : SwWord → Bool
  | .sw0 => 0 < g.swCount
  | .sw1 => 1 < g.swCount

/-- The bytes of a register value: 4 by default (R101, R108). -/
def Cfg.valueBytes (g : Cfg) : Nat := g.valueBits / 8

/-- The bytes of an access to the control word: 2 by default (R68). -/
def Cfg.cwBytes (g : Cfg) : Nat := g.cwBits / 8

/-- The bytes of an access to a status word: 4 by default (R68). -/
def Cfg.swBytes (g : Cfg) : Nat := g.swBits / 8

/-- The byte offset of a status word. -/
def Cfg.swOffset (g : Cfg) : SwWord → Nat
  | .sw0 => g.sw0Offset
  | .sw1 => g.sw1Offset

/-- The seven field names of the channel registers, in order (R32). -/
def channelFieldNames : List String :=
  ["voltage/current offset", "impedance reduction", "calibration select", "threshold", "hysteresis", "power-up enable",
    "trigger enable"]

/-- The constraint of R134 on one layout: every width is at least 1 and the widths sum to at most the bits of a value, 32 by
default. -/
def Layout.fits (l : Layout) (bits : Nat := 32) : Prop :=
  (∀ f ∈ l, 1 ≤ f.2) ∧ (l.map Prod.snd).sum ≤ bits

/-- The constraints that the rules put on the parameters: the offsets (R62), the field positions (R21), the hold codes (R25), the
significant lengths (R31) and the layouts (R32, R134). A frame is 5 bytes (R115): one command byte and a value, which the model keeps
for a value of another width. That words and values are whole bytes is R10's access of n bytes. How many chips, status words and bits
there can be is bounded by the names that the rules give (A to D, SW0 and SW1; 7 address bits) and by the model's types: 32 bits of a
value and of CW, 64 of a status word (DESIGN CHOICE, notes/assumptions/25.md). -/
structure Cfg.wf (g : Cfg) : Prop where
  chips    : 1 ≤ g.nchip ∧ g.nchip ≤ 4
  value    : 0 < g.valueBits ∧ g.valueBits % 8 = 0 ∧ g.valueBits ≤ 32
  control  : g.cwBits % 8 = 0 ∧ g.cwBits ≤ 32
  status   : 0 < g.swBits ∧ g.swBits % 8 = 0 ∧ g.swBits ≤ 64
  words    : 1 ≤ g.swCount ∧ g.swCount ≤ 2
  frame    : g.frameLen = 1 + g.valueBytes
  attempts : 1 ≤ g.maxAttempts
  clock    : 0 < g.spiHz
  regs     : g.nreg ≤ 128 ∧ g.siglens.length = g.nreg ∧ ∀ n ∈ g.siglens, n ≤ g.valueBits
  cwPlace  : g.cwOffset % g.cwBytes = 0 ∧ g.cwOffset + g.cwBytes ≤ g.windowSize
  swPlace  : ∀ w, g.hasWord w → g.swOffset w % g.swBytes = 0 ∧ g.swOffset w + g.swBytes ≤ g.windowSize
  swApart  : g.hasWord .sw1 → g.sw0Offset ≠ g.sw1Offset
  cwApart  : ∀ w, g.hasWord w → g.cwOffset + g.cwBytes ≤ g.swOffset w ∨ g.swOffset w + g.swBytes ≤ g.cwOffset
  cwNibble : ∀ f, g.cwLo f % 4 = 0 ∧ g.cwLo f + 4 ≤ g.cwBits
  cwInj    : ∀ f f', g.cwLo f = g.cwLo f' → f = f'
  swFits   : ∀ f, g.hasWord (g.swPos f).word ∧ (g.swPos f).lo + (g.swPos f).width ≤ g.swBits
  holdInj  : ∀ m m', g.holdCode m = g.holdCode m' → m = m'
  layouts  : ∀ a, (g.layout a).fits g.valueBits
  channel  : ∀ a, a < 16 → (g.layout a).map Prod.fst = channelFieldNames ∧ g.layout a = g.layout 0

namespace Config

/-! The open values. None of them has a body: no proof can see what it is. -/

/-- What a noisy link makes a chip latch (R189 `Link.latch`): history, chip, address and sent value decide it. -/
opaque linkLatch : List Event → PhysChip → Nat → Word → Word

/-- What a noisy link returns for a read (R189 `Link.data`). -/
opaque linkData : List Event → PhysChip → Nat → RegVal → Word

/-- Any other byte received (R189 `Link.junk`): history, selected set, sent bytes and position decide it. -/
opaque linkJunk : List Event → List PhysChip → List Byte → Nat → Byte

/-- The value a status word shows at a read (R160): a fresh draw for each point of the history. -/
opaque statusDraw : List Event → SwWord → WinVal

/-- Chooses the three hold codes among all triples of distinct 4-bit values (R25, N7). -/
opaque holdPick : Fin 16 × Fin 15 × Fin 14

/-- Chooses the places of CW, SW0 and SW1 among all places that R62 allows (N11): three different 4-byte slots of the
window, and the half of its slot that CW takes. -/
opaque offsetPick : Fin 1027 × Fin 1026 × Fin 1025 × Fin 2

/-- The byte order of a word inside the window (R66). -/
opaque mmioByteOrder : ByteOrder

/-- How much wider than 1 bit each channel field is, before the sum is cut to 32 (N6). -/
opaque channelExtra : Nat → Nat

/-- The layouts of the registers at addresses 16 to 27, before they are cut to 32 bits (N6). -/
opaque layoutDraw : Nat → Layout

/-- The `k`-th natural number other than `x`. -/
def skip (x k : Nat) : Nat := if k < x then k else k + 1

/-- Three different numbers from three picks: every triple of different numbers below `n` arises from picks below `n`,
`n - 1` and `n - 2`. -/
def threeDistinct (i j k : Nat) : Nat × Nat × Nat :=
  let b := skip i j
  (i, b, skip (max i b) (skip (min i b) k))

/-- Widths of at least 1 whose sum is at most the number of wishes plus `room`. -/
def spread (room : Nat) : List Nat → List Nat
  | [] => []
  | e :: es => (1 + min e room) :: spread (room - min e room) es

/-- The fields of a wished layout that have a width and still find room. -/
def clampLayout (room : Nat) : Layout → Layout
  | [] => []
  | (n, w) :: l => if 1 ≤ w ∧ w ≤ room then (n, w) :: clampLayout (room - w) l else clampLayout room l

/-- The layout of the 16 channel registers: the seven names of R32 with open widths. -/
def channelLayout : Layout :=
  channelFieldNames.zip (spread 25 ((List.range 7).map channelExtra))

/-- The three slots of the window that hold CW, SW0 and SW1. -/
def slots : Nat × Nat × Nat :=
  threeDistinct offsetPick.1 offsetPick.2.1 offsetPick.2.2.1

/-- The three hold codes as numbers. -/
def holdNumbers : Nat × Nat × Nat :=
  threeDistinct holdPick.1 holdPick.2.1 holdPick.2.2

/-- The hold code of each mode. -/
def holdCode : TrigMode → BitVec 4
  | .off => BitVec.ofNat 4 holdNumbers.1
  | .hz1 => BitVec.ofNat 4 holdNumbers.2.1
  | .khz1 => BitVec.ofNat 4 holdNumbers.2.2

/-- The default field positions of R21. -/
def cwLo : CwField → Nat
  | .hold => 0
  | .reset => 4
  | .cs => 8
  | .sysclk => 12

/-- The default status positions of R28. -/
def swPos : SwField → SwPos
  | .err => ⟨.sw0, 0, 4⟩
  | .tempA => ⟨.sw0, 4, 12⟩
  | .tempB => ⟨.sw0, 16, 12⟩
  | .tempC => ⟨.sw1, 0, 12⟩
  | .tempD => ⟨.sw1, 12, 12⟩

/-- The significant lengths of R31. -/
def siglens : List Nat :=
  [26, 26, 26, 26, 26, 26, 26, 26, 26, 26, 26, 26, 26, 26, 26, 26] ++ [14, 24, 23, 6, 8, 18, 6, 19, 15, 6, 2, 2]

/-- The machine's configuration: R7's values, and an open value where R7 gives none. -/
def cfg : Cfg where
  nchip := 4
  valueBits := 32
  cwBits := 16
  swCount := 2
  swBits := 32
  windowSize := 4108
  spiHz := 100000
  nreg := 28
  siglens := siglens
  cwOffset := 4 * slots.1 + 2 * offsetPick.2.2.2
  sw0Offset := 4 * slots.2.1
  sw1Offset := 4 * slots.2.2
  cwLo := cwLo
  swPos := swPos
  csPolarity := .selectOnOne
  holdCode := holdCode
  frameLen := 5
  wireByteOrder := .big
  mmioByteOrder := mmioByteOrder
  dummyByte := 0x00#8
  maxAttempts := 3
  durationUnit := .micro
  ioMayFail := true
  layout := fun a => if a < 16 then channelLayout else clampLayout 32 (layoutDraw a)

end Config

end Sys2Proof
end

