-- ==== Sys2Proof/Syntax.lean ====
section
/-! DEFINITION. Sys2Proof/Syntax.lean: the operations of R120 and the two frames that the chips decode (R192, R193), one
constructor per row of spec/opcode_table.json. An operand that the caller writes as text keeps the text where it names nothing,
because the error or the refusal belongs to the operation and comes when the sequencer reaches it (R303, R308). -/

namespace Sys2Proof

/-- A chip operand as it arrives (R91): one of the five chips, or an identifier that is none of them. -/
inductive ChipArg where
  | chip (c : Chip)
  | bad (id : Text)
deriving DecidableEq, Repr

/-- A field operand as it arrives (R110, R111): a control-word field, a status field, or a name that is neither. -/
inductive FieldArg where
  | cw (f : CwField)
  | sw (g : SwField)
  | bad (id : Text)
deriving DecidableEq, Repr

/-- A trigger-mode operand as it arrives (R260): one of the three modes, or another text. -/
inductive ModeArg where
  | mode (m : TrigMode)
  | bad (id : Text)
deriving DecidableEq, Repr

/-- A configuration blob as the caller hands it over (R108, R305): its bytes, or the failure to read them. -/
inductive Blob where
  | bytes (bs : List Byte)
  | unreadable
deriving DecidableEq, Repr

/-- A duration operand as it arrives (R121, D30): microseconds, or a text that is no such number. -/
inductive Duration where
  | micros (d : Nat)
  | bad (id : Text)
deriving DecidableEq, Repr

/-- The instructions. Addresses and codes that the caller writes are integers, so that values out of range reach the check that
rejects them (R113). -/
inductive Instr where
  /-- FRAME.W: the write frame of address `a` with the value bits `v` (R192). -/
  | frameW (a : BitVec 7) (v : Word)
  /-- FRAME.R: the read frame of address `a` with the dummy bits `d` (R193). -/
  | frameR (a : BitVec 7) (d : Word)
  /-- OPEN (R280). -/
  | openDev
  /-- CAT.SIGLEN a (R131). -/
  | catSiglen (a : Int)
  /-- CAT.MASK a (R132). -/
  | catMask (a : Int)
  /-- CAT.LAYOUT a (R133). -/
  | catLayout (a : Int)
  /-- CAT.PACK a, [x…] (R135). -/
  | catPack (a : Int) (xs : List Nat)
  /-- CAT.UNPACK a, v (R136). -/
  | catUnpack (a : Int) (v : Word)
  /-- CW.READ f (R155). -/
  | cwRead (f : FieldArg)
  /-- CW.ASSIGN f, v (R152). -/
  | cwAssign (f : FieldArg) (v : Int)
  /-- CW.SET f, chip (R153). -/
  | cwSet (f : FieldArg) (c : ChipArg)
  /-- CW.CLEAR f, chip (R154). -/
  | cwClear (f : FieldArg) (c : ChipArg)
  /-- SW.READ g (R160). -/
  | swRead (f : FieldArg)
  /-- SPI.XFER [b…] (R180). -/
  | spiXfer (tx : List Byte)
  /-- CS.ASSERT chip (R186). -/
  | csAssert (c : ChipArg)
  /-- CS.DEASSERT chip (R187). -/
  | csDeassert (c : ChipArg)
  /-- VCMP a, w, r (R222): `a` is a checked address. -/
  | vcmp (a : Nat) (w r : Word)
  /-- WRV chip, a, [v0, v1, v2, v3] (R224). -/
  | wrv (c : ChipArg) (a : Int) (vb : List Byte)
  /-- SETCLK code (R250). -/
  | setClk (code : Int)
  /-- RESET chip, d (R255). -/
  | reset (c : ChipArg) (d : Duration)
  /-- SETTRIG mode (R260). -/
  | setTrig (m : ModeArg)
  /-- RDERR (R265). -/
  | rdErr
  /-- RDTEMP (R266). -/
  | rdTemp
  /-- PROG chip, blob (R270). -/
  | prog (c : ChipArg) (b : Blob)
  /-- SLEEP d (R285). -/
  | sleep (d : Duration)
deriving DecidableEq, Repr

/-- One line of a program (R121): the operation, and the name its result gets in `r <- OP …`. -/
structure Line where
  dest : Option Text
  op   : Instr
deriving DecidableEq, Repr

/-- A program (R121): one operation a line, each as the caller wrote it, or the five bytes of a frame. -/
abbrev Program := List Text

end Sys2Proof
end

