-- ==== Sys2Proof/WellFormed.lean ====
section
/-! DEFINITION. Sys2Proof/WellFormed.lean: which terms of `Instr` stand for an operation that the caller can write (R113,
R121, R222) or a frame that is no reserved one (R112). -/

namespace Sys2Proof

/-- The bytes of a text written out as characters. -/
def ascii (cs : List Char) : Text := cs.map fun c => BitVec.ofNat 8 c.toNat

/-- A byte that ends a word: white space. -/
def isSpace (b : Byte) : Bool := b == 0x20#8 || b == 0x09#8 || b == 0x0A#8 || b == 0x0D#8

/-- A byte that may stand in a word: no white space and none of `,` `;` `[` `]`. -/
def isWordByte (b : Byte) : Bool :=
  !isSpace b && b != 0x2C#8 && b != 0x3B#8 && b != 0x5B#8 && b != 0x5D#8

/-- A word: at least one byte, each a word byte. -/
def isWord (w : Text) : Bool := w != [] && w.all isWordByte

/-- The identifiers of the five chips (R91). -/
def chipId : Chip → Text
  | .A => ascii ['A']
  | .B => ascii ['B']
  | .C => ascii ['C']
  | .D => ascii ['D']
  | .All => ascii ['A', 'l', 'l']

/-- The names of the control-word fields (R110). -/
def cwName : CwField → Text
  | .hold => ascii ['h', 'o', 'l', 'd']
  | .reset => ascii ['r', 'e', 's', 'e', 't']
  | .cs => ascii ['c', 's']
  | .sysclk => ascii ['s', 'y', 's', 'c', 'l', 'k']

/-- The names of the status fields (R111). -/
def swName : SwField → Text
  | .err => ascii ['e', 'r', 'r']
  | .tempA => ascii ['t', 'e', 'm', 'p', 'A']
  | .tempB => ascii ['t', 'e', 'm', 'p', 'B']
  | .tempC => ascii ['t', 'e', 'm', 'p', 'C']
  | .tempD => ascii ['t', 'e', 'm', 'p', 'D']

/-- The names of the trigger modes (R120). -/
def modeName : TrigMode → Text
  | .off => ascii ['O', 'F', 'F']
  | .hz1 => ascii ['1', 'H', 'Z']
  | .khz1 => ascii ['1', 'K', 'H', 'Z']

/-- Whether the chip operand is a recognized value (R90, R91): `All`, and the chips that are there (R7 `NCHIP`). -/
def Chip.recognized (g : Cfg) : Chip → Bool
  | .A => g.hasChip .A
  | .B => g.hasChip .B
  | .C => g.hasChip .C
  | .D => g.hasChip .D
  | .All => true

/-- A chip operand is well formed when a chip is recognized, and when an identifier kept as text is a word and names none. -/
def ChipArg.wf (c : ChipArg) (g : Cfg := Config.cfg) : Bool :=
  match c with
  | .chip c => c.recognized g
  | .bad id => isWord id && [Chip.A, .B, .C, .D, .All].all fun c => id != chipId c || !c.recognized g

/-- A field operand is well formed when a name kept as text is a word and names no field. -/
def FieldArg.wf : FieldArg → Bool
  | .cw _ => true
  | .sw _ => true
  | .bad id =>
    isWord id && ([CwField.hold, .reset, .cs, .sysclk].all fun f => id != cwName f) &&
      [SwField.err, .tempA, .tempB, .tempC, .tempD].all fun f => id != swName f

/-- A mode operand is well formed when a text is a word and names no mode. -/
def ModeArg.wf : ModeArg → Bool
  | .mode _ => true
  | .bad id => isWord id && [TrigMode.off, .hz1, .khz1].all fun m => id != modeName m

/-- A decimal digit. -/
def isDigit (b : Byte) : Bool := 0x30 ≤ b.toNat && b.toNat ≤ 0x39

/-- A duration as R121 writes it: decimal digits, then nothing, `us` or `ms`. -/
def isDurationText (w : Text) : Bool :=
  w.takeWhile isDigit != [] && [[], ascii ['u', 's'], ascii ['m', 's']].contains (w.dropWhile isDigit)

/-- A duration operand is well formed when a text is a word and no duration. -/
def Duration.wf : Duration → Bool
  | .micros _ => true
  | .bad id => isWord id && !isDurationText id

/-- A register address of a chip: 0 to `nreg - 1`, which is 27 (R30, R100). -/
def isRegAddr (a : Nat) (g : Cfg := Config.cfg) : Bool := a < g.nreg

/-- A value of at most `valueBits` bits: every `Word` by default (R7). -/
def isValue (v : Word) (g : Cfg := Config.cfg) : Bool := v.toNat < 2 ^ g.valueBits

/-- Well-formed instructions: a frame names an address 0 to 27 (R112), VCMP has a checked address (R222), a value has at most
`valueBits` bits (R7), and a text operand that names nothing is still a word of R121. -/
def Instr.wf (i : Instr) (g : Cfg := Config.cfg) : Bool :=
  match i with
  | .frameW a v => isRegAddr a.toNat g && isValue v g
  | .frameR a d => isRegAddr a.toNat g && isValue d g
  | .openDev => true
  | .catSiglen _ => true
  | .catMask _ => true
  | .catLayout _ => true
  | .catPack _ _ => true
  | .catUnpack _ v => isValue v g
  | .cwRead f => f.wf
  | .cwAssign f _ => f.wf
  | .cwSet f c => f.wf && c.wf g
  | .cwClear f c => f.wf && c.wf g
  | .swRead f => f.wf
  | .spiXfer _ => true
  | .csAssert c => c.wf g
  | .csDeassert c => c.wf g
  | .vcmp a w r => isRegAddr a g && isValue w g && isValue r g
  | .wrv c _ _ => c.wf g
  | .setClk _ => true
  | .reset c d => c.wf g && d.wf
  | .setTrig m => m.wf
  | .rdErr => true
  | .rdTemp => true
  | .prog c _ => c.wf g
  | .sleep d => d.wf

end Sys2Proof
end

