-- ==== Sys2Proof/Decode.lean ====
section
/-! DEFINITION. Sys2Proof/Decode.lean: the frames of R100 to R103, the text of operations of R120 and R121, the decoder from
bytes to instructions, total and rejecting by name, and after it the encoder. -/

namespace Sys2Proof

/-! ## Bytes of a frame -/

/-- The command byte of R100: the address shifted left by one with the write flag in bit 0, cut to 8 bits. -/
def cmdByte (a : Nat) (write : Bool) : Byte := BitVec.ofNat 8 (a * 2 + write.toNat)

/-- The `k` low bytes of a value, the most significant one first: BE32 of R9 for `k` = 4. -/
def beBytes (k : Nat) (v : Word) : List Byte := (List.range k).map fun i => v.extractLsb' (8 * (k - 1 - i)) 8

/-- The value of a list of bytes, the most significant one first: U32BE of R9 for four bytes. -/
def beValue (bs : List Byte) : Word := bs.foldl (fun v b => (v <<< 8) ||| b.setWidth 32) 0#32

/-- BE32 of R9. -/
def be32 (v : Word) : List Byte :=
  [v.extractLsb' 24 8, v.extractLsb' 16 8, v.extractLsb' 8 8, v.extractLsb' 0 8]

/-- U32BE of R9. -/
def u32be (b0 b1 b2 b3 : Byte) : Word := b0 ++ b1 ++ b2 ++ b3

/-- The register value of value bytes in the order on the wire (R64, `wireByteOrder`); for a list of another length, which no operation
has, 0. -/
def valueOf (g : Cfg) (vb : List Byte) : Word :=
  if vb.length = g.valueBytes then
    match g.wireByteOrder with
    | .big => beValue vb
    | .little => beValue vb.reverse
  else 0#32

/-- The value bytes of a register value in the order on the wire (R64, `wireByteOrder`). -/
def wireBytes (g : Cfg) (v : Word) : List Byte :=
  match g.wireByteOrder with
  | .big => beBytes g.valueBytes v
  | .little => (beBytes g.valueBytes v).reverse

/-- A frame pattern of R103: its 7 address bits, its flag and its value bytes on the wire, by default 32 bits with the most significant
bit first. -/
def frameBytes (a : BitVec 7) (write : Bool) (v : Word) (g : Cfg := Config.cfg) : List Byte :=
  cmdByte a.toNat write :: wireBytes g v

/-! ## Words and lists of a line -/

/-- What a line is made of. -/
inductive Tok where
  | word (w : Text)
  | comma
  | lbrack
  | rbrack
deriving DecidableEq, Repr

/-- The word read so far, if there is one. -/
def flushWord (cur : Text) : List Tok := if cur = [] then [] else [.word cur]

/-- Cuts a line into words, commas and brackets. White space ends a word, and `;` starts a comment (R121). -/
def lex (cur : Text) : Text → List Tok
  | [] => flushWord cur
  | b :: bs =>
    if b = 0x3B#8 then flushWord cur
    else if isSpace b then flushWord cur ++ lex [] bs
    else if b = 0x2C#8 then flushWord cur ++ .comma :: lex [] bs
    else if b = 0x5B#8 then flushWord cur ++ .lbrack :: lex [] bs
    else if b = 0x5D#8 then flushWord cur ++ .rbrack :: lex [] bs
    else lex (cur ++ [b]) bs

/-- An operand as written: a word, or a list of words in brackets. -/
inductive Arg where
  | word (w : Text)
  | list (ws : List Text)
deriving DecidableEq, Repr

/-- Where the operand reader stands. -/
inductive ArgPos where
  /-- An operand must follow. -/
  | operand
  /-- A comma or the end must follow. -/
  | separator
  /-- Just after `[`. -/
  | opened
  /-- Inside a list, a word must follow. -/
  | item (ws : List Text)
  /-- Inside a list, a comma or `]` must follow. -/
  | between (ws : List Text)

/-- Reads comma-separated operands (R121). -/
def parseArgs : ArgPos → List Tok → Option (List Arg)
  | .separator, [] => some []
  | .separator, .comma :: ts => parseArgs .operand ts
  | .operand, .word w :: ts => (parseArgs .separator ts).map (Arg.word w :: ·)
  | .operand, .lbrack :: ts => parseArgs .opened ts
  | .opened, .rbrack :: ts => (parseArgs .separator ts).map (Arg.list [] :: ·)
  | .opened, .word w :: ts => parseArgs (.between [w]) ts
  | .item ws, .word w :: ts => parseArgs (.between (ws ++ [w])) ts
  | .between ws, .comma :: ts => parseArgs (.item ws) ts
  | .between ws, .rbrack :: ts => (parseArgs .separator ts).map (Arg.list ws :: ·)
  | _, _ => none

/-- The operands of an operation: none, or a comma-separated sequence. -/
def operands : List Tok → Option (List Arg)
  | [] => some []
  | ts => parseArgs .operand ts

/-! ## Numbers -/

/-- The value of a decimal digit. -/
def decDigit (b : Byte) : Option Nat :=
  if 0x30 ≤ b.toNat ∧ b.toNat ≤ 0x39 then some (b.toNat - 0x30) else none

/-- The value of a hexadecimal digit. -/
def hexDigit (b : Byte) : Option Nat :=
  if 0x30 ≤ b.toNat ∧ b.toNat ≤ 0x39 then some (b.toNat - 0x30)
  else if 0x41 ≤ b.toNat ∧ b.toNat ≤ 0x46 then some (b.toNat - 0x41 + 10)
  else if 0x61 ≤ b.toNat ∧ b.toNat ≤ 0x66 then some (b.toNat - 0x61 + 10)
  else none

/-- The number that a run of digits stands for, after the digits that gave `acc`. -/
def digitsValue (base : Nat) (digit : Byte → Option Nat) (acc : Nat) : Text → Option Nat
  | [] => some acc
  | b :: bs =>
    match digit b with
    | some d => digitsValue base digit (acc * base + d) bs
    | none => none

/-- A decimal number with at least one digit. -/
def parseDec (w : Text) : Option Nat := if w = [] then none else digitsValue 10 decDigit 0 w

/-- A natural number: decimal, or hexadecimal after `0x` (R121). -/
def parseNat : Text → Option Nat
  | 0x30#8 :: 0x78#8 :: h :: hs => digitsValue 16 hexDigit 0 (h :: hs)
  | w => parseDec w

/-- The integer of a natural number's reader, with a minus sign allowed before it. -/
def signed (read : Text → Option Nat) : Text → Option Int
  | 0x2D#8 :: w => (read w).map fun n => -(n : Int)
  | w => (read w).map fun n => (n : Int)

/-- An integer (R121, R130). -/
def parseInt (w : Text) : Option Int := signed parseNat w

/-- The microseconds of a time unit. -/
def TimeUnit.micros : TimeUnit → Nat
  | .micro => 1
  | .milli => 1000

/-- The microseconds that a duration's unit suffix stands for (R121); without one the unit is `durationUnit` of R7. -/
def unitFactor (g : Cfg) (u : Text) : Option Nat :=
  if u = [] then some g.durationUnit.micros
  else if u = ascii ['u', 's'] then some 1
  else if u = ascii ['m', 's'] then some 1000
  else none

/-- A duration in microseconds: a decimal number with an optional `us` or `ms` (R121, D30). -/
def parseDuration (w : Text) (g : Cfg := Config.cfg) : Duration :=
  match parseDec (w.takeWhile isDigit), unitFactor g (w.dropWhile isDigit) with
  | some n, some k => .micros (n * k)
  | _, _ => .bad w

/-- A number that fits in `n` bits. -/
def parseBits (n : Nat) (w : Text) : Option (BitVec n) :=
  match parseNat w with
  | some v => if v < 2 ^ n then some (BitVec.ofNat n v) else none
  | none => none

/-- A register value: a number that fits in `valueBits` bits, 32 by default (R109). -/
def parseValue (w : Text) (g : Cfg := Config.cfg) : Option Word :=
  match parseNat w with
  | some v => if v < 2 ^ g.valueBits then some (BitVec.ofNat 32 v) else none
  | none => none

/-- Every element, or nothing if one has none. -/
def allSome {α β : Type} (f : α → Option β) : List α → Option (List β)
  | [] => some []
  | x :: xs =>
    match f x, allSome f xs with
    | some y, some ys => some (y :: ys)
    | _, _ => none

/-! ## Operands -/

/-- A chip operand (R91): exactly the five identifiers, case-sensitive; under a configuration with fewer chips, those of the chips
that are there and `All`. -/
def parseChip (w : Text) (g : Cfg := Config.cfg) : ChipArg :=
  if w = chipId .A ∧ Chip.recognized g .A then .chip .A
  else if w = chipId .B ∧ Chip.recognized g .B then .chip .B
  else if w = chipId .C ∧ Chip.recognized g .C then .chip .C
  else if w = chipId .D ∧ Chip.recognized g .D then .chip .D
  else if w = chipId .All ∧ Chip.recognized g .All then .chip .All
  else .bad w

/-- A field operand (R110, R111). -/
def parseField (w : Text) : FieldArg :=
  if w = cwName .hold then .cw .hold
  else if w = cwName .reset then .cw .reset
  else if w = cwName .cs then .cw .cs
  else if w = cwName .sysclk then .cw .sysclk
  else if w = swName .err then .sw .err
  else if w = swName .tempA then .sw .tempA
  else if w = swName .tempB then .sw .tempB
  else if w = swName .tempC then .sw .tempC
  else if w = swName .tempD then .sw .tempD
  else .bad w

/-- A trigger mode (R120, R260). -/
def parseMode (w : Text) : ModeArg :=
  if w = modeName .off then .mode .off
  else if w = modeName .hz1 then .mode .hz1
  else if w = modeName .khz1 then .mode .khz1
  else .bad w

/-- The word that stands for a blob whose reading failed (R305). -/
def unreadableId : Text := ascii ['U', 'N', 'R', 'E', 'A', 'D', 'A', 'B', 'L', 'E']

/-- A checked address (R222). -/
def parseRegAddr (w : Text) (g : Cfg := Config.cfg) : Option Nat :=
  match parseNat w with
  | some a => if isRegAddr a g then some a else none
  | none => none

/-! ## Operations -/

/-- Which operation a mnemonic of R120 names. -/
inductive Mnem where
  | openDev | catSiglen | catMask | catLayout | catPack | catUnpack | cwRead | cwAssign | cwSet | cwClear | swRead | spiXfer
  | csAssert | csDeassert | vcmp | wrv | setClk | reset | setTrig | rdErr | rdTemp | prog | sleep
deriving DecidableEq, Repr

/-- The mnemonics of R120, letter for letter. -/
def Mnem.text : Mnem → Text
  | .openDev => ascii ['O', 'P', 'E', 'N']
  | .catSiglen => ascii ['C', 'A', 'T', '.', 'S', 'I', 'G', 'L', 'E', 'N']
  | .catMask => ascii ['C', 'A', 'T', '.', 'M', 'A', 'S', 'K']
  | .catLayout => ascii ['C', 'A', 'T', '.', 'L', 'A', 'Y', 'O', 'U', 'T']
  | .catPack => ascii ['C', 'A', 'T', '.', 'P', 'A', 'C', 'K']
  | .catUnpack => ascii ['C', 'A', 'T', '.', 'U', 'N', 'P', 'A', 'C', 'K']
  | .cwRead => ascii ['C', 'W', '.', 'R', 'E', 'A', 'D']
  | .cwAssign => ascii ['C', 'W', '.', 'A', 'S', 'S', 'I', 'G', 'N']
  | .cwSet => ascii ['C', 'W', '.', 'S', 'E', 'T']
  | .cwClear => ascii ['C', 'W', '.', 'C', 'L', 'E', 'A', 'R']
  | .swRead => ascii ['S', 'W', '.', 'R', 'E', 'A', 'D']
  | .spiXfer => ascii ['S', 'P', 'I', '.', 'X', 'F', 'E', 'R']
  | .csAssert => ascii ['C', 'S', '.', 'A', 'S', 'S', 'E', 'R', 'T']
  | .csDeassert => ascii ['C', 'S', '.', 'D', 'E', 'A', 'S', 'S', 'E', 'R', 'T']
  | .vcmp => ascii ['V', 'C', 'M', 'P']
  | .wrv => ascii ['W', 'R', 'V']
  | .setClk => ascii ['S', 'E', 'T', 'C', 'L', 'K']
  | .reset => ascii ['R', 'E', 'S', 'E', 'T']
  | .setTrig => ascii ['S', 'E', 'T', 'T', 'R', 'I', 'G']
  | .rdErr => ascii ['R', 'D', 'E', 'R', 'R']
  | .rdTemp => ascii ['R', 'D', 'T', 'E', 'M', 'P']
  | .prog => ascii ['P', 'R', 'O', 'G']
  | .sleep => ascii ['S', 'L', 'E', 'E', 'P']

/-- Every mnemonic. -/
def Mnem.all : List Mnem :=
  [.openDev, .catSiglen, .catMask, .catLayout, .catPack, .catUnpack, .cwRead, .cwAssign, .cwSet, .cwClear, .swRead] ++
    [.spiXfer, .csAssert, .csDeassert, .vcmp, .wrv, .setClk, .reset, .setTrig, .rdErr, .rdTemp, .prog, .sleep]

/-- The operation that a word names. -/
def parseMnem (w : Text) : Option Mnem := Mnem.all.find? fun m => m.text == w

/-- The instruction that a mnemonic and its operands stand for; none if the operands do not have its form (R113, R120). R121 does not
say whether a name given by `r <- OP` may stand as an operand of a later operation: no operand form here reads one, so a name where a
number or a list must stand is an operand of the wrong form (DESIGN CHOICE, notes/assumptions/5.md). -/
def build (k : Mnem) (args : List Arg) (g : Cfg := Config.cfg) : Option Instr :=
  match k, args with
  | .openDev, [] => some .openDev
  | .catSiglen, [.word a] => (parseInt a).map .catSiglen
  | .catMask, [.word a] => (parseInt a).map .catMask
  | .catLayout, [.word a] => (parseInt a).map .catLayout
  | .catPack, [.word a, .list xs] => (parseInt a).bind fun a => (allSome parseNat xs).map (.catPack a)
  | .catUnpack, [.word a, .word v] => (parseInt a).bind fun a => (parseValue v g).map (.catUnpack a)
  | .cwRead, [.word f] => some (.cwRead (parseField f))
  | .cwAssign, [.word f, .word v] => (parseInt v).map (.cwAssign (parseField f))
  | .cwSet, [.word f, .word c] => some (.cwSet (parseField f) (parseChip c g))
  | .cwClear, [.word f, .word c] => some (.cwClear (parseField f) (parseChip c g))
  | .swRead, [.word f] => some (.swRead (parseField f))
  | .spiXfer, [.list bs] => (allSome (parseBits 8) bs).map .spiXfer
  | .csAssert, [.word c] => some (.csAssert (parseChip c g))
  | .csDeassert, [.word c] => some (.csDeassert (parseChip c g))
  | .vcmp, [.word a, .word w, .word r] =>
    (parseRegAddr a g).bind fun a => (parseValue w g).bind fun w => (parseValue r g).map (.vcmp a w)
  | .wrv, [.word c, .word a, .list vb] =>
    (parseInt a).bind fun a => (allSome (parseBits 8) vb).map (.wrv (parseChip c g) a)
  | .setClk, [.word v] => (parseInt v).map .setClk
  | .reset, [.word c, .word d] => some (.reset (parseChip c g) (parseDuration d g))
  | .setTrig, [.word m] => some (.setTrig (parseMode m))
  | .rdErr, [] => some .rdErr
  | .rdTemp, [] => some .rdTemp
  | .prog, [.word c, .list bs] => (allSome (parseBits 8) bs).map fun bs => .prog (parseChip c g) (.bytes bs)
  | .prog, [.word c, .word w] => if w = unreadableId then some (.prog (parseChip c g) .unreadable) else none
  | .sleep, [.word d] => some (.sleep (parseDuration d g))
  | _, _ => none

/-! ## The decoder -/

/-- Why bytes stand for no operation. -/
inductive DecodeError where
  /-- Nothing but white space and a comment. -/
  | emptyLine
  /-- The first word is no mnemonic of R120. -/
  | unknownMnemonic (w : Text)
  /-- The line does not begin with a word, or its brackets and commas do not match. -/
  | badShape
  /-- The operands are not of the operation's form: their number, a number that is none, a byte or a value too wide. -/
  | badOperands (m : Mnem)
  /-- The bytes of a frame that name a reserved address and are no text of an operation (R112). -/
  | reservedFrame
deriving DecidableEq, Repr

/-- The operation after an optional `r <-` (R121). -/
def parseOp (dest : Option Text) (ts : List Tok) (g : Cfg := Config.cfg) : Except DecodeError Line :=
  match ts with
  | [] => .error .emptyLine
  | .word m :: ts =>
    match parseMnem m, operands ts with
    | none, _ => .error (.unknownMnemonic m)
    | some _, none => .error .badShape
    | some k, some args =>
      match build k args g with
      | some i => .ok ⟨dest, i⟩
      | none => .error (.badOperands k)
  | _ => .error .badShape

/-- The assignment arrow of `r <- OP …`. -/
def arrow : Text := ascii ['<', '-']

/-- A line of a program from its words. -/
def parseLine (ts : List Tok) (g : Cfg := Config.cfg) : Except DecodeError Line :=
  match ts with
  | .word r :: .word e :: .word m :: ts =>
    if e = arrow then parseOp (some r) (.word m :: ts) g else parseOp none (.word r :: .word e :: .word m :: ts) g
  | ts => parseOp none ts g

/-- A frame: `frameLen` bytes, five by default, whose first names a register address, 0 to 27 by default (R103, R112). Bytes that
begin so are a frame, also where they could be read as text (DESIGN CHOICE, notes/assumptions/4.md). With the 28 addresses of the
machine no mnemonic begins with such a byte, but white space, digits and commas do, so the text lost is an indented `OPEN`. A
configuration with more addresses (R7's NREG) has more such bytes, letters among them from 33 addresses on: with 42 or more, the five
bytes `RDERR` are FRAME.R of address 41. -/
def decodeFrame (bs : List Byte) (g : Cfg := Config.cfg) : Option Instr :=
  match bs with
  | [] => none
  | c :: vb =>
    if vb.length + 1 = g.frameLen ∧ isRegAddr (c.extractLsb' 1 7).toNat g then
      if c.getLsbD 0 then some (.frameW (c.extractLsb' 1 7) (valueOf g vb)) else some (.frameR (c.extractLsb' 1 7) (valueOf g vb))
    else none

/-- The decoder: the line that any bytes stand for, or the reason why they stand for none. -/
def decode (bs : List Byte) (g : Cfg := Config.cfg) : Except DecodeError Line :=
  match decodeFrame bs g with
  | some i => .ok ⟨none, i⟩
  | none =>
    match parseLine (lex [] bs) g with
    | .error (.unknownMnemonic w) => if bs.length = g.frameLen then .error .reservedFrame else .error (.unknownMnemonic w)
    | r => r

/-- The bytes of a table word, the first byte on the wire being the most significant one, as the table numbers a frame. -/
def tableBytes (nbits w : Nat) : List Byte :=
  (List.range ((nbits + 7) / 8)).reverse.map fun k => BitVec.ofNat 8 (w / 2 ^ (8 * k))

/-- The instruction that the decoder reads from a table word of `nbits` bits. -/
def decodeTableWord (nbits w : Nat) : Option Instr :=
  match decode (tableBytes nbits w) with
  | .ok l => if l.dest = none then some l.op else none
  | .error _ => none

/-! ## Programs as text -/

/-- Cuts a text at its line ends. -/
def splitLines (cur : Text) : Text → List Text
  | [] => [cur]
  | b :: bs => if b = 0x0A#8 then cur :: splitLines [] bs else splitLines (cur ++ [b]) bs

/-- A program from its text (R121): one operation a line, without the white space before it; lines of white space and comments
hold none. -/
def Program.ofText (t : Text) : Program :=
  ((splitLines [] t).map fun l => l.dropWhile isSpace).filter fun l => !(lex [] l).isEmpty

/-! ## The encoder -/

/-- The decimal digits of a number; `fuel` is more than the number of digits. -/
def decDigits : Nat → Nat → Text
  | 0, _ => []
  | fuel + 1, n =>
    if n < 10 then [BitVec.ofNat 8 (0x30 + n)] else decDigits fuel (n / 10) ++ [BitVec.ofNat 8 (0x30 + n % 10)]

/-- A natural number in decimal. -/
def natText (n : Nat) : Text := decDigits (n + 1) n

/-- An integer in decimal. -/
def intText : Int → Text
  | .ofNat n => natText n
  | .negSucc n => 0x2D#8 :: natText (n + 1)

/-- The words of a list, separated by commas. -/
def commaSep : List Text → Text
  | [] => []
  | [w] => w
  | w :: ws => w ++ 0x2C#8 :: 0x20#8 :: commaSep ws

/-- An operand as text. -/
def Arg.text : Arg → Text
  | .word w => w
  | .list ws => 0x5B#8 :: commaSep ws ++ [0x5D#8]

/-- The text of a chip operand. -/
def ChipArg.text : ChipArg → Text
  | .chip c => chipId c
  | .bad id => id

/-- The text of a field operand. -/
def FieldArg.text : FieldArg → Text
  | .cw f => cwName f
  | .sw f => swName f
  | .bad id => id

/-- The text of a mode operand. -/
def ModeArg.text : ModeArg → Text
  | .mode m => modeName m
  | .bad id => id

/-- The text of a duration operand: with its unit, so that it says the same under every `durationUnit`. -/
def Duration.text : Duration → Text
  | .micros n => natText n ++ ascii ['u', 's']
  | .bad id => id

/-- A byte list as an operand. -/
def bytesArg (bs : List Byte) : Arg := .list (bs.map fun b => natText b.toNat)

/-- The operand that stands for a blob. -/
def Blob.arg : Blob → Arg
  | .bytes bs => bytesArg bs
  | .unreadable => .word unreadableId

/-- The mnemonic and the operands of an operation; a frame has none, being five bytes. -/
def Instr.parts : Instr → Option (Mnem × List Arg)
  | .frameW _ _ => none
  | .frameR _ _ => none
  | .openDev => some (.openDev, [])
  | .catSiglen a => some (.catSiglen, [.word (intText a)])
  | .catMask a => some (.catMask, [.word (intText a)])
  | .catLayout a => some (.catLayout, [.word (intText a)])
  | .catPack a xs => some (.catPack, [.word (intText a), .list (xs.map natText)])
  | .catUnpack a v => some (.catUnpack, [.word (intText a), .word (natText v.toNat)])
  | .cwRead f => some (.cwRead, [.word f.text])
  | .cwAssign f v => some (.cwAssign, [.word f.text, .word (intText v)])
  | .cwSet f c => some (.cwSet, [.word f.text, .word c.text])
  | .cwClear f c => some (.cwClear, [.word f.text, .word c.text])
  | .swRead f => some (.swRead, [.word f.text])
  | .spiXfer tx => some (.spiXfer, [bytesArg tx])
  | .csAssert c => some (.csAssert, [.word c.text])
  | .csDeassert c => some (.csDeassert, [.word c.text])
  | .vcmp a w r => some (.vcmp, [.word (natText a), .word (natText w.toNat), .word (natText r.toNat)])
  | .wrv c a vb => some (.wrv, [.word c.text, .word (intText a), bytesArg vb])
  | .setClk v => some (.setClk, [.word (intText v)])
  | .reset c d => some (.reset, [.word c.text, .word d.text])
  | .setTrig m => some (.setTrig, [.word m.text])
  | .rdErr => some (.rdErr, [])
  | .rdTemp => some (.rdTemp, [])
  | .prog c b => some (.prog, [.word c.text, b.arg])
  | .sleep d => some (.sleep, [.word d.text])

/-- A mnemonic and its operands as text: the mnemonic, one space, the operands separated by commas (R121). -/
def opText (m : Mnem) (args : List Arg) : Text :=
  if args = [] then m.text else m.text ++ 0x20#8 :: commaSep (args.map Arg.text)

/-- The encoder: the bytes of a frame, or the text of an operation. -/
def encode (i : Instr) (g : Cfg := Config.cfg) : List Byte :=
  match i with
  | .frameW a v => frameBytes a true v g
  | .frameR a d => frameBytes a false d g
  | i =>
    match i.parts with
    | some (m, args) => opText m args
    | none => []

end Sys2Proof
end

