-- ==== Sys2Proof/Machine/State.lean ====
section
/-! DEFINITION. Sys2Proof/Machine/State.lean: everything the spec gives the machine, as plain data, the reasons a run stops, and
the state at power-on. -/

namespace Sys2Proof.Machine

/-- The register file of one chip (R30): the known registers, address rising, none listed twice. An address that is not listed
is `Unknown`. -/
abbrev RegFile := List (Nat × Word)

/-- The lifecycle of a chip (R36). -/
inductive Life where
  | heldInReset
  | released
  | configured
  | triggering (m : TrigMode)
  | unknown
deriving DecidableEq, Repr, Inhabited

/-- Which part of construction failed (R300, code 1). -/
inductive OpenCause where
  | mmap
  | spi
deriving DecidableEq, Repr

/-- The architectural errors of R300 with their information. -/
inductive ArchError where
  | deviceOpen (cause : OpenCause)
  | unknownRegister (addr : Int)
  | invalidChip (id : Text)
  | writeVerification (chip : Chip) (addr : Int)
  | configBlob
deriving DecidableEq, Repr

/-- The model faults of R312. -/
inductive FaultKind where
  /-- R313: a window access or a transfer failed. -/
  | ioFault
  /-- R314: a transfer while a selected chip is held in reset. -/
  | spiWhileInReset
deriving DecidableEq, Repr

/-- The reasons of a refusal (R315, R113). -/
inductive Reason where
  /-- An operation before a successful OPEN (D35). -/
  | notAdmitted
  /-- An OPEN that is not the first operation of the first program (D35). -/
  | openNotFirst
  /-- A window access other than the three of R68 (D4, D29); no operation of R120 makes one. -/
  | windowAccess
  /-- An assign value or a divisor code outside 0 to 15 (D8). -/
  | valueOutOfRange
  /-- A write to a status-word field (R162). -/
  | statusWrite
  /-- A field name that the operation does not have (R113). -/
  | unknownField
  /-- A transfer of 0 bytes (D24). -/
  | emptyTransfer
  /-- A verified write of other than 4 value bytes, the length of a value (D42). -/
  | valueNotFourBytes
  /-- A trigger mode outside the three (D7). -/
  | unknownMode
  /-- CAT.PACK with a wrong field count or an oversize field value (D38). -/
  | packMismatch
  /-- A duration that is no natural number (D30). -/
  | durationNotNatural
  /-- VCMP with an address that is not checked (R222). -/
  | uncheckedAddress
  /-- A second caller thread (D40). -/
  | secondCaller
  /-- A line that stands for no operation (R120). -/
  | undecodable
deriving DecidableEq, Repr

/-- The outcome record of R43. -/
inductive RunOutcome where
  | running
  | done
  | error (e : ArchError)
  | fault (f : FaultKind)
  | refused (r : Reason)
deriving DecidableEq, Repr

/-- The result value of an operation that ends done (R14, R120). -/
inductive Result where
  | none
  /-- CAT.SIGLEN: a bit length. -/
  | length (n : Nat)
  /-- CAT.MASK, CAT.PACK, FRAME.R: a register value. -/
  | word (v : Word)
  /-- CAT.LAYOUT. -/
  | layout (l : Layout)
  /-- CAT.UNPACK: one value a field. -/
  | fields (xs : List Nat)
  /-- CW.READ: a 4-bit field. -/
  | nibble (v : BitVec 4)
  /-- SW.READ, RDERR: a 4- or 12-bit field, zero-extended. -/
  | status (v : WinVal)
  /-- SPI.XFER: the bytes received. -/
  | bytes (rx : List Byte)
  /-- VCMP: the match bit. -/
  | verdict (ok : Bool)
  /-- RDTEMP: the readings of the chips A to D, zero-extended. -/
  | temps (a b c d : WinVal)
deriving DecidableEq, Repr

/-- The link that answers transfers (R189): the noisy one, of which nothing is known; the ideal one (R197); and the simulated
ones of R198. `flip j` is HighFlipLink(j) for an address whose significant length is at most `j`, and LowFlipLink(j) for the
other addresses. -/
inductive Link where
  | free
  | ideal
  | echo
  | flip (j : Nat)
deriving DecidableEq, Repr

/-- What drives the status words (R79, R160): unknown hardware, or a fixed pair of words as in the test vectors. -/
inductive StatusSource where
  | free
  | fixed (sw0 sw1 : WinVal)
deriving DecidableEq, Repr

/-- A run-time I/O failure that the environment has drawn (R313): how many more accesses complete before one fails, and
whether the failed one takes effect (U29). -/
structure IoFailure where
  after : Nat
  took  : Bool
deriving DecidableEq, Repr

/-- The environment of the block (R12, R13) as far as its answers are draws. These fields are the model's own. -/
structure Env where
  link         : Link
  status       : StatusSource
  ioFailure    : Option IoFailure
  /-- Whether OPEN will succeed in mapping the window (R280). -/
  canMap       : Bool
  /-- Whether OPEN will succeed in opening the SPI bus (R280). -/
  canOpenSpi   : Bool
  /-- Whether a second caller thread has invoked an operation (R318). -/
  secondCaller : Bool
deriving DecidableEq, Repr

/-- The block's state: everything the spec gives the machine. The caller's program and the configuration are no part of it: they are
parameters of its step, `stepOf` (R49). -/
structure Block where
  /-- The control word (R20): its `cwBits` low bits, 16 by default. -/
  cw       : CwWord
  /-- The register file of each chip (R30). -/
  regs     : PerChip RegFile
  /-- The lifecycle of each chip (R36). -/
  life     : PerChip Life
  /-- The window mapping is established (R35). -/
  mapOK    : Bool
  /-- The SPI bus is open (R35). -/
  spiOK    : Bool
  /-- The index of the current operation in the program (R40). -/
  pc       : Nat
  /-- The attempt counter `k` of R41, inside a verified write. -/
  attempt  : Option Nat
  /-- The programming cursor `cur_chip`, `i` of R42, inside programFromBlob. -/
  cursor   : Option (PhysChip × Nat)
  /-- The outcome record (R43). -/
  outcome  : RunOutcome
  /-- The event history (R44). -/
  hist     : List Event
  /-- The result value of the last operation that ended done (R14). -/
  result   : Result
  /-- The results that the caller has named with `r <- OP …` (R121), the last one first. -/
  names    : List (Text × Result)
  /-- The environment's draws. -/
  env      : Env
deriving DecidableEq, Repr

/-- The block together with its caller, whose programs are the parameters of the block's step (R49). The host's `step` is a function
of one argument, so what `stepOf` takes as parameters stands here beside the block, and the host's `withFetchWord` sets it
(notes/assumptions/3.md). -/
structure State extends Block where
  /-- The caller's program: the parameter `p` of `stepOf`. -/
  program  : Program
  /-- The programs the caller will run after this one (R310): the parameter `later` of `stepOf`. -/
  pending  : List Program
deriving DecidableEq, Repr

/-- The model faults of R312 with the final state of the run (R15). -/
inductive Fault where
  /-- R313, raised by any window access or transfer whose failure the environment has drawn. Safe: the model stops where the
  hardware may go on. -/
  | ioFault (left : State)
  /-- R314, raised by a transfer while a selected chip is held in reset. Safe: doc00 calls the behaviour undefined. -/
  | spiWhileInReset (left : State)
deriving DecidableEq, Repr

/-- Why the model gives an operation no meaning. -/
inductive Refusal where
  /-- Raised by an arm of `exec` whose instruction has no meaning yet; none is left. Safe. -/
  | notModelled (mnemonic : String)
  /-- R315, raised by an operation whose reason stands in the spec's table of refusals, and by `step` for a line that stands for
  no operation; `left` is the final state of the run (R15). Safe: the model stops. -/
  | declined (why : Reason) (left : State)
deriving DecidableEq, Repr

/-- The environment at power-on: no failure drawn, OPEN will succeed, one caller, and nothing known of link and status words
(DESIGN CHOICE, notes/assumptions/2.md). -/
def Env.initial : Env :=
  { link := .free, status := .free, ioFailure := none, canMap := true, canOpenSpi := true, secondCaller := false }

/-- The state at power-on with the launch input `cw0`, of which CW has `cwBits` bits (R48, R340). A chip whose reset bit is 1 is held in
reset. -/
def State.powerOn (cw0 : CwWord) (g : Cfg := Config.cfg) : State where
  cw := cw0 &&& lowMask g.cwBits
  regs := ⟨[], [], [], []⟩
  life := PerChip.ofFn fun p =>
    if g.hasChip p && (cw0 &&& lowMask g.cwBits).getLsbD (g.cwLo .reset + chipIdx p) then .heldInReset else .unknown
  mapOK := false
  spiOK := false
  pc := 0
  attempt := none
  cursor := none
  outcome := .running
  hist := []
  result := .none
  names := []
  program := []
  pending := []
  env := Env.initial

/-- The machine right after reset: power-on with the launch input 0 (DESIGN CHOICE, notes/assumptions/1.md). -/
def State.reset : State := State.powerOn 0#32

end Sys2Proof.Machine
end

