-- ==== Sys2Proof/Machine/Operands.lean ====
section
/-! DEFINITION. Sys2Proof/Machine/Operands.lean: what the operands of R109 stand for: chip masks, control-word fields, register
addresses and masks, layouts, frames, and the answers of the link. -/

namespace Sys2Proof.Machine

/-! ## Chips and masks -/

/-- The physical chips that a chip operand names, in the order A, B, C, D (R90, R270). -/
def named : Chip → List PhysChip
  | .A => [.A]
  | .B => [.B]
  | .C => [.C]
  | .D => [.D]
  | .All => [.A, .B, .C, .D]

/-- The physical chips that a chip operand covers: those it names that are there, by default all of them (R7 `NCHIP`). -/
def members (g : Cfg) (c : Chip) : List PhysChip := (named c).filter g.hasChip

/-- A physical chip as a chip operand. -/
def asChip : PhysChip → Chip
  | .A => .A
  | .B => .B
  | .C => .C
  | .D => .D

/-- The table of R95. -/
def maskTable : Chip → BitVec 4
  | .A => 0b0001#4
  | .B => 0b0010#4
  | .C => 0b0100#4
  | .D => 0b1000#4
  | .All => 0b1111#4

/-- The assert mask of R95: the table's bits of the chips that are there, by default all of them (R7 `NCHIP`). -/
def amask (g : Cfg) (c : Chip) : BitVec 4 := maskTable c &&& lowMask g.nchip

/-- The deassert mask of R96. -/
def dmask (g : Cfg) (c : Chip) : BitVec 4 := ~~~ amask g c

/-! ## The control word -/

/-- CW.f of R21. -/
def getField (g : Cfg) (w : CwWord) (f : CwField) : BitVec 4 := (w >>> g.cwLo f).setWidth 4

/-- The control word with value `v` in field `f` (R21). -/
def putField (g : Cfg) (w : CwWord) (f : CwField) (v : BitVec 4) : CwWord :=
  (w &&& ~~~ (0xF#32 <<< g.cwLo f)) ||| (v.setWidth 32 <<< g.cwLo f)

/-- Whether chip `p` is there and held in reset under control word `w` (R23). -/
def resetBit (g : Cfg) (w : CwWord) (p : PhysChip) : Bool := g.hasChip p && (getField g w .reset).getLsbD (chipIdx p)

/-- Whether chip `p` is there and selected under control word `w` (R24). -/
def isSelected (g : Cfg) (w : CwWord) (p : PhysChip) : Bool :=
  g.hasChip p &&
    match g.csPolarity with
    | .selectOnOne => (getField g w .cs).getLsbD (chipIdx p)
    | .selectOnZero => !(getField g w .cs).getLsbD (chipIdx p)

/-- The set of selected chips of R24, in chip order. -/
def selected (g : Cfg) (w : CwWord) : List PhysChip := PhysChip.all.filter (isSelected g w)

/-- The chip-select lines of R47, active-low: bit i is 0 exactly when chip i is selected. -/
def csN (g : Cfg) (w : CwWord) : BitVec 4 :=
  match g.csPolarity with
  | .selectOnOne => ~~~ getField g w .cs
  | .selectOnZero => getField g w .cs

/-- The reset lines of R47. -/
def rstLines (g : Cfg) (w : CwWord) : BitVec 4 := getField g w .reset

/-- The trigger-gating lines of R47. -/
def holdLines (g : Cfg) (w : CwWord) : BitVec 4 := getField g w .hold

/-- The clock-divider lines of R47. -/
def sysclkDiv (g : Cfg) (w : CwWord) : BitVec 4 := getField g w .sysclk

/-! ## Status words -/

/-- The value of a status field in a status word (R160). -/
def getStatus (g : Cfg) (f : SwField) (w : WinVal) : WinVal := (w >>> (g.swPos f).lo) &&& lowMask (g.swPos f).width

/-! ## Register addresses and values -/

/-- SIGLEN of R31. -/
def sigLen (g : Cfg) (a : Nat) : Nat := g.siglens.getD a 0

/-- The significant mask of R132. -/
def sigMask (g : Cfg) (a : Nat) : Word := lowMask (sigLen g a)

/-- checkAddr of R130: the address as a register number, if it is one. -/
def checkAddr (g : Cfg) (a : Int) : Option Nat :=
  if 0 ≤ a ∧ a < (g.nreg : Int) then some a.toNat else none

/-- The write frame of R220. -/
def writeFrame (a : Nat) (vb : List Byte) : List Byte := cmdByte a true :: vb

/-- The read frame of R221. -/
def readFrame (g : Cfg) (a : Nat) : List Byte := cmdByte a false :: List.replicate g.valueBytes g.dummyByte

/-- Chunk `i` of a blob (R108). -/
def chunkAt (g : Cfg) (bs : List Byte) (i : Nat) : List Byte := (bs.drop (g.valueBytes * i)).take g.valueBytes

/-- How many chunks a blob has (R108). -/
def chunkCount (g : Cfg) (bs : List Byte) : Nat := bs.length / g.valueBytes

/-- The chunks of a blob, each as long as a value, 4 bytes by default; a shorter rest is dropped (R108). -/
def chunks (g : Cfg) (bs : List Byte) : List (List Byte) := (List.range (chunkCount g bs)).map (chunkAt g bs)

/-! ## Layouts -/

/-- CAT.PACK of R135: the packed value from bit `pos` on, if there is one value a field and each fits. -/
def pack (pos : Nat) : Layout → List Nat → Option Word
  | [], [] => some 0#32
  | (_, w) :: l, x :: xs =>
    if x < 2 ^ w then (pack (pos + w) l xs).map fun v => (BitVec.ofNat 32 x <<< pos) ||| v else none
  | _, _ => none

/-- CAT.UNPACK of R136: the field values from bit `pos` on. -/
def unpack (pos : Nat) (l : Layout) (v : Word) : List Nat :=
  match l with
  | [] => []
  | (_, w) :: l => ((v >>> pos) &&& lowMask w).toNat :: unpack (pos + w) l v

/-! ## The register file -/

/-- The register at an address: unlisted registers are unknown (R30). -/
def RegFile.read : RegFile → Nat → RegVal
  | [], _ => .unknown
  | (b, v) :: r, a => if a = b then .known v else RegFile.read r a

/-- The register file with a known value at an address, addresses still rising. -/
def RegFile.write : RegFile → Nat → Word → RegFile
  | [], a, v => [(a, v)]
  | (b, u) :: r, a, v =>
    if a < b then (a, v) :: (b, u) :: r
    else if a = b then (a, v) :: r
    else (b, u) :: RegFile.write r a v

/-! ## The link -/

/-- Whether an event is a well-formed write frame to address `a` that chip `p` received, and the value it carried. -/
def sentValue (g : Cfg) (p : PhysChip) (a : Nat) : Event → Option Word
  | .xfer sel (c :: vb) _ =>
    if p ∈ sel ∧ c = cmdByte a true ∧ vb.length = g.valueBytes then some (valueOf g vb) else none
  | _ => none

/-- lastW of R198: the value of the last write frame to register `a` of chip `p`. -/
def lastWrite (g : Cfg) (hist : List Event) (p : PhysChip) (a : Nat) : Option Word :=
  hist.reverse.findSome? (sentValue g p a)

/-- Link.latch of R189: what chip `p` stores on a write of `v` at `a`, cut to the significant bits. Every link but the noisy
one latches what was sent (R197, R198). -/
def Link.latch (g : Cfg) (k : Link) (hist : List Event) (p : PhysChip) (a : Nat) (v : Word) : Word :=
  (match k with
    | .free => Config.linkLatch hist p a v
    | .ideal | .echo | .flip _ => v) &&& sigMask g a

/-- The value of the last write to the register, or an unconstrained one (R198). -/
def echoed (g : Cfg) (hist : List Event) (p : PhysChip) (a : Nat) (r : RegVal) : Word :=
  match lastWrite g hist p a with
  | some v => v
  | none => Config.linkData hist p a r

/-- Link.data of R189: what chip `p` returns on a read of `a` whose register holds `r`. The ideal link constrains only the
significant bits of a known register (R197). -/
def Link.data (g : Cfg) (k : Link) (hist : List Event) (p : PhysChip) (a : Nat) (r : RegVal) : Word :=
  match k with
  | .free => Config.linkData hist p a r
  | .ideal =>
    match r with
    | .known y => (Config.linkData hist p a r &&& ~~~ sigMask g a) ||| (y &&& sigMask g a)
    | .unknown => Config.linkData hist p a r
  | .echo => echoed g hist p a r
  | .flip j =>
    match lastWrite g hist p a with
    | some v => v ^^^ (1#32 <<< j)
    | none => Config.linkData hist p a r

/-- Link.junk of R189: any other received byte. The simulated links return 0x00 (R198). -/
def Link.junk (k : Link) (hist : List Event) (sel : List PhysChip) (tx : List Byte) (j : Nat) : Byte :=
  match k with
  | .free | .ideal => Config.linkJunk hist sel tx j
  | .echo | .flip _ => 0x00#8

/-- A whole response of junk bytes. -/
def junkBytes (k : Link) (hist : List Event) (sel : List PhysChip) (tx : List Byte) : List Byte :=
  (List.range tx.length).map (Link.junk k hist sel tx)

/-- The value a status word shows at a read (R160): its `swBits` bits. -/
def StatusSource.word (g : Cfg) (k : StatusSource) (hist : List Event) (w : SwWord) : WinVal :=
  (match k, w with
    | .free, w => Config.statusDraw hist w
    | .fixed v _, .sw0 => v
    | .fixed _ v, .sw1 => v) &&& lowMask g.swBits

end Sys2Proof.Machine
end

