-- ==== Sys2Proof/Machine/Flags.lean ====
section
/-! DEFINITION. Sys2Proof/Machine/Flags.lean: the block has no condition codes (R45). Here are the verify outcome `match` of
R222, a transient value, and the error flags that the block only reads (R29). -/

namespace Sys2Proof.Machine

/-- The masked compare of R222. -/
def vcmp (g : Cfg) (a : Nat) (w r : Word) : Bool := (w &&& sigMask g a) == (r &&& sigMask g a)

/-- The error flag of a chip in an error mask (R29). -/
def errFlag (mask : WinVal) (p : PhysChip) : Bool := mask.getLsbD (chipIdx p)

end Sys2Proof.Machine
end

