-- ==== Sys2Proof/Machine/Ops.lean ====
section
/-! DEFINITION. Sys2Proof/Machine/Ops.lean: the primitives of R10, the shared operations that the meanings are made of, taking an
architectural error (R309) and the return from one by a new program (R310). -/

namespace Sys2Proof.Machine

/-! ## Outcomes inside an operation (R14) -/

/-- Why an operation does not end done. -/
inductive Stop where
  | error (e : ArchError)
  | fault (f : FaultKind)
  | refuse (r : Reason)
deriving DecidableEq, Repr

/-- A step of an operation: a value and the state after it, or a stop and the state it leaves. -/
inductive Res (α : Type) where
  | ok (v : α) (s : State)
  | stop (why : Stop) (s : State)

/-- Goes on with the value and the state of a step that did not stop. -/
def Res.bind {α β : Type} (m : Res α) (k : α → State → Res β) : Res β :=
  match m with
  | .ok v s => k v s
  | .stop why s => .stop why s

/-! ## Reads and updates of the state -/

/-- R[p][a] of R30. -/
def State.reg (s : State) (p : PhysChip) (a : Nat) : RegVal := RegFile.read (s.regs.get p) a

/-- Appends an event to the history (R44). -/
def State.record (s : State) (e : Event) : State := { s with hist := s.hist ++ [e] }

/-- The state with a control word written: the chip-side outputs follow it (R157), and a chip whose reset bit rises or falls
changes its lifecycle and loses its registers as R290 says. -/
def State.writeCw (g : Cfg) (s : State) (w : CwWord) : State :=
  { s with
    cw := w
    life := PerChip.ofFn fun p =>
      if resetBit g w p && !resetBit g s.cw p then .heldInReset
      else if resetBit g s.cw p && !resetBit g w p && s.life.get p == .heldInReset then .released
      else s.life.get p
    regs := PerChip.ofFn fun p => if resetBit g w p && !resetBit g s.cw p then [] else s.regs.get p }

/-- Every chip in `ps` latches a write of `v` at address `a`, each with its own draw (R192, R194). -/
def State.latch (g : Cfg) (s : State) (ps : List PhysChip) (a : Nat) (v : Word) : State :=
  { s with
    regs := PerChip.ofFn fun p =>
      if p ∈ ps then RegFile.write (s.regs.get p) a (Link.latch g s.env.link s.hist p a v) else s.regs.get p }

/-- Every register of the chips in `ps` becomes unknown (R33, R196). -/
def State.forget (s : State) (ps : List PhysChip) : State :=
  { s with regs := PerChip.ofFn fun p => if p ∈ ps then [] else s.regs.get p }

/-- The lifecycle of the chips in `ps` becomes `l`. -/
def State.setLife (s : State) (ps : List PhysChip) (l : Life) : State :=
  { s with life := PerChip.ofFn fun p => if p ∈ ps then l else s.life.get p }

/-! ## The end of an operation -/

/-- The state after an operation that ended done (R14, R40): `pc` advances by 1, and the attempt counter and the cursor are gone
(R41, R42). The step says whether the program goes on (`State.proceed`). -/
def State.complete (s : State) (r : Result) : State :=
  { s with pc := s.pc + 1, attempt := none, cursor := none, result := r, outcome := .done }

/-- The state after an operation that ended otherwise (R14, R40): the outcome records how, `pc` does not advance, and the attempt
counter and the cursor do not survive the operation (R41, R42). -/
def State.halt (s : State) (o : RunOutcome) : State := { s with attempt := none, cursor := none, outcome := o }

/-- The code of an error (R300, decision D32). -/
def ArchError.code : ArchError → Nat
  | .deviceOpen _ => 1
  | .unknownRegister _ => 2
  | .invalidChip _ => 3
  | .writeVerification _ _ => 4
  | .configBlob => 5

/-- Taking an architectural error (R309): the outcome records it, `pc` does not advance, every effect of the earlier steps
stays, and there is no vector and no handler. -/
def State.raise (s : State) (e : ArchError) : State := s.halt (.error e)

/-- The return (R310): the caller runs the next of its programs from the state left, with `pc` 0 and outcome `running`. -/
def State.startProgram (s : State) (p : Program) (ps : List Program) : State :=
  { s with pc := 0, outcome := .running, program := p, pending := ps }

/-- A model fault with the final state of the run. -/
def FaultKind.leaving : FaultKind → State → Fault
  | .ioFault, s => .ioFault s
  | .spiWhileInReset, s => .spiWhileInReset s

/-- The fault that ends an operation, with its final state (R312). -/
def State.fail (s : State) (f : FaultKind) : Fault := f.leaving (s.halt (.fault f))

/-- The refusal with its final state (R315). -/
def State.decline (s : State) (r : Reason) : Refusal := .declined r (s.halt (.refused r))

/-- The outcome of a whole operation (R14). -/
def finish : Res Result → Host.Outcome State Fault Refusal
  | .ok r s => .next (s.complete r)
  | .stop (.error e) s => .next (s.raise e)
  | .stop (.fault f) s => .fault (s.fail f)
  | .stop (.refuse r) s => .refused (s.decline r)

/-- Admission (R308 (1), R317): no operation proceeds without an instance. -/
def admitted (s : State) (body : State → Res Result) : Host.Outcome State Fault Refusal :=
  finish (if s.mapOK && s.spiOK then body s else .stop (.refuse .notAdmitted) s)

/-- The chip operand of an operation (R303): an identifier that names no chip raises InvalidChipError. -/
def withChip (c : ChipArg) (s : State) (k : Chip → Res Result) : Res Result :=
  match c with
  | .chip c => k c
  | .bad id => .stop (.error (.invalidChip id)) s

/-- The register address of an operation (R130): an address outside 0 to 27 raises UnknownRegisterError. -/
def withAddr {α : Type} (g : Cfg) (a : Int) (s : State) (k : Nat → Res α) : Res α :=
  match checkAddr g a with
  | some n => k n
  | none => .stop (.error (.unknownRegister a)) s

/-- The control-word field of a write (R110, R162): status fields are read-only, and other names are refused (R113). -/
def withCwField (f : FieldArg) (s : State) (k : CwField → Res Result) : Res Result :=
  match f with
  | .cw f => k f
  | .sw _ => .stop (.refuse .statusWrite) s
  | .bad _ => .stop (.refuse .unknownField) s

/-- A 4-bit operand (R109): a value outside 0 to 15 is refused and not truncated (D8). -/
def withNibble (v : Int) (s : State) (k : BitVec 4 → Res Result) : Res Result :=
  if 0 ≤ v ∧ v ≤ 15 then k (BitVec.ofInt 4 v) else .stop (.refuse .valueOutOfRange) s

/-- A duration operand (R113): what is no natural number of microseconds is refused (D30). -/
def withDuration (d : Duration) (s : State) (k : Nat → Res Result) : Res Result :=
  match d with
  | .micros n => k n
  | .bad _ => .stop (.refuse .durationNotNatural) s

/-! ## The window -/

/-- The registers of the window (R61). -/
inductive WinReg where
  | cw
  | sw (w : SwWord)
deriving DecidableEq, Repr

/-- The byte offset of a register of the window (R61). -/
def WinReg.offset (g : Cfg) : WinReg → Nat
  | .cw => g.cwOffset
  | .sw w => g.swOffset w

/-- The width in bytes of a register of the window (R61, R68): 2 for CW and 4 for a status word by default. -/
def WinReg.width (g : Cfg) : WinReg → Nat
  | .cw => g.cwBytes
  | .sw _ => g.swBytes

/-- The register that an access of `n` bytes at offset `off` reaches: the accesses of R68 and no other. -/
def windowReg (g : Cfg) (off n : Nat) : Option WinReg :=
  if off = g.cwOffset ∧ n = g.cwBytes then some .cw
  else if g.hasWord .sw0 ∧ off = g.sw0Offset ∧ n = g.swBytes then some (.sw .sw0)
  else if g.hasWord .sw1 ∧ off = g.sw1Offset ∧ n = g.swBytes then some (.sw .sw1)
  else none

/-- The value a register of the window shows: CW as last written (R74), a status word as drawn (R160). -/
def State.windowValue (g : Cfg) (s : State) : WinReg → WinVal
  | .cw => s.cw.setWidth 64
  | .sw w => s.env.status.word g s.hist w

/-- One byte of the window as `mmioByteOrder` lays CW out (R66). The other bytes hold no state. -/
def State.windowByte (g : Cfg) (s : State) (off : Nat) : Option Byte :=
  if g.cwOffset ≤ off ∧ off < g.cwOffset + g.cwBytes then
    some (match g.mmioByteOrder with
      | .big => s.cw.extractLsb' (8 * (g.cwOffset + g.cwBytes - 1 - off)) 8
      | .little => s.cw.extractLsb' (8 * (off - g.cwOffset)) 8)
  else none

/-- The environment's draw for one access (R313): whether it fails, and then whether it takes effect, and the state with the
draw made. -/
def drawIo (g : Cfg) (s : State) : Option Bool × State :=
  if g.ioMayFail then
    match s.env.ioFailure with
    | none => (none, s)
    | some ⟨0, took⟩ => (some took, s)
    | some ⟨n + 1, took⟩ => (none, { s with env := { s.env with ioFailure := some ⟨n, took⟩ } })
  else (none, s)

/-- The read of a whole register of the window: MemRead of R10 at its offset and width. -/
def readReg (g : Cfg) (r : WinReg) (s : State) : Res WinVal :=
  match drawIo g s with
  | (some _, s) => .stop (.fault .ioFault) s
  | (none, s) => .ok (s.windowValue g r) (s.record (.mmioR (r.offset g) (r.width g) (s.windowValue g r)))

/-- The write of CW: MemWrite of R10 at its offset and width. A failed write leaves the old or the new value (U29). -/
def writeCwReg (g : Cfg) (v : CwWord) (s : State) : Res Unit :=
  match drawIo g s with
  | (some took, s) => .stop (.fault .ioFault) (if took then s.writeCw g v else s)
  | (none, s) => .ok () ((s.writeCw g v).record (.mmioW (WinReg.cw.offset g) (WinReg.cw.width g) (v.setWidth 64)))

/-- The read of the second status word by an operation that reads both (R266); with one status word (R7) there is nothing to read. -/
def readSecond (g : Cfg) (s : State) : Res WinVal := if g.hasWord .sw1 then readReg g (.sw .sw1) s else .ok 0#64 s

/-- MemRead of R10 at any offset and width: the reads of R68, and every other one refused (R61, R67, R69). The operations name
their registers and read them by `readReg`. -/
def memRead (g : Cfg) (off n : Nat) (s : State) : Res WinVal :=
  match windowReg g off n with
  | some r => readReg g r s
  | none => .stop (.refuse .windowAccess) s

/-- MemWrite of R10 at any offset and width, `v` cut to CW's bits: only CW can be written (R68, R162). The operations write it by
`writeCwReg`. -/
def memWrite (g : Cfg) (off n : Nat) (v : WinVal) (s : State) : Res Unit :=
  match windowReg g off n with
  | some .cw => writeCwReg g (v.setWidth 32 &&& lowMask g.cwBits) s
  | _ => .stop (.refuse .windowAccess) s

/-- fieldWrite of R151: one read and then one write of the whole word, `f` mapping the field's old value to its new one. -/
def fieldWrite (g : Cfg) (f : CwField) (h : BitVec 4 → BitVec 4) (s : State) : Res Unit :=
  (readReg g .cw s).bind fun v s =>
    let w := v.setWidth 32
    writeCwReg g (putField g w f (h (getField g w f))) s

/-- CW.ASSIGN's write (R152). -/
def cwAssign (g : Cfg) (f : CwField) (v : BitVec 4) (s : State) : Res Unit := fieldWrite g f (fun _ => v) s

/-- CW.SET's write (R153). -/
def cwSet (g : Cfg) (f : CwField) (c : Chip) (s : State) : Res Unit := fieldWrite g f (fun old => old ||| amask g c) s

/-- CW.CLEAR's write (R154). -/
def cwClear (g : Cfg) (f : CwField) (c : Chip) (s : State) : Res Unit := fieldWrite g f (fun old => old &&& dmask g c) s

/-- CS.ASSERT (R186). -/
def csAssert (g : Cfg) (c : Chip) (s : State) : Res Unit :=
  match g.csPolarity with
  | .selectOnOne => cwSet g .cs c s
  | .selectOnZero => cwClear g .cs c s

/-- CS.DEASSERT (R187). -/
def csDeassert (g : Cfg) (c : Chip) (s : State) : Res Unit :=
  match g.csPolarity with
  | .selectOnOne => cwClear g .cs c s
  | .selectOnZero => cwSet g .cs c s

/-- SW.READ of one field (R160). -/
def swRead (g : Cfg) (f : SwField) (s : State) : Res WinVal :=
  (readReg g (.sw (g.swPos f).word) s).bind fun w s => .ok (getStatus g f w) s

/-- Sleep of R10 and R285: the promise of a wall-clock delay, as an event. -/
def sleep (d : Nat) (s : State) : Res Unit := .ok () (s.record (.sleep d))

/-! ## The SPI bus and the chips -/

/-- The address that a frame's command byte names (R100). -/
def frameAddr (c : Byte) : Nat := (c >>> 1).toNat

/-- ChipResponse of R190 once no selected chip is held in reset: the bytes received and the state with the chips' registers as
the transfer leaves them, for no listener (R191), an ill-formed frame (R196), more than one listener (R194), a write frame
(R192) and a read frame (R193). -/
def chipResponse (g : Cfg) (sel : List PhysChip) (tx : List Byte) (s : State) : List Byte × State :=
  let junk := junkBytes s.env.link s.hist sel tx
  match sel, tx with
  | [], _ => (junk, s)
  | _ :: _, [] => (junk, s.forget sel)
  | p :: more, c :: vb =>
    if vb.length + 1 ≠ g.frameLen ∨ g.nreg ≤ frameAddr c then (junk, s.forget sel)
    else if c.getLsbD 0 then (junk, s.latch g sel (frameAddr c) (valueOf g vb))
    else
      match more with
      | _ :: _ => (junk, s)
      | [] =>
        (Link.junk s.env.link s.hist sel tx 0 ::
          wireBytes g (Link.data g s.env.link s.hist p (frameAddr c) (s.reg p (frameAddr c))), s)

/-- SpiXfer of R10 and R180. A transfer whose failure is drawn faults with IoFault and may or may not have reached the chips
(R313, U29); one that finds a selected chip in reset faults with SpiWhileInReset (R195). What a failed transfer that took effect
leaves while a selected chip is held in reset, no rule says: the model lets it reach the selected chips that are released
(DESIGN CHOICE, notes/assumptions/21.md). -/
def spiXfer (g : Cfg) (tx : List Byte) (s : State) : Res (List Byte) :=
  if tx = [] then .stop (.refuse .emptyTransfer) s
  else
    let sel := selected g s.cw
    let held := sel.any (resetBit g s.cw)
    match drawIo g s with
    | (some took, s) =>
      .stop (.fault .ioFault) (if took then (chipResponse g (sel.filter fun p => !resetBit g s.cw p) tx s).2 else s)
    | (none, s) =>
      if held then .stop (.fault .spiWhileInReset) s
      else
        let r := chipResponse g sel tx s
        .ok r.1 (r.2.record (.xfer sel tx r.1))

/-- The value of a read frame's response: the first byte is discarded (R102, R221). -/
def readBack (g : Cfg) (rx : List Byte) : Word := valueOf g (rx.drop 1)

/-- A transfer between a chip-select assert and the following deassert. -/
def framed (g : Cfg) (c : Chip) (tx : List Byte) (s : State) : Res (List Byte) :=
  (csAssert g c s).bind fun _ s => (spiXfer g tx s).bind fun rx s => (csDeassert g c s).bind fun _ s => .ok rx s

/-- One attempt of a verified write (R224): write frame, read frame, masked compare. -/
def attemptWrite (g : Cfg) (c : Chip) (a : Nat) (vb : List Byte) (s : State) : Res Bool :=
  (framed g c (writeFrame a vb) s).bind fun _ s =>
    (framed g c (readFrame g a) s).bind fun rx s => .ok (vcmp g a (valueOf g vb) (readBack g rx)) s

/-- The attempts of a verified write (R224, R41): attempt number `k`, then `left` more. A match ends the loop; after the last
mismatch WriteVerificationError is raised. -/
def attempts (g : Cfg) (c : Chip) (a : Nat) (vb : List Byte) (k : Nat) : Nat → State → Res Unit
  | left, s =>
    (attemptWrite g c a vb { s with attempt := some k }).bind fun ok s =>
      if ok then .ok () { s with attempt := none }
      else
        match left with
        | 0 => .stop (.error (.writeVerification c a)) s
        | left + 1 => attempts g c a vb (k + 1) left s

/-- WRV's steps on checked value bytes (R224): the address check, then at most MAX_ATTEMPTS attempts. -/
def verifiedWrite (g : Cfg) (c : Chip) (a : Int) (vb : List Byte) (s : State) : Res Unit :=
  withAddr g a s fun a => attempts g c a vb 1 (g.maxAttempts - 1) s

/-- The verified writes of one chip (R270): chunk number `i` and the later ones, at rising addresses. -/
def programChunks (g : Cfg) (p : PhysChip) (i : Nat) : List (List Byte) → State → Res Unit
  | [], s => .ok () s
  | vb :: rest, s =>
    (verifiedWrite g (asChip p) i vb { s with cursor := some (p, i) }).bind fun _ s => programChunks g p (i + 1) rest s

/-- The lifecycle of a chip that `PROG` has completed (R290): a chip held in reset stays so. -/
def State.configured (s : State) (p : PhysChip) : State :=
  if s.life.get p = .heldInReset then s else s.setLife [p] .configured

/-- The chips of a `PROG`, one after the other (R270, R271). -/
def programChips (g : Cfg) (cs : List (List Byte)) : List PhysChip → State → Res Unit
  | [], s => .ok () s
  | p :: ps, s => (programChunks g p 0 cs s).bind fun _ s => programChips g cs ps (s.configured p)

/-- The two phases of a reset pulse around its sleep (R255). -/
def pulseReset (g : Cfg) (c : Chip) (d : Nat) (s : State) : Res Unit :=
  (cwSet g .reset c s).bind fun _ s =>
    (sleep d ((s.forget (members g c)).setLife (members g c) .heldInReset)).bind fun _ s =>
      (cwClear g .reset c s).bind fun _ s => .ok () (s.setLife (members g c) .released)

/-- The lifecycle of a chip after the trigger mode is set (R290). -/
def triggered (m : TrigMode) (l : Life) : Life :=
  match m, l with
  | .off, .triggering _ => .configured
  | .off, l => l
  | m, .configured => .triggering m
  | m, .triggering _ => .triggering m
  | _, l => l

/-- The lifecycle of every chip after the trigger mode is set: one mode for all chips at once (R37). -/
def State.setTrigger (s : State) (m : TrigMode) : State :=
  { s with life := PerChip.ofFn fun p => triggered m (s.life.get p) }

/-! ## A step -/

/-- The result of an operation under the caller's name for it (R121): only an operation that ended done has one. Whether `r <- OP` may
name an operation whose result R120 gives as `—` (SETCLK, WRV, OPEN and others), no rule says: the model accepts the line and binds the
name to `Result.none` (DESIGN CHOICE, notes/assumptions/5.md). -/
def State.nameResult (s : State) : Option Text → State
  | none => s
  | some r => if s.outcome = .done then { s with names := (r, s.result) :: s.names } else s

/-- After an operation that ended done the run goes on while a line of the program follows (R43, R345). -/
def State.proceed (s : State) (p : Program) : State :=
  if s.outcome = .done ∧ s.pc < p.length then { s with outcome := .running } else s

/-- What a step adds to the next state of an operation. -/
def afterLine (dest : Option Text) (p : Program) : Host.Outcome State Fault Refusal → Host.Outcome State Fault Refusal
  | .next s => .next ((s.nameResult dest).proceed p)
  | .fault f => .fault f
  | .refused r => .refused r

/-- Whether a new program may start (R310, R301): not after a failed construction. -/
def State.mayRestart (s : State) : Bool :=
  match s.outcome with
  | .error (.deviceOpen _) => false
  | _ => true

/-- What the block does when its program has ended (R310, R340): the caller's next program starts, and without one the block does
nothing. After a failed construction no operation is admitted (R301). -/
def awaitCaller (later : List Program) (s : State) : Host.Outcome State Fault Refusal :=
  match later with
  | [] => .next s
  | p :: ps => if s.mayRestart then .next (s.startProgram p ps) else .refused (s.decline .notAdmitted)

/-- One step with everything R49 makes a parameter of it: the configuration, and the caller's program with the programs after it;
`run` is the meaning of an operation. A run that a fault or a refusal has ended stays as it is (R43, R312, R315); a second caller is
refused (R318); an ended program waits for its caller (R310); otherwise the line at `pc` is decoded and run, and its result named
(R40, R121). -/
def runStep (g : Cfg) (run : Instr → State → Host.Outcome State Fault Refusal) (p : Program) (later : List Program) (s : State) :
    Host.Outcome State Fault Refusal :=
  match s.outcome with
  | .fault f => .fault (f.leaving s)
  | .refused r => .refused (.declined r s)
  | .done => if s.env.secondCaller then .refused (s.decline .secondCaller) else awaitCaller later s
  | .error _ => if s.env.secondCaller then .refused (s.decline .secondCaller) else awaitCaller later s
  | .running =>
    if s.env.secondCaller then .refused (s.decline .secondCaller)
    else
      match p[s.pc]? with
      | none => awaitCaller later s
      | some line =>
        match decode line g with
        | .ok l => afterLine l.dest p (run l.op s)
        | .error _ => .refused (s.decline .undecodable)

/-- The state with a program loaded from outside and the sequencer at its start. -/
def State.load (s : State) (p : Program) : State := { s with pc := 0, outcome := .running, program := p }

/-- The program with `line` at index `k`, filled up with empty lines where it is shorter. -/
def placeLine (p : Program) (k : Nat) (line : Text) : Program :=
  p.take k ++ List.replicate (k - p.length) [] ++ line :: p.drop (k + 1)

end Sys2Proof.Machine
end

