-- ==== Sys2Proof/Machine/Catalog.lean ====
section
/-! DEFINITION. Sys2Proof/Machine/Catalog.lean: the register catalog (R130 to R137). No operation here records an event or touches
the window or the bus (R137). -/

namespace Sys2Proof.Machine

/-- CAT.SIGLEN a (R131). -/
def execCatSiglen (a : Int) (s : State) (g : Cfg := Config.cfg) : Host.Outcome State Fault Refusal :=
  admitted s fun s => withAddr g a s fun n => .ok (.length (sigLen g n)) s

/-- CAT.MASK a (R132). -/
def execCatMask (a : Int) (s : State) (g : Cfg := Config.cfg) : Host.Outcome State Fault Refusal :=
  admitted s fun s => withAddr g a s fun n => .ok (.word (sigMask g n)) s

/-- CAT.LAYOUT a (R133). -/
def execCatLayout (a : Int) (s : State) (g : Cfg := Config.cfg) : Host.Outcome State Fault Refusal :=
  admitted s fun s => withAddr g a s fun n => .ok (.layout (g.layout n)) s

/-- CAT.PACK a, [x…] (R135): refused on a wrong field count or an oversize field value. -/
def execCatPack (a : Int) (xs : List Nat) (s : State) (g : Cfg := Config.cfg) : Host.Outcome State Fault Refusal :=
  admitted s fun s => withAddr g a s fun n =>
    match pack 0 (g.layout n) xs with
    | some v => .ok (.word v) s
    | none => .stop (.refuse .packMismatch) s

/-- CAT.UNPACK a, v (R136). -/
def execCatUnpack (a : Int) (v : Word) (s : State) (g : Cfg := Config.cfg) : Host.Outcome State Fault Refusal :=
  admitted s fun s => withAddr g a s fun n => .ok (.fields (unpack 0 (g.layout n) v)) s

end Sys2Proof.Machine
end

