-- ==== Sys2Proof/Machine/Control.lean ====
section
/-! DEFINITION. Sys2Proof/Machine/Control.lean: the control-region operations (R150 to R162). -/

namespace Sys2Proof.Machine

/-- CW.READ f (R155). -/
def execCwRead (f : FieldArg) (s : State) (g : Cfg := Config.cfg) : Host.Outcome State Fault Refusal :=
  admitted s fun s =>
    match f with
    | .cw f => (readReg g .cw s).bind fun w s => .ok (.nibble (getField g (w.setWidth 32) f)) s
    | .sw _ | .bad _ => .stop (.refuse .unknownField) s

/-- CW.ASSIGN f, v (R152). R308 (4) does not order refusals among themselves: where the field and the value are both refused, the
model names the field's reason (DESIGN CHOICE, notes/assumptions/22.md). -/
def execCwAssign (f : FieldArg) (v : Int) (s : State) (g : Cfg := Config.cfg) : Host.Outcome State Fault Refusal :=
  admitted s fun s => withCwField f s fun f => withNibble v s fun v => (cwAssign g f v s).bind fun _ s => .ok .none s

/-- CW.SET f, chip (R153). -/
def execCwSet (f : FieldArg) (c : ChipArg) (s : State) (g : Cfg := Config.cfg) : Host.Outcome State Fault Refusal :=
  admitted s fun s => withChip c s fun c => withCwField f s fun f => (cwSet g f c s).bind fun _ s => .ok .none s

/-- CW.CLEAR f, chip (R154). -/
def execCwClear (f : FieldArg) (c : ChipArg) (s : State) (g : Cfg := Config.cfg) : Host.Outcome State Fault Refusal :=
  admitted s fun s => withChip c s fun c => withCwField f s fun f => (cwClear g f c s).bind fun _ s => .ok .none s

/-- SW.READ g (R160). -/
def execSwRead (f : FieldArg) (s : State) (g : Cfg := Config.cfg) : Host.Outcome State Fault Refusal :=
  admitted s fun s =>
    match f with
    | .sw f => (swRead g f s).bind fun v s => .ok (.status v) s
    | .cw _ | .bad _ => .stop (.refuse .unknownField) s

end Sys2Proof.Machine
end

