-- ==== Sys2Proof/Machine/Device.lean ====
section
/-! DEFINITION. Sys2Proof/Machine/Device.lean: the device-control operations (R250 to R290). -/

namespace Sys2Proof.Machine

/-- OPEN (R280): the first operation of the first program, refused at any other place (D35). The window is mapped first. It ends
done as every operation does and so leaves `pc` at 1, where R48's column "after construction" has 0 (DEDUCED,
notes/assumptions/23.md). -/
def execOpen (s : State) (_g : Cfg := Config.cfg) : Host.Outcome State Fault Refusal :=
  finish (
    if s.mapOK || s.spiOK || s.pc != 0 || !s.mayRestart then .stop (.refuse .openNotFirst) s
    else if !s.env.canMap then .stop (.error (.deviceOpen .mmap)) s
    else if !s.env.canOpenSpi then .stop (.error (.deviceOpen .spi)) s
    else .ok .none { s with mapOK := true, spiOK := true })

/-- SETCLK code (R250). -/
def execSetClk (code : Int) (s : State) (g : Cfg := Config.cfg) : Host.Outcome State Fault Refusal :=
  admitted s fun s => withNibble code s fun v => (cwAssign g .sysclk v s).bind fun _ s => .ok .none s

/-- RESET chip, d (R255, R256). -/
def execReset (c : ChipArg) (d : Duration) (s : State) (g : Cfg := Config.cfg) : Host.Outcome State Fault Refusal :=
  admitted s fun s => withChip c s fun c => withDuration d s fun d => (pulseReset g c d s).bind fun _ s => .ok .none s

/-- SETTRIG mode (R260). The lifecycle follows where the operation ends done; where its write of CW failed and took effect, `hold` has
the new code and no lifecycle has changed (DESIGN CHOICE, notes/assumptions/24.md). -/
def execSetTrig (m : ModeArg) (s : State) (g : Cfg := Config.cfg) : Host.Outcome State Fault Refusal :=
  admitted s fun s =>
    match m with
    | .mode m => (cwAssign g .hold (g.holdCode m) s).bind fun _ s => .ok .none (s.setTrigger m)
    | .bad _ => .stop (.refuse .unknownMode) s

/-- RDERR (R265). -/
def execRdErr (s : State) (g : Cfg := Config.cfg) : Host.Outcome State Fault Refusal :=
  admitted s fun s => (swRead g .err s).bind fun v s => .ok (.status v) s

/-- RDTEMP (R266): both status words are read, SW0 first, and each reading is taken from the word that holds it. -/
def execRdTemp (s : State) (g : Cfg := Config.cfg) : Host.Outcome State Fault Refusal :=
  admitted s fun s =>
    (readReg g (.sw .sw0) s).bind fun w0 s =>
      (readSecond g s).bind fun w1 s =>
        let reading (f : SwField) : WinVal :=
          getStatus g f (match (g.swPos f).word with | .sw0 => w0 | .sw1 => w1)
        .ok (.temps (reading .tempA) (reading .tempB) (reading .tempC) (reading .tempD)) s

/-- PROG chip, blob (R270): a blob that could not be read raises ConfigBlobError before any access (R305); `All` is four passes,
one chip after the other. -/
def execProg (c : ChipArg) (b : Blob) (s : State) (g : Cfg := Config.cfg) : Host.Outcome State Fault Refusal :=
  admitted s fun s => withChip c s fun c =>
    match b with
    | .unreadable => .stop (.error .configBlob) s
    | .bytes bs =>
      (programChips g (chunks g bs) (members g c) s).bind fun _ s => .ok .none { s with cursor := none }

/-- SLEEP d (R285). -/
def execSleep (d : Duration) (s : State) (_g : Cfg := Config.cfg) : Host.Outcome State Fault Refusal :=
  admitted s fun s => withDuration d s fun d => (sleep d s).bind fun _ s => .ok .none s

end Sys2Proof.Machine
end

