-- ==== Sys2Proof/Machine/Frames.lean ====
section
/-! DEFINITION. Sys2Proof/Machine/Frames.lean: the two frames that the chips decode (R192, R193), as the SPI master sends them to the
chips that are selected. -/

namespace Sys2Proof.Machine

/-- FRAME.W (R192): the chips that listen latch the value; the bytes received are discarded (R101). -/
def execFrameW (a : BitVec 7) (v : Word) (s : State) (g : Cfg := Config.cfg) : Host.Outcome State Fault Refusal :=
  admitted s fun s => (spiXfer g (frameBytes a true v g) s).bind fun _ s => .ok .none s

/-- FRAME.R (R193): the result is the register value in the bytes received after the first (R102). -/
def execFrameR (a : BitVec 7) (d : Word) (s : State) (g : Cfg := Config.cfg) : Host.Outcome State Fault Refusal :=
  admitted s fun s => (spiXfer g (frameBytes a false d g) s).bind fun rx s => .ok (.word (readBack g rx)) s

end Sys2Proof.Machine
end

