-- ==== Sys2Proof/Machine/Spi.lean ====
section
/-! DEFINITION. Sys2Proof/Machine/Spi.lean: the SPI master and the chip-select multiplexer (R180 to R188). -/

namespace Sys2Proof.Machine

/-- SPI.XFER [b…] (R180). -/
def execSpiXfer (tx : List Byte) (s : State) (g : Cfg := Config.cfg) : Host.Outcome State Fault Refusal :=
  admitted s fun s => (spiXfer g tx s).bind fun rx s => .ok (.bytes rx) s

/-- CS.ASSERT chip (R186). -/
def execCsAssert (c : ChipArg) (s : State) (g : Cfg := Config.cfg) : Host.Outcome State Fault Refusal :=
  admitted s fun s => withChip c s fun c => (csAssert g c s).bind fun _ s => .ok .none s

/-- CS.DEASSERT chip (R187). -/
def execCsDeassert (c : ChipArg) (s : State) (g : Cfg := Config.cfg) : Host.Outcome State Fault Refusal :=
  admitted s fun s => withChip c s fun c => (csDeassert g c s).bind fun _ s => .ok .none s

end Sys2Proof.Machine
end

