-- ==== Sys2Proof/Machine/Verify.lean ====
section
/-! DEFINITION. Sys2Proof/Machine/Verify.lean: the masked compare and the verified write (R220 to R229). -/

namespace Sys2Proof.Machine

/-- VCMP a, w, r (R222): `a` is a checked address; the model refuses another (notes/assumptions/9.md). -/
def execVcmp (a : Nat) (w r : Word) (s : State) (g : Cfg := Config.cfg) : Host.Outcome State Fault Refusal :=
  admitted s fun s =>
    if a < g.nreg then .ok (.verdict (vcmp g a w r)) s else .stop (.refuse .uncheckedAddress) s

/-- WRV chip, a, [v0, v1, v2, v3] (R224), its operand checks in the order of R308; the value has 4 bytes, the length of a value. -/
def execWrv (c : ChipArg) (a : Int) (vb : List Byte) (s : State) (g : Cfg := Config.cfg) :
    Host.Outcome State Fault Refusal :=
  admitted s fun s => withChip c s fun c =>
    if vb.length = g.valueBytes then (verifiedWrite g c a vb s).bind fun _ s => .ok .none s
    else .stop (.refuse .valueNotFourBytes) s

end Sys2Proof.Machine
end

