-- ==== Sys2Proof/Machine/Dispatch.lean ====
section
/-! DEFINITION. Sys2Proof/Machine/Dispatch.lean: one arm per instruction, each one call of its meaning. -/

namespace Sys2Proof.Machine

/-- The meaning of an instruction. -/
def exec (i : Instr) (s : State) : Host.Outcome State Fault Refusal :=
  match i with
  | .frameW a v => Sys2Proof.Machine.execFrameW a v s
  | .frameR a d => Sys2Proof.Machine.execFrameR a d s
  | .openDev => Sys2Proof.Machine.execOpen s
  | .catSiglen a => Sys2Proof.Machine.execCatSiglen a s
  | .catMask a => Sys2Proof.Machine.execCatMask a s
  | .catLayout a => Sys2Proof.Machine.execCatLayout a s
  | .catPack a xs => Sys2Proof.Machine.execCatPack a xs s
  | .catUnpack a v => Sys2Proof.Machine.execCatUnpack a v s
  | .cwRead f => Sys2Proof.Machine.execCwRead f s
  | .cwAssign f v => Sys2Proof.Machine.execCwAssign f v s
  | .cwSet f c => Sys2Proof.Machine.execCwSet f c s
  | .cwClear f c => Sys2Proof.Machine.execCwClear f c s
  | .swRead f => Sys2Proof.Machine.execSwRead f s
  | .spiXfer tx => Sys2Proof.Machine.execSpiXfer tx s
  | .csAssert c => Sys2Proof.Machine.execCsAssert c s
  | .csDeassert c => Sys2Proof.Machine.execCsDeassert c s
  | .vcmp a w r => Sys2Proof.Machine.execVcmp a w r s
  | .wrv c a vb => Sys2Proof.Machine.execWrv c a vb s
  | .setClk code => Sys2Proof.Machine.execSetClk code s
  | .reset c d => Sys2Proof.Machine.execReset c d s
  | .setTrig m => Sys2Proof.Machine.execSetTrig m s
  | .rdErr => Sys2Proof.Machine.execRdErr s
  | .rdTemp => Sys2Proof.Machine.execRdTemp s
  | .prog c b => Sys2Proof.Machine.execProg c b s
  | .sleep d => Sys2Proof.Machine.execSleep d s

end Sys2Proof.Machine
end

