-- ==== Sys2Proof/Machine/Step.lean ====
section
/-! DEFINITION. Sys2Proof/Machine/Step.lean: one step of the sequencer, and where the host places an instruction. -/

namespace Sys2Proof.Machine

/-- One step of the machine: `runStep` under its configuration, on the caller's programs that State holds. -/
def step (s : State) : Host.Outcome State Fault Refusal := runStep Config.cfg exec s.program s.pending s

/-- The state with the instruction of a table word as the line that the next step runs: the line stands at `pc`, the run is
open, one caller is there, and the window and the bus are held, because a frame reaches the chips over an open bus (R181). -/
def State.withFetchWord (s : State) (nbits w : Nat) : State :=
  { s with
    program := placeLine s.program s.pc (tableBytes nbits w)
    outcome := .running
    mapOK := true
    spiOK := true
    env := { s.env with secondCaller := false } }

end Sys2Proof.Machine
end

