-- ==== Sys2Proof/Machine/Instance.lean ====
section
/-! DEFINITION. Sys2Proof/Machine/Instance.lean: the machine under any configuration (R7), and the block without its caller, with
the caller's program as a parameter of its step (R49). Laws/Caller.lean proves that `step` is that step on the programs of State, and
that no operation reads or changes them. -/

namespace Sys2Proof.Machine

/-- The meaning of an instruction under configuration `g`. -/
def execOf (g : Cfg) (i : Instr) (s : State) : Host.Outcome State Fault Refusal :=
  match i with
  | .frameW a v => execFrameW a v s g
  | .frameR a d => execFrameR a d s g
  | .openDev => execOpen s g
  | .catSiglen a => execCatSiglen a s g
  | .catMask a => execCatMask a s g
  | .catLayout a => execCatLayout a s g
  | .catPack a xs => execCatPack a xs s g
  | .catUnpack a v => execCatUnpack a v s g
  | .cwRead f => execCwRead f s g
  | .cwAssign f v => execCwAssign f v s g
  | .cwSet f c => execCwSet f c s g
  | .cwClear f c => execCwClear f c s g
  | .swRead f => execSwRead f s g
  | .spiXfer tx => execSpiXfer tx s g
  | .csAssert c => execCsAssert c s g
  | .csDeassert c => execCsDeassert c s g
  | .vcmp a w r => execVcmp a w r s g
  | .wrv c a vb => execWrv c a vb s g
  | .setClk code => execSetClk code s g
  | .reset c d => execReset c d s g
  | .setTrig m => execSetTrig m s g
  | .rdErr => execRdErr s g
  | .rdTemp => execRdTemp s g
  | .prog c b => execProg c b s g
  | .sleep d => execSleep d s g

/-- The state in which a caller runs program `p` on the block, with the programs `later` to run after it. -/
def Block.calledBy (b : Block) (p : Program) (later : List Program) : State := { b with program := p, pending := later }

/-- What a step of the block answers: the block's next state, or the fault or the reason with the block's final state. A refusal
without a final state is that of an instruction that has no meaning; there is none. -/
abbrev BlockOutcome := Host.Outcome Block (FaultKind × Block) (Option (Reason × Block))

/-- A fault with the block's final state alone. -/
def Fault.onBlock : Fault → FaultKind × Block
  | .ioFault s => (.ioFault, s.toBlock)
  | .spiWhileInReset s => (.spiWhileInReset, s.toBlock)

/-- A refusal with the block's final state alone. -/
def Refusal.onBlock : Refusal → Option (Reason × Block)
  | .declined r s => some (r, s.toBlock)
  | _ => none

/-- An outcome without the caller. -/
def onBlock : Host.Outcome State Fault Refusal → BlockOutcome
  | .next s => .next s.toBlock
  | .fault f => .fault f.onBlock
  | .refused r => .refused r.onBlock

/-- One operation on the block under configuration `g` (R49: its operands, a blob and a duration among them, are parameters). -/
def execBlock (g : Cfg) (i : Instr) (b : Block) : BlockOutcome := onBlock (execOf g i (b.calledBy [] []))

/-- One step of the block (R49): the configuration, the caller's program `p` and the programs the caller will run after it are its
parameters, and the block's state holds none of them. -/
def stepOf (g : Cfg) (p : Program) (later : List Program) (b : Block) : BlockOutcome :=
  onBlock (runStep g (execOf g) p later (b.calledBy p later))

end Sys2Proof.Machine
end

