-- ==== Sys2Proof/Safety.lean ====
section
/-! DEFINITION. Sys2Proof/Safety.lean: the words that statements about the machine use: the launch premises of R344, the canonical
form of a register file, the invariant of a run, what an operation that ends done leaves, and the SPI clocking of a history. -/

namespace Sys2Proof.Machine

/-! ## Premises (R344) -/

/-- NoneSelected: no chip is selected. -/
def NoneSelected (g : Cfg) (s : State) : Prop := selected g s.cw = []

/-- Released(p): the chip's reset bit is 0. -/
def Released (g : Cfg) (p : PhysChip) (s : State) : Prop := resetBit g s.cw p = false

/-- IdealLink (R197): a write latches the significant bits of what was sent, and a read of a known register returns its
significant bits. Nothing is said of other bits, of unknown registers or of junk. -/
def IdealLink (g : Cfg) (k : Link) : Prop :=
  (∀ hist p a v, Link.latch g k hist p a v = v &&& sigMask g a) ∧
    ∀ hist p a y, y &&& sigMask g a = y → Link.data g k hist p a (.known y) &&& sigMask g a = y

/-- The state admits operations and no access failure is drawn (R317; R344 NoIoFault). -/
def Ready (s : State) : Prop := s.mapOK = true ∧ s.spiOK = true ∧ s.env.ioFailure = none

/-! ## The register file -/

/-- The canonical form of a register file: addresses strictly rising and inside the register space, values within the
significant bits (R30). Unlisted addresses are unknown, so equal files are equal lists. -/
abbrev RegFile.wf (g : Cfg) (r : RegFile) : Prop :=
  r.Pairwise (fun x y => x.1 < y.1) ∧ ∀ e ∈ r, e.1 < g.nreg ∧ e.2 &&& sigMask g e.1 = e.2

/-! ## The invariant of a run -/

/-- What holds between two steps of a run. -/
structure RunInv (s : State) : Prop where
  /-- Every register file is in its canonical form (R30). -/
  regs      : ∀ p, RegFile.wf Config.cfg (s.regs.get p)
  /-- The control word has no bits but its `cwBits`, which are 16 (R20). -/
  word      : s.cw &&& lowMask Config.cfg.cwBits = s.cw
  /-- A chip's lifecycle says held in reset exactly when its reset bit is 1 (R36, R23). -/
  held      : ∀ p, s.life.get p = .heldInReset ↔ resetBit Config.cfg s.cw p = true
  /-- The registers of a chip held in reset are unknown (R33, R290). -/
  forgotten : ∀ p, resetBit Config.cfg s.cw p = true → s.regs.get p = []
  /-- The trigger mode is one value for all chips (R37). -/
  oneMode   : ∀ p q m m', s.life.get p = .triggering m → s.life.get q = .triggering m' → m = m'
  /-- The attempt counter and the cursor do not survive their operation (R41, R42). -/
  between   : s.attempt = none ∧ s.cursor = none
  /-- The two handles are acquired together (R35, R280). -/
  handles   : s.mapOK = s.spiOK
  /-- Nothing has been accessed before construction (R44, R280). -/
  unopened  : s.mapOK = false → s.hist = []
  /-- The sequencer is at an operation of the program or at its end (R40). -/
  inProgram : s.pc ≤ s.program.length

/-! ## What an operation leaves -/

/-- What every operation that ends done leaves (R14, R40, R44): `pc` one further, its result, its events after the earlier
ones, and the outcome `done`; the handles, the program and the environment stay. -/
structure EndsDone (s t : State) (r : Result) (es : List Event) : Prop where
  pc      : t.pc = s.pc + 1
  result  : t.result = r
  hist    : t.hist = s.hist ++ es
  outcome : t.outcome = .done
  between : t.attempt = none ∧ t.cursor = none
  handles : t.mapOK = s.mapOK ∧ t.spiOK = s.spiOK
  caller  : t.program = s.program ∧ t.pending = s.pending ∧ t.names = s.names
  env     : t.env = s.env

/-- What an operation that ends in an architectural error leaves besides the effects of its earlier steps (R309). -/
structure EndsInError (s t : State) (e : ArchError) (es : List Event) : Prop where
  pc      : t.pc = s.pc
  result  : t.result = s.result
  hist    : t.hist = s.hist ++ es
  outcome : t.outcome = .error e
  between : t.attempt = none ∧ t.cursor = none
  handles : t.mapOK = s.mapOK ∧ t.spiOK = s.spiOK
  caller  : t.program = s.program ∧ t.pending = s.pending ∧ t.names = s.names
  env     : t.env = s.env

/-- No chip's registers or lifecycle changed. -/
def SameChips (s t : State) : Prop := t.regs = s.regs ∧ t.life = s.life

/-- The two events of a control-word write (R151): the read of the old word and the write of the new one. -/
def cwWriteEvents (g : Cfg) (w w' : CwWord) : List Event :=
  [.mmioR g.cwOffset g.cwBytes (w.setWidth 64), .mmioW g.cwOffset g.cwBytes (w'.setWidth 64)]

/-- The control word `w'` has value `v` in field `f`, and its other three fields are those of `w` (R156). -/
def FieldSet (g : Cfg) (w w' : CwWord) (f : CwField) (v : BitVec 4) : Prop :=
  getField g w' f = v ∧ ∀ f', f' ≠ f → getField g w' f' = getField g w f'

/-- What a control-word write does to the chips (R290): a chip whose reset bit rises is held in reset and all its registers
are unknown; one whose bit falls while it is held in reset is released; nothing else changes. -/
def ChipsFollow (g : Cfg) (s t : State) : Prop :=
  ∀ p,
    (resetBit g s.cw p = false → resetBit g t.cw p = true →
      t.life.get p = .heldInReset ∧ ∀ a, t.reg p a = .unknown) ∧
    (resetBit g s.cw p = true → resetBit g t.cw p = false →
      (t.life.get p = if s.life.get p = .heldInReset then .released else s.life.get p) ∧
        t.regs.get p = s.regs.get p) ∧
    (resetBit g s.cw p = resetBit g t.cw p → t.life.get p = s.life.get p ∧ t.regs.get p = s.regs.get p)

/-- No byte of the window changed: CW's bytes, in either byte order (R66). -/
def SameWindow (s t : State) : Prop := t.cw = s.cw ∧ ∀ g off, t.windowByte g off = s.windowByte g off

/-- The registers of every chip are as before except register `a` of the chips in `ps`. -/
def OnlyRegister (s t : State) (ps : List PhysChip) (a : Nat) : Prop :=
  ∀ q b, ¬ (q ∈ ps ∧ b = a) → t.reg q b = s.reg q b

/-- The device is as it was: no chip's registers or lifecycle, and no byte of the window. -/
def Untouched (s t : State) : Prop := SameChips s t ∧ SameWindow s t

/-- The state that a refusal of `s` leaves (R315): the outcome record is new, and no attempt counter and no cursor is left (R41,
R42). -/
def declinedState (s : State) (r : Reason) : State := { s with attempt := none, cursor := none, outcome := .refused r }

/-- The state that a fault in `s` leaves (R312): the outcome record is new, and no attempt counter and no cursor is left. -/
def faultedState (s : State) (f : FaultKind) : State := { s with attempt := none, cursor := none, outcome := .fault f }

/-- The caller has an instance, and the environment has drawn a failure of the access after the next `n` ones; `took` says whether
that access takes effect (R313, U29; notes/assumptions/6.md). -/
def FailsAfter (n : Nat) (took : Bool) (s : State) : Prop :=
  s.mapOK = true ∧ s.spiOK = true ∧ s.env.ioFailure = some ⟨n, took⟩

/-- No selected chip and no chip of the operand is held in reset: a transfer to them is defined (R195). -/
def CanTransfer (g : Cfg) (ps : List PhysChip) (s : State) : Prop :=
  ∀ p, p ∈ ps ∨ isSelected g s.cw p = true → Released g p s

/-! ## Several operations -/

/-- The operations `is`, one after the other from `s`, all answer next states, the last of them `u`. -/
def Reaches : List Instr → State → State → Prop
  | [], s, u => u = s
  | i :: is, s, u => ∃ t, exec i s = .next t ∧ Reaches is t u

/-- The operations that write the chip-select field: R151 to R154 on it, R186, R187, and those made of them (R224, R270). -/
def WritesCs (i : Instr) : Prop :=
  (∃ v, i = .cwAssign (.cw .cs) v) ∨ (∃ c, i = .cwSet (.cw .cs) c) ∨ (∃ c, i = .cwClear (.cw .cs) c) ∨
    (∃ c, i = .csAssert c) ∨ (∃ c, i = .csDeassert c) ∨ (∃ c a vb, i = .wrv c a vb) ∨ ∃ c b, i = .prog c b

/-! ## The trace of a verified write (R227) -/

/-- An event without the values read and written, the selected set and the bytes received. -/
def eventShape : Event → Event
  | .mmioR off n _ => .mmioR off n 0#64
  | .mmioW off n _ => .mmioW off n 0#64
  | .xfer _ tx _ => .xfer [] tx []
  | .sleep d => .sleep d

/-- The shapes of a chip-select write: a read and then a write of CW (R151). -/
def cwShape (g : Cfg) : List Event := [.mmioR g.cwOffset g.cwBytes 0#64, .mmioW g.cwOffset g.cwBytes 0#64]

/-- The shapes of the ten events of one attempt (R227). -/
def attemptShape (g : Cfg) (a : Nat) (vb : List Byte) : List Event :=
  cwShape g ++ [.xfer [] (writeFrame a vb) []] ++ cwShape g ++ cwShape g ++ [.xfer [] (readFrame g a) []] ++ cwShape g

/-- The transfers of a history in order: who listened and what was sent (R44). -/
def transfers (es : List Event) : List (List PhysChip × List Byte) :=
  es.filterMap fun e =>
    match e with
    | .xfer sel tx _ => some (sel, tx)
    | _ => none

/-- Who hears the frames of a verified write of `c` that starts with the control word `w`: the chips of the operand, and every other
chip that is selected at the start (R228 (a), (e)). -/
def wrvListeners (g : Cfg) (c : Chip) (w : CwWord) : List PhysChip :=
  PhysChip.all.filter fun q => decide (q ∈ members g c) || isSelected g w q

/-- The two transfers of one attempt with those who hear them (R227, R194). -/
def attemptTransfers (g : Cfg) (c : Chip) (a : Nat) (vb : List Byte) (w : CwWord) : List (List PhysChip × List Byte) :=
  [(wrvListeners g c w, writeFrame a vb), (wrvListeners g c w, readFrame g a)]

/-- The bytes received by the last transfer of a history. -/
def lastReceived (es : List Event) : Option (List Byte) :=
  es.reverse.findSome? fun e =>
    match e with
    | .xfer _ _ rx => some rx
    | _ => none

/-- Whether the last transfer of an attempt's events brought back the value sent, on the significant bits (R222, R224). -/
def readBackAgrees (g : Cfg) (a : Nat) (vb : List Byte) (es : List Event) : Bool :=
  match lastReceived es with
  | some rx => vcmp g a (valueOf g vb) (readBack g rx)
  | none => false

/-! ## The order of a `PROG` (R271) -/

/-- The verified writes of a `PROG` with `n` chunks in their order: chip and address. -/
def progOrder (g : Cfg) (c : Chip) (n : Nat) : List (PhysChip × Nat) :=
  (members g c).flatMap fun p => (List.range n).map fun i => (p, i)

/-- The write frame of one verified write of a `PROG`, heard by its chip alone. -/
def progFrame (g : Cfg) (bs : List Byte) (x : PhysChip × Nat) : List PhysChip × List Byte :=
  ([x.1], writeFrame x.2 (chunkAt g bs x.2))

/-- Who hears chip `p`'s frames in a `PROG` that starts in `s`: `p`, and every chip selected at the start that the sequence has not
yet come to (R228 (e)). -/
def progListeners (g : Cfg) (s : State) (c : Chip) (p : PhysChip) : List PhysChip :=
  PhysChip.all.filter fun q =>
    decide (q = p) || (isSelected g s.cw q && !((members g c).takeWhile (· != p)).contains q)

/-- The write frame of one verified write of a `PROG` that starts in `s`, with those who hear it. -/
def progFrameTo (g : Cfg) (s : State) (c : Chip) (bs : List Byte) (x : PhysChip × Nat) : List PhysChip × List Byte :=
  (progListeners g s c x.1, writeFrame x.2 (chunkAt g bs x.2))

/-- The write frames `fs` are those of the first pairs of a `PROG` that starts in `s`, pair after pair, `ks` times each. -/
def SentInOrder (g : Cfg) (s : State) (c : Chip) (bs : List Byte) (ks : List Nat) (fs : List (List PhysChip × List Byte)) : Prop :=
  ks.length ≤ (progOrder g c (chunkCount g bs)).length ∧
    fs = (((progOrder g c (chunkCount g bs)).zip ks).map fun x => List.replicate x.2 (progFrameTo g s c bs x.1)).flatten

/-- The write frames of a history in order: who listened and what was sent (R101, R103). -/
def writeFrames (es : List Event) : List (List PhysChip × List Byte) :=
  es.filterMap fun e =>
    match e with
    | .xfer sel (c :: vb) _ => if c.getLsbD 0 then some (sel, c :: vb) else none
    | _ => none

/-- The shapes of the events of the first pairs of a `PROG`, `ks` attempts each (R227). -/
def progShape (g : Cfg) (c : Chip) (bs : List Byte) (ks : List Nat) : List Event :=
  (((progOrder g c (chunkCount g bs)).zip ks).map fun x =>
    (List.replicate x.2 (attemptShape g x.1.2 (chunkAt g bs x.1.2))).flatten).flatten

/-- The lifecycles of a `PROG` that has completed the chips in `ps` and no other: those are configured, unless held in reset, and all
others are as before (R270, R272, R290). -/
def ConfiguredOnly (s t : State) (ps : List PhysChip) : Prop :=
  ∀ q, t.life.get q = if q ∈ ps ∧ s.life.get q ≠ .heldInReset then .configured else s.life.get q

/-- The only registers that differ are those that the first `m` pairs of a `PROG` with `n` chunks wrote in their listeners: no later
pair has been attempted (R272). -/
def OnlyProgrammed (g : Cfg) (s t : State) (c : Chip) (n m : Nat) : Prop :=
  ∀ q b, (∀ x ∈ (progOrder g c n).take m, ¬ (b = x.2 ∧ q ∈ progListeners g s c x.1)) → t.reg q b = s.reg q b

/-- A `PROG` that started in `s` stands in `t` inside the verified write of pair `x`: the pairs before it are over, after `ks` attempts
each, and of `x` the events with the shapes `rest` have been recorded. -/
structure ProgStands (g : Cfg) (s t : State) (c : Chip) (bs : List Byte) (es : List Event) (ks : List Nat) (x : PhysChip × Nat)
    (rest : List Event) : Prop where
  hist    : t.hist = s.hist ++ es
  tries   : ∀ k ∈ ks, 1 ≤ k ∧ k ≤ 3
  current : (progOrder g c (chunkCount g bs))[ks.length]? = some x
  events  : es.map eventShape = progShape g c bs ks ++ rest
  partway : rest <+: (List.replicate 3 (attemptShape g x.2 (chunkAt g bs x.2))).flatten ∧ rest.length < 30
  /-- The write frame is the third of an attempt's ten events. -/
  sent    : SentInOrder g s c bs (ks ++ [(rest.length + 7) / 10]) (writeFrames es)
  life    : ConfiguredOnly s t ((members g c).takeWhile (· != x.1))
  regs    : OnlyProgrammed g s t c (chunkCount g bs) (ks.length + 1)
  select  : ∀ q, q ≠ x.1 →
    isSelected g t.cw q = (!((members g c).takeWhile (· != x.1)).contains q && isSelected g s.cw q)
  fields  : ∀ f, f ≠ .cs → getField g t.cw f = getField g s.cw f

/-- The value of the fields `xs` of the given widths packed from bit 0 up (R135). -/
def packedValue : List Nat → List Nat → Nat
  | w :: ws, x :: xs => x + 2 ^ w * packedValue ws xs
  | _, _ => 0

/-! ## Counting (R227, R229, R361) -/

/-- Whether an event is an SPI transfer. -/
def isXfer : Event → Bool
  | .xfer _ _ _ => true
  | _ => false

/-- Whether an event is a window access. -/
def isWindow : Event → Bool
  | .mmioR _ _ _ => true
  | .mmioW _ _ _ => true
  | _ => false

/-- The bytes that an event clocks over the bus. -/
def clockedBytes : Event → Nat
  | .xfer _ tx _ => tx.length
  | _ => 0

/-- The microseconds of SPI clocking in a history, gaps not counted (R361): 8 bits a byte at the SPI clock. -/
def clockingMicros (g : Cfg) (es : List Event) : Nat := (es.map clockedBytes).sum * (8 * 1000000 / g.spiHz)

end Sys2Proof.Machine
end

