-- ==== Sys2Proof/Certificates/Slice0/Obligations.lean ====
section
/-! DEFINITION. Sys2Proof/Certificates/Slice0/Obligations.lean: the statements about the machine, one definition each. A rule that
the spec marks `[decision: …]` or `[derived: …]` is the spec's own choice or inference; the docstring of a statement that rests on
one says so. -/

section

open Sys2Proof Sys2Proof.Machine

/-! ## Encodings -/

/-- Words written out from the spec's tables stand for the operations they name (R103, R104, R120, R121). -/
def Obligations.KnownWordsDecode : Prop :=
  decode [0x27#8, 0x00#8, 0x00#8, 0x00#8, 0x2A#8] = .ok ⟨none, .frameW 19#7 0x2A#32⟩ ∧
  decode [0x36#8, 0x00#8, 0x00#8, 0x00#8, 0x00#8] = .ok ⟨none, .frameR 27#7 0#32⟩ ∧
  decodeTableWord 40 0x0112345678 = some (.frameW 0#7 0x12345678#32) ∧
  decode (ascii "WRV A, 19, [0, 0, 0, 0x2A]".toList) =
    .ok ⟨none, .wrv (.chip .A) 19 [0x00#8, 0x00#8, 0x00#8, 0x2A#8]⟩ ∧
  decode (ascii "r <- CAT.SIGLEN 17 ; 24".toList) = .ok ⟨some (ascii ['r']), .catSiglen 17⟩ ∧
  decode (ascii "RESET All, 2ms".toList) = .ok ⟨none, .reset (.chip .All) (.micros 2000)⟩

/-- The command byte of R100 and its fields, for every address that fits in 7 bits. -/
def Obligations.CommandByteFields : Prop :=
  ∀ (a : BitVec 7) (w : Bool),
    cmdByte a.toNat w = (a.setWidth 8 <<< 1) ||| (BitVec.ofBool w).setWidth 8 ∧
      (cmdByte a.toNat w).extractLsb' 1 7 = a ∧ (cmdByte a.toNat w).getLsbD 0 = w ∧
        frameAddr (cmdByte a.toNat w) = a.toNat

/-- Decoding gives back every well-formed instruction with every operand, from the bytes of a frame, five on the machine, or from
text, under every configuration of R7 that has as many register addresses as the machine or fewer; with 42 or more, some texts of five
bytes are frames (notes/assumptions/4.md). What a frame and an operand are under another configuration than the machine's is the
model's choice (DESIGN CHOICE, notes/assumptions/25.md). The text of numbers and of words that name nothing is the model's reading of R121
(notes/assumptions/5.md). -/
def Obligations.DecodeEncodeRoundTrip : Prop :=
  (∀ i : Instr, i.wf = true → decode (encode i) = .ok ⟨none, i⟩) ∧
  ∀ (g : Cfg) (i : Instr), g.wf → g.nreg ≤ 28 → i.wf g = true → decode (encode i g) g = .ok ⟨none, i⟩

/-- A line that names its result decodes to the same operation with the name (R121, decision D33); frames are bytes and have no such
line. Which words may be a name, and the text of numbers and of words that name nothing, are the model's reading of R121, which gives
the syntax by example (notes/assumptions/5.md). -/
def Obligations.NamedLineDecodes : Prop :=
  ∀ (r : Text) (i : Instr), isWord r = true → i.wf = true → i.parts.isSome = true →
    decode (r ++ ascii " <- ".toList ++ encode i) = .ok ⟨some r, i⟩

/-- The 40-bit words of R103: every word of an address 0 to 27 is the frame that its bits say, and no word of a reserved address
28 to 127 (R112) is a frame. That five bytes are tried as a frame before they are read as text, so also the five of a space and OPEN,
and that the first wire byte is the most significant of the word, is the model's choice (notes/assumptions/4.md). -/
def Obligations.FrameWords : Prop :=
  ∀ (a : BitVec 7) (w : Bool) (v : BitVec 32),
    (a.toNat ≤ 27 →
      decodeTableWord 40 (a ++ BitVec.ofBool w ++ v).toNat = some (if w then .frameW a v else .frameR a v)) ∧
    (27 < a.toNat → ∀ b u, decodeTableWord 40 (a ++ BitVec.ofBool w ++ v).toNat ≠ some (.frameW b u) ∧
      decodeTableWord 40 (a ++ BitVec.ofBool w ++ v).toNat ≠ some (.frameR b u))

/-- The masks of R95 and R96 and their laws (R97). -/
def Obligations.ChipMaskLaws : Prop :=
  (amask Config.cfg .A = 0b0001#4 ∧ amask Config.cfg .B = 0b0010#4 ∧ amask Config.cfg .C = 0b0100#4 ∧
    amask Config.cfg .D = 0b1000#4 ∧ amask Config.cfg .All = 0b1111#4) ∧
  (∀ p, amask Config.cfg (asChip p) = 1#4 <<< chipIdx p) ∧
  (∀ c, dmask Config.cfg c = ~~~ amask Config.cfg c) ∧
  (∀ p q, amask Config.cfg (asChip p) = amask Config.cfg (asChip q) → p = q) ∧
  ∀ p, amask Config.cfg (asChip p) &&& dmask Config.cfg (asChip p) = 0#4 ∧
    amask Config.cfg (asChip p) ||| dmask Config.cfg (asChip p) = 0xF#4

/-! ## The register catalog -/

/-- CAT.SIGLEN for every integer (R130, R131): the length of the table, or UnknownRegisterError. -/
def Obligations.SiglenAnswer : Prop :=
  ∀ (s : State) (a : Int), s.mapOK = true → s.spiOK = true →
    (∀ n N : Nat, a = n →
      (List.replicate 16 26 ++ [14, 24, 23, 6, 8, 18, 6, 19, 15, 6, 2, 2])[n]? = some N →
      ∃ t, exec (.catSiglen a) s = .next t ∧ EndsDone s t (.length N) [] ∧ Untouched s t) ∧
    (a < 0 ∨ 27 < a →
      ∃ t, exec (.catSiglen a) s = .next t ∧ EndsInError s t (.unknownRegister a) [] ∧ Untouched s t)

/-- CAT.MASK for every address (R132, which the spec derives from R131; the masks of R31). -/
def Obligations.MaskAnswer : Prop :=
  ∀ (s : State) (n : Nat) (m : Word), s.mapOK = true → s.spiOK = true →
    (List.replicate 16 0x03FFFFFF#32 ++ [0x3FFF#32, 0xFFFFFF#32, 0x7FFFFF#32, 0x3F#32, 0xFF#32, 0x3FFFF#32, 0x3F#32] ++
      [0x7FFFF#32, 0x7FFF#32, 0x3F#32, 0x3#32, 0x3#32])[n]? = some m →
    ∃ t, exec (.catMask n) s = .next t ∧ EndsDone s t (.word m) [] ∧ Untouched s t

/-- CAT.LAYOUT for every integer (R133): the configured layout, which fits in 32 bits (R134); the 16 channel registers share one
with the seven names in order; other addresses raise UnknownRegisterError. -/
def Obligations.LayoutAnswer : Prop :=
  ∀ (s : State) (a : Int), s.mapOK = true → s.spiOK = true →
    (∀ n : Nat, a = n → n ≤ 27 →
      (∃ t, exec (.catLayout a) s = .next t ∧ EndsDone s t (.layout (Config.cfg.layout n)) [] ∧ Untouched s t) ∧
      (Config.cfg.layout n).fits ∧
      (n ≤ 15 → Config.cfg.layout n = Config.cfg.layout 0 ∧
        (Config.cfg.layout n).map Prod.fst =
          ["voltage/current offset", "impedance reduction", "calibration select", "threshold", "hysteresis",
            "power-up enable", "trigger enable"])) ∧
    (a < 0 ∨ 27 < a →
      ∃ t, exec (.catLayout a) s = .next t ∧ EndsInError s t (.unknownRegister a) [] ∧ Untouched s t)

/-- CAT.PACK (R135, the spec's decision D38): with one value a field, each fitting its width, the fields from bit 0 up; refused on
a wrong count and on an oversize value (R315). -/
def Obligations.PackAnswer : Prop :=
  ∀ (s : State) (n : Nat) (xs : List Nat), s.mapOK = true → s.spiOK = true → n ≤ 27 →
    (xs.length = (Config.cfg.layout n).length →
      (∀ (j : Nat) (x w : Nat), xs[j]? = some x → ((Config.cfg.layout n).map Prod.snd)[j]? = some w → x < 2 ^ w) →
      ∃ t, exec (.catPack n xs) s = .next t ∧
        EndsDone s t (.word (BitVec.ofNat 32 (packedValue ((Config.cfg.layout n).map Prod.snd) xs))) [] ∧ Untouched s t) ∧
    ((xs.length ≠ (Config.cfg.layout n).length ∨
        ∃ (j x w : Nat), xs[j]? = some x ∧ ((Config.cfg.layout n).map Prod.snd)[j]? = some w ∧ 2 ^ w ≤ x) →
      exec (.catPack n xs) s = .refused (.declined .packMismatch (declinedState s .packMismatch)))

/-- CAT.UNPACK gives field j the bits that start where the earlier widths end, and under every layout that fits, unpacking a
packed value gives the field values back (R136, decision D38). -/
def Obligations.UnpackAnswer : Prop :=
  (∀ (s : State) (n : Nat) (v : Word), s.mapOK = true → s.spiOK = true → n ≤ 27 →
    ∃ t xs, exec (.catUnpack n v) s = .next t ∧ EndsDone s t (.fields xs) [] ∧ Untouched s t ∧
      xs.length = (Config.cfg.layout n).length ∧
      ∀ (j w : Nat), ((Config.cfg.layout n).map Prod.snd)[j]? = some w →
        xs[j]? = some (v.toNat / 2 ^ (((Config.cfg.layout n).map Prod.snd).take j).sum % 2 ^ w)) ∧
  ∀ (l : Layout) (xs : List Nat) (v : Word), l.fits → pack 0 l xs = some v → unpack 0 l v = xs

/-- An address outside 0 to 27 raises UnknownRegisterError in every operation that takes one, before any access (R130, R302). -/
def Obligations.UnknownRegisterRaised : Prop :=
  ∀ (s : State) (a : Int) (i : Instr), s.mapOK = true → s.spiOK = true → a < 0 ∨ 27 < a →
    (i = .catSiglen a ∨ i = .catMask a ∨ i = .catLayout a ∨ (∃ xs, i = .catPack a xs) ∨ (∃ v, i = .catUnpack a v) ∨
      ∃ c vb, i = .wrv (.chip c) a vb ∧ vb.length = 4) →
    ∃ t, exec i s = .next t ∧ EndsInError s t (.unknownRegister a) [] ∧ Untouched s t

/-! ## The control word -/

/-- The window admits a read and a write of CW's width at the offset of CW and a read of a status word's width at the offset of each
status word that is there, 2 and 4 bytes on the machine, and refuses every other access (R68, R61, R67, R69, R162; decisions D4 and
D29), under every configuration that R7 and R62 allow. That a value of more bits than CW is cut to them is the model's choice
(notes/assumptions/25.md); no operation has one. -/
def Obligations.WindowAccesses : Prop :=
  (∀ (g : Cfg) (s : State) (off n : Nat) (v : WinVal), g.wf → s.env.ioFailure = none →
    (off = g.cwOffset ∧ n = g.cwBytes →
      memRead g off n s = .ok (s.cw.setWidth 64) (s.record (.mmioR off n (s.cw.setWidth 64))) ∧
      memWrite g off n v s = .ok ()
        ((s.writeCw g (v.setWidth 32 &&& lowMask g.cwBits)).record
          (.mmioW off n ((v.setWidth 32 &&& lowMask g.cwBits).setWidth 64)))) ∧
    (∀ w, g.hasWord w = true → off = g.swOffset w ∧ n = g.swBytes →
      memRead g off n s =
        .ok (s.env.status.word g s.hist w) (s.record (.mmioR off n (s.env.status.word g s.hist w)))) ∧
    (¬ (off = g.cwOffset ∧ n = g.cwBytes) → memWrite g off n v s = .stop (.refuse .windowAccess) s) ∧
    (¬ (off = g.cwOffset ∧ n = g.cwBytes) → (∀ w, g.hasWord w = true → ¬ (off = g.swOffset w ∧ n = g.swBytes)) →
      memRead g off n s = .stop (.refuse .windowAccess) s)) ∧
  Config.cfg.cwBytes = 2 ∧ Config.cfg.swBytes = 4 ∧ ∀ w, Config.cfg.hasWord w = true

/-- CW.READ gives the field's four bits as last written (R155, decision D27; the positions of R21 are the spec's decision D1). -/
def Obligations.CwReadAnswer : Prop :=
  ∀ (s : State) (f : CwField), Ready s →
    ∃ t, exec (.cwRead (.cw f)) s = .next t ∧
      EndsDone s t
        (.nibble (s.cw.extractLsb' (match f with | .hold => 0 | .reset => 4 | .cs => 8 | .sysclk => 12) 4))
        [.mmioR Config.cfg.cwOffset 2 (s.cw.setWidth 64)] ∧
      Untouched s t

/-- CW.ASSIGN for every integer (R151, R152): one read and one write of the whole word, the field's new value, the other three fields
kept; a value outside 0 to 15 is refused before any access, whatever is drawn (R308). What the write does to the chips (`ChipsFollow`)
is the spec's decision D36 in R290, in the model's reading that only a reset bit that changes acts (notes/assumptions/11.md). -/
def Obligations.CwAssignWrites : Prop :=
  ∀ (s : State) (f : CwField) (v : Int),
    (Ready s → 0 ≤ v → v ≤ 15 →
      ∃ t, exec (.cwAssign (.cw f) v) s = .next t ∧
        EndsDone s t .none (cwWriteEvents Config.cfg s.cw t.cw) ∧
        FieldSet Config.cfg s.cw t.cw f (BitVec.ofInt 4 v) ∧ ChipsFollow Config.cfg s t) ∧
    (s.mapOK = true → s.spiOK = true → v < 0 ∨ 15 < v →
      exec (.cwAssign (.cw f) v) s = .refused (.declined .valueOutOfRange (declinedState s .valueOutOfRange)))

/-- CW.SET and CW.CLEAR (R153, R154): the assert mask is OR-ed in, the deassert mask is AND-ed in, with one read and one write of the
whole word even where nothing changes; an identifier that names no chip raises InvalidChipError before any access (decision D31). What
the write does to the chips (`ChipsFollow`) is the spec's decision D36 in R290, in the model's reading that only a reset bit that
changes acts (notes/assumptions/11.md). -/
def Obligations.CwSetClearWrites : Prop :=
  ∀ (s : State) (f : CwField),
    (∀ c : Chip, Ready s →
      (∃ t, exec (.cwSet (.cw f) (.chip c)) s = .next t ∧
        EndsDone s t .none (cwWriteEvents Config.cfg s.cw t.cw) ∧
        FieldSet Config.cfg s.cw t.cw f (getField Config.cfg s.cw f ||| amask Config.cfg c) ∧ ChipsFollow Config.cfg s t) ∧
      ∃ t, exec (.cwClear (.cw f) (.chip c)) s = .next t ∧
        EndsDone s t .none (cwWriteEvents Config.cfg s.cw t.cw) ∧
        FieldSet Config.cfg s.cw t.cw f (getField Config.cfg s.cw f &&& dmask Config.cfg c) ∧ ChipsFollow Config.cfg s t) ∧
    ∀ id : Text, s.mapOK = true → s.spiOK = true →
      (∃ t, exec (.cwSet (.cw f) (.bad id)) s = .next t ∧ EndsInError s t (.invalidChip id) [] ∧ Untouched s t) ∧
      ∃ t, exec (.cwClear (.cw f) (.bad id)) s = .next t ∧ EndsInError s t (.invalidChip id) [] ∧ Untouched s t

/-- Writes to a status field and unknown field names are refused, and no access is made (R113, R162, R315; decision D29). A
status field under CW.READ and a control field under SW.READ are unknown names there: the model's reading,
notes/assumptions/14.md. Where a CW.ASSIGN has such a field and a value outside 0 to 15, that the field's reason is the one recorded
is the model's choice (notes/assumptions/22.md). -/
def Obligations.FieldNamesRefused : Prop :=
  ∀ (s : State) (v : Int) (c : Chip), s.mapOK = true → s.spiOK = true →
    (∀ (h : SwField) (i : Instr),
      (i = .cwAssign (.sw h) v ∨ i = .cwSet (.sw h) (.chip c) ∨ i = .cwClear (.sw h) (.chip c)) →
      exec i s = .refused (.declined .statusWrite (declinedState s .statusWrite))) ∧
    ∀ (id : Text) (f : CwField) (h : SwField) (i : Instr),
      (i = .cwAssign (.bad id) v ∨ i = .cwSet (.bad id) (.chip c) ∨ i = .cwClear (.bad id) (.chip c) ∨
        i = .cwRead (.bad id) ∨ i = .cwRead (.sw h) ∨ i = .swRead (.bad id) ∨ i = .swRead (.cw f)) →
      exec i s = .refused (.declined .unknownField (declinedState s .unknownField))

/-- The bits of the other chips keep their value in a set, a clear and a reset of one chip, and the other three fields keep
theirs (R156, which the spec derives). -/
def Obligations.OtherChipsKept : Prop :=
  ∀ (s t : State) (f : CwField) (p q : PhysChip) (d : Nat),
    (exec (.cwSet (.cw f) (.chip (asChip p))) s = .next t →
      (getField Config.cfg t.cw f).getLsbD (chipIdx q) = (decide (q = p) || (getField Config.cfg s.cw f).getLsbD (chipIdx q)) ∧
        ∀ f', f' ≠ f → getField Config.cfg t.cw f' = getField Config.cfg s.cw f') ∧
    (exec (.cwClear (.cw f) (.chip (asChip p))) s = .next t →
      (getField Config.cfg t.cw f).getLsbD (chipIdx q) = (!decide (q = p) && (getField Config.cfg s.cw f).getLsbD (chipIdx q)) ∧
        ∀ f', f' ≠ f → getField Config.cfg t.cw f' = getField Config.cfg s.cw f') ∧
    (exec (.reset (.chip (asChip p)) (.micros d)) s = .next t →
      resetBit Config.cfg t.cw q = (!decide (q = p) && resetBit Config.cfg s.cw q) ∧
        ∀ f', f' ≠ .reset → getField Config.cfg t.cw f' = getField Config.cfg s.cw f')

/-- The chip-side outputs follow the control word (R47, decision D43; R157): under every configuration the chip-select line of a chip
that is there is low exactly when the chip is selected, and an assignment drives the lines of its field. -/
def Obligations.OutputsFollowCw : Prop :=
  ∀ (g : Cfg) (s : State) (v : BitVec 4), g.wf → Ready s →
    (∀ p, g.hasChip p = true → (csN g s.cw).getLsbD (chipIdx p) = !isSelected g s.cw p) ∧
    (∃ t, execCwAssign (.cw .hold) v.toNat s g = .next t ∧ holdLines g t.cw = v ∧
      rstLines g t.cw = rstLines g s.cw ∧ csN g t.cw = csN g s.cw ∧ sysclkDiv g t.cw = sysclkDiv g s.cw) ∧
    (∃ t, execCwAssign (.cw .reset) v.toNat s g = .next t ∧ rstLines g t.cw = v ∧
      holdLines g t.cw = holdLines g s.cw ∧ csN g t.cw = csN g s.cw ∧ sysclkDiv g t.cw = sysclkDiv g s.cw) ∧
    (∃ t, execCwAssign (.cw .cs) v.toNat s g = .next t ∧
      csN g t.cw = (match g.csPolarity with | .selectOnOne => ~~~ v | .selectOnZero => v) ∧
      holdLines g t.cw = holdLines g s.cw ∧ rstLines g t.cw = rstLines g s.cw ∧ sysclkDiv g t.cw = sysclkDiv g s.cw) ∧
    ∃ t, execCwAssign (.cw .sysclk) v.toNat s g = .next t ∧ sysclkDiv g t.cw = v ∧
      holdLines g t.cw = holdLines g s.cw ∧ rstLines g t.cw = rstLines g s.cw ∧ csN g t.cw = csN g s.cw

/-- SETCLK assigns the sysclk field and nothing else (R250); a code outside 0 to 15 is refused before any access, whatever is drawn
(the spec's decision D8; R308). -/
def Obligations.SetClkWrites : Prop :=
  ∀ (s : State) (code : Int),
    (Ready s → 0 ≤ code → code ≤ 15 →
      ∃ t, exec (.setClk code) s = .next t ∧ EndsDone s t .none (cwWriteEvents Config.cfg s.cw t.cw) ∧
        FieldSet Config.cfg s.cw t.cw .sysclk (BitVec.ofInt 4 code) ∧ SameChips s t) ∧
    (s.mapOK = true → s.spiOK = true → code < 0 ∨ 15 < code →
      exec (.setClk code) s = .refused (.declined .valueOutOfRange (declinedState s .valueOutOfRange)))

/-! ## The status words -/

/-- SW.READ (R160, decision D26) and RDERR (R265, decision D6): one read of the field's word, and the field's bits of the value
drawn, whatever it is; a fixed source shows its word. Bit i of the error nibble is the flag of chip i (R29). The positions of R28
are the spec's decision D5; they and the word's width are parameters (R7, U18): under every configuration SW.READ reads the field's
word, of `swBits` bits, and gives the bits of the field's place. That the word drawn is cut to those bits is the model's choice (DESIGN
CHOICE, notes/assumptions/25.md). -/
def Obligations.StatusReads : Prop :=
  (∀ s : State, Ready s →
    (∀ f : SwField, ∃ t w, exec (.swRead (.sw f)) s = .next t ∧
      EndsDone s t
        (.status (match f with
          | .err => w &&& 0xF#64
          | .tempA => (w >>> 4) &&& 0xFFF#64
          | .tempB => (w >>> 16) &&& 0xFFF#64
          | .tempC => w &&& 0xFFF#64
          | .tempD => (w >>> 12) &&& 0xFFF#64))
        [.mmioR (match f with
          | .err | .tempA | .tempB => Config.cfg.sw0Offset
          | .tempC | .tempD => Config.cfg.sw1Offset) 4 w] ∧
      Untouched s t ∧ w &&& 0xFFFFFFFF#64 = w ∧
      ∀ w0 w1, s.env.status = .fixed w0 w1 →
        w = (match f with | .err | .tempA | .tempB => w0 | .tempC | .tempD => w1) &&& 0xFFFFFFFF#64) ∧
    ∃ t w, exec .rdErr s = .next t ∧ EndsDone s t (.status (w &&& 0xF#64)) [.mmioR Config.cfg.sw0Offset 4 w] ∧
      Untouched s t ∧ w &&& 0xFFFFFFFF#64 = w ∧
      (errFlag (w &&& 0xF#64) .A = w.getLsbD 0 ∧ errFlag (w &&& 0xF#64) .B = w.getLsbD 1 ∧
        errFlag (w &&& 0xF#64) .C = w.getLsbD 2 ∧ errFlag (w &&& 0xF#64) .D = w.getLsbD 3) ∧
      ∀ w0 w1, s.env.status = .fixed w0 w1 → w = w0 &&& 0xFFFFFFFF#64) ∧
  ∀ (g : Cfg) (s : State) (f : SwField), g.wf → Ready s →
    ∃ t w x, execSwRead (.sw f) s g = .next t ∧
      EndsDone s t (.status x) [.mmioR (g.swOffset (g.swPos f).word) (g.swBits / 8) w] ∧ Untouched s t ∧
      w.toNat < 2 ^ g.swBits ∧ x.toNat = w.toNat / 2 ^ (g.swPos f).lo % 2 ^ (g.swPos f).width

/-- RDTEMP (R266): exactly two window reads, SW0 before SW1 (decision D5), and the four readings from the words drawn. A configuration
with one status word (R7) has one read, and takes every reading from it (notes/assumptions/25.md). -/
def Obligations.TemperaturesRead : Prop :=
  (∀ s : State, Ready s →
    ∃ t w0 w1, exec .rdTemp s = .next t ∧
      EndsDone s t
        (.temps ((w0 >>> 4) &&& 0xFFF#64) ((w0 >>> 16) &&& 0xFFF#64) (w1 &&& 0xFFF#64) ((w1 >>> 12) &&& 0xFFF#64))
        [.mmioR Config.cfg.sw0Offset 4 w0, .mmioR Config.cfg.sw1Offset 4 w1] ∧
      Untouched s t ∧ w0 &&& 0xFFFFFFFF#64 = w0 ∧ w1 &&& 0xFFFFFFFF#64 = w1 ∧
      ∀ u0 u1, s.env.status = .fixed u0 u1 → w0 = u0 &&& 0xFFFFFFFF#64 ∧ w1 = u1 &&& 0xFFFFFFFF#64) ∧
  ∀ (g : Cfg) (s : State), g.wf → Ready s → g.swCount = 1 →
    ∃ t w, execRdTemp s g = .next t ∧
      EndsDone s t (.temps (getStatus g .tempA w) (getStatus g .tempB w) (getStatus g .tempC w) (getStatus g .tempD w))
        [.mmioR g.sw0Offset (g.swBits / 8) w] ∧ Untouched s t

/-! ## The SPI bus and the chips -/

/-- SPI.XFER (R180): a transfer of at least one byte completes with as many bytes received and changes no window byte, no
lifecycle and no chip that is not selected; a transfer of 0 bytes is refused before any access, whatever is selected or drawn
(decision D24; R308). -/
def Obligations.TransferCompletes : Prop :=
  ∀ s : State,
    (∀ tx : List Byte, Ready s → CanTransfer Config.cfg [] s → tx ≠ [] →
      ∃ t rx, exec (.spiXfer tx) s = .next t ∧
        EndsDone s t (.bytes rx) [.xfer (selected Config.cfg s.cw) tx rx] ∧ rx.length = tx.length ∧
        SameWindow s t ∧ t.life = s.life ∧
        ∀ p, isSelected Config.cfg s.cw p = false → t.regs.get p = s.regs.get p) ∧
    (s.mapOK = true → s.spiOK = true →
      exec (.spiXfer []) s = .refused (.declined .emptyTransfer (declinedState s .emptyTransfer)))

/-- With no chip selected every transfer completes, changes no chip and receives the link's junk (R191, decision D15). -/
def Obligations.NoListener : Prop :=
  ∀ (s : State) (tx : List Byte) (a : BitVec 7) (v : Word), Ready s → NoneSelected Config.cfg s → tx ≠ [] →
    (∃ t rx, exec (.spiXfer tx) s = .next t ∧ EndsDone s t (.bytes rx) [.xfer [] tx rx] ∧ Untouched s t ∧
      rx = junkBytes s.env.link s.hist [] tx) ∧
    (∃ t rx, exec (.frameW a v) s = .next t ∧ EndsDone s t .none [.xfer [] (frameBytes a true v) rx] ∧ Untouched s t ∧
      rx = junkBytes s.env.link s.hist [] (frameBytes a true v)) ∧
    ∃ t rx, exec (.frameR a v) s = .next t ∧
      EndsDone s t (.word (readBack Config.cfg rx)) [.xfer [] (frameBytes a false v) rx] ∧ Untouched s t ∧
      rx = junkBytes s.env.link s.hist [] (frameBytes a false v)

/-- FRAME.W, and the same bytes sent by SPI.XFER (R192, R194, decisions D14 and D16): every selected chip holds at the address what
the link makes it latch of the value sent, in at most SIGLEN bits; under the ideal link and the simulated links of R198 that is what
was sent. The bytes received are the link's junk, and nothing else changes. R115 says 5 bytes; that under every other configuration of
R7 a frame is one command byte and a value of `valueBits` bits, and that such a frame is well formed and latched, is the model's choice
(DESIGN CHOICE, notes/assumptions/25.md). -/
def Obligations.WriteFrameLatches : Prop :=
  (∀ (s : State) (a : BitVec 7) (v : Word) (i : Instr), Ready s → CanTransfer Config.cfg [] s → a.toNat ≤ 27 →
    (i = .frameW a v ∨ i = .spiXfer (frameBytes a true v)) →
    ∃ t r rx, exec i s = .next t ∧
      EndsDone s t r [.xfer (selected Config.cfg s.cw) (frameBytes a true v) rx] ∧
      (i = .frameW a v → r = .none) ∧ (i = .spiXfer (frameBytes a true v) → r = .bytes rx) ∧
      rx = junkBytes s.env.link s.hist (selected Config.cfg s.cw) (frameBytes a true v) ∧ SameWindow s t ∧ t.life = s.life ∧
      OnlyRegister s t (selected Config.cfg s.cw) a.toNat ∧
      ∀ p ∈ selected Config.cfg s.cw, ∃ y, t.reg p a.toNat = .known y ∧ y &&& sigMask Config.cfg a.toNat = y ∧
        y = Link.latch Config.cfg s.env.link s.hist p a.toNat v ∧
        ((IdealLink Config.cfg s.env.link ∨ s.env.link = .echo ∨ ∃ j, s.env.link = .flip j) →
          y = v &&& sigMask Config.cfg a.toNat)) ∧
  ∀ (g : Cfg) (s : State) (a : BitVec 7) (v : Word), g.wf → Ready s → CanTransfer g [] s → a.toNat < g.nreg →
    v.toNat < 2 ^ g.valueBits →
    ∃ t rx, execFrameW a v s g = .next t ∧ EndsDone s t .none [.xfer (selected g s.cw) (frameBytes a true v g) rx] ∧
      (frameBytes a true v g).length = 1 + g.valueBits / 8 ∧ SameWindow s t ∧ t.life = s.life ∧
      OnlyRegister s t (selected g s.cw) a.toNat ∧
      ∀ p ∈ selected g s.cw, t.reg p a.toNat = .known (Link.latch g s.env.link s.hist p a.toNat v)

/-- FRAME.R, and the same bytes sent by SPI.XFER (R190, R193, R194, decisions D14 and D16): no register changes. The first byte
received is the link's junk. From one listener the last four are the value that the link returns for the register's state, which under
the ideal link agrees with a known register on its significant bits; from any other number of listeners every byte is junk. That under
every other configuration of R7 a frame is one command byte and a value of `valueBits` bits, to which the link's value is cut, is the
model's choice (DESIGN CHOICE, notes/assumptions/25.md). -/
def Obligations.ReadFrameReturns : Prop :=
  (∀ (s : State) (a : BitVec 7) (d : Word) (i : Instr), Ready s → CanTransfer Config.cfg [] s → a.toNat ≤ 27 →
    (i = .frameR a d ∨ i = .spiXfer (frameBytes a false d)) →
    ∃ t r x rx, exec i s = .next t ∧
      EndsDone s t r [.xfer (selected Config.cfg s.cw) (frameBytes a false d) rx] ∧
      (i = .frameR a d → r = .word x) ∧ (i = .spiXfer (frameBytes a false d) → r = .bytes rx) ∧ Untouched s t ∧
      rx = Link.junk s.env.link s.hist (selected Config.cfg s.cw) (frameBytes a false d) 0 :: be32 x ∧
      (∀ p, selected Config.cfg s.cw = [p] →
        x = Link.data Config.cfg s.env.link s.hist p a.toNat (s.reg p a.toNat) ∧
        (IdealLink Config.cfg s.env.link →
          ∀ y, s.reg p a.toNat = .known y → y &&& sigMask Config.cfg a.toNat = y →
            x &&& sigMask Config.cfg a.toNat = y)) ∧
      ((∀ p, selected Config.cfg s.cw ≠ [p]) →
        rx = junkBytes s.env.link s.hist (selected Config.cfg s.cw) (frameBytes a false d))) ∧
  ∀ (g : Cfg) (s : State) (a : BitVec 7) (d : Word), g.wf → Ready s → CanTransfer g [] s → a.toNat < g.nreg →
    ∃ t x rx, execFrameR a d s g = .next t ∧ EndsDone s t (.word x) [.xfer (selected g s.cw) (frameBytes a false d g) rx] ∧
      rx.length = 1 + g.valueBits / 8 ∧ Untouched s t ∧
      ∀ p, selected g s.cw = [p] →
        x.toNat = (Link.data g s.env.link s.hist p a.toNat (s.reg p a.toNat)).toNat % 2 ^ g.valueBits

/-- An ill-formed frame makes every register of every selected chip unknown, changes no other chip and receives the link's junk (R196,
R112, decision D39): another length than 5, or an address above 27. -/
def Obligations.IllFormedForgets : Prop :=
  ∀ (s : State) (tx : List Byte) (a : BitVec 7) (v : Word) (i : Instr), Ready s → CanTransfer Config.cfg [] s →
    ((i = .spiXfer tx ∧ tx ≠ [] ∧ (tx.length ≠ 5 ∨ 27 < frameAddr (tx.headD 0#8))) ∨
      (27 < a.toNat ∧ (i = .frameW a v ∨ i = .frameR a v))) →
    ∃ t r sent rx, exec i s = .next t ∧ EndsDone s t r [.xfer (selected Config.cfg s.cw) sent rx] ∧
      (i = .spiXfer tx → sent = tx) ∧ (i = .frameW a v → sent = frameBytes a true v) ∧
      (i = .frameR a v → sent = frameBytes a false v) ∧
      rx = junkBytes s.env.link s.hist (selected Config.cfg s.cw) sent ∧ SameWindow s t ∧ t.life = s.life ∧
      (∀ p, isSelected Config.cfg s.cw p = true → ∀ b, t.reg p b = .unknown) ∧
      ∀ p, isSelected Config.cfg s.cw p = false → t.regs.get p = s.regs.get p

/-- A transfer while a selected chip is held in reset is the fault SpiWhileInReset, and nothing has changed but the outcome
(R195, R314, decision D17). -/
def Obligations.TransferInResetFaults : Prop :=
  ∀ (s : State) (p : PhysChip) (tx : List Byte) (a : BitVec 7) (v : Word) (i : Instr), Ready s →
    isSelected Config.cfg s.cw p = true → ¬ Released Config.cfg p s →
    (i = .spiXfer tx ∧ tx ≠ [] ∨ i = .frameW a v ∨ i = .frameR a v) →
    exec i s = .fault (.spiWhileInReset (faultedState s .spiWhileInReset))

/-- CS.ASSERT and CS.DEASSERT (R186, R187, decision D2): under every configuration, so under either polarity, the chips of the operand
are selected or unselected, and the other chips' selection and the other fields stay; with fewer than four chips (R7), those that are
there (notes/assumptions/25.md). The machine itself has the default polarity SelectOnOne. -/
def Obligations.ChipSelect : Prop :=
  (∀ (g : Cfg) (s : State) (c : Chip), g.wf → Ready s →
    (∃ t, execCsAssert (.chip c) s g = .next t ∧ EndsDone s t .none (cwWriteEvents g s.cw t.cw) ∧ SameChips s t ∧
      (∀ p, isSelected g t.cw p = (decide (chipIdx p < g.nchip ∧ (c = .All ∨ c = asChip p)) || isSelected g s.cw p)) ∧
      ∀ f, f ≠ .cs → getField g t.cw f = getField g s.cw f) ∧
    ∃ t, execCsDeassert (.chip c) s g = .next t ∧ EndsDone s t .none (cwWriteEvents g s.cw t.cw) ∧ SameChips s t ∧
      (∀ p, isSelected g t.cw p = (!decide (chipIdx p < g.nchip ∧ (c = .All ∨ c = asChip p)) && isSelected g s.cw p)) ∧
      ∀ f, f ≠ .cs → getField g t.cw f = getField g s.cw f) ∧
  ∀ (s : State) (c : Chip), Ready s →
    (∃ t, exec (.csAssert (.chip c)) s = .next t ∧ EndsDone s t .none (cwWriteEvents Config.cfg s.cw t.cw) ∧ SameChips s t ∧
      FieldSet Config.cfg s.cw t.cw .cs (getField Config.cfg s.cw .cs ||| amask Config.cfg c)) ∧
    ∃ t, exec (.csDeassert (.chip c)) s = .next t ∧ EndsDone s t .none (cwWriteEvents Config.cfg s.cw t.cw) ∧
      SameChips s t ∧ FieldSet Config.cfg s.cw t.cw .cs (getField Config.cfg s.cw .cs &&& dmask Config.cfg c)

/-- The single-listener property (R188, which the spec derives): from no chip selected, an assert of one chip selects exactly it;
after any operations that do not write the chip-select field, transfers among them, it is still the only one, and its deassert then
leaves none selected. -/
def Obligations.SingleListener : Prop :=
  ∀ (s : State) (p : PhysChip), Ready s → NoneSelected Config.cfg s →
    ∃ t, exec (.csAssert (.chip (asChip p))) s = .next t ∧ selected Config.cfg t.cw = [p] ∧
      ∀ (is : List Instr) (u : State), (∀ i ∈ is, ¬ WritesCs i) → Reaches is t u →
        selected Config.cfg u.cw = [p] ∧
          ∃ v, exec (.csDeassert (.chip (asChip p))) u = .next v ∧ selected Config.cfg v.cw = []

/-! ## The verified write -/

/-- VCMP on a checked address compares the low SIGLEN bits and nothing else (R222); so bits beyond the significant length never
matter (R223, which the spec derives from R222). -/
def Obligations.MaskedCompare : Prop :=
  (∀ (s : State) (n N : Nat) (w r : Word), s.mapOK = true → s.spiOK = true →
    (List.replicate 16 26 ++ [14, 24, 23, 6, 8, 18, 6, 19, 15, 6, 2, 2])[n]? = some N →
    ∃ t, exec (.vcmp n w r) s = .next t ∧
      EndsDone s t (.verdict (decide (w.toNat % 2 ^ N = r.toNat % 2 ^ N))) [] ∧ Untouched s t) ∧
  ∀ (a : Nat) (v : Word), a ≤ 27 → vcmp Config.cfg a v (v ^^^ ~~~ sigMask Config.cfg a) = true

/-- WRV under the links of which something is known, each a premise (R197, decision D14; R198): done after one attempt when the link
is ideal, echoes, or flips a bit beyond the significant length, WriteVerificationError after exactly three when it flips a
significant bit (R225, R226). The events are those of R227, which the spec derives; that a read is framed by its own chip select is
decision D13. -/
def Obligations.WrvUnderSimulatedLinks : Prop :=
  ∀ (s : State) (p : PhysChip) (a : Nat) (vb : List Byte), Ready s → NoneSelected Config.cfg s →
    Released Config.cfg p s → a ≤ 27 → vb.length = 4 →
    ((IdealLink Config.cfg s.env.link ∨ s.env.link = .echo ∨
        ∃ j, s.env.link = .flip j ∧ sigLen Config.cfg a ≤ j ∧ j ≤ 31) →
      ∃ t es, exec (.wrv (.chip (asChip p)) a vb) s = .next t ∧ EndsDone s t .none es ∧
        es.map eventShape = attemptShape Config.cfg a vb ∧
        t.reg p a = .known (valueOf Config.cfg vb &&& sigMask Config.cfg a) ∧ OnlyRegister s t [p] a ∧
        t.life = s.life ∧ SameWindow s t) ∧
    ((∃ j, s.env.link = .flip j ∧ j < sigLen Config.cfg a) →
      ∃ t es, exec (.wrv (.chip (asChip p)) a vb) s = .next t ∧
        EndsInError s t (.writeVerification (asChip p) a) es ∧
        es.map eventShape =
          attemptShape Config.cfg a vb ++ attemptShape Config.cfg a vb ++ attemptShape Config.cfg a vb ∧
        t.reg p a = .known (valueOf Config.cfg vb &&& sigMask Config.cfg a) ∧ OnlyRegister s t [p] a ∧
        t.life = s.life ∧ SameWindow s t)

/-- A fault inside WRV or PROG (R41, R42, R313, decision D25). Inside, a verified write that a fault stops stands at the attempt that
its events tell, 1 to 3 (ten events each, R227), and a PROG at its current pair (`ProgStands`): the events are those of the pairs
before it in the order of R271 and of part of its own verified write; the chips whose pairs are all over are configured (decision D36)
and no other chip's lifecycle has changed; only registers that those pairs and the current one wrote in their listeners can differ
(R272). Afterwards neither the counter nor the cursor is left (notes/assumptions/13.md). A failure drawn at any access `n` of WRV or
PROG ends it there, with `n` events recorded, for WRV with its write frames so far heard by its listeners (R228 (e)), or comes too
late. How the failure is drawn, and that a failed access records no event, is the model's own (notes/assumptions/6.md; for a failed
transfer that took effect notes/assumptions/21.md). -/
def Obligations.FaultsInsideComposites : Prop :=
  (∀ (s u : State) (c : Chip) (a : Int) (vb : List Byte) (f : FaultKind), vb.length = 4 →
    verifiedWrite Config.cfg c a vb s = .stop (.fault f) u →
    ∃ es, u.hist = s.hist ++ es ∧ es.length < 30 ∧ u.attempt = some (es.length / 10 + 1)) ∧
  (∀ (s u : State) (c : Chip) (bs : List Byte) (f : FaultKind),
    programChips Config.cfg (chunks Config.cfg bs) (members Config.cfg c) s = .stop (.fault f) u →
    ∃ (es : List Event) (ks : List Nat) (x : PhysChip × Nat) (rest : List Event),
      ProgStands Config.cfg s u c bs es ks x rest ∧ u.attempt = some (rest.length / 10 + 1) ∧ u.cursor = some x) ∧
  (∀ (i : Instr) (s left : State),
    (exec i s = .fault (.ioFault left) ∨ exec i s = .fault (.spiWhileInReset left)) →
    left.attempt = none ∧ left.cursor = none ∧ left.pc = s.pc) ∧
  (∀ (s : State) (c : Chip) (a : Nat) (vb : List Byte) (n : Nat) (took : Bool), FailsAfter n took s →
    CanTransfer Config.cfg (members Config.cfg c) s → a ≤ 27 → vb.length = 4 →
    (∃ left es, exec (.wrv (.chip c) a vb) s = .fault (.ioFault left) ∧ left.outcome = .fault .ioFault ∧
      left.hist = s.hist ++ es ∧ es.length = n ∧
      es.map eventShape <+: (List.replicate 3 (attemptShape Config.cfg a vb)).flatten ∧
      writeFrames es = List.replicate ((n + 7) / 10) (wrvListeners Config.cfg c s.cw, writeFrame a vb) ∧ left.life = s.life ∧
      OnlyRegister s left (members Config.cfg c ++ selected Config.cfg s.cw) a ∧
      ∀ f, f ≠ .cs → getField Config.cfg left.cw f = getField Config.cfg s.cw f) ∨
    ∃ t es, exec (.wrv (.chip c) a vb) s = .next t ∧ t.hist = s.hist ++ es ∧ 10 ≤ es.length ∧ es.length ≤ n ∧
      (t.outcome = .done ∨ t.outcome = .error (.writeVerification c a))) ∧
  ∀ (s : State) (c : Chip) (bs : List Byte) (n : Nat) (took : Bool), FailsAfter n took s →
    CanTransfer Config.cfg (members Config.cfg c) s →
    (∃ left es ks x rest, exec (.prog (.chip c) (.bytes bs)) s = .fault (.ioFault left) ∧ left.outcome = .fault .ioFault ∧
      es.length = n ∧ ProgStands Config.cfg s left c bs es ks x rest) ∨
    ∃ t es, exec (.prog (.chip c) (.bytes bs)) s = .next t ∧ t.hist = s.hist ++ es ∧ es.length ≤ n ∧
      (4 ≤ bs.length → 10 ≤ es.length) ∧ (t.outcome = .done ∨ ∃ e, t.outcome = .error e)

/-- WRV under every link and for every chip operand, All included (R194, R224, R225, R227, R228 (a), (e)): one to three attempts of
ten events each, whose two frames the operand's chips and every other selected chip hear; every attempt but the last mismatched; done
means that the last read-back agreed, and otherwise WriteVerificationError comes after the third mismatch. Each listener's register
holds what the link made it latch of the value sent in the last attempt, whose write frame is the third event; under the ideal link
that is the value sent. Only that register of the chips that listened can change, and only the selection of the operand's chips. The
trace rests on the spec's decision D13, the case All on decision D18, what a chip latches on decision D14. -/
def Obligations.WrvUnderAnyLink : Prop :=
  ∀ (s : State) (c : Chip) (a : Nat) (vb : List Byte), Ready s → CanTransfer Config.cfg (members Config.cfg c) s →
    a ≤ 27 → vb.length = 4 →
    ∃ (t : State) (ess : List (List Event)), exec (.wrv (.chip c) a vb) s = .next t ∧ 1 ≤ ess.length ∧ ess.length ≤ 3 ∧
      (∀ es ∈ ess, es.map eventShape = attemptShape Config.cfg a vb ∧
        transfers es = attemptTransfers Config.cfg c a vb s.cw) ∧
      (∀ es ∈ ess.dropLast, readBackAgrees Config.cfg a vb es = false) ∧
      (EndsDone s t .none ess.flatten ∧ (∃ es, ess.getLast? = some es ∧ readBackAgrees Config.cfg a vb es = true) ∨
        ess.length = 3 ∧ (∀ es ∈ ess, readBackAgrees Config.cfg a vb es = false) ∧
          EndsInError s t (.writeVerification c a) ess.flatten) ∧
      (∀ q ∈ members Config.cfg c ++ selected Config.cfg s.cw, ∃ y, t.reg q a = .known y ∧ y &&& sigMask Config.cfg a = y ∧
        y = Link.latch Config.cfg s.env.link (s.hist ++ ess.flatten.take (10 * ess.length - 8)) q a (valueOf Config.cfg vb) ∧
        (IdealLink Config.cfg s.env.link → y = valueOf Config.cfg vb &&& sigMask Config.cfg a)) ∧
      OnlyRegister s t (members Config.cfg c ++ selected Config.cfg s.cw) a ∧ t.life = s.life ∧
      (∀ q, isSelected Config.cfg t.cw q = (!decide (q ∈ members Config.cfg c) && isSelected Config.cfg s.cw q)) ∧
      ∀ f, f ≠ .cs → getField Config.cfg t.cw f = getField Config.cfg s.cw f

/-- The retry bound (R229): however a verified write ends, in a next state, a fault or a refusal, it made at most 6 transfers and 24
window accesses. They clock at most 2400 microseconds, gaps not counted, which the spec derives in R361 and R362 and the model counts
from the history (notes/assumptions/18.md). -/
def Obligations.RetryBound : Prop :=
  ∀ (c : ChipArg) (a : Int) (vb : List Byte) (s t : State) (es : List Event),
    (exec (.wrv c a vb) s = .next t ∨ exec (.wrv c a vb) s = .fault (.ioFault t) ∨
      exec (.wrv c a vb) s = .fault (.spiWhileInReset t) ∨ ∃ r, exec (.wrv c a vb) s = .refused (.declined r t)) →
    t.hist = s.hist ++ es →
    es.countP isXfer ≤ 6 ∧ es.countP isWindow ≤ 24 ∧ clockingMicros Config.cfg es ≤ 2400

/-- WRV and PROG faced with a chip held in reset (R228 (b), R273, decision D17): with a chip of the operand held (for PROG of at least
one chunk the first chip), or another selected chip held, the fault comes at the first transfer, after the chip-select write. PROG All
that comes to a held chip, from no chip selected and under the ideal link (decision D14), has by then programmed the chips before it,
which are configured (decision D36), and touched no later one. -/
def Obligations.WrvInResetFaults : Prop :=
  (∀ (s : State) (i : Instr) (ps : List PhysChip), Ready s →
    (∃ p, (p ∈ ps ∨ isSelected Config.cfg s.cw p = true) ∧ ¬ Released Config.cfg p s) →
    ((∃ (c : Chip) (a : Nat) (vb : List Byte), i = .wrv (.chip c) a vb ∧ ps = members Config.cfg c ∧ a ≤ 27 ∧ vb.length = 4) ∨
      ∃ (c : Chip) (bs : List Byte), i = .prog (.chip c) (.bytes bs) ∧ ps = (members Config.cfg c).take 1 ∧ 4 ≤ bs.length) →
    ∃ left, exec i s = .fault (.spiWhileInReset left) ∧ left.outcome = .fault .spiWhileInReset ∧ left.pc = s.pc ∧
      left.hist = s.hist ++ cwWriteEvents Config.cfg s.cw left.cw ∧ SameChips s left ∧
      left.attempt = none ∧ left.cursor = none ∧
      (∀ q, isSelected Config.cfg left.cw q = (decide (q ∈ ps) || isSelected Config.cfg s.cw q)) ∧
      ∀ f, f ≠ .cs → getField Config.cfg left.cw f = getField Config.cfg s.cw f) ∧
  ∀ (s : State) (p : PhysChip) (bs : List Byte), Ready s → RunInv s → NoneSelected Config.cfg s →
    IdealLink Config.cfg s.env.link → ¬ Released Config.cfg p s →
    (∀ q, chipIdx q < chipIdx p → Released Config.cfg q s) → 4 ≤ bs.length → bs.length / 4 ≤ 28 →
    ∃ left es, exec (.prog (.chip .All) (.bytes bs)) s = .fault (.spiWhileInReset left) ∧
      left.outcome = .fault .spiWhileInReset ∧ left.pc = s.pc ∧ left.hist = s.hist ++ es ∧
      writeFrames es = ((progOrder Config.cfg .All (bs.length / 4)).take (chipIdx p * (bs.length / 4))).map (progFrame Config.cfg bs) ∧
      (∀ q, chipIdx q < chipIdx p → left.life.get q = .configured ∧
        (∀ i, i < bs.length / 4 →
          left.reg q i = .known (valueOf Config.cfg (chunkAt Config.cfg bs i) &&& sigMask Config.cfg i)) ∧
        ∀ i, bs.length / 4 ≤ i → left.reg q i = s.reg q i) ∧
      (∀ q, chipIdx p ≤ chipIdx q → left.life.get q = s.life.get q ∧ left.regs.get q = s.regs.get q) ∧
      selected Config.cfg left.cw = [p] ∧ ∀ f, f ≠ .cs → getField Config.cfg left.cw f = getField Config.cfg s.cw f

/-! ## Device control -/

/-- RESET (R255, R256, R342, decisions D19 and D46): held, the sleep, released, with one set and one clear of the chip's bits;
afterwards its chips are Released and all their registers unknown, and the other chips are as before. -/
def Obligations.ResetPulse : Prop :=
  ∀ (s : State) (c : Chip) (d : Nat), Ready s →
    ∃ t w, exec (.reset (.chip c) (.micros d)) s = .next t ∧
      EndsDone s t .none (cwWriteEvents Config.cfg s.cw w ++ [.sleep d] ++ cwWriteEvents Config.cfg w t.cw) ∧
      FieldSet Config.cfg s.cw w .reset (getField Config.cfg s.cw .reset ||| amask Config.cfg c) ∧
      FieldSet Config.cfg w t.cw .reset (getField Config.cfg w .reset &&& dmask Config.cfg c) ∧
      (∀ p ∈ members Config.cfg c, Released Config.cfg p t ∧ t.life.get p = .released ∧ ∀ a, t.reg p a = .unknown) ∧
      ∀ p, p ∉ members Config.cfg c →
        resetBit Config.cfg t.cw p = resetBit Config.cfg s.cw p ∧ t.life.get p = s.life.get p ∧
          t.regs.get p = s.regs.get p

/-- SETTRIG (R260, R290, R37, decisions D7 and D36): the hold field takes the mode's code, the codes of two modes differ, and
every configured or triggering chip goes to the mode. -/
def Obligations.TriggerMode : Prop :=
  ∀ (s : State) (m : TrigMode), Ready s →
    (∃ t, exec (.setTrig (.mode m)) s = .next t ∧ EndsDone s t .none (cwWriteEvents Config.cfg s.cw t.cw) ∧
      FieldSet Config.cfg s.cw t.cw .hold (Config.cfg.holdCode m) ∧ t.regs = s.regs ∧
      ∀ p, ((s.life.get p = .configured ∨ ∃ k, s.life.get p = .triggering k) →
          t.life.get p = if m = .off then .configured else .triggering m) ∧
        (s.life.get p ≠ .configured → (∀ k, s.life.get p ≠ .triggering k) → t.life.get p = s.life.get p)) ∧
    ∀ m', m' ≠ m → Config.cfg.holdCode m' ≠ Config.cfg.holdCode m

/-- PROG under the ideal link (R270, R271, R290): done, one write frame a chunk at rising addresses, chip after chip, each heard
by its chip alone; the registers hold the chunks, the chips are configured, and nothing else changed. The ideal link is the spec's
decision D14, the lifecycle its decision D36. -/
def Obligations.ProgramUnderIdealLink : Prop :=
  ∀ (s : State) (c : Chip) (bs : List Byte), Ready s → RunInv s → NoneSelected Config.cfg s →
    (∀ p ∈ members Config.cfg c, Released Config.cfg p s) → IdealLink Config.cfg s.env.link → bs.length / 4 ≤ 28 →
    ∃ t es, exec (.prog (.chip c) (.bytes bs)) s = .next t ∧ EndsDone s t .none es ∧
      writeFrames es = (progOrder Config.cfg c (bs.length / 4)).map (progFrame Config.cfg bs) ∧
      (∀ p ∈ members Config.cfg c, t.life.get p = .configured ∧
        (∀ i, i < bs.length / 4 →
          t.reg p i = .known (valueOf Config.cfg (chunkAt Config.cfg bs i) &&& sigMask Config.cfg i)) ∧
        ∀ i, bs.length / 4 ≤ i → t.reg p i = s.reg p i) ∧
      (∀ p, p ∉ members Config.cfg c → t.life.get p = s.life.get p ∧ t.regs.get p = s.regs.get p) ∧ SameWindow s t

/-- PROG under every link and from every selection (R271, R272, R228 (e)): the events are those of the first pairs in the order of
R271, one to three attempts each (R227), each write frame heard by the pair's chip and by every chip that was selected at the start
and has not had its turn. When it ends done every pair has been written and the operand's chips are configured; an error of a pair
ends it after that pair's third attempt, no later pair is attempted, the chips completed before it are configured and every other chip
keeps its lifecycle (decision D36); UnknownRegisterError(28) comes after the 28 addresses of the first chip and changes no lifecycle
(decision D21). Only the selection of the chips that had their turn, and registers that the attempted pairs wrote in their listeners,
can have changed. A chip of the operand whose lifecycle says held in reset, which no run reaches while it can transfer, would keep it
(notes/assumptions/11.md). -/
def Obligations.ProgramOrder : Prop :=
  ∀ (s : State) (c : Chip) (bs : List Byte), Ready s → CanTransfer Config.cfg (members Config.cfg c) s →
    ∃ (t : State) (es : List Event) (ks : List Nat), exec (.prog (.chip c) (.bytes bs)) s = .next t ∧ (∀ k ∈ ks, 1 ≤ k ∧ k ≤ 3) ∧
      SentInOrder Config.cfg s c bs ks (writeFrames es) ∧ es.map eventShape = progShape Config.cfg c bs ks ∧
      (EndsDone s t .none es ∧ ks.length = (progOrder Config.cfg c (bs.length / 4)).length ∧ ConfiguredOnly s t (members Config.cfg c) ∨
        (∃ (p : PhysChip) (a : Nat), EndsInError s t (.writeVerification (asChip p) a) es ∧ ks.getLast? = some 3 ∧
          (progOrder Config.cfg c (bs.length / 4))[ks.length - 1]? = some (p, a) ∧
          ConfiguredOnly s t ((members Config.cfg c).takeWhile (· != p))) ∨
        28 < bs.length / 4 ∧ EndsInError s t (.unknownRegister 28) es ∧ ks.length = 28 ∧ t.life = s.life) ∧
      (∀ q, isSelected Config.cfg t.cw q =
        (!decide (q ∈ ((progOrder Config.cfg c (bs.length / 4)).take ks.length).map Prod.fst) && isSelected Config.cfg s.cw q)) ∧
      (∀ f, f ≠ .cs → getField Config.cfg t.cw f = getField Config.cfg s.cw f) ∧
      OnlyProgrammed Config.cfg s t c (bs.length / 4) ks.length

/-- PROG of more than 28 chunks under the ideal link programs addresses 0 to 27 of its first chip, raises UnknownRegisterError(28)
and leaves every chip's lifecycle and the window as they were (R272, decision D21). -/
def Obligations.ProgramOversize : Prop :=
  ∀ (s : State) (c : Chip) (bs : List Byte), Ready s → NoneSelected Config.cfg s →
    (∀ p ∈ members Config.cfg c, Released Config.cfg p s) → IdealLink Config.cfg s.env.link → 28 < bs.length / 4 →
    ∃ t es p, exec (.prog (.chip c) (.bytes bs)) s = .next t ∧ EndsInError s t (.unknownRegister 28) es ∧
      (members Config.cfg c).head? = some p ∧
      writeFrames es = (List.range 28).map (fun i => progFrame Config.cfg bs (p, i)) ∧
      (∀ i, i ≤ 27 → t.reg p i = .known (valueOf Config.cfg (chunkAt Config.cfg bs i) &&& sigMask Config.cfg i)) ∧
      (∀ q, q ≠ p → t.regs.get q = s.regs.get q) ∧ t.life = s.life ∧ SameWindow s t

/-- The blob of PROG: one that could not be read raises ConfigBlobError before any access (R305, decision D22); trailing bytes are
discarded without error (R306, R108); fewer than 4 bytes make no write and end done (R270, decision D23), which completes the
operand's chips: they are configured (R290, decision D36), unless held in reset, where the model keeps that state because the table of
R290 has no such row (notes/assumptions/11.md). -/
def Obligations.BlobHandling : Prop :=
  (∀ (s : State) (c : Chip), s.mapOK = true → s.spiOK = true →
    ∃ t, exec (.prog (.chip c) .unreadable) s = .next t ∧ EndsInError s t .configBlob [] ∧ Untouched s t) ∧
  (∀ (s : State) (c : ChipArg) (bs rest : List Byte), bs.length % 4 = 0 → rest.length < 4 →
    exec (.prog c (.bytes (bs ++ rest))) s = exec (.prog c (.bytes bs)) s) ∧
  ∀ (s : State) (c : Chip) (bs : List Byte), s.mapOK = true → s.spiOK = true → bs.length < 4 →
    ∃ t, exec (.prog (.chip c) (.bytes bs)) s = .next t ∧ EndsDone s t .none [] ∧ SameWindow s t ∧ t.regs = s.regs ∧
      ConfiguredOnly s t (members Config.cfg c)

/-- OPEN (R280, decision D35; R341): both handles, or DeviceOpenError with the cause, the window tried first; nothing is
written and no event recorded. That `pc` is 1 afterwards is the model's reading of R40 beside R48 (notes/assumptions/23.md). An OPEN
that is not the first operation is refused (R315). -/
def Obligations.OpenConstructs : Prop :=
  (∀ s : State, s.mapOK = false → s.spiOK = false → s.pc = 0 → s.outcome = .running →
    (s.env.canMap = true → s.env.canOpenSpi = true →
      exec .openDev s = .next
        { s with
          mapOK := true, spiOK := true, pc := 1, attempt := none, cursor := none, result := .none
          outcome := .done }) ∧
    (s.env.canMap = false →
      ∃ t, exec .openDev s = .next t ∧ EndsInError s t (.deviceOpen .mmap) [] ∧ Untouched s t) ∧
    (s.env.canMap = true → s.env.canOpenSpi = false →
      ∃ t, exec .openDev s = .next t ∧ EndsInError s t (.deviceOpen .spi) [] ∧ Untouched s t)) ∧
  ∀ s : State, (s.mapOK = true ∨ s.spiOK = true ∨ s.pc ≠ 0) →
    exec .openDev s = .refused (.declined .openNotFirst (declinedState s .openNotFirst))

/-- SLEEP records the promised delay and changes nothing else (R285, decision D45). -/
def Obligations.SleepRecorded : Prop :=
  ∀ (s : State) (d : Nat), s.mapOK = true → s.spiOK = true →
    ∃ t, exec (.sleep (.micros d)) s = .next t ∧ EndsDone s t .none [.sleep d] ∧ Untouched s t

/-! ## Errors, refusals and faults -/

/-- A chip operand that names no chip raises InvalidChipError before every other check and before any access (R303, R308,
decisions D31 and D20), in every operation that has one. -/
def Obligations.InvalidChipRaised : Prop :=
  ∀ (s : State) (id : Text) (i : Instr), s.mapOK = true → s.spiOK = true →
    ((∃ f, i = .cwSet f (.bad id)) ∨ (∃ f, i = .cwClear f (.bad id)) ∨ i = .csAssert (.bad id) ∨
      i = .csDeassert (.bad id) ∨ (∃ a vb, i = .wrv (.bad id) a vb) ∨ (∃ d, i = .reset (.bad id) d) ∨
      ∃ b, i = .prog (.bad id) b) →
    ∃ t, exec i s = .next t ∧ EndsInError s t (.invalidChip id) [] ∧ Untouched s t

/-- The other refused operands (R113, R315): a value of other than 4 bytes, a trigger mode outside the three, a duration that is
no natural number, and a VCMP on an address that is not checked, which is the model's choice (notes/assumptions/9.md). A wrong
value length is reported before a wrong address: R308 (decision D20) against the order of R224's pseudocode, the model's reading in
notes/assumptions/10.md. -/
def Obligations.OperandsRefused : Prop :=
  ∀ s : State, s.mapOK = true → s.spiOK = true →
    (∀ (c : Chip) (a : Int) (vb : List Byte), vb.length ≠ 4 →
      exec (.wrv (.chip c) a vb) s = .refused (.declined .valueNotFourBytes (declinedState s .valueNotFourBytes))) ∧
    (∀ id, exec (.setTrig (.bad id)) s = .refused (.declined .unknownMode (declinedState s .unknownMode))) ∧
    (∀ (c : Chip) (id : Text),
      exec (.reset (.chip c) (.bad id)) s =
        .refused (.declined .durationNotNatural (declinedState s .durationNotNatural))) ∧
    (∀ id, exec (.sleep (.bad id)) s = .refused (.declined .durationNotNatural (declinedState s .durationNotNatural))) ∧
    ∀ (n : Nat) (w r : Word), 27 < n →
      exec (.vcmp n w r) s = .refused (.declined .uncheckedAddress (declinedState s .uncheckedAddress))

/-- No operation but OPEN is admitted without both handles, whatever its operands (R301, R315, R317, R308 (1)). -/
def Obligations.NotAdmitted : Prop :=
  ∀ (s : State) (i : Instr), i ≠ .openDev → (s.mapOK = false ∨ s.spiOK = false) →
    exec i s = .refused (.declined .notAdmitted (declinedState s .notAdmitted))

/-- IoFault (R313, U29, decision D25), for every access of the operations that make at most four (WRV and PROG have
`FaultsInsideComposites`): a failing first access ends the operation with the state as it was and no event; a failing transfer leaves
the window and, unless it took effect, the chips, and in any case one that is held in reset (notes/assumptions/21.md); a failing write
of CW leaves the old or the new word, with what the new one does to the chips (notes/assumptions/11.md; for SETTRIG
notes/assumptions/24.md); RESET may fail in either phase, RDTEMP at its second read. How the failure is drawn, and that a failed
access records no event, is the model's own (notes/assumptions/6.md). -/
def Obligations.IoFaultEnds : Prop :=
  ∀ (s : State) (took : Bool) (i : Instr),
    (FailsAfter 0 took s →
      ((∃ f, i = .cwRead (.cw f)) ∨ (∃ f, i = .swRead (.sw f)) ∨ i = .rdErr ∨ i = .rdTemp ∨
        (∃ f, ∃ v : BitVec 4, i = .cwAssign (.cw f) v.toNat) ∨ (∃ v : BitVec 4, i = .setClk v.toNat) ∨
        (∃ f c, i = .cwSet (.cw f) (.chip c)) ∨ (∃ f c, i = .cwClear (.cw f) (.chip c)) ∨
        (∃ c, i = .csAssert (.chip c)) ∨ (∃ c, i = .csDeassert (.chip c)) ∨
        (∃ c d, i = .reset (.chip c) (.micros d)) ∨ ∃ m, i = .setTrig (.mode m)) →
      exec i s = .fault (.ioFault (faultedState s .ioFault))) ∧
    (FailsAfter 0 took s →
      ((∃ tx, i = .spiXfer tx ∧ tx ≠ []) ∨ (∃ a v, i = .frameW a v) ∨ ∃ a v, i = .frameR a v) →
      ∃ left, exec i s = .fault (.ioFault left) ∧ left.outcome = .fault .ioFault ∧ left.hist = s.hist ∧
        SameWindow s left ∧ left.life = s.life ∧ left.pc = s.pc ∧ (took = false → left.regs = s.regs) ∧
        ∀ p, isSelected Config.cfg s.cw p = false ∨ ¬ Released Config.cfg p s → left.regs.get p = s.regs.get p) ∧
    (FailsAfter 1 took s →
      ∀ (f : CwField) (v : BitVec 4),
      (i = .cwAssign (.cw f) v.toNat ∨
        (∃ c, (i = .cwSet (.cw f) (.chip c) ∨ f = .cs ∧ i = .csAssert (.chip c) ∨
            f = .reset ∧ ∃ d, i = .reset (.chip c) (.micros d)) ∧
          v = getField Config.cfg s.cw f ||| amask Config.cfg c) ∨
        (∃ c, (i = .cwClear (.cw f) (.chip c) ∨ f = .cs ∧ i = .csDeassert (.chip c)) ∧
          v = getField Config.cfg s.cw f &&& dmask Config.cfg c) ∨
        f = .sysclk ∧ i = .setClk v.toNat ∨ f = .hold ∧ ∃ m, i = .setTrig (.mode m) ∧ v = Config.cfg.holdCode m) →
      ∃ left, exec i s = .fault (.ioFault left) ∧ left.outcome = .fault .ioFault ∧
        left.hist = s.hist ++ [.mmioR Config.cfg.cwOffset 2 (s.cw.setWidth 64)] ∧ left.pc = s.pc ∧
        (took = false → SameChips s left ∧ left.cw = s.cw) ∧
        (took = true → FieldSet Config.cfg s.cw left.cw f v ∧ ChipsFollow Config.cfg s left)) ∧
    (∀ (c : Chip) (d n : Nat), FailsAfter n took s → n = 2 ∨ n = 3 → i = .reset (.chip c) (.micros d) →
      ∃ left w, exec i s = .fault (.ioFault left) ∧ left.outcome = .fault .ioFault ∧ left.pc = s.pc ∧
        FieldSet Config.cfg s.cw w .reset (getField Config.cfg s.cw .reset ||| amask Config.cfg c) ∧
        left.hist = s.hist ++ cwWriteEvents Config.cfg s.cw w ++ [.sleep d] ++
          (if n = 3 then [.mmioR Config.cfg.cwOffset 2 (w.setWidth 64)] else []) ∧
        (if n = 3 ∧ took = true then FieldSet Config.cfg w left.cw .reset (getField Config.cfg w .reset &&& dmask Config.cfg c)
          else left.cw = w) ∧
        (∀ p ∈ members Config.cfg c, (left.life.get p = if n = 3 ∧ took = true then .released else .heldInReset) ∧
          ∀ a, left.reg p a = .unknown) ∧
        ∀ p, p ∉ members Config.cfg c → left.life.get p = s.life.get p ∧ left.regs.get p = s.regs.get p) ∧
    (FailsAfter 1 took s → i = .rdTemp →
      ∃ left w0, exec i s = .fault (.ioFault left) ∧ left.outcome = .fault .ioFault ∧ left.pc = s.pc ∧
        left.hist = s.hist ++ [.mmioR Config.cfg.sw0Offset 4 w0] ∧ Untouched s left)

/-- What every error leaves (R309): the sequencer has not moved, earlier events and effects stay, nothing is acquired or
released, and the error names its cause. -/
def Obligations.ErrorEntry : Prop :=
  ∀ (i : Instr) (s t : State) (e : ArchError), exec i s = .next t → t.outcome = .error e →
    t.pc = s.pc ∧ t.result = s.result ∧ s.hist <+: t.hist ∧ t.mapOK = s.mapOK ∧ t.spiOK = s.spiOK ∧
      t.program = s.program ∧ t.names = s.names ∧ t.attempt = none ∧ t.cursor = none

/-- Only the operations that the taxonomy names raise each error (R300, R307), and each error has its code (decision D32). -/
def Obligations.ErrorsHaveRaisers : Prop :=
  ∀ (i : Instr) (s t : State) (e : ArchError), exec i s = .next t → t.outcome = .error e →
    match e with
    | .deviceOpen _ => e.code = 1 ∧ i = .openDev
    | .unknownRegister _ =>
      e.code = 2 ∧
        ((∃ a, i = .catSiglen a ∨ i = .catMask a ∨ i = .catLayout a ∨ (∃ xs, i = .catPack a xs) ∨
          ∃ v, i = .catUnpack a v) ∨ (∃ c a vb, i = .wrv c a vb) ∨ ∃ c b, i = .prog c b)
    | .invalidChip id =>
      e.code = 3 ∧
        ((∃ f, i = .cwSet f (.bad id)) ∨ (∃ f, i = .cwClear f (.bad id)) ∨ i = .csAssert (.bad id) ∨
          i = .csDeassert (.bad id) ∨ (∃ a vb, i = .wrv (.bad id) a vb) ∨ (∃ d, i = .reset (.bad id) d) ∨
          ∃ b, i = .prog (.bad id) b)
    | .writeVerification _ _ => e.code = 4 ∧ ((∃ c a vb, i = .wrv c a vb) ∨ ∃ c b, i = .prog c b)
    | .configBlob => e.code = 5 ∧ ∃ c, i = .prog c .unreadable

/-! ## Steps and runs -/

/-- A step runs the instruction that the line at `pc` decodes to (R40). When the operation ended done, the step puts its result under
the caller's name (R121) and lets the run go on while a line follows (R345; notes/assumptions/15.md). An operation is one on the block
alone, under the machine's configuration, and neither reads nor changes the caller's programs; `step` is the block's step with those
programs as its parameters, and that step runs the decoded instruction too, under every configuration and program (R7, R49;
notes/assumptions/3.md). -/
def Obligations.StepRunsDecoded : Prop :=
  (∀ (s : State) (line : Text) (l : Line), s.env.secondCaller = false → s.outcome = .running →
    s.program[s.pc]? = some line → decode line = .ok l →
    (∀ t, exec l.op s = .next t →
      step s = .next
        (if t.outcome = .done then
          { t with
            names := (match l.dest with | some r => (r, t.result) :: t.names | none => t.names)
            outcome := if t.pc < s.program.length then .running else .done }
        else t)) ∧
    (∀ f, exec l.op s = .fault f → step s = .fault f) ∧ ∀ r, exec l.op s = .refused r → step s = .refused r) ∧
  (∀ (i : Instr) (s : State), onBlock (exec i s) = execBlock Config.cfg i s.toBlock ∧
    ∀ t, exec i s = .next t → t.program = s.program ∧ t.pending = s.pending) ∧
  (∀ s : State, onBlock (step s) = stepOf Config.cfg s.program s.pending s.toBlock) ∧
  ∀ (g : Cfg) (p : Program) (later : List Program) (b : Block) (line : Text) (l : Line), b.env.secondCaller = false →
    b.outcome = .running → p[b.pc]? = some line → decode line g = .ok l →
    (∀ t, execBlock g l.op b = .next t →
      stepOf g p later b = .next
        (if t.outcome = .done then
          { t with
            names := (match l.dest with | some r => (r, t.result) :: t.names | none => t.names)
            outcome := if t.pc < p.length then .running else .done }
        else t)) ∧
    (∀ f, execBlock g l.op b = .fault f → stepOf g p later b = .fault f) ∧
    ∀ r, execBlock g l.op b = .refused r → stepOf g p later b = .refused r

/-- After a done program or an error other than DeviceOpenError the caller's next program starts from the state left, with `pc` 0 and
outcome running (R310, R345); without one the block does nothing (R340). After a DeviceOpenError no operation is admitted (R301), and
that the next program is refused as not admitted when it would start is the model's reading (notes/assumptions/16.md). The queue of
programs is the model's (notes/assumptions/3.md). -/
def Obligations.NewProgramStarts : Prop :=
  ∀ s : State, s.env.secondCaller = false →
    (s.outcome = .done ∨ ∃ e, s.outcome = .error e) →
    (s.pending = [] → step s = .next s) ∧
    ∀ p ps, s.pending = p :: ps →
      ((∀ c, s.outcome ≠ .error (.deviceOpen c)) →
        step s = .next { s with pc := 0, outcome := .running, program := p, pending := ps }) ∧
      ((∃ c, s.outcome = .error (.deviceOpen c)) →
        step s = .refused (.declined .notAdmitted (declinedState s .notAdmitted)))

/-- A fault and a refusal end the run and are never cleared or changed (R43, R312, R315, decisions D25 and D29), also when a second
caller comes; in any other run a second caller is refused (R318, decision D40; notes/assumptions/17.md); a line that stands for no
operation is refused (the model's, notes/assumptions/5.md). -/
def Obligations.RunEndsAreFinal : Prop :=
  ∀ s : State,
    (s.outcome = .fault .ioFault → step s = .fault (.ioFault s)) ∧
    (s.outcome = .fault .spiWhileInReset → step s = .fault (.spiWhileInReset s)) ∧
    (∀ r, s.outcome = .refused r → step s = .refused (.declined r s)) ∧
    (s.env.secondCaller = true → (s.outcome = .running ∨ s.outcome = .done ∨ ∃ e, s.outcome = .error e) →
      step s = .refused (.declined .secondCaller (declinedState s .secondCaller))) ∧
    ∀ line e, s.env.secondCaller = false → s.outcome = .running → s.program[s.pc]? = some line →
      decode line = .error e →
      step s = .refused (.declined .undecodable (declinedState s .undecodable))

/-- The sequencer advances by exactly 1 when an operation ends done and stays when it ends in an error (R40, decision D41). Only where
no line is left to run, or after a done program or an error, does a step start the caller's next program (R310), or do nothing when
there is none (R340). When running turns into done, and what a running state without a line at `pc` does, is the model's reading
(notes/assumptions/15.md); the queue of programs is the model's (notes/assumptions/3.md). -/
def Obligations.SequencerMoves : Prop :=
  ∀ s t : State, step s = .next t →
    (s.outcome = .running ∧ s.pc < s.program.length ∧
      (t.pc = s.pc + 1 ∧ t.outcome = (if s.program.length ≤ s.pc + 1 then .done else .running) ∨
        t.pc = s.pc ∧ ∃ e, t.outcome = .error e)) ∨
    ((s.outcome = .done ∨ (∃ e, s.outcome = .error e ∧ ∀ c, e ≠ .deviceOpen c ∨ s.pending = []) ∨
        s.outcome = .running ∧ s.program.length ≤ s.pc) ∧
      ((∃ p ps, s.pending = p :: ps ∧ t = s.startProgram p ps) ∨ s.pending = [] ∧ t = s))

/-- The history only grows, and the handles are kept for the controller's lifetime (R44, decision D41; R35), also by a step that
ends the run. -/
def Obligations.HistoryOnlyGrows : Prop :=
  ∀ s t : State,
    (step s = .next t ∨ step s = .fault (.ioFault t) ∨ step s = .fault (.spiWhileInReset t) ∨
      ∃ r, step s = .refused (.declined r t)) →
    s.hist <+: t.hist ∧ (s.mapOK = true → t.mapOK = true) ∧ (s.spiOK = true → t.spiOK = true)

/-- A field of the control word changes only through an operation that writes that field (R20, R74, R79): no other instruction
touches it. -/
def Obligations.CwFieldWriters : Prop :=
  ∀ (i : Instr) (s t : State) (f : CwField), exec i s = .next t →
    getField Config.cfg t.cw f ≠ getField Config.cfg s.cw f →
    (∃ v, i = .cwAssign (.cw f) v) ∨ (∃ c, i = .cwSet (.cw f) c) ∨ (∃ c, i = .cwClear (.cw f) c) ∨
    (f = .cs ∧ ((∃ c, i = .csAssert c) ∨ (∃ c, i = .csDeassert c) ∨ (∃ c a vb, i = .wrv c a vb) ∨ ∃ c b, i = .prog c b)) ∨
    (f = .sysclk ∧ ∃ v, i = .setClk v) ∨ (f = .reset ∧ ∃ c d, i = .reset c d) ∨ (f = .hold ∧ ∃ m, i = .setTrig m)

/-- A chip's registers change only through frames to it and through its reset (R79): by a transfer while it is selected, by a
verified write or a PROG, or by a control-word write that sets its reset bit. -/
def Obligations.RegisterWriters : Prop :=
  ∀ (i : Instr) (s t : State) (p : PhysChip), exec i s = .next t → t.regs.get p ≠ s.regs.get p →
    (isSelected Config.cfg s.cw p = true ∧
      ((∃ tx, i = .spiXfer tx) ∨ (∃ a v, i = .frameW a v) ∨ ∃ a v, i = .frameR a v)) ∨
    (∃ c a vb, i = .wrv (.chip c) a vb ∧ (p ∈ members Config.cfg c ∨ isSelected Config.cfg s.cw p = true)) ∨
    (∃ c bs, i = .prog (.chip c) (.bytes bs) ∧ (p ∈ members Config.cfg c ∨ isSelected Config.cfg s.cw p = true)) ∨
    (∃ c d, i = .reset (.chip c) d ∧ p ∈ members Config.cfg c) ∨
    (resetBit Config.cfg s.cw p = false ∧ resetBit Config.cfg t.cw p = true ∧
      ((∃ v, i = .cwAssign (.cw .reset) v) ∨ ∃ c, i = .cwSet (.cw .reset) (.chip c) ∧ p ∈ members Config.cfg c))

/-- The power-on state of R48 (decision D47) for every launch value of CW and every configuration: CW has `cwBits` of its bits, and a
chip that is there is held in reset when its reset bit is 1. That a launch value of more bits than CW is cut to them, and that an absent
chip of another configuration of R7 is not held, is the model's choice (DESIGN CHOICE, notes/assumptions/25.md). -/
def Obligations.PowerOnState : Prop :=
  ∀ (cw0 : CwWord) (g : Cfg),
    let s := State.powerOn cw0 g
    s.cw = cw0 &&& lowMask g.cwBits ∧ (∀ p a, s.reg p a = .unknown) ∧
      (∀ p, s.life.get p = if resetBit g s.cw p then .heldInReset else .unknown) ∧
      s.mapOK = false ∧ s.spiOK = false ∧ s.pc = 0 ∧ s.attempt = none ∧ s.cursor = none ∧ s.outcome = .running ∧
      s.hist = []

/-- The invariant holds at power-on, whatever CW is; the state after reset is such a state. -/
def Obligations.PowerOnInv : Prop := (∀ cw0, RunInv (State.powerOn cw0)) ∧ RunInv State.reset

/-- Every step keeps the invariant: the register files stay canonical (R30), CW stays within its 16 bits (R20), a chip is held in
reset exactly when its reset bit says so and then has no known register (R23, R33, R36), one trigger mode for all (R37), the attempt
counter and the cursor do not survive their operation (R41, R42), and the sequencer stays in its program (R40). -/
def Obligations.StepKeepsInv : Prop := ∀ s t : State, RunInv s → step s = .next t → RunInv t

end
end

