-- ==== Sys2Proof/Laws/State.lean ====
section
/-! SUPPORT. Sys2Proof/Laws/State.lean: for every update of the state, what each field is afterwards. -/

namespace Sys2Proof.Machine

/-! ### record -/

@[simp] theorem State.record_cw (s : State) (e : Event) : (s.record e).cw = s.cw := rfl
@[simp] theorem State.record_regs (s : State) (e : Event) : (s.record e).regs = s.regs := rfl
@[simp] theorem State.record_life (s : State) (e : Event) : (s.record e).life = s.life := rfl
@[simp] theorem State.record_mapOK (s : State) (e : Event) : (s.record e).mapOK = s.mapOK := rfl
@[simp] theorem State.record_spiOK (s : State) (e : Event) : (s.record e).spiOK = s.spiOK := rfl
@[simp] theorem State.record_pc (s : State) (e : Event) : (s.record e).pc = s.pc := rfl
@[simp] theorem State.record_attempt (s : State) (e : Event) : (s.record e).attempt = s.attempt := rfl
@[simp] theorem State.record_cursor (s : State) (e : Event) : (s.record e).cursor = s.cursor := rfl
@[simp] theorem State.record_outcome (s : State) (e : Event) : (s.record e).outcome = s.outcome := rfl
@[simp] theorem State.record_hist (s : State) (e : Event) : (s.record e).hist = s.hist ++ [e] := rfl
@[simp] theorem State.record_result (s : State) (e : Event) : (s.record e).result = s.result := rfl
@[simp] theorem State.record_names (s : State) (e : Event) : (s.record e).names = s.names := rfl
@[simp] theorem State.record_program (s : State) (e : Event) : (s.record e).program = s.program := rfl
@[simp] theorem State.record_pending (s : State) (e : Event) : (s.record e).pending = s.pending := rfl
@[simp] theorem State.record_env (s : State) (e : Event) : (s.record e).env = s.env := rfl

/-! ### writeCw -/

@[simp] theorem State.writeCw_cw (s : State) (g : Cfg) (w : CwWord) : (s.writeCw g w).cw = w := rfl
@[simp] theorem State.writeCw_mapOK (s : State) (g : Cfg) (w : CwWord) : (s.writeCw g w).mapOK = s.mapOK := rfl
@[simp] theorem State.writeCw_spiOK (s : State) (g : Cfg) (w : CwWord) : (s.writeCw g w).spiOK = s.spiOK := rfl
@[simp] theorem State.writeCw_pc (s : State) (g : Cfg) (w : CwWord) : (s.writeCw g w).pc = s.pc := rfl
@[simp] theorem State.writeCw_attempt (s : State) (g : Cfg) (w : CwWord) : (s.writeCw g w).attempt = s.attempt := rfl
@[simp] theorem State.writeCw_cursor (s : State) (g : Cfg) (w : CwWord) : (s.writeCw g w).cursor = s.cursor := rfl
@[simp] theorem State.writeCw_outcome (s : State) (g : Cfg) (w : CwWord) : (s.writeCw g w).outcome = s.outcome := rfl
@[simp] theorem State.writeCw_hist (s : State) (g : Cfg) (w : CwWord) : (s.writeCw g w).hist = s.hist := rfl
@[simp] theorem State.writeCw_result (s : State) (g : Cfg) (w : CwWord) : (s.writeCw g w).result = s.result := rfl
@[simp] theorem State.writeCw_names (s : State) (g : Cfg) (w : CwWord) : (s.writeCw g w).names = s.names := rfl
@[simp] theorem State.writeCw_program (s : State) (g : Cfg) (w : CwWord) : (s.writeCw g w).program = s.program := rfl
@[simp] theorem State.writeCw_pending (s : State) (g : Cfg) (w : CwWord) : (s.writeCw g w).pending = s.pending := rfl
@[simp] theorem State.writeCw_env (s : State) (g : Cfg) (w : CwWord) : (s.writeCw g w).env = s.env := rfl

/-! ### latch -/

@[simp] theorem State.latch_cw (s : State) (g : Cfg) (ps : List PhysChip) (a : Nat) (v : Word) : (s.latch g ps a v).cw = s.cw := rfl
@[simp] theorem State.latch_life (s : State) (g : Cfg) (ps : List PhysChip) (a : Nat) (v : Word) : (s.latch g ps a v).life = s.life := rfl
@[simp] theorem State.latch_mapOK (s : State) (g : Cfg) (ps : List PhysChip) (a : Nat) (v : Word) : (s.latch g ps a v).mapOK = s.mapOK := rfl
@[simp] theorem State.latch_spiOK (s : State) (g : Cfg) (ps : List PhysChip) (a : Nat) (v : Word) : (s.latch g ps a v).spiOK = s.spiOK := rfl
@[simp] theorem State.latch_pc (s : State) (g : Cfg) (ps : List PhysChip) (a : Nat) (v : Word) : (s.latch g ps a v).pc = s.pc := rfl
@[simp] theorem State.latch_attempt (s : State) (g : Cfg) (ps : List PhysChip) (a : Nat) (v : Word) : (s.latch g ps a v).attempt = s.attempt := rfl
@[simp] theorem State.latch_cursor (s : State) (g : Cfg) (ps : List PhysChip) (a : Nat) (v : Word) : (s.latch g ps a v).cursor = s.cursor := rfl
@[simp] theorem State.latch_outcome (s : State) (g : Cfg) (ps : List PhysChip) (a : Nat) (v : Word) : (s.latch g ps a v).outcome = s.outcome := rfl
@[simp] theorem State.latch_hist (s : State) (g : Cfg) (ps : List PhysChip) (a : Nat) (v : Word) : (s.latch g ps a v).hist = s.hist := rfl
@[simp] theorem State.latch_result (s : State) (g : Cfg) (ps : List PhysChip) (a : Nat) (v : Word) : (s.latch g ps a v).result = s.result := rfl
@[simp] theorem State.latch_names (s : State) (g : Cfg) (ps : List PhysChip) (a : Nat) (v : Word) : (s.latch g ps a v).names = s.names := rfl
@[simp] theorem State.latch_program (s : State) (g : Cfg) (ps : List PhysChip) (a : Nat) (v : Word) : (s.latch g ps a v).program = s.program := rfl
@[simp] theorem State.latch_pending (s : State) (g : Cfg) (ps : List PhysChip) (a : Nat) (v : Word) : (s.latch g ps a v).pending = s.pending := rfl
@[simp] theorem State.latch_env (s : State) (g : Cfg) (ps : List PhysChip) (a : Nat) (v : Word) : (s.latch g ps a v).env = s.env := rfl

/-! ### forget -/

@[simp] theorem State.forget_cw (s : State) (ps : List PhysChip) : (s.forget ps).cw = s.cw := rfl
@[simp] theorem State.forget_life (s : State) (ps : List PhysChip) : (s.forget ps).life = s.life := rfl
@[simp] theorem State.forget_mapOK (s : State) (ps : List PhysChip) : (s.forget ps).mapOK = s.mapOK := rfl
@[simp] theorem State.forget_spiOK (s : State) (ps : List PhysChip) : (s.forget ps).spiOK = s.spiOK := rfl
@[simp] theorem State.forget_pc (s : State) (ps : List PhysChip) : (s.forget ps).pc = s.pc := rfl
@[simp] theorem State.forget_attempt (s : State) (ps : List PhysChip) : (s.forget ps).attempt = s.attempt := rfl
@[simp] theorem State.forget_cursor (s : State) (ps : List PhysChip) : (s.forget ps).cursor = s.cursor := rfl
@[simp] theorem State.forget_outcome (s : State) (ps : List PhysChip) : (s.forget ps).outcome = s.outcome := rfl
@[simp] theorem State.forget_hist (s : State) (ps : List PhysChip) : (s.forget ps).hist = s.hist := rfl
@[simp] theorem State.forget_result (s : State) (ps : List PhysChip) : (s.forget ps).result = s.result := rfl
@[simp] theorem State.forget_names (s : State) (ps : List PhysChip) : (s.forget ps).names = s.names := rfl
@[simp] theorem State.forget_program (s : State) (ps : List PhysChip) : (s.forget ps).program = s.program := rfl
@[simp] theorem State.forget_pending (s : State) (ps : List PhysChip) : (s.forget ps).pending = s.pending := rfl
@[simp] theorem State.forget_env (s : State) (ps : List PhysChip) : (s.forget ps).env = s.env := rfl

/-! ### setLife -/

@[simp] theorem State.setLife_cw (s : State) (ps : List PhysChip) (l : Life) : (s.setLife ps l).cw = s.cw := rfl
@[simp] theorem State.setLife_regs (s : State) (ps : List PhysChip) (l : Life) : (s.setLife ps l).regs = s.regs := rfl
@[simp] theorem State.setLife_mapOK (s : State) (ps : List PhysChip) (l : Life) : (s.setLife ps l).mapOK = s.mapOK := rfl
@[simp] theorem State.setLife_spiOK (s : State) (ps : List PhysChip) (l : Life) : (s.setLife ps l).spiOK = s.spiOK := rfl
@[simp] theorem State.setLife_pc (s : State) (ps : List PhysChip) (l : Life) : (s.setLife ps l).pc = s.pc := rfl
@[simp] theorem State.setLife_attempt (s : State) (ps : List PhysChip) (l : Life) : (s.setLife ps l).attempt = s.attempt := rfl
@[simp] theorem State.setLife_cursor (s : State) (ps : List PhysChip) (l : Life) : (s.setLife ps l).cursor = s.cursor := rfl
@[simp] theorem State.setLife_outcome (s : State) (ps : List PhysChip) (l : Life) : (s.setLife ps l).outcome = s.outcome := rfl
@[simp] theorem State.setLife_hist (s : State) (ps : List PhysChip) (l : Life) : (s.setLife ps l).hist = s.hist := rfl
@[simp] theorem State.setLife_result (s : State) (ps : List PhysChip) (l : Life) : (s.setLife ps l).result = s.result := rfl
@[simp] theorem State.setLife_names (s : State) (ps : List PhysChip) (l : Life) : (s.setLife ps l).names = s.names := rfl
@[simp] theorem State.setLife_program (s : State) (ps : List PhysChip) (l : Life) : (s.setLife ps l).program = s.program := rfl
@[simp] theorem State.setLife_pending (s : State) (ps : List PhysChip) (l : Life) : (s.setLife ps l).pending = s.pending := rfl
@[simp] theorem State.setLife_env (s : State) (ps : List PhysChip) (l : Life) : (s.setLife ps l).env = s.env := rfl

/-! ### complete -/

@[simp] theorem State.complete_cw (s : State) (r : Result) : (s.complete r).cw = s.cw := rfl
@[simp] theorem State.complete_regs (s : State) (r : Result) : (s.complete r).regs = s.regs := rfl
@[simp] theorem State.complete_life (s : State) (r : Result) : (s.complete r).life = s.life := rfl
@[simp] theorem State.complete_mapOK (s : State) (r : Result) : (s.complete r).mapOK = s.mapOK := rfl
@[simp] theorem State.complete_spiOK (s : State) (r : Result) : (s.complete r).spiOK = s.spiOK := rfl
@[simp] theorem State.complete_pc (s : State) (r : Result) : (s.complete r).pc = s.pc + 1 := rfl
@[simp] theorem State.complete_attempt (s : State) (r : Result) : (s.complete r).attempt = none := rfl
@[simp] theorem State.complete_cursor (s : State) (r : Result) : (s.complete r).cursor = none := rfl
@[simp] theorem State.complete_outcome (s : State) (r : Result) : (s.complete r).outcome = .done := rfl
@[simp] theorem State.complete_hist (s : State) (r : Result) : (s.complete r).hist = s.hist := rfl
@[simp] theorem State.complete_result (s : State) (r : Result) : (s.complete r).result = r := rfl
@[simp] theorem State.complete_names (s : State) (r : Result) : (s.complete r).names = s.names := rfl
@[simp] theorem State.complete_program (s : State) (r : Result) : (s.complete r).program = s.program := rfl
@[simp] theorem State.complete_pending (s : State) (r : Result) : (s.complete r).pending = s.pending := rfl
@[simp] theorem State.complete_env (s : State) (r : Result) : (s.complete r).env = s.env := rfl

/-! ### halt -/

@[simp] theorem State.halt_cw (s : State) (o : RunOutcome) : (s.halt o).cw = s.cw := rfl
@[simp] theorem State.halt_regs (s : State) (o : RunOutcome) : (s.halt o).regs = s.regs := rfl
@[simp] theorem State.halt_life (s : State) (o : RunOutcome) : (s.halt o).life = s.life := rfl
@[simp] theorem State.halt_mapOK (s : State) (o : RunOutcome) : (s.halt o).mapOK = s.mapOK := rfl
@[simp] theorem State.halt_spiOK (s : State) (o : RunOutcome) : (s.halt o).spiOK = s.spiOK := rfl
@[simp] theorem State.halt_pc (s : State) (o : RunOutcome) : (s.halt o).pc = s.pc := rfl
@[simp] theorem State.halt_hist (s : State) (o : RunOutcome) : (s.halt o).hist = s.hist := rfl
@[simp] theorem State.halt_result (s : State) (o : RunOutcome) : (s.halt o).result = s.result := rfl
@[simp] theorem State.halt_names (s : State) (o : RunOutcome) : (s.halt o).names = s.names := rfl
@[simp] theorem State.halt_program (s : State) (o : RunOutcome) : (s.halt o).program = s.program := rfl
@[simp] theorem State.halt_pending (s : State) (o : RunOutcome) : (s.halt o).pending = s.pending := rfl
@[simp] theorem State.halt_env (s : State) (o : RunOutcome) : (s.halt o).env = s.env := rfl
@[simp] theorem State.halt_attempt (s : State) (o : RunOutcome) : (s.halt o).attempt = none := rfl
@[simp] theorem State.halt_cursor (s : State) (o : RunOutcome) : (s.halt o).cursor = none := rfl
@[simp] theorem State.halt_outcome (s : State) (o : RunOutcome) : (s.halt o).outcome = o := rfl

/-! ### raise -/

@[simp] theorem State.raise_cw (s : State) (e : ArchError) : (s.raise e).cw = s.cw := rfl
@[simp] theorem State.raise_regs (s : State) (e : ArchError) : (s.raise e).regs = s.regs := rfl
@[simp] theorem State.raise_life (s : State) (e : ArchError) : (s.raise e).life = s.life := rfl
@[simp] theorem State.raise_mapOK (s : State) (e : ArchError) : (s.raise e).mapOK = s.mapOK := rfl
@[simp] theorem State.raise_spiOK (s : State) (e : ArchError) : (s.raise e).spiOK = s.spiOK := rfl
@[simp] theorem State.raise_pc (s : State) (e : ArchError) : (s.raise e).pc = s.pc := rfl
@[simp] theorem State.raise_attempt (s : State) (e : ArchError) : (s.raise e).attempt = none := rfl
@[simp] theorem State.raise_cursor (s : State) (e : ArchError) : (s.raise e).cursor = none := rfl
@[simp] theorem State.raise_outcome (s : State) (e : ArchError) : (s.raise e).outcome = .error e := rfl
@[simp] theorem State.raise_hist (s : State) (e : ArchError) : (s.raise e).hist = s.hist := rfl
@[simp] theorem State.raise_result (s : State) (e : ArchError) : (s.raise e).result = s.result := rfl
@[simp] theorem State.raise_names (s : State) (e : ArchError) : (s.raise e).names = s.names := rfl
@[simp] theorem State.raise_program (s : State) (e : ArchError) : (s.raise e).program = s.program := rfl
@[simp] theorem State.raise_pending (s : State) (e : ArchError) : (s.raise e).pending = s.pending := rfl
@[simp] theorem State.raise_env (s : State) (e : ArchError) : (s.raise e).env = s.env := rfl

/-! ### nameResult and proceed -/

@[simp] theorem State.nameResult_cw (s : State) (r : Option Text) : (s.nameResult r).cw = s.cw := by
  unfold State.nameResult; cases r <;> [rfl; (dsimp only; split <;> rfl)]
@[simp] theorem State.nameResult_regs (s : State) (r : Option Text) : (s.nameResult r).regs = s.regs := by
  unfold State.nameResult; cases r <;> [rfl; (dsimp only; split <;> rfl)]
@[simp] theorem State.nameResult_life (s : State) (r : Option Text) : (s.nameResult r).life = s.life := by
  unfold State.nameResult; cases r <;> [rfl; (dsimp only; split <;> rfl)]
@[simp] theorem State.nameResult_mapOK (s : State) (r : Option Text) : (s.nameResult r).mapOK = s.mapOK := by
  unfold State.nameResult; cases r <;> [rfl; (dsimp only; split <;> rfl)]
@[simp] theorem State.nameResult_spiOK (s : State) (r : Option Text) : (s.nameResult r).spiOK = s.spiOK := by
  unfold State.nameResult; cases r <;> [rfl; (dsimp only; split <;> rfl)]
@[simp] theorem State.nameResult_pc (s : State) (r : Option Text) : (s.nameResult r).pc = s.pc := by
  unfold State.nameResult; cases r <;> [rfl; (dsimp only; split <;> rfl)]
@[simp] theorem State.nameResult_attempt (s : State) (r : Option Text) : (s.nameResult r).attempt = s.attempt := by
  unfold State.nameResult; cases r <;> [rfl; (dsimp only; split <;> rfl)]
@[simp] theorem State.nameResult_cursor (s : State) (r : Option Text) : (s.nameResult r).cursor = s.cursor := by
  unfold State.nameResult; cases r <;> [rfl; (dsimp only; split <;> rfl)]
@[simp] theorem State.nameResult_outcome (s : State) (r : Option Text) : (s.nameResult r).outcome = s.outcome := by
  unfold State.nameResult; cases r <;> [rfl; (dsimp only; split <;> rfl)]
@[simp] theorem State.nameResult_hist (s : State) (r : Option Text) : (s.nameResult r).hist = s.hist := by
  unfold State.nameResult; cases r <;> [rfl; (dsimp only; split <;> rfl)]
@[simp] theorem State.nameResult_result (s : State) (r : Option Text) : (s.nameResult r).result = s.result := by
  unfold State.nameResult; cases r <;> [rfl; (dsimp only; split <;> rfl)]
@[simp] theorem State.nameResult_program (s : State) (r : Option Text) : (s.nameResult r).program = s.program := by
  unfold State.nameResult; cases r <;> [rfl; (dsimp only; split <;> rfl)]
@[simp] theorem State.nameResult_pending (s : State) (r : Option Text) : (s.nameResult r).pending = s.pending := by
  unfold State.nameResult; cases r <;> [rfl; (dsimp only; split <;> rfl)]
@[simp] theorem State.nameResult_env (s : State) (r : Option Text) : (s.nameResult r).env = s.env := by
  unfold State.nameResult; cases r <;> [rfl; (dsimp only; split <;> rfl)]

@[simp] theorem State.proceed_cw (s : State) (p : Program) : (s.proceed p).cw = s.cw := by unfold State.proceed; split <;> rfl
@[simp] theorem State.proceed_regs (s : State) (p : Program) : (s.proceed p).regs = s.regs := by unfold State.proceed; split <;> rfl
@[simp] theorem State.proceed_life (s : State) (p : Program) : (s.proceed p).life = s.life := by unfold State.proceed; split <;> rfl
@[simp] theorem State.proceed_mapOK (s : State) (p : Program) : (s.proceed p).mapOK = s.mapOK := by unfold State.proceed; split <;> rfl
@[simp] theorem State.proceed_spiOK (s : State) (p : Program) : (s.proceed p).spiOK = s.spiOK := by unfold State.proceed; split <;> rfl
@[simp] theorem State.proceed_pc (s : State) (p : Program) : (s.proceed p).pc = s.pc := by unfold State.proceed; split <;> rfl
@[simp] theorem State.proceed_attempt (s : State) (p : Program) : (s.proceed p).attempt = s.attempt := by unfold State.proceed; split <;> rfl
@[simp] theorem State.proceed_cursor (s : State) (p : Program) : (s.proceed p).cursor = s.cursor := by unfold State.proceed; split <;> rfl
@[simp] theorem State.proceed_hist (s : State) (p : Program) : (s.proceed p).hist = s.hist := by unfold State.proceed; split <;> rfl
@[simp] theorem State.proceed_result (s : State) (p : Program) : (s.proceed p).result = s.result := by unfold State.proceed; split <;> rfl
@[simp] theorem State.proceed_names (s : State) (p : Program) : (s.proceed p).names = s.names := by unfold State.proceed; split <;> rfl
@[simp] theorem State.proceed_program (s : State) (p : Program) : (s.proceed p).program = s.program := by unfold State.proceed; split <;> rfl
@[simp] theorem State.proceed_pending (s : State) (p : Program) : (s.proceed p).pending = s.pending := by unfold State.proceed; split <;> rfl
@[simp] theorem State.proceed_env (s : State) (p : Program) : (s.proceed p).env = s.env := by unfold State.proceed; split <;> rfl

theorem State.proceed_outcome (s : State) (p : Program) :
    (s.proceed p).outcome = if s.outcome = .done ∧ s.pc < p.length then .running else s.outcome := by
  unfold State.proceed; split <;> rfl

/-! ### startProgram -/

@[simp] theorem State.startProgram_cw (s : State) (p : Program) (ps : List Program) : (s.startProgram p ps).cw = s.cw := rfl
@[simp] theorem State.startProgram_regs (s : State) (p : Program) (ps : List Program) : (s.startProgram p ps).regs = s.regs := rfl
@[simp] theorem State.startProgram_life (s : State) (p : Program) (ps : List Program) : (s.startProgram p ps).life = s.life := rfl
@[simp] theorem State.startProgram_mapOK (s : State) (p : Program) (ps : List Program) : (s.startProgram p ps).mapOK = s.mapOK := rfl
@[simp] theorem State.startProgram_spiOK (s : State) (p : Program) (ps : List Program) : (s.startProgram p ps).spiOK = s.spiOK := rfl
@[simp] theorem State.startProgram_pc (s : State) (p : Program) (ps : List Program) : (s.startProgram p ps).pc = 0 := rfl
@[simp] theorem State.startProgram_attempt (s : State) (p : Program) (ps : List Program) : (s.startProgram p ps).attempt = s.attempt := rfl
@[simp] theorem State.startProgram_cursor (s : State) (p : Program) (ps : List Program) : (s.startProgram p ps).cursor = s.cursor := rfl
@[simp] theorem State.startProgram_outcome (s : State) (p : Program) (ps : List Program) : (s.startProgram p ps).outcome = .running := rfl
@[simp] theorem State.startProgram_hist (s : State) (p : Program) (ps : List Program) : (s.startProgram p ps).hist = s.hist := rfl
@[simp] theorem State.startProgram_result (s : State) (p : Program) (ps : List Program) : (s.startProgram p ps).result = s.result := rfl
@[simp] theorem State.startProgram_names (s : State) (p : Program) (ps : List Program) : (s.startProgram p ps).names = s.names := rfl
@[simp] theorem State.startProgram_program (s : State) (p : Program) (ps : List Program) : (s.startProgram p ps).program = p := rfl
@[simp] theorem State.startProgram_pending (s : State) (p : Program) (ps : List Program) : (s.startProgram p ps).pending = ps := rfl
@[simp] theorem State.startProgram_env (s : State) (p : Program) (ps : List Program) : (s.startProgram p ps).env = s.env := rfl

/-! ### setTrigger -/

@[simp] theorem State.setTrigger_cw (s : State) (m : TrigMode) : (s.setTrigger m).cw = s.cw := rfl
@[simp] theorem State.setTrigger_regs (s : State) (m : TrigMode) : (s.setTrigger m).regs = s.regs := rfl
@[simp] theorem State.setTrigger_mapOK (s : State) (m : TrigMode) : (s.setTrigger m).mapOK = s.mapOK := rfl
@[simp] theorem State.setTrigger_spiOK (s : State) (m : TrigMode) : (s.setTrigger m).spiOK = s.spiOK := rfl
@[simp] theorem State.setTrigger_pc (s : State) (m : TrigMode) : (s.setTrigger m).pc = s.pc := rfl
@[simp] theorem State.setTrigger_attempt (s : State) (m : TrigMode) : (s.setTrigger m).attempt = s.attempt := rfl
@[simp] theorem State.setTrigger_cursor (s : State) (m : TrigMode) : (s.setTrigger m).cursor = s.cursor := rfl
@[simp] theorem State.setTrigger_outcome (s : State) (m : TrigMode) : (s.setTrigger m).outcome = s.outcome := rfl
@[simp] theorem State.setTrigger_hist (s : State) (m : TrigMode) : (s.setTrigger m).hist = s.hist := rfl
@[simp] theorem State.setTrigger_result (s : State) (m : TrigMode) : (s.setTrigger m).result = s.result := rfl
@[simp] theorem State.setTrigger_names (s : State) (m : TrigMode) : (s.setTrigger m).names = s.names := rfl
@[simp] theorem State.setTrigger_program (s : State) (m : TrigMode) : (s.setTrigger m).program = s.program := rfl
@[simp] theorem State.setTrigger_pending (s : State) (m : TrigMode) : (s.setTrigger m).pending = s.pending := rfl
@[simp] theorem State.setTrigger_env (s : State) (m : TrigMode) : (s.setTrigger m).env = s.env := rfl

/-! ### load -/

@[simp] theorem State.load_cw (s : State) (p : Program) : (s.load p).cw = s.cw := rfl
@[simp] theorem State.load_regs (s : State) (p : Program) : (s.load p).regs = s.regs := rfl
@[simp] theorem State.load_life (s : State) (p : Program) : (s.load p).life = s.life := rfl
@[simp] theorem State.load_mapOK (s : State) (p : Program) : (s.load p).mapOK = s.mapOK := rfl
@[simp] theorem State.load_spiOK (s : State) (p : Program) : (s.load p).spiOK = s.spiOK := rfl
@[simp] theorem State.load_pc (s : State) (p : Program) : (s.load p).pc = 0 := rfl
@[simp] theorem State.load_attempt (s : State) (p : Program) : (s.load p).attempt = s.attempt := rfl
@[simp] theorem State.load_cursor (s : State) (p : Program) : (s.load p).cursor = s.cursor := rfl
@[simp] theorem State.load_outcome (s : State) (p : Program) : (s.load p).outcome = .running := rfl
@[simp] theorem State.load_hist (s : State) (p : Program) : (s.load p).hist = s.hist := rfl
@[simp] theorem State.load_result (s : State) (p : Program) : (s.load p).result = s.result := rfl
@[simp] theorem State.load_names (s : State) (p : Program) : (s.load p).names = s.names := rfl
@[simp] theorem State.load_program (s : State) (p : Program) : (s.load p).program = p := rfl
@[simp] theorem State.load_pending (s : State) (p : Program) : (s.load p).pending = s.pending := rfl
@[simp] theorem State.load_env (s : State) (p : Program) : (s.load p).env = s.env := rfl

/-! ### The per-chip tables -/

@[simp] theorem State.writeCw_get_life (g : Cfg) (s : State) (w : CwWord) (p : PhysChip) :
    (s.writeCw g w).life.get p =
      if resetBit g w p && !resetBit g s.cw p then .heldInReset
      else if resetBit g s.cw p && !resetBit g w p && s.life.get p == .heldInReset then .released
      else s.life.get p := by
  cases p <;> rfl

@[simp] theorem State.writeCw_get_regs (g : Cfg) (s : State) (w : CwWord) (p : PhysChip) :
    (s.writeCw g w).regs.get p = if resetBit g w p && !resetBit g s.cw p then [] else s.regs.get p := by
  cases p <;> rfl

@[simp] theorem State.latch_nil (g : Cfg) (s : State) (a : Nat) (v : Word) : s.latch g [] a v = s := by
  have h : (PerChip.ofFn fun p => s.regs.get p) = s.regs := rfl
  simp [State.latch, h]

@[simp] theorem State.latch_get_regs (g : Cfg) (s : State) (ps : List PhysChip) (a : Nat) (v : Word) (p : PhysChip) :
    (s.latch g ps a v).regs.get p =
      if p ∈ ps then RegFile.write (s.regs.get p) a (Link.latch g s.env.link s.hist p a v) else s.regs.get p := by
  cases p <;> rfl

@[simp] theorem State.forget_get_regs (s : State) (ps : List PhysChip) (p : PhysChip) :
    (s.forget ps).regs.get p = if p ∈ ps then [] else s.regs.get p := by
  cases p <;> rfl

@[simp] theorem State.setLife_get_life (s : State) (ps : List PhysChip) (l : Life) (p : PhysChip) :
    (s.setLife ps l).life.get p = if p ∈ ps then l else s.life.get p := by
  cases p <;> rfl

@[simp] theorem State.setTrigger_get_life (s : State) (m : TrigMode) (p : PhysChip) :
    (s.setTrigger m).life.get p = triggered m (s.life.get p) := by
  cases p <;> rfl

theorem State.regs_ext {s t : State} (h : ∀ p, s.regs.get p = t.regs.get p) : s.regs = t.regs := by
  have ha := h .A; have hb := h .B; have hc := h .C; have hd := h .D
  cases hs : s.regs; cases ht : t.regs
  simp_all [PerChip.get]

theorem State.life_ext {s t : State} (h : ∀ p, s.life.get p = t.life.get p) : s.life = t.life := by
  have ha := h .A; have hb := h .B; have hc := h .C; have hd := h .D
  cases hs : s.life; cases ht : t.life
  simp_all [PerChip.get]

/-- A control word with the same reset bits changes no chip's registers and no lifecycle. -/
theorem State.writeCw_of_same_reset (g : Cfg) (s : State) (w : CwWord)
    (h : ∀ p, resetBit g w p = resetBit g s.cw p) : s.writeCw g w = { s with cw := w } := by
  have hr : (s.writeCw g w).regs = s.regs := by
    apply State.regs_ext; intro p; rw [State.writeCw_get_regs, h p]; simp
  have hl : (s.writeCw g w).life = s.life := by
    apply State.life_ext; intro p; rw [State.writeCw_get_life, h p]; simp
  show ({ s with cw := w, life := (s.writeCw g w).life, regs := (s.writeCw g w).regs } : State) = _
  rw [hr, hl]

end Sys2Proof.Machine
end

