-- ==== Sys2Proof/Laws/Caller.lean ====
section
/-! SUPPORT. Sys2Proof/Laws/Caller.lean: no operation reads or changes the caller's programs, so an operation and a step are functions
of the block, the program being a parameter (R49). -/

namespace Sys2Proof.Machine

/-- The same block with another caller. -/
def State.recall (s : State) (p : Program) (later : List Program) : State := { s with program := p, pending := later }

@[simp] theorem State.recall_toBlock (s : State) (p : Program) (later : List Program) :
    (s.recall p later).toBlock = s.toBlock := rfl
@[simp] theorem State.recall_program (s : State) (p : Program) (later : List Program) : (s.recall p later).program = p := rfl
@[simp] theorem State.recall_pending (s : State) (p : Program) (later : List Program) : (s.recall p later).pending = later := rfl

@[simp] theorem State.recall_mayRestart (s : State) (p : Program) (later : List Program) :
    (s.recall p later).mayRestart = s.mayRestart := rfl

@[simp] theorem Block.calledBy_toBlock (b : Block) (p : Program) (later : List Program) : (b.calledBy p later).toBlock = b := rfl
@[simp] theorem Block.calledBy_program (b : Block) (p : Program) (later : List Program) : (b.calledBy p later).program = p := rfl
@[simp] theorem Block.calledBy_pending (b : Block) (p : Program) (later : List Program) :
    (b.calledBy p later).pending = later := rfl

/-- A state is its block with its caller. -/
@[simp] theorem State.toBlock_calledBy (s : State) : s.toBlock.calledBy s.program s.pending = s := rfl

/-- A step of an operation with another caller. -/
def Res.recall {α : Type} (p : Program) (later : List Program) : Res α → Res α
  | .ok v s => .ok v (s.recall p later)
  | .stop w s => .stop w (s.recall p later)

variable {α β : Type} {p : Program} {later : List Program}

/-- `m`, a step of an operation from any state, is the same whoever calls. -/
def Blind (p : Program) (later : List Program) (m : State → Res α) : Prop :=
  ∀ s, m (s.recall p later) = (m s).recall p later

theorem Blind.bind {m : State → Res α} {k : α → State → Res β} (hm : Blind p later m) (hk : ∀ v, Blind p later (k v)) :
    Blind p later fun s => (m s).bind k := by
  intro s
  show (m (s.recall p later)).bind k = ((m s).bind k).recall p later
  rw [hm]
  cases m s with
  | ok v t => exact hk v t
  | stop w t => rfl

theorem Blind.pure (v : α) : Blind p later fun s => Res.ok v s := fun _ => rfl
theorem Blind.stop (w : Stop) : Blind p later fun s => (Res.stop w s : Res α) := fun _ => rfl

/-- A step after an update of the block. -/
theorem Blind.comp {m : State → Res α} {f : State → State} (hm : Blind p later m)
    (hf : ∀ s, f (s.recall p later) = (f s).recall p later) : Blind p later fun s => m (f s) := by
  intro s
  show m (f (s.recall p later)) = _
  rw [hf, hm]

theorem Blind.withChip (c : ChipArg) {k : Chip → State → Res Result} (hk : ∀ c, Blind p later (k c)) :
    Blind p later fun s => withChip c s fun c => k c s := by
  cases c
  · exact hk _
  · exact Blind.stop _

theorem Blind.withAddr (g : Cfg) (a : Int) {k : Nat → State → Res α} (hk : ∀ n, Blind p later (k n)) :
    Blind p later fun s => withAddr g a s fun n => k n s := by
  unfold Machine.withAddr
  cases checkAddr g a
  · exact Blind.stop _
  · exact hk _

theorem Blind.withCwField (f : FieldArg) {k : CwField → State → Res Result} (hk : ∀ f, Blind p later (k f)) :
    Blind p later fun s => withCwField f s fun f => k f s := by
  cases f
  · exact hk _
  · exact Blind.stop _
  · exact Blind.stop _

theorem Blind.withNibble (v : Int) {k : BitVec 4 → State → Res Result} (hk : ∀ v, Blind p later (k v)) :
    Blind p later fun s => withNibble v s fun v => k v s := by
  unfold Machine.withNibble
  split
  · exact hk _
  · exact Blind.stop _

theorem Blind.withDuration (d : Duration) {k : Nat → State → Res Result} (hk : ∀ n, Blind p later (k n)) :
    Blind p later fun s => withDuration d s fun n => k n s := by
  cases d
  · exact hk _
  · exact Blind.stop _

theorem drawIo_recall (g : Cfg) (s : State) :
    drawIo g (s.recall p later) = ((drawIo g s).1, (drawIo g s).2.recall p later) := by
  unfold drawIo
  rw [State.recall_toBlock]
  split
  · split <;> rfl
  · rfl

theorem readReg_blind (g : Cfg) (r : WinReg) : Blind p later (readReg g r) := by
  intro s
  unfold readReg
  rw [drawIo_recall]
  cases drawIo g s with
  | mk o t => cases o <;> rfl

theorem readSecond_blind (g : Cfg) : Blind p later (readSecond g) := by
  unfold readSecond
  split
  · exact readReg_blind g _
  · exact Blind.pure _

theorem writeCwReg_blind (g : Cfg) (v : CwWord) : Blind p later (writeCwReg g v) := by
  intro s
  unfold writeCwReg
  rw [drawIo_recall]
  cases drawIo g s with
  | mk o t =>
    cases o with
    | none => rfl
    | some took => cases took <;> rfl

theorem fieldWrite_blind (g : Cfg) (f : CwField) (h : BitVec 4 → BitVec 4) : Blind p later (fieldWrite g f h) :=
  Blind.bind (readReg_blind g .cw) fun _ => writeCwReg_blind g _

theorem csAssert_blind (g : Cfg) (c : Chip) : Blind p later (csAssert g c) := by
  unfold csAssert
  cases g.csPolarity <;> exact fieldWrite_blind g _ _

theorem csDeassert_blind (g : Cfg) (c : Chip) : Blind p later (csDeassert g c) := by
  unfold csDeassert
  cases g.csPolarity <;> exact fieldWrite_blind g _ _

theorem chipResponse_recall (g : Cfg) (sel : List PhysChip) (tx : List Byte) (s : State) :
    chipResponse g sel tx (s.recall p later) =
      ((chipResponse g sel tx s).1, (chipResponse g sel tx s).2.recall p later) := by
  rcases sel with _ | ⟨q, more⟩
  · rfl
  rcases tx with _ | ⟨c, vb⟩
  · rfl
  unfold chipResponse
  dsimp only
  split_ifs
  · rfl
  · rfl
  · cases more <;> rfl

theorem spiXfer_blind (g : Cfg) (tx : List Byte) : Blind p later (spiXfer g tx) := by
  intro s
  unfold spiXfer
  split
  · rfl
  · dsimp only
    rw [drawIo_recall, State.recall_toBlock]
    cases drawIo g s with
    | mk o t =>
      cases o with
      | some took => cases took <;> simp [chipResponse_recall, Res.recall]
      | none =>
        dsimp only
        split
        · rfl
        · rw [chipResponse_recall]
          rfl

theorem framed_blind (g : Cfg) (c : Chip) (tx : List Byte) : Blind p later (framed g c tx) :=
  Blind.bind (csAssert_blind g c) fun _ => Blind.bind (spiXfer_blind g tx) fun rx =>
    Blind.bind (csDeassert_blind g c) fun _ => Blind.pure rx

theorem attemptWrite_blind (g : Cfg) (c : Chip) (a : Nat) (vb : List Byte) : Blind p later (attemptWrite g c a vb) :=
  Blind.bind (framed_blind g c _) fun _ => Blind.bind (framed_blind g c _) fun _ => Blind.pure _

theorem attempts_blind (g : Cfg) (c : Chip) (a : Nat) (vb : List Byte) :
    ∀ left k, Blind p later (attempts g c a vb k left)
  | left, k => by
    intro s
    unfold attempts
    change (attemptWrite g c a vb (State.recall { s with attempt := some k } p later)).bind _ = _
    rw [attemptWrite_blind]
    cases attemptWrite g c a vb { s with attempt := some k } with
    | stop w t => rfl
    | ok ok t =>
      cases ok with
      | true => rfl
      | false =>
        match left with
        | 0 => rfl
        | left + 1 => exact attempts_blind g c a vb left (k + 1) t

theorem verifiedWrite_blind (g : Cfg) (c : Chip) (a : Int) (vb : List Byte) : Blind p later (verifiedWrite g c a vb) :=
  Blind.withAddr g a fun _ => attempts_blind g c _ vb _ _

theorem programChunks_blind (g : Cfg) (q : PhysChip) :
    ∀ (cs : List (List Byte)) (i : Nat), Blind p later (programChunks g q i cs)
  | [], _ => Blind.pure ()
  | vb :: rest, i =>
    Blind.bind ((verifiedWrite_blind g (asChip q) i vb).comp (f := fun s => { s with cursor := some (q, i) }) fun _ => rfl)
      fun _ => programChunks_blind g q rest (i + 1)

theorem State.configured_recall (s : State) (q : PhysChip) :
    (s.recall p later).configured q = (s.configured q).recall p later := by
  unfold State.configured
  rw [State.recall_toBlock]
  split <;> rfl

theorem programChips_blind (g : Cfg) (cs : List (List Byte)) :
    ∀ qs : List PhysChip, Blind p later (programChips g cs qs)
  | [] => Blind.pure ()
  | q :: qs => Blind.bind (programChunks_blind g q cs 0) fun _ =>
      (programChips_blind g cs qs).comp fun s => s.configured_recall q

theorem cwAssign_blind (g : Cfg) (f : CwField) (v : BitVec 4) : Blind p later (cwAssign g f v) :=
  fieldWrite_blind g f fun _ => v

theorem cwSet_blind (g : Cfg) (f : CwField) (c : Chip) : Blind p later (cwSet g f c) :=
  fieldWrite_blind g f fun old => old ||| amask g c

theorem cwClear_blind (g : Cfg) (f : CwField) (c : Chip) : Blind p later (cwClear g f c) :=
  fieldWrite_blind g f fun old => old &&& dmask g c

theorem pulseReset_blind (g : Cfg) (c : Chip) (d : Nat) : Blind p later (pulseReset g c d) := by
  intro s
  unfold pulseReset
  rw [cwSet_blind]
  cases cwSet g .reset c s with
  | stop w t => rfl
  | ok v t =>
    change (cwClear g .reset c (State.recall (((t.forget (members g c)).setLife (members g c) .heldInReset).record (.sleep d))
      p later)).bind _ = ((cwClear g .reset c _).bind _).recall p later
    rw [cwClear_blind]
    cases cwClear g .reset c (((t.forget (members g c)).setLife (members g c) .heldInReset).record (.sleep d)) <;> rfl

/-- An outcome without its caller is the same whoever calls. -/
theorem finish_blind {m : State → Res Result} (h : Blind p later m) (s : State) :
    onBlock (finish (m (s.recall p later))) = onBlock (finish (m s)) := by
  rw [h]
  cases m s with
  | ok r t => rfl
  | stop w t =>
    cases w with
    | error e => rfl
    | fault f => cases f <;> rfl
    | refuse r => rfl

theorem admitted_blind {m : State → Res Result} (h : Blind p later m) (s : State) :
    onBlock (admitted (s.recall p later) m) = onBlock (admitted s m) := by
  unfold admitted
  rw [State.recall_toBlock]
  split
  · exact finish_blind h s
  · rfl

/-- The meaning of an instruction is the same on the same block whoever calls (R49). -/
theorem execOf_recall (g : Cfg) (i : Instr) (s : State) :
    onBlock (execOf g i (s.recall p later)) = onBlock (execOf g i s) := by
  cases i with
  | openDev =>
    simp only [execOf, execOpen]
    refine finish_blind (m := fun s =>
      if s.mapOK || s.spiOK || s.pc != 0 || !s.mayRestart then .stop (.refuse .openNotFirst) s
      else if !s.env.canMap then .stop (.error (.deviceOpen .mmap)) s
      else if !s.env.canOpenSpi then .stop (.error (.deviceOpen .spi)) s
      else .ok .none { s with mapOK := true, spiOK := true }) (fun s => ?_) s
    change (if s.mapOK || s.spiOK || s.pc != 0 || !s.mayRestart then _
      else if !s.env.canMap then _ else if !s.env.canOpenSpi then _ else _) = _
    beta_reduce
    split_ifs <;> rfl
  | frameW a v => exact admitted_blind (Blind.bind (spiXfer_blind g _) fun _ => Blind.pure _) s
  | frameR a d => exact admitted_blind (Blind.bind (spiXfer_blind g _) fun _ => Blind.pure _) s
  | catSiglen a => exact admitted_blind (Blind.withAddr g a fun _ => Blind.pure _) s
  | catMask a => exact admitted_blind (Blind.withAddr g a fun _ => Blind.pure _) s
  | catLayout a => exact admitted_blind (Blind.withAddr g a fun _ => Blind.pure _) s
  | catPack a xs =>
    simp only [execOf, execCatPack]
    refine admitted_blind (Blind.withAddr g a fun n => ?_) s
    cases pack 0 (g.layout n) xs
    · exact Blind.stop _
    · exact Blind.pure _
  | catUnpack a v => exact admitted_blind (Blind.withAddr g a fun _ => Blind.pure _) s
  | cwRead f =>
    simp only [execOf, execCwRead]
    refine admitted_blind ?_ s
    cases f
    · exact Blind.bind (readReg_blind g _) fun _ => Blind.pure _
    · exact Blind.stop _
    · exact Blind.stop _
  | cwAssign f v =>
    exact admitted_blind (Blind.withCwField f fun f => Blind.withNibble v fun v =>
      Blind.bind (cwAssign_blind g f v) fun _ => Blind.pure _) s
  | cwSet f c =>
    exact admitted_blind (Blind.withChip c fun c => Blind.withCwField f fun f =>
      Blind.bind (cwSet_blind g f c) fun _ => Blind.pure _) s
  | cwClear f c =>
    exact admitted_blind (Blind.withChip c fun c => Blind.withCwField f fun f =>
      Blind.bind (cwClear_blind g f c) fun _ => Blind.pure _) s
  | swRead f =>
    simp only [execOf, execSwRead]
    refine admitted_blind ?_ s
    cases f
    · exact Blind.stop _
    · exact Blind.bind (Blind.bind (readReg_blind g _) fun _ => Blind.pure _) fun _ => Blind.pure _
    · exact Blind.stop _
  | spiXfer tx => exact admitted_blind (Blind.bind (spiXfer_blind g _) fun _ => Blind.pure _) s
  | csAssert c =>
    exact admitted_blind (Blind.withChip c fun c => Blind.bind (csAssert_blind g c) fun _ => Blind.pure _) s
  | csDeassert c =>
    exact admitted_blind (Blind.withChip c fun c => Blind.bind (csDeassert_blind g c) fun _ => Blind.pure _) s
  | vcmp a w r =>
    simp only [execOf, execVcmp]
    refine admitted_blind ?_ s
    split
    · exact Blind.pure _
    · exact Blind.stop _
  | wrv c a vb =>
    simp only [execOf, execWrv]
    refine admitted_blind (Blind.withChip c fun c => ?_) s
    split
    · exact Blind.bind (verifiedWrite_blind g c a vb) fun _ => Blind.pure _
    · exact Blind.stop _
  | setClk code =>
    exact admitted_blind (Blind.withNibble code fun v => Blind.bind (cwAssign_blind g .sysclk v) fun _ => Blind.pure _) s
  | reset c d =>
    exact admitted_blind (Blind.withChip c fun c => Blind.withDuration d fun d =>
      Blind.bind (pulseReset_blind g c d) fun _ => Blind.pure _) s
  | setTrig m =>
    simp only [execOf, execSetTrig]
    refine admitted_blind ?_ s
    cases m with
    | mode m =>
      exact Blind.bind (k := fun _ s => .ok Result.none (s.setTrigger m)) (cwAssign_blind g .hold (g.holdCode m)) fun _ _ => rfl
    | bad id => exact Blind.stop _
  | rdErr =>
    exact admitted_blind (Blind.bind (Blind.bind (readReg_blind g _) fun _ => Blind.pure _) fun _ => Blind.pure _) s
  | rdTemp =>
    exact admitted_blind (Blind.bind (readReg_blind g _) fun _ => Blind.bind (readSecond_blind g) fun _ => Blind.pure _) s
  | prog c b =>
    simp only [execOf, execProg]
    refine admitted_blind (Blind.withChip c fun c => ?_) s
    cases b
    · exact Blind.bind (k := fun _ s => .ok Result.none { s with cursor := none }) (programChips_blind g _ _) fun _ _ => rfl
    · exact Blind.stop _
  | sleep d =>
    simp only [execOf, execSleep]
    refine admitted_blind (Blind.withDuration d fun d => ?_) s
    exact Blind.bind (m := sleep d) (k := fun _ s => .ok Result.none s) (fun _ => rfl) fun _ => Blind.pure _

/-- An operation is one on the block alone (R49). -/
theorem execOf_onBlock (g : Cfg) (i : Instr) (s : State) : onBlock (execOf g i s) = execBlock g i s.toBlock :=
  (execOf_recall (p := []) (later := []) g i s).symm

end Sys2Proof.Machine
end

