-- ==== Sys2Proof/Laws/Config.lean ====
section
/-! SUPPORT. Sys2Proof/Laws/Config.lean: the machine's own configuration meets every constraint that the rules put on it. -/

namespace Sys2Proof

namespace Config

theorem skip_ne (x k : Nat) : skip x k ≠ x := by unfold skip; split <;> omega

theorem skip_le (x k : Nat) : k ≤ skip x k ∧ skip x k ≤ k + 1 := by unfold skip; split <;> omega

theorem threeDistinct_ne (i j k : Nat) :
    (threeDistinct i j k).1 ≠ (threeDistinct i j k).2.1 ∧ (threeDistinct i j k).1 ≠ (threeDistinct i j k).2.2 ∧
      (threeDistinct i j k).2.1 ≠ (threeDistinct i j k).2.2 := by
  simp only [threeDistinct, skip]
  refine ⟨?_, ?_, ?_⟩ <;> (repeat' split) <;> omega

theorem threeDistinct_lt {n i j k : Nat} (hi : i < n + 2) (hj : j < n + 1) (hk : k < n) :
    (threeDistinct i j k).1 < n + 2 ∧ (threeDistinct i j k).2.1 < n + 2 ∧ (threeDistinct i j k).2.2 < n + 2 := by
  simp only [threeDistinct, skip]
  refine ⟨hi, ?_, ?_⟩ <;> (repeat' split) <;> omega

theorem slots_ne : slots.1 ≠ slots.2.1 ∧ slots.1 ≠ slots.2.2 ∧ slots.2.1 ≠ slots.2.2 := threeDistinct_ne _ _ _

theorem slots_lt : slots.1 < 1027 ∧ slots.2.1 < 1027 ∧ slots.2.2 < 1027 :=
  threeDistinct_lt (n := 1025) offsetPick.1.isLt offsetPick.2.1.isLt offsetPick.2.2.1.isLt

theorem holdNumbers_ne :
    holdNumbers.1 ≠ holdNumbers.2.1 ∧ holdNumbers.1 ≠ holdNumbers.2.2 ∧ holdNumbers.2.1 ≠ holdNumbers.2.2 :=
  threeDistinct_ne _ _ _

theorem holdNumbers_lt : holdNumbers.1 < 16 ∧ holdNumbers.2.1 < 16 ∧ holdNumbers.2.2 < 16 :=
  threeDistinct_lt (n := 14) holdPick.1.isLt holdPick.2.1.isLt holdPick.2.2.isLt

theorem ofNat_inj_4 {x y : Nat} (hx : x < 16) (hy : y < 16) (h : BitVec.ofNat 4 x = BitVec.ofNat 4 y) : x = y := by
  have := congrArg BitVec.toNat h
  simp only [BitVec.toNat_ofNat] at this
  omega

/-- The three hold codes are distinct (R25). -/
theorem holdCode_inj (m m' : TrigMode) (h : holdCode m = holdCode m') : m = m' := by
  obtain ⟨h1, h2, h3⟩ := holdNumbers_ne
  obtain ⟨l1, l2, l3⟩ := holdNumbers_lt
  cases m <;> cases m' <;> first
    | rfl
    | (exfalso; have := ofNat_inj_4 (by assumption) (by assumption) h; omega)

theorem spread_sum : ∀ (es : List Nat) (room : Nat), (spread room es).sum ≤ es.length + room
  | [], room => by simp [spread]
  | e :: es, room => by
    have := spread_sum es (room - min e room)
    simp only [spread, List.sum_cons, List.length_cons]
    omega

theorem length_spread : ∀ (es : List Nat) (room : Nat), (spread room es).length = es.length
  | [], _ => rfl
  | _ :: es, _ => by simp [spread, length_spread es]

theorem one_le_spread : ∀ (es : List Nat) (room : Nat), ∀ w ∈ spread room es, 1 ≤ w
  | [], _, w, h => by simp [spread] at h
  | e :: es, room, w, h => by
    simp only [spread, List.mem_cons] at h
    rcases h with rfl | h
    · omega
    · exact one_le_spread es _ w h

theorem clampLayout_fits : ∀ (l : Layout) (room : Nat),
    (∀ f ∈ clampLayout room l, 1 ≤ f.2) ∧ ((clampLayout room l).map Prod.snd).sum ≤ room
  | [], room => by simp [clampLayout]
  | (n, w) :: l, room => by
    unfold clampLayout
    split
    · rename_i h
      have := clampLayout_fits l (room - w)
      refine ⟨fun f hf => ?_, ?_⟩
      · rcases List.mem_cons.mp hf with rfl | hf
        · exact h.1
        · exact this.1 f hf
      · simp only [List.map_cons, List.sum_cons]
        omega
    · exact clampLayout_fits l room

theorem channelWidths_length : (spread 25 ((List.range 7).map channelExtra)).length = 7 := by
  rw [length_spread]; simp

theorem channelLayout_names : channelLayout.map Prod.fst = channelFieldNames := by
  unfold channelLayout
  exact List.map_fst_zip (by rw [channelWidths_length]; decide)

theorem channelLayout_widths : channelLayout.map Prod.snd = spread 25 ((List.range 7).map channelExtra) := by
  unfold channelLayout
  exact List.map_snd_zip (by rw [channelWidths_length]; decide)

theorem channelLayout_fits : channelLayout.fits := by
  refine ⟨fun f hf => ?_, ?_⟩
  · exact one_le_spread _ _ f.2 (channelLayout_widths ▸ List.mem_map_of_mem hf)
  · rw [channelLayout_widths]
    have := spread_sum ((List.range 7).map channelExtra) 25
    simpa using this

/-- The machine's configuration meets the constraints of R21, R25, R31, R32, R62 and R134. -/
theorem cfg_wf : cfg.wf where
  chips := by decide
  value := by decide
  control := by decide
  status := by decide
  words := by decide
  frame := rfl
  attempts := by decide
  clock := by decide
  regs := ⟨by decide, rfl, by decide⟩
  cwPlace := by
    have := slots_lt; have := offsetPick.2.2.2.isLt
    constructor <;> simp only [cfg, Cfg.cwBytes] <;> omega
  swPlace := by
    have := slots_lt
    intro w _; cases w <;> simp only [cfg, Cfg.swOffset, Cfg.swBytes] <;> omega
  swApart := by
    have := slots_ne
    intro _; simp only [cfg]; omega
  cwApart := by
    have := slots_ne; have := offsetPick.2.2.2.isLt
    intro w _; cases w <;> simp only [cfg, Cfg.swOffset, Cfg.swBytes, Cfg.cwBytes] <;> omega
  cwNibble := by intro f; cases f <;> decide
  cwInj := by intro f f'; cases f <;> cases f' <;> decide
  swFits := by intro f; cases f <;> decide
  holdInj := holdCode_inj
  layouts := by
    intro a
    simp only [cfg]
    split
    · exact channelLayout_fits
    · exact clampLayout_fits _ 32
  channel := by
    intro a ha
    simp [cfg, ha, channelLayout_names]

end Config

end Sys2Proof
end

