-- ==== Sys2Proof/Laws/Regs.lean ====
section
/-! SUPPORT. Sys2Proof/Laws/Regs.lean: the register file is a canonical sparse table: read after write, and the form is kept. -/

namespace Sys2Proof.Machine

theorem RegFile.read_write_same (r : RegFile) (a : Nat) (v : Word) : RegFile.read (RegFile.write r a v) a = .known v := by
  induction r with
  | nil => simp [RegFile.write, RegFile.read]
  | cons e r ih =>
    obtain ⟨b, u⟩ := e
    by_cases h1 : a < b
    · simp [RegFile.write, RegFile.read, h1]
    · by_cases h2 : a = b
      · simp [RegFile.write, RegFile.read, h2]
      · simp [RegFile.write, RegFile.read, h1, h2, ih]

theorem RegFile.read_write_ne (r : RegFile) {a a' : Nat} (v : Word) (h : a' ≠ a) :
    RegFile.read (RegFile.write r a v) a' = RegFile.read r a' := by
  induction r with
  | nil => simp [RegFile.write, RegFile.read, h]
  | cons e r ih =>
    obtain ⟨b, u⟩ := e
    by_cases h1 : a < b
    · simp [RegFile.write, RegFile.read, h1, h]
    · by_cases h2 : a = b
      · subst h2; simp [RegFile.write, RegFile.read, h]
      · simp [RegFile.write, RegFile.read, h1, h2, ih]

theorem RegFile.mem_write {r : RegFile} {a : Nat} {v : Word} {e : Nat × Word} (h : e ∈ RegFile.write r a v) :
    e = (a, v) ∨ e ∈ r := by
  induction r with
  | nil => simpa [RegFile.write] using h
  | cons f r ih =>
    obtain ⟨b, u⟩ := f
    by_cases h1 : a < b
    · simpa [RegFile.write, h1] using h
    · by_cases h2 : a = b
      · subst h2
        simp [RegFile.write] at h
        rcases h with h | h
        · exact .inl h
        · exact .inr (List.mem_cons_of_mem _ h)
      · simp only [RegFile.write, h1, h2, if_false] at h
        rcases List.mem_cons.mp h with h | h
        · exact .inr (h ▸ List.mem_cons_self)
        · rcases ih h with h | h
          · exact .inl h
          · exact .inr (List.mem_cons_of_mem _ h)

theorem RegFile.pairwise_write {r : RegFile} (hr : r.Pairwise (fun x y => x.1 < y.1)) (a : Nat) (v : Word) :
    (RegFile.write r a v).Pairwise (fun x y => x.1 < y.1) := by
  induction r with
  | nil => simp [RegFile.write]
  | cons f r ih =>
    obtain ⟨b, u⟩ := f
    have hb := (List.pairwise_cons.mp hr).1
    have hp := (List.pairwise_cons.mp hr).2
    by_cases h1 : a < b
    · simp only [RegFile.write, h1, if_true]
      refine List.pairwise_cons.mpr ⟨fun e he => ?_, hr⟩
      rcases List.mem_cons.mp he with rfl | he
      · exact h1
      · exact lt_trans h1 (hb e he)
    · by_cases h2 : a = b
      · subst h2
        simp only [RegFile.write, lt_irrefl, if_false, if_true]
        exact List.pairwise_cons.mpr ⟨hb, hp⟩
      · simp only [RegFile.write, h1, h2, if_false]
        refine List.pairwise_cons.mpr ⟨fun e he => ?_, ih hp⟩
        rcases RegFile.mem_write he with rfl | he
        · show b < a
          omega
        · exact hb e he

/-- Writing a register keeps the canonical form. -/
theorem RegFile.wf_write {g : Cfg} {r : RegFile} (hr : RegFile.wf g r) {a : Nat} {v : Word} (ha : a < g.nreg)
    (hv : v &&& sigMask g a = v) : RegFile.wf g (RegFile.write r a v) := by
  refine ⟨RegFile.pairwise_write hr.1 a v, fun e he => ?_⟩
  rcases RegFile.mem_write he with rfl | he
  · exact ⟨ha, hv⟩
  · exact hr.2 e he

/-- The empty file, all registers unknown, is in its canonical form. -/
theorem RegFile.wf_nil (g : Cfg) : RegFile.wf g [] := ⟨List.Pairwise.nil, by simp⟩

end Sys2Proof.Machine
end

