-- ==== Sys2Proof/Laws/Words.lean ====
section
/-! SUPPORT. Sys2Proof/Laws/Words.lean: small laws of masks, control-word fields, frames and per-chip tables. -/

namespace Sys2Proof

@[simp] theorem PerChip.get_ofFn {α : Type} (f : PhysChip → α) (p : PhysChip) : (PerChip.ofFn f).get p = f p := by
  cases p <;> rfl

theorem PerChip.ext_get {α : Type} {x y : PerChip α} (h : ∀ p, x.get p = y.get p) : x = y := by
  cases x; cases y
  have ha := h .A; have hb := h .B; have hc := h .C; have hd := h .D
  simp_all [PerChip.get]

@[simp] theorem PerChip.ofFn_get {α : Type} (x : PerChip α) : PerChip.ofFn (fun p => x.get p) = x :=
  PerChip.ext_get (by simp)

theorem lowMask_getLsbD {w : Nat} (n i : Nat) (hn : n ≤ w) : (lowMask n : BitVec w).getLsbD i = decide (i < n) := by
  unfold lowMask
  rw [BitVec.getLsbD_ofNat, Nat.testBit_two_pow_sub_one]
  by_cases h : i < n <;> simp [h]; omega

/-- A mask of the whole width keeps everything. -/
@[simp] theorem and_lowMask_self {w : Nat} (v : BitVec w) : v &&& lowMask w = v := by
  apply BitVec.eq_of_getLsbD_eq
  intro i hi
  rw [BitVec.getLsbD_and, lowMask_getLsbD w i (Nat.le_refl w)]
  simp [hi]

@[simp] theorem setWidth_32_64_32 (w : CwWord) : (w.setWidth 64).setWidth 32 = w := by
  rw [BitVec.setWidth_setWidth_of_le _ (by omega), BitVec.setWidth_eq]

namespace Machine

@[simp] theorem dmask_eq (g : Cfg) (c : Chip) : dmask g c = ~~~ amask g c := rfl

theorem chipIdx_lt (p : PhysChip) : chipIdx p < 4 := by cases p <;> decide

/-- The machine has all four chips and both status words (R7). -/
@[simp] theorem hasChip_cfg (p : PhysChip) : Config.cfg.hasChip p = true := by cases p <;> rfl

@[simp] theorem hasWord_cfg (w : SwWord) : Config.cfg.hasWord w = true := by cases w <;> rfl

/-- The chips of an operand are those it names (R90). -/
@[simp] theorem members_cfg (c : Chip) : members Config.cfg c = named c := by
  unfold members
  exact List.filter_eq_self.mpr fun p _ => hasChip_cfg p

/-- The assert masks are the table (R95). -/
@[simp] theorem amask_cfg (c : Chip) : amask Config.cfg c = maskTable c := and_lowMask_self _

theorem nibble_ones (j : Nat) (h : j < 4) : (0xF#32).getLsbD j = true := by
  have : ∀ j, j < 4 → (0xF#32).getLsbD j = true := by decide
  exact this j h

theorem nibble_zeros (j : Nat) (h : 4 ≤ j) : (0xF#32).getLsbD j = false := by
  by_cases h32 : j < 32
  · have : ∀ j, j < 32 → 4 ≤ j → (0xF#32).getLsbD j = false := by decide
    exact this j h32 h
  · exact BitVec.getLsbD_of_ge _ _ (by omega)

theorem getField_bit (g : Cfg) (w : CwWord) (f : CwField) (i : Nat) (hi : i < 4) :
    (getField g w f).getLsbD i = w.getLsbD (g.cwLo f + i) := by
  simp only [getField, BitVec.getLsbD_setWidth, BitVec.getLsbD_ushiftRight, hi, decide_true, Bool.true_and]

theorem putField_bit (g : Cfg) (w : CwWord) (f : CwField) (v : BitVec 4) (j : Nat) (hj : j < 32) :
    (putField g w f v).getLsbD j =
      if g.cwLo f ≤ j ∧ j < g.cwLo f + 4 then v.getLsbD (j - g.cwLo f) else w.getLsbD j := by
  simp only [putField, BitVec.getLsbD_or, BitVec.getLsbD_and, BitVec.getLsbD_not, BitVec.getLsbD_shiftLeft, hj,
    BitVec.getLsbD_setWidth, decide_true, Bool.true_and]
  by_cases h1 : j < g.cwLo f
  · have h2 : ¬ (g.cwLo f ≤ j ∧ j < g.cwLo f + 4) := by omega
    simp [h1, h2]
  · by_cases h3 : j < g.cwLo f + 4
    · have h4 : j - g.cwLo f < 4 := by omega
      have h5 : j - g.cwLo f < 32 := by omega
      have h6 : g.cwLo f ≤ j ∧ j < g.cwLo f + 4 := by omega
      rw [nibble_ones _ h4]
      simp [h1, h5, h6]
    · have h4 : 4 ≤ j - g.cwLo f := by omega
      have h6 : ¬ (g.cwLo f ≤ j ∧ j < g.cwLo f + 4) := by omega
      rw [nibble_zeros _ h4, BitVec.getLsbD_of_ge v _ h4]
      simp [h6]

/-- Writing a field and reading it back gives the value written (R21). -/
theorem getField_putField (g : Cfg) (w : CwWord) (f : CwField) (v : BitVec 4) (h : g.cwLo f ≤ 28) :
    getField g (putField g w f v) f = v := by
  apply BitVec.eq_of_getLsbD_eq
  intro i hi
  rw [getField_bit g _ f i hi, putField_bit g w f v _ (by omega), if_pos (by omega), Nat.add_sub_cancel_left]

/-- Writing a field leaves every field in another nibble as it was (R156). -/
theorem getField_putField_of_apart (g : Cfg) (w : CwWord) (f f' : CwField) (v : BitVec 4)
    (h : g.cwLo f + 4 ≤ g.cwLo f' ∨ g.cwLo f' + 4 ≤ g.cwLo f) (hf : g.cwLo f' ≤ 28) :
    getField g (putField g w f v) f' = getField g w f' := by
  apply BitVec.eq_of_getLsbD_eq
  intro i hi
  rw [getField_bit g _ f' i hi, getField_bit g w f' i hi, putField_bit g w f v _ (by omega), if_neg (by omega)]

/-- Distinct fields stand in distinct nibbles (R21). -/
theorem Cfg_wf_apart {g : Cfg} (hg : g.wf) {f f' : CwField} (h : f ≠ f') :
    g.cwLo f + 4 ≤ g.cwLo f' ∨ g.cwLo f' + 4 ≤ g.cwLo f := by
  have h1 := (hg.cwNibble f).1; have h2 := (hg.cwNibble f').1
  have h3 : g.cwLo f ≠ g.cwLo f' := fun e => h (hg.cwInj _ _ e)
  omega

theorem Cfg_wf_lo {g : Cfg} (hg : g.wf) (f : CwField) : g.cwLo f ≤ 28 := by
  have := (hg.cwNibble f).2; have := hg.control.2; omega

theorem getField_putField_same {g : Cfg} (hg : g.wf) (w : CwWord) (f : CwField) (v : BitVec 4) :
    getField g (putField g w f v) f = v := getField_putField g w f v (Cfg_wf_lo hg f)

theorem getField_putField_ne {g : Cfg} (hg : g.wf) (w : CwWord) {f f' : CwField} (v : BitVec 4) (h : f ≠ f') :
    getField g (putField g w f v) f' = getField g w f' :=
  getField_putField_of_apart g w f f' v (Cfg_wf_apart hg h) (Cfg_wf_lo hg f')

theorem resetBit_putField_ne {g : Cfg} (hg : g.wf) (w : CwWord) {f : CwField} (v : BitVec 4) (h : f ≠ .reset)
    (p : PhysChip) : resetBit g (putField g w f v) p = resetBit g w p := by
  simp [resetBit, getField_putField_ne hg w v h]

/-- A frame is a command byte and a value (R115, notes/assumptions/25.md). -/
theorem frameLen_eq {g : Cfg} (hg : g.wf) : g.frameLen = g.valueBytes + 1 := by rw [hg.frame, Nat.add_comm]

theorem resetBit_eq (g : Cfg) (w : CwWord) (p : PhysChip) :
    resetBit g w p = (g.hasChip p && (getField g w .reset).getLsbD (chipIdx p)) := rfl

/-- A word of `cwBits` bits has no others. -/
theorem cwBits_bit {g : Cfg} (hg : g.wf) {w : CwWord} (h : w &&& lowMask g.cwBits = w) {j : Nat} (hj : g.cwBits ≤ j) :
    w.getLsbD j = false := by
  rw [← h, BitVec.getLsbD_and, lowMask_getLsbD _ _ hg.control.2, decide_eq_false (by omega), Bool.and_false]

/-- Writing a field keeps the control word within its bits (R20, R21). -/
theorem putField_within {g : Cfg} (hg : g.wf) {w : CwWord} (h : w &&& lowMask g.cwBits = w) (f : CwField) (v : BitVec 4) :
    putField g w f v &&& lowMask g.cwBits = putField g w f v := by
  apply BitVec.eq_of_getLsbD_eq
  intro j hj
  rw [BitVec.getLsbD_and, lowMask_getLsbD _ _ hg.control.2, putField_bit g w f v j hj]
  by_cases hb : j < g.cwBits
  · simp [hb]
  · have := (hg.cwNibble f).2
    rw [if_neg (by omega), cwBits_bit hg h (by omega), Bool.false_and]

/-- The four value bytes on the wire give the value back (R64). -/
theorem u32be_be32 (v : Word) :
    u32be (v.extractLsb' 24 8) (v.extractLsb' 16 8) (v.extractLsb' 8 8) (v.extractLsb' 0 8) = v := by
  unfold u32be
  apply BitVec.eq_of_getLsbD_eq
  intro i hi
  simp only [BitVec.getLsbD_append, BitVec.getLsbD_extractLsb']
  split
  · simp_all
  · split
    · rw [decide_eq_true (by omega), Bool.true_and, show 8 + (i - 8) = i by omega]
    · split
      · rw [decide_eq_true (by omega), Bool.true_and, show 16 + (i - 8 - 8) = i by omega]
      · rw [decide_eq_true (by omega), Bool.true_and, show 24 + (i - 8 - 8 - 8) = i by omega]

theorem be32_u32be (a b c d : Byte) : be32 (u32be a b c d) = [a, b, c, d] := by
  simp only [be32, u32be, List.cons.injEq, and_true]
  refine ⟨?_, ?_, ?_, ?_⟩ <;>
  · apply BitVec.eq_of_getLsbD_eq
    intro i hi
    simp only [BitVec.getLsbD_append, BitVec.getLsbD_extractLsb', hi, decide_true, Bool.true_and]
    repeat (first | rw [if_neg (by omega)] | rw [if_pos (by omega)])
    try (congr 1; omega)

/-- The bytes of a value of 32 bits and of fewer (R9, R64): BE32 is the case of four. -/
theorem beBytes_four (v : Word) : beBytes 4 v = be32 v := rfl

theorem beBytes_length (k : Nat) (v : Word) : (beBytes k v).length = k := by simp [beBytes]

/-- A shift by whole bytes and the byte below it. -/
theorem shift_or_byte (v : Word) (k : Nat) :
    ((v >>> (8 * (k + 1))) <<< 8 ||| (v.extractLsb' (8 * k) 8).setWidth 32 : Word) = v >>> (8 * k) := by
  apply BitVec.eq_of_getLsbD_eq
  intro i hi
  simp only [BitVec.getLsbD_or, BitVec.getLsbD_shiftLeft, BitVec.getLsbD_ushiftRight, BitVec.getLsbD_setWidth,
    BitVec.getLsbD_extractLsb', hi, decide_true, Bool.true_and]
  by_cases h : i < 8
  · simp [h]
  · simp [h, show 8 * (k + 1) + (i - 8) = 8 * k + i by omega]

theorem foldl_beBytes (v : Word) (k : Nat) : ∀ m, m ≤ k →
    ((List.range m).map fun i => v.extractLsb' (8 * (k - 1 - i)) 8).foldl
      (fun (u : Word) (b : Byte) => (u <<< 8) ||| b.setWidth 32) (v >>> (8 * k)) = v >>> (8 * (k - m))
  | 0, _ => rfl
  | m + 1, h => by
    rw [List.range_succ, List.map_append, List.foldl_append, foldl_beBytes v k m (by omega)]
    have := shift_or_byte v (k - (m + 1))
    rw [show k - (m + 1) + 1 = k - m by omega] at this
    simpa [show k - 1 - m = k - (m + 1) by omega] using this

/-- The value bytes give the value back, where the value has no more bits than they hold. -/
theorem beValue_beBytes {k : Nat} {v : Word} (h : v >>> (8 * k) = 0#32) : beValue (beBytes k v) = v := by
  have := foldl_beBytes v k k (Nat.le_refl k)
  rw [h] at this
  simpa [beValue, beBytes] using this

theorem valueBits_eq {g : Cfg} (hg : g.wf) : 8 * g.valueBytes = g.valueBits := by
  have := hg.value.2.1; unfold Cfg.valueBytes; omega

/-- The bytes of a value see only the bits they hold. -/
theorem beBytes_lowMask {k : Nat} (hk : 8 * k ≤ 32) (v : Word) : beBytes k (v &&& lowMask (8 * k)) = beBytes k v := by
  unfold beBytes
  refine List.map_congr_left fun i hi => BitVec.eq_of_getLsbD_eq fun j hj => ?_
  have := List.mem_range.mp hi
  simp only [BitVec.getLsbD_extractLsb', BitVec.getLsbD_and, lowMask_getLsbD _ _ hk]
  simp [show 8 * (k - 1 - i) + j < 8 * k by omega]

/-- The value bytes on the wire give back the `valueBits` bits of the value (R64). -/
theorem valueOf_wireBytes {g : Cfg} (hg : g.wf) (v : Word) : valueOf g (wireBytes g v) = v &&& lowMask g.valueBits := by
  have h8 := valueBits_eq hg
  have h32 := hg.value.2.2
  have hb : beValue (beBytes g.valueBytes v) = v &&& lowMask g.valueBits := by
    rw [← beBytes_lowMask (by omega), h8]
    refine beValue_beBytes (BitVec.eq_of_getLsbD_eq fun i hi => ?_)
    rw [BitVec.getLsbD_ushiftRight, BitVec.getLsbD_and, lowMask_getLsbD _ _ h32]
    simp [show ¬ 8 * g.valueBytes + i < g.valueBits by omega]
  unfold valueOf wireBytes
  cases g.wireByteOrder <;> simp [beBytes_length, hb]

/-- U32BE of R9 is the value of four bytes. -/
theorem beValue_four (a b c d : Byte) : beValue [a, b, c, d] = u32be a b c d := by
  have h : [a, b, c, d] = beBytes 4 (u32be a b c d) := (be32_u32be a b c d).symm
  rw [h]
  exact beValue_beBytes (by
    apply BitVec.eq_of_toNat_eq
    rw [BitVec.toNat_ushiftRight, Nat.shiftRight_eq_div_pow, Nat.div_eq_of_lt (by simpa using (u32be a b c d).isLt)]
    rfl)

@[simp] theorem valueBytes_cfg : Config.cfg.valueBytes = 4 := rfl
@[simp] theorem cwBytes_cfg : Config.cfg.cwBytes = 2 := rfl
@[simp] theorem swBytes_cfg : Config.cfg.swBytes = 4 := rfl

/-- The value bytes of the machine (R9, R64): BE32 and U32BE. -/
theorem wireBytes_cfg (v : Word) : wireBytes Config.cfg v = be32 v := rfl

theorem valueOf_cfg (a b c d : Byte) : valueOf Config.cfg [a, b, c, d] = u32be a b c d := beValue_four a b c d

/-- The command byte names its address (R100). -/
theorem frameAddr_cmdByte (a : Nat) (b : Bool) (h : a < 128) : (cmdByte a b >>> 1).toNat = a := by
  unfold cmdByte
  simp [BitVec.toNat_ushiftRight, Nat.shiftRight_eq_div_pow]
  cases b <;> simp <;> omega

/-- Bit 0 of the command byte is the write flag (R100, R103). -/
theorem cmdByte_flag (a : Nat) (b : Bool) : (cmdByte a b).getLsbD 0 = b := by
  unfold cmdByte
  rw [BitVec.getLsbD_ofNat]
  simp only [Nat.testBit_zero]
  cases b <;> simp

theorem cmdByte_bit0 (a : Nat) (b : Bool) : (cmdByte a b)[0] = b := cmdByte_flag a b

theorem chunkAt_length {g : Cfg} {bs : List Byte} {i : Nat} (h : i < chunkCount g bs) : (chunkAt g bs i).length = g.valueBytes := by
  have h1 : g.valueBytes * (i + 1) ≤ g.valueBytes * chunkCount g bs := Nat.mul_le_mul_left _ h
  have h2 : g.valueBytes * chunkCount g bs ≤ bs.length := Nat.mul_div_le _ _
  rw [Nat.mul_succ] at h1
  simp only [chunkAt, List.length_take, List.length_drop]
  omega

/-- Every chunk has the length of a value (R108). -/
theorem mem_chunks_length (g : Cfg) (bs : List Byte) : ∀ c ∈ chunks g bs, c.length = g.valueBytes := by
  intro c hc
  obtain ⟨i, hi, rfl⟩ := List.mem_map.mp hc
  exact chunkAt_length (List.mem_range.mp hi)

/-- A blob of L bytes has L / 4 chunks (R108). -/
@[simp] theorem length_chunks (g : Cfg) (bs : List Byte) : (chunks g bs).length = chunkCount g bs := by simp [chunks]

theorem chunkCount_cfg (bs : List Byte) : chunkCount Config.cfg bs = bs.length / 4 := rfl

theorem sigMask_and_idem (g : Cfg) (a : Nat) (v : Word) : v &&& sigMask g a &&& sigMask g a = v &&& sigMask g a := by
  rw [BitVec.and_assoc, BitVec.and_self]

theorem latch_masked (g : Cfg) (k : Link) (hist : List Event) (p : PhysChip) (a : Nat) (v : Word) :
    Link.latch g k hist p a v &&& sigMask g a = Link.latch g k hist p a v := by
  unfold Link.latch; exact sigMask_and_idem g a _

/-- The masked compare looks at the significant bits only (R222). -/
theorem vcmp_iff (g : Cfg) (a : Nat) (w r : Word) : vcmp g a w r = true ↔ w &&& sigMask g a = r &&& sigMask g a := by
  simp [vcmp]

theorem mem_members_asChip {g : Cfg} {p : PhysChip} (hp : g.hasChip p = true) (q : PhysChip) :
    q ∈ members g (asChip p) ↔ q = p := by
  unfold members
  rw [List.mem_filter]
  constructor
  · rintro ⟨h, -⟩
    revert h; cases p <;> cases q <;> simp [named, asChip]
  · rintro rfl
    exact ⟨by cases q <;> simp [named, asChip], hp⟩

theorem members_hasChip {g : Cfg} {c : Chip} {p : PhysChip} (h : p ∈ members g c) : g.hasChip p = true := (List.mem_filter.mp h).2

/-- The assert mask has exactly the bits of the chips it covers (R95). -/
theorem amask_bit {g : Cfg} (hg : g.wf) (c : Chip) (p : PhysChip) :
    (amask g c).getLsbD (chipIdx p) = decide (p ∈ members g c) := by
  have h1 : (maskTable c).getLsbD (chipIdx p) = decide (p ∈ named c) := by cases c <;> cases p <;> decide
  rw [amask, BitVec.getLsbD_and, h1, lowMask_getLsbD _ _ hg.chips.2]
  simp [members, Cfg.hasChip]

end Machine

end Sys2Proof
end

