-- ==== Sys2Proof/Laws/Ops.lean ====
section
/-! SUPPORT. Sys2Proof/Laws/Ops.lean: what each shared operation does. First its outcome when no access failure is drawn, as an
equation; then what it keeps whatever is drawn. -/

namespace Sys2Proof.Machine

/-! ## Steps of an operation -/

@[simp] theorem Res.ok_bind {α β : Type} (v : α) (s : State) (k : α → State → Res β) : (Res.ok v s).bind k = k v s := rfl

@[simp] theorem Res.stop_bind {α β : Type} (w : Stop) (s : State) (k : α → State → Res β) :
    (Res.stop w s : Res α).bind k = .stop w s := rfl

theorem Res.bind_assoc {α β γ : Type} (m : Res α) (k : α → State → Res β) (l : β → State → Res γ) :
    (m.bind k).bind l = m.bind fun v s => (k v s).bind l := by
  cases m <;> rfl

/-- A property of the state after a step, whether it stopped or not. -/
def Res.post {α : Type} (P : State → Prop) : Res α → Prop
  | .ok _ s => P s
  | .stop _ s => P s

theorem Res.post_bind {α β : Type} {P : State → Prop} {m : Res α} {k : α → State → Res β} (hm : m.post P)
    (hk : ∀ v s, P s → (k v s).post P) : (m.bind k).post P := by
  cases m with
  | ok v s => exact hk v s hm
  | stop w s => exact hm

theorem Res.post_mono {α : Type} {P Q : State → Prop} {m : Res α} (hm : m.post P) (h : ∀ s, P s → Q s) : m.post Q := by
  cases m <;> exact h _ hm

@[simp] theorem finish_ok (r : Result) (s : State) : finish (.ok r s) = .next (s.complete r) := rfl
@[simp] theorem finish_error (e : ArchError) (s : State) : finish (.stop (.error e) s) = .next (s.raise e) := rfl
@[simp] theorem finish_fault (f : FaultKind) (s : State) : finish (.stop (.fault f) s) = .fault (s.fail f) := rfl
@[simp] theorem finish_refuse (r : Reason) (s : State) : finish (.stop (.refuse r) s) = .refused (s.decline r) := rfl

/-- A next state comes from an operation that ended done or in an architectural error (R14). -/
theorem finish_next {m : Res Result} {t : State} (h : finish m = .next t) :
    (∃ r s, m = .ok r s ∧ t = s.complete r) ∨ ∃ e s, m = .stop (.error e) s ∧ t = s.raise e := by
  cases m with
  | ok r s => left; exact ⟨r, s, rfl, by simpa using h.symm⟩
  | stop w s =>
    cases w with
    | error e => right; exact ⟨e, s, rfl, by simpa using h.symm⟩
    | fault f => simp at h
    | refuse r => simp at h

theorem admit_of_ready {s : State} (hm : s.mapOK = true) (hs : s.spiOK = true) (body : State → Res Result) :
    admitted s body = finish (body s) := by
  simp [admitted, hm, hs]

theorem admit_of_closed {s : State} (h : s.mapOK = false ∨ s.spiOK = false) (body : State → Res Result) :
    admitted s body = .refused (s.decline .notAdmitted) := by
  unfold admitted
  rcases h with h | h <;> simp [h]

/-- A next state of an admitted operation: the state held an instance. -/
theorem admit_next {s t : State} {body : State → Res Result} (h : admitted s body = .next t) :
    s.mapOK = true ∧ s.spiOK = true ∧ finish (body s) = .next t := by
  unfold admitted at h
  cases hm : s.mapOK <;> cases hs : s.spiOK <;> simp_all

/-! ## Outcomes when no access failure is drawn -/

theorem drawIo_of_none (g : Cfg) {s : State} (h : s.env.ioFailure = none) : drawIo g s = (none, s) := by
  unfold drawIo; split <;> simp [h]

@[simp] theorem windowReg_cw (g : Cfg) : windowReg g g.cwOffset g.cwBytes = some .cw := by simp [windowReg]

/-- A status word that is there is reached at its offset and width (R68). -/
theorem windowReg_sw {g : Cfg} (hg : g.wf) {w : SwWord} (hw : g.hasWord w = true) :
    windowReg g (g.swOffset w) g.swBytes = some (.sw w) := by
  have hb : 0 < g.swBytes := by have := hg.status; unfold Cfg.swBytes; omega
  have hne : ¬ (g.swOffset w = g.cwOffset ∧ g.swBytes = g.cwBytes) := by
    have := hg.cwApart w hw; omega
  unfold windowReg
  rw [if_neg hne]
  cases w
  · simp [Cfg.swOffset, hw]
  · have := hg.swApart hw
    simp [Cfg.swOffset, hw, Ne.symm this]

theorem readReg_eq (g : Cfg) (r : WinReg) {s : State} (h : s.env.ioFailure = none) :
    readReg g r s = .ok (s.windowValue g r) (s.record (.mmioR (r.offset g) (r.width g) (s.windowValue g r))) := by
  simp [readReg, drawIo_of_none g h]

theorem writeCwReg_eq (g : Cfg) (v : CwWord) {s : State} (h : s.env.ioFailure = none) :
    writeCwReg g v s = .ok () ((s.writeCw g v).record (.mmioW g.cwOffset g.cwBytes (v.setWidth 64))) := by
  simp [writeCwReg, drawIo_of_none g h, WinReg.offset, WinReg.width]

/-- The reads of R68 are the reads of the registers that are there. -/
theorem memRead_reg {g : Cfg} (hg : g.wf) {r : WinReg} (hr : ∀ w, r = .sw w → g.hasWord w = true) (s : State) :
    memRead g (r.offset g) (r.width g) s = readReg g r s := by
  cases r with
  | cw => simp [memRead, WinReg.offset, WinReg.width]
  | sw w => simp [memRead, WinReg.offset, WinReg.width, windowReg_sw hg (hr w rfl)]

/-- The write of R68 is the write of CW. -/
theorem memWrite_cw (g : Cfg) (v : WinVal) (s : State) :
    memWrite g g.cwOffset g.cwBytes v s = writeCwReg g (v.setWidth 32 &&& lowMask g.cwBits) s := by
  simp [memWrite]

/-- The state after a control-word write: the new word and its consequences, and the two events (R151). -/
def State.wroteCw (g : Cfg) (s : State) (w : CwWord) : State :=
  { s.writeCw g w with hist := s.hist ++ cwWriteEvents g s.cw w }

@[simp] theorem State.wroteCw_cw (g : Cfg) (s : State) (w : CwWord) : (s.wroteCw g w).cw = w := rfl
@[simp] theorem State.wroteCw_regs (g : Cfg) (s : State) (w : CwWord) : (s.wroteCw g w).regs = (s.writeCw g w).regs := rfl
@[simp] theorem State.wroteCw_life (g : Cfg) (s : State) (w : CwWord) : (s.wroteCw g w).life = (s.writeCw g w).life := rfl
@[simp] theorem State.wroteCw_mapOK (g : Cfg) (s : State) (w : CwWord) : (s.wroteCw g w).mapOK = s.mapOK := rfl
@[simp] theorem State.wroteCw_spiOK (g : Cfg) (s : State) (w : CwWord) : (s.wroteCw g w).spiOK = s.spiOK := rfl
@[simp] theorem State.wroteCw_pc (g : Cfg) (s : State) (w : CwWord) : (s.wroteCw g w).pc = s.pc := rfl
@[simp] theorem State.wroteCw_attempt (g : Cfg) (s : State) (w : CwWord) : (s.wroteCw g w).attempt = s.attempt := rfl
@[simp] theorem State.wroteCw_cursor (g : Cfg) (s : State) (w : CwWord) : (s.wroteCw g w).cursor = s.cursor := rfl
@[simp] theorem State.wroteCw_outcome (g : Cfg) (s : State) (w : CwWord) : (s.wroteCw g w).outcome = s.outcome := rfl
@[simp] theorem State.wroteCw_hist (g : Cfg) (s : State) (w : CwWord) :
    (s.wroteCw g w).hist = s.hist ++ cwWriteEvents g s.cw w := rfl
@[simp] theorem State.wroteCw_result (g : Cfg) (s : State) (w : CwWord) : (s.wroteCw g w).result = s.result := rfl
@[simp] theorem State.wroteCw_names (g : Cfg) (s : State) (w : CwWord) : (s.wroteCw g w).names = s.names := rfl
@[simp] theorem State.wroteCw_program (g : Cfg) (s : State) (w : CwWord) : (s.wroteCw g w).program = s.program := rfl
@[simp] theorem State.wroteCw_pending (g : Cfg) (s : State) (w : CwWord) : (s.wroteCw g w).pending = s.pending := rfl
@[simp] theorem State.wroteCw_env (g : Cfg) (s : State) (w : CwWord) : (s.wroteCw g w).env = s.env := rfl

/-- fieldWrite of R151: the word with the field's new value, exactly two events, a read and then a write. -/
theorem fieldWrite_eq (g : Cfg) (f : CwField) (h : BitVec 4 → BitVec 4) {s : State} (hio : s.env.ioFailure = none) :
    fieldWrite g f h s = .ok () (s.wroteCw g (putField g s.cw f (h (getField g s.cw f)))) := by
  have hio' : (s.record (.mmioR g.cwOffset g.cwBytes (s.cw.setWidth 64))).env.ioFailure = none := hio
  simp only [fieldWrite, readReg_eq g .cw hio, Res.ok_bind, State.windowValue, WinReg.offset, WinReg.width,
    writeCwReg_eq g _ hio', setWidth_32_64_32]
  congr 1
  simp [State.wroteCw, State.record, State.writeCw, cwWriteEvents]

theorem cwAssign_eq (g : Cfg) (f : CwField) (v : BitVec 4) {s : State} (h : s.env.ioFailure = none) :
    cwAssign g f v s = .ok () (s.wroteCw g (putField g s.cw f v)) := fieldWrite_eq g f _ h

theorem cwSet_eq (g : Cfg) (f : CwField) (c : Chip) {s : State} (h : s.env.ioFailure = none) :
    cwSet g f c s = .ok () (s.wroteCw g (putField g s.cw f (getField g s.cw f ||| amask g c))) := fieldWrite_eq g f _ h

theorem cwClear_eq (g : Cfg) (f : CwField) (c : Chip) {s : State} (h : s.env.ioFailure = none) :
    cwClear g f c s = .ok () (s.wroteCw g (putField g s.cw f (getField g s.cw f &&& dmask g c))) := fieldWrite_eq g f _ h

/-- The chip-select field with chip `c` selected (R186). -/
def selectField (g : Cfg) (v : BitVec 4) (c : Chip) : BitVec 4 :=
  match g.csPolarity with
  | .selectOnOne => v ||| amask g c
  | .selectOnZero => v &&& dmask g c

/-- The chip-select field with chip `c` unselected (R187). -/
def deselectField (g : Cfg) (v : BitVec 4) (c : Chip) : BitVec 4 :=
  match g.csPolarity with
  | .selectOnOne => v &&& dmask g c
  | .selectOnZero => v ||| amask g c

theorem csAssert_eq (g : Cfg) (c : Chip) {s : State} (h : s.env.ioFailure = none) :
    csAssert g c s = .ok () (s.wroteCw g (putField g s.cw .cs (selectField g (getField g s.cw .cs) c))) := by
  unfold csAssert selectField
  cases hp : g.csPolarity <;> simp [cwSet_eq g _ _ h, cwClear_eq g _ _ h]

theorem csDeassert_eq (g : Cfg) (c : Chip) {s : State} (h : s.env.ioFailure = none) :
    csDeassert g c s = .ok () (s.wroteCw g (putField g s.cw .cs (deselectField g (getField g s.cw .cs) c))) := by
  unfold csDeassert deselectField
  cases hp : g.csPolarity <;> simp [cwSet_eq g _ _ h, cwClear_eq g _ _ h]

/-- Writing a field other than `reset` changes no chip. -/
theorem State.writeCw_putField {g : Cfg} (hg : g.wf) (s : State) {f : CwField} (v : BitVec 4) (h : f ≠ .reset) :
    s.writeCw g (putField g s.cw f v) = { s with cw := putField g s.cw f v } :=
  State.writeCw_of_same_reset g s _ fun p => resetBit_putField_ne hg s.cw v h p

/-- Selected after CS.ASSERT: the chips of the operand and those that were selected (R186). -/
theorem isSelected_select {g : Cfg} (hg : g.wf) (w : CwWord) (c : Chip) (p : PhysChip) :
    isSelected g (putField g w .cs (selectField g (getField g w .cs) c)) p =
      (decide (p ∈ members g c) || isSelected g w p) := by
  unfold isSelected selectField
  by_cases hc : g.hasChip p = true
  · cases hp : g.csPolarity <;> simp only [getField_putField_same hg, hc, Bool.true_and]
    · rw [BitVec.getLsbD_or, amask_bit hg, Bool.or_comm]
    · rw [BitVec.getLsbD_and, dmask_eq, BitVec.getLsbD_not, amask_bit hg]
      simp [chipIdx_lt p, Bool.or_comm]
  · have hm : p ∉ members g c := fun h => hc (members_hasChip h)
    simp [hc, hm]

/-- Selected after CS.DEASSERT: those that were selected and are not of the operand (R187). -/
theorem isSelected_deselect {g : Cfg} (hg : g.wf) (w : CwWord) (c : Chip) (p : PhysChip) :
    isSelected g (putField g w .cs (deselectField g (getField g w .cs) c)) p =
      (!decide (p ∈ members g c) && isSelected g w p) := by
  unfold isSelected deselectField
  by_cases hc : g.hasChip p = true
  · cases hp : g.csPolarity <;> simp only [getField_putField_same hg, hc, Bool.true_and]
    · rw [BitVec.getLsbD_and, dmask_eq, BitVec.getLsbD_not, amask_bit hg]
      simp [chipIdx_lt p, Bool.and_comm]
    · rw [BitVec.getLsbD_or, amask_bit hg]
      simp [Bool.and_comm]
  · simp [hc]

theorem mem_selected (g : Cfg) (w : CwWord) (p : PhysChip) : p ∈ selected g w ↔ isSelected g w p = true := by
  unfold selected PhysChip.all
  cases p <;> simp

/-- A transfer of at least one byte, no selected chip in reset, no failure drawn (R180). -/
theorem spiXfer_eq (g : Cfg) (tx : List Byte) {s : State} (htx : tx ≠ []) (hio : s.env.ioFailure = none)
    (hrel : ∀ p ∈ selected g s.cw, resetBit g s.cw p = false) :
    spiXfer g tx s =
      .ok (chipResponse g (selected g s.cw) tx s).1
        ((chipResponse g (selected g s.cw) tx s).2.record
          (.xfer (selected g s.cw) tx (chipResponse g (selected g s.cw) tx s).1)) := by
  have hheld : ¬ (selected g s.cw).any (resetBit g s.cw) = true := by
    simp only [List.any_eq_true, not_exists, not_and]
    intro p hp
    simp [hrel p hp]
  simp [spiXfer, htx, drawIo_of_none g hio, hheld]

/-- A transfer while a selected chip is held in reset faults (R195). -/
theorem spiXfer_held (g : Cfg) (tx : List Byte) {s : State} (htx : tx ≠ []) (hio : s.env.ioFailure = none)
    {p : PhysChip} (hp : p ∈ selected g s.cw) (hr : resetBit g s.cw p = true) :
    spiXfer g tx s = .stop (.fault .spiWhileInReset) s := by
  have hheld : (selected g s.cw).any (resetBit g s.cw) = true := List.any_eq_true.mpr ⟨p, hp, hr⟩
  simp [spiXfer, htx, drawIo_of_none g hio, hheld]

/-- The chips' response to a write frame: every listener latches, and all bytes received are junk (R191, R192, R194). -/
theorem chipResponse_write (g : Cfg) {sel : List PhysChip} {a : Nat} {vb : List Byte} (s : State)
    (ha : a < g.nreg) (h128 : a < 128) (hl : vb.length + 1 = g.frameLen) :
    chipResponse g sel (writeFrame a vb) s =
      (junkBytes s.env.link s.hist sel (writeFrame a vb), s.latch g sel a (valueOf g vb)) := by
  rcases sel with _ | ⟨p, more⟩
  · rw [State.latch_nil]; rfl
  have h1 : frameAddr (cmdByte a true) = a := frameAddr_cmdByte a true h128
  simp [chipResponse, writeFrame, h1, hl, cmdByte_flag, Nat.not_le.mpr ha]

/-- The response of the one selected chip to a read frame (R193). -/
theorem chipResponse_read (g : Cfg) (p : PhysChip) {a : Nat} {d : List Byte} (s : State) (ha : a < g.nreg)
    (h128 : a < 128) (hl : d.length + 1 = g.frameLen) :
    chipResponse g [p] (cmdByte a false :: d) s =
      (Link.junk s.env.link s.hist [p] (cmdByte a false :: d) 0 ::
        wireBytes g (Link.data g s.env.link s.hist p a (s.reg p a)), s) := by
  have h1 : frameAddr (cmdByte a false) = a := frameAddr_cmdByte a false h128
  simp [chipResponse, h1, hl, cmdByte_bit0, Nat.not_le.mpr ha]

/-- Whatever is sent, the response changes nothing but registers of the selected chips. -/
theorem chipResponse_state (g : Cfg) (sel : List PhysChip) (tx : List Byte) (s : State) :
    (chipResponse g sel tx s).2 = s ∨ (chipResponse g sel tx s).2 = s.forget sel ∨
      ∃ a v, a < g.nreg ∧ (chipResponse g sel tx s).2 = s.latch g sel a v := by
  unfold chipResponse
  split
  · exact .inl rfl
  · exact .inr (.inl rfl)
  · rename_i p more c vb
    dsimp only
    split_ifs with h1 h2
    · exact .inr (.inl rfl)
    · simp only [not_or, not_le] at h1
      exact .inr (.inr ⟨_, _, h1.2, rfl⟩)
    · split <;> exact .inl rfl

/-! ## What every operation keeps, whatever is drawn -/

/-- What the steps inside an operation keep: the sequencer's place, the caller's data and the handles, and the history only
grows (R40, R44). -/
structure Within (s t : State) : Prop where
  pc      : t.pc = s.pc
  result  : t.result = s.result
  outcome : t.outcome = s.outcome
  handles : t.mapOK = s.mapOK ∧ t.spiOK = s.spiOK
  caller  : t.program = s.program ∧ t.pending = s.pending ∧ t.names = s.names
  hist    : s.hist <+: t.hist
  second  : t.env.secondCaller = s.env.secondCaller
  draw    : s.env.ioFailure = none → t.env.ioFailure = none

theorem Within.refl (s : State) : Within s s :=
  ⟨rfl, rfl, rfl, ⟨rfl, rfl⟩, ⟨rfl, rfl, rfl⟩, List.prefix_rfl, rfl, id⟩

theorem Within.trans {s t u : State} (h : Within s t) (k : Within t u) : Within s u :=
  ⟨k.pc.trans h.pc, k.result.trans h.result, k.outcome.trans h.outcome,
    ⟨k.handles.1.trans h.handles.1, k.handles.2.trans h.handles.2⟩,
    ⟨k.caller.1.trans h.caller.1, k.caller.2.1.trans h.caller.2.1, k.caller.2.2.trans h.caller.2.2⟩,
    h.hist.trans k.hist, k.second.trans h.second, k.draw ∘ h.draw⟩

/-- The part of the invariant that the chips are bound by. -/
structure ChipsOK (g : Cfg) (s : State) : Prop where
  regs      : ∀ p, RegFile.wf g (s.regs.get p)
  word      : s.cw &&& lowMask g.cwBits = s.cw
  held      : ∀ p, s.life.get p = .heldInReset ↔ resetBit g s.cw p = true
  forgotten : ∀ p, resetBit g s.cw p = true → s.regs.get p = []
  oneMode   : ∀ p q m m', s.life.get p = .triggering m → s.life.get q = .triggering m' → m = m'

/-- The relation that every step of an operation meets: it keeps what `Within` says and the chips' part of the invariant. -/
def Good (g : Cfg) (s t : State) : Prop := Within s t ∧ (ChipsOK g s → ChipsOK g t)

theorem Good.refl (g : Cfg) (s : State) : Good g s s := ⟨Within.refl s, id⟩

theorem Good.trans {g : Cfg} {s t u : State} (h : Good g s t) (k : Good g t u) : Good g s u :=
  ⟨h.1.trans k.1, fun c => k.2 (h.2 c)⟩

/-- A step after a good step is good. -/
theorem Good.bind {α β : Type} {g : Cfg} {s : State} {m : Res α} {k : α → State → Res β} (hm : m.post (Good g s))
    (hk : ∀ v t, (k v t).post (Good g t)) : (m.bind k).post (Good g s) := by
  cases m with
  | ok v t => exact Res.post_mono (hk v t) fun u hu => Good.trans hm hu
  | stop w t => exact hm

theorem Good.record (g : Cfg) (s : State) (e : Event) : Good g s (s.record e) :=
  ⟨⟨rfl, rfl, rfl, ⟨rfl, rfl⟩, ⟨rfl, rfl, rfl⟩, List.prefix_append _ _, rfl, id⟩, fun c => ⟨c.1, c.2, c.3, c.4, c.5⟩⟩

theorem Good.drawIo (g : Cfg) (s : State) : Good g s (drawIo g s).2 := by
  unfold Machine.drawIo
  split
  · split
    · exact Good.refl g s
    · exact Good.refl g s
    · rename_i hd
      exact ⟨⟨rfl, rfl, rfl, ⟨rfl, rfl⟩, ⟨rfl, rfl, rfl⟩, List.prefix_rfl, rfl, fun h => by rw [h] at hd; cases hd⟩,
        fun c => ⟨c.1, c.2, c.3, c.4, c.5⟩⟩
  · exact Good.refl g s

theorem drawIo_cw (g : Cfg) (s : State) : (drawIo g s).2.cw = s.cw := by
  unfold drawIo; split <;> [split; skip] <;> rfl

/-- A write of CW is good where it keeps CW within its bits. -/
theorem Good.writeCw (g : Cfg) (s : State) (w : CwWord)
    (hw : s.cw &&& lowMask g.cwBits = s.cw → w &&& lowMask g.cwBits = w) : Good g s (s.writeCw g w) := by
  refine ⟨⟨rfl, rfl, rfl, ⟨rfl, rfl⟩, ⟨rfl, rfl, rfl⟩, List.prefix_rfl, rfl, id⟩, fun c => ⟨?_, hw c.word, ?_, ?_, ?_⟩⟩
  · intro p
    rw [State.writeCw_get_regs]
    split
    · exact RegFile.wf_nil g
    · exact c.regs p
  · intro p
    have h := c.held p
    rw [State.writeCw_get_life, State.writeCw_cw]
    cases hn : resetBit g w p <;> cases ho : resetBit g s.cw p <;> simp_all
  · intro p hp
    rw [State.writeCw_cw] at hp
    rw [State.writeCw_get_regs, hp]
    cases ho : resetBit g s.cw p
    · simp
    · simp [c.forgotten p ho]
  · intro p q m m' hp hq
    rw [State.writeCw_get_life] at hp hq
    split_ifs at hp hq
    exact c.oneMode p q m m' hp hq

theorem Good.forget (g : Cfg) (s : State) (ps : List PhysChip) : Good g s (s.forget ps) := by
  refine ⟨⟨rfl, rfl, rfl, ⟨rfl, rfl⟩, ⟨rfl, rfl, rfl⟩, List.prefix_rfl, rfl, id⟩, fun c => ⟨?_, c.word, c.held, ?_, c.oneMode⟩⟩
  · intro p
    rw [State.forget_get_regs]
    split
    · exact RegFile.wf_nil g
    · exact c.regs p
  · intro p hp
    rw [State.forget_get_regs]
    split
    · rfl
    · exact c.forgotten p hp

theorem Good.latch (g : Cfg) (s : State) (ps : List PhysChip) (a : Nat) (v : Word) (ha : a < g.nreg)
    (hps : ∀ p ∈ ps, resetBit g s.cw p = false) : Good g s (s.latch g ps a v) := by
  refine ⟨⟨rfl, rfl, rfl, ⟨rfl, rfl⟩, ⟨rfl, rfl, rfl⟩, List.prefix_rfl, rfl, id⟩, fun c => ⟨?_, c.word, c.held, ?_, c.oneMode⟩⟩
  · intro p
    rw [State.latch_get_regs]
    split
    · exact RegFile.wf_write (c.regs p) ha (latch_masked _ _ _ _ _ _)
    · exact c.regs p
  · intro p hp
    rw [State.latch_cw] at hp
    rw [State.latch_get_regs]
    split
    · rename_i hm
      rw [hps p hm] at hp
      cases hp
    · exact c.forgotten p hp

theorem readReg_good (g : Cfg) (r : WinReg) (s : State) : (readReg g r s).post (Good g s) := by
  unfold readReg
  have h := Good.drawIo g s
  split
  · rename_i heq; rw [heq] at h; exact h
  · rename_i heq; rw [heq] at h; exact h.trans (Good.record g _ _)

theorem readSecond_good (g : Cfg) (s : State) : (readSecond g s).post (Good g s) := by
  unfold readSecond
  split
  · exact readReg_good g _ s
  · exact Good.refl g s

theorem writeCwReg_good (g : Cfg) (v : CwWord) (s : State)
    (hw : s.cw &&& lowMask g.cwBits = s.cw → v &&& lowMask g.cwBits = v) : (writeCwReg g v s).post (Good g s) := by
  unfold writeCwReg
  have h := Good.drawIo g s
  have hc := drawIo_cw g s
  split
  · rename_i heq; rw [heq] at h hc
    show Good g s (if _ then _ else _)
    split
    · exact h.trans (Good.writeCw g _ _ (by rw [hc]; exact hw))
    · exact h
  · rename_i heq; rw [heq] at h hc
    exact (h.trans (Good.writeCw g _ _ (by rw [hc]; exact hw))).trans (Good.record g _ _)

/-- A field write, whatever its value is (R151): the word written is the word read with one field changed. -/
theorem fieldWrite_good {g : Cfg} (hg : g.wf) (f : CwField) (h : BitVec 4 → BitVec 4) (s : State) :
    (fieldWrite g f h s).post (Good g s) := by
  unfold fieldWrite
  have h1 := readReg_good g .cw s
  cases hr : readReg g .cw s with
  | stop w t => rw [hr] at h1; exact h1
  | ok v t =>
    rw [hr] at h1
    have hv : v.setWidth 32 = t.cw := by
      unfold readReg at hr
      split at hr
      · cases hr
      · cases hr
        exact setWidth_32_64_32 _
    simp only [Res.ok_bind, hv]
    exact Res.post_mono (writeCwReg_good g _ t fun hw => putField_within hg hw f _) fun u hu => Good.trans h1 hu

theorem csAssert_good {g : Cfg} (hg : g.wf) (c : Chip) (s : State) : (csAssert g c s).post (Good g s) := by
  unfold csAssert; split <;> exact fieldWrite_good hg _ _ s

theorem csDeassert_good {g : Cfg} (hg : g.wf) (c : Chip) (s : State) : (csDeassert g c s).post (Good g s) := by
  unfold csDeassert; split <;> exact fieldWrite_good hg _ _ s

theorem chipResponse_good (g : Cfg) (sel : List PhysChip) (tx : List Byte) (s : State)
    (h : ∀ p ∈ sel, resetBit g s.cw p = false) : Good g s (chipResponse g sel tx s).2 := by
  rcases chipResponse_state g sel tx s with e | e | ⟨a, v, ha, e⟩ <;> rw [e]
  · exact Good.refl g s
  · exact Good.forget g s sel
  · exact Good.latch g s sel a v ha h

theorem spiXfer_good (g : Cfg) (tx : List Byte) (s : State) : (spiXfer g tx s).post (Good g s) := by
  unfold spiXfer
  split
  · exact Good.refl g s
  · have h := Good.drawIo g s
    have hc := drawIo_cw g s
    have hrel : ¬ (selected g s.cw).any (resetBit g s.cw) = true →
        ∀ p ∈ selected g s.cw, resetBit g s.cw p = false := by
      intro hn p hp
      by_contra hb
      exact hn (List.any_eq_true.mpr ⟨p, hp, by simpa using hb⟩)
    dsimp only
    split
    · rename_i took t heq
      rw [heq] at h hc
      show Good g s (if _ then _ else _)
      split
      · refine h.trans (chipResponse_good g _ _ _ fun p hp => ?_)
        simpa using (List.mem_filter.mp hp).2
      · exact h
    · rename_i t heq
      rw [heq] at h hc
      split
      · exact h
      · rename_i hk
        refine (h.trans (chipResponse_good g _ _ _ fun p hp => ?_)).trans (Good.record g _ _)
        rw [show t.cw = s.cw from hc]
        exact hrel hk p hp

theorem framed_good {g : Cfg} (hg : g.wf) (c : Chip) (tx : List Byte) (s : State) : (framed g c tx s).post (Good g s) :=
  Good.bind (csAssert_good hg c s) fun _ t => Good.bind (spiXfer_good g tx t) fun _ u =>
    Good.bind (csDeassert_good hg c u) fun _ v => Good.refl g v

theorem attemptWrite_good {g : Cfg} (hg : g.wf) (c : Chip) (a : Nat) (vb : List Byte) (s : State) :
    (attemptWrite g c a vb s).post (Good g s) :=
  Good.bind (framed_good hg c _ s) fun _ t => Good.bind (framed_good hg c _ t) fun _ u => Good.refl g u

theorem Good.setAttempt (g : Cfg) (s : State) (k : Option Nat) : Good g s { s with attempt := k } :=
  ⟨⟨rfl, rfl, rfl, ⟨rfl, rfl⟩, ⟨rfl, rfl, rfl⟩, List.prefix_rfl, rfl, id⟩, fun c => ⟨c.1, c.2, c.3, c.4, c.5⟩⟩

theorem Good.setCursor (g : Cfg) (s : State) (k : Option (PhysChip × Nat)) : Good g s { s with cursor := k } :=
  ⟨⟨rfl, rfl, rfl, ⟨rfl, rfl⟩, ⟨rfl, rfl, rfl⟩, List.prefix_rfl, rfl, id⟩, fun c => ⟨c.1, c.2, c.3, c.4, c.5⟩⟩

theorem attempts_good {g : Cfg} (hg : g.wf) (c : Chip) (a : Nat) (vb : List Byte) :
    ∀ (left k : Nat) (s : State), (attempts g c a vb k left s).post (Good g s)
  | left, k, s => by
    unfold attempts
    have h0 : (attemptWrite g c a vb { s with attempt := some k }).post (Good g s) :=
      Res.post_mono (attemptWrite_good hg c a vb _) fun u hu => (Good.setAttempt g s (some k)).trans hu
    refine Good.bind h0 fun ok t => ?_
    split
    · exact Good.setAttempt g t none
    · match left with
      | 0 => exact Good.refl g t
      | left + 1 => exact attempts_good hg c a vb left (k + 1) t

theorem verifiedWrite_good {g : Cfg} (hg : g.wf) (c : Chip) (a : Int) (vb : List Byte) (s : State) :
    (verifiedWrite g c a vb s).post (Good g s) := by
  unfold verifiedWrite withAddr
  split
  · exact attempts_good hg c _ vb _ _ s
  · exact Good.refl g s

theorem programChunks_good {g : Cfg} (hg : g.wf) (p : PhysChip) :
    ∀ (cs : List (List Byte)) (i : Nat) (s : State), (programChunks g p i cs s).post (Good g s)
  | [], _, s => Good.refl g s
  | vb :: rest, i, s => by
    have h0 : (verifiedWrite g (asChip p) i vb { s with cursor := some (p, i) }).post (Good g s) :=
      Res.post_mono (verifiedWrite_good hg _ _ vb _) fun u hu => (Good.setCursor g s _).trans hu
    exact Good.bind h0 fun _ t => programChunks_good hg p rest (i + 1) t

theorem Good.configured (g : Cfg) (s : State) (p : PhysChip) : Good g s (s.configured p) := by
  unfold State.configured
  split
  · exact Good.refl g s
  · rename_i hl
    refine ⟨⟨rfl, rfl, rfl, ⟨rfl, rfl⟩, ⟨rfl, rfl, rfl⟩, List.prefix_rfl, rfl, id⟩, fun c => ⟨c.regs, c.word, ?_, c.forgotten, ?_⟩⟩
    · intro q
      rw [State.setLife_get_life, State.setLife_cw, ← c.held q]
      split
      · rename_i hq
        rw [List.mem_singleton.mp hq]
        simp [hl]
      · rfl
    · intro q r m m' hq hr
      rw [State.setLife_get_life] at hq hr
      split_ifs at hq hr
      exact c.oneMode q r m m' hq hr

theorem programChips_good {g : Cfg} (hg : g.wf) (cs : List (List Byte)) :
    ∀ (ps : List PhysChip) (s : State), (programChips g cs ps s).post (Good g s)
  | [], s => Good.refl g s
  | p :: ps, s => Good.bind (programChunks_good hg p cs 0 s) fun _ t =>
      Res.post_mono (programChips_good hg cs ps (t.configured p)) fun _ hu => (Good.configured g t p).trans hu

theorem triggered_held (m : TrigMode) (l : Life) : triggered m l = .heldInReset ↔ l = .heldInReset := by
  cases m <;> cases l <;> simp [triggered]

/-- After SETTRIG `m`, a chip that is triggering is in mode `m` (R290, R37). -/
theorem triggered_mode {m k : TrigMode} {l : Life} (h : triggered m l = .triggering k) : k = m := by
  cases m <;> cases l <;> simp_all [triggered]

theorem Good.setTrigger (g : Cfg) (s : State) (m : TrigMode) : Good g s (s.setTrigger m) := by
  refine ⟨⟨rfl, rfl, rfl, ⟨rfl, rfl⟩, ⟨rfl, rfl, rfl⟩, List.prefix_rfl, rfl, id⟩, fun c => ⟨c.regs, c.word, ?_, c.forgotten, ?_⟩⟩
  · intro p
    rw [State.setTrigger_get_life, triggered_held]
    exact c.held p
  · intro p q k k' hp hq
    rw [State.setTrigger_get_life] at hp hq
    rw [triggered_mode hp, triggered_mode hq]

/-- Where a field write goes through, the control word has the field's new value (R151). -/
theorem fieldWrite_ok {g : Cfg} {f : CwField} {h : BitVec 4 → BitVec 4} {s t : State}
    (e : fieldWrite g f h s = .ok () t) : t.cw = putField g s.cw f (h (getField g s.cw f)) := by
  have hd := drawIo_cw g s
  unfold fieldWrite readReg at e
  dsimp only at e
  cases hdr : drawIo g s with
  | mk o s1 =>
    rw [hdr] at e hd
    cases o with
    | some took => simp at e
    | none =>
      simp only [Res.ok_bind, State.windowValue, setWidth_32_64_32, writeCwReg] at e
      cases hdr2 : drawIo g (s1.record (.mmioR (WinReg.cw.offset g) (WinReg.cw.width g) (s1.cw.setWidth 64))) with
      | mk o s2 =>
        rw [hdr2] at e
        cases o with
        | some took => simp at e
        | none =>
          simp only [Res.ok.injEq, true_and] at e
          rw [← e, State.record_cw, State.writeCw_cw, show s1.cw = s.cw from hd]

theorem resetBit_set {g : Cfg} (hg : g.wf) (w : CwWord) (c : Chip) (p : PhysChip) :
    resetBit g (putField g w .reset (getField g w .reset ||| amask g c)) p =
      (decide (p ∈ members g c) || resetBit g w p) := by
  simp only [resetBit, getField_putField_same hg, BitVec.getLsbD_or, amask_bit hg]
  by_cases hc : g.hasChip p = true
  · simp [hc, Bool.or_comm]
  · simp [hc, show p ∉ members g c from fun h => hc (members_hasChip h)]

theorem resetBit_clear {g : Cfg} (hg : g.wf) (w : CwWord) (c : Chip) (p : PhysChip) :
    resetBit g (putField g w .reset (getField g w .reset &&& dmask g c)) p =
      (!decide (p ∈ members g c) && resetBit g w p) := by
  simp only [resetBit, getField_putField_same hg, BitVec.getLsbD_and, dmask_eq, BitVec.getLsbD_not, amask_bit hg]
  by_cases hc : g.hasChip p = true
  · simp [hc, chipIdx_lt p, Bool.and_comm]
  · simp [hc]

theorem Good.setLife_held (g : Cfg) (s : State) (ps : List PhysChip) (h : ∀ p ∈ ps, resetBit g s.cw p = true) :
    Good g s (s.setLife ps .heldInReset) := by
  refine ⟨⟨rfl, rfl, rfl, ⟨rfl, rfl⟩, ⟨rfl, rfl, rfl⟩, List.prefix_rfl, rfl, id⟩, fun c => ⟨c.regs, c.word, ?_, c.forgotten, ?_⟩⟩
  · intro p
    rw [State.setLife_get_life, State.setLife_cw]
    split
    · rename_i hp; simp [h p hp]
    · exact c.held p
  · intro p q m m' hp hq
    rw [State.setLife_get_life] at hp hq
    split_ifs at hp hq
    exact c.oneMode p q m m' hp hq

theorem Good.setLife_released (g : Cfg) (s : State) (ps : List PhysChip) (h : ∀ p ∈ ps, resetBit g s.cw p = false) :
    Good g s (s.setLife ps .released) := by
  refine ⟨⟨rfl, rfl, rfl, ⟨rfl, rfl⟩, ⟨rfl, rfl, rfl⟩, List.prefix_rfl, rfl, id⟩, fun c => ⟨c.regs, c.word, ?_, c.forgotten, ?_⟩⟩
  · intro p
    rw [State.setLife_get_life, State.setLife_cw]
    split
    · rename_i hp; simp [h p hp]
    · exact c.held p
  · intro p q m m' hp hq
    rw [State.setLife_get_life] at hp hq
    split_ifs at hp hq
    exact c.oneMode p q m m' hp hq

theorem pulseReset_good {g : Cfg} (hg : g.wf) (c : Chip) (d : Nat) (s : State) :
    (pulseReset g c d s).post (Good g s) := by
  unfold pulseReset
  have h1 := fieldWrite_good hg .reset (fun old => old ||| amask g c) s
  cases e1 : cwSet g .reset c s with
  | stop w t => rw [show fieldWrite g .reset _ s = _ from e1] at h1; exact h1
  | ok v t =>
    rw [show fieldWrite g .reset _ s = _ from e1] at h1
    have hcw : t.cw = _ := fieldWrite_ok e1
    have hset : ∀ p ∈ members g c, resetBit g t.cw p = true := by
      intro p hp; rw [hcw, resetBit_set hg]; simp [hp]
    have h2 : Good g s (((t.forget (members g c)).setLife (members g c) .heldInReset).record (.sleep d)) :=
      ((h1.trans (Good.forget g t _)).trans (Good.setLife_held g _ _ hset)).trans (Good.record g _ _)
    simp only [Res.ok_bind, sleep]
    have h3 := fieldWrite_good hg .reset (fun old => old &&& dmask g c)
      (((t.forget (members g c)).setLife (members g c) .heldInReset).record (.sleep d))
    cases e3 : cwClear g .reset c (((t.forget (members g c)).setLife (members g c) .heldInReset).record (.sleep d)) with
    | stop w u => rw [show fieldWrite g .reset _ _ = _ from e3] at h3; exact h2.trans h3
    | ok v u =>
      rw [show fieldWrite g .reset _ _ = _ from e3] at h3
      have hcu : u.cw = _ := fieldWrite_ok e3
      refine (h2.trans h3).trans (Good.setLife_released g u _ fun p hp => ?_)
      rw [hcu, resetBit_clear hg]
      simp [hp]

end Sys2Proof.Machine
end

