-- ==== Sys2Proof/Laws/Verify.lean ====
section
/-! SUPPORT. Sys2Proof/Laws/Verify.lean: what a framed transfer, one attempt of a verified write and the whole loop of attempts do
when no access failure is drawn. -/

namespace Sys2Proof.Machine

/-- The control word after CS.ASSERT. -/
def selectW (g : Cfg) (w : CwWord) (c : Chip) : CwWord :=
  putField g w .cs (selectField g (getField g w .cs) c)

/-- The control word after CS.DEASSERT. -/
def deselectW (g : Cfg) (w : CwWord) (c : Chip) : CwWord :=
  putField g w .cs (deselectField g (getField g w .cs) c)

theorem isSelected_selectW {g : Cfg} (hg : g.wf) (w : CwWord) (c : Chip) (p : PhysChip) :
    isSelected g (selectW g w c) p = (decide (p ∈ members g c) || isSelected g w p) := isSelected_select hg w c p

theorem isSelected_deselectW {g : Cfg} (hg : g.wf) (w : CwWord) (c : Chip) (p : PhysChip) :
    isSelected g (deselectW g w c) p = (!decide (p ∈ members g c) && isSelected g w p) := isSelected_deselect hg w c p

theorem resetBit_selectW {g : Cfg} (hg : g.wf) (w : CwWord) (c : Chip) (p : PhysChip) :
    resetBit g (selectW g w c) p = resetBit g w p := resetBit_putField_ne hg w _ (by simp) p

theorem resetBit_deselectW {g : Cfg} (hg : g.wf) (w : CwWord) (c : Chip) (p : PhysChip) :
    resetBit g (deselectW g w c) p = resetBit g w p := resetBit_putField_ne hg w _ (by simp) p

theorem getField_selectW {g : Cfg} (hg : g.wf) (w : CwWord) (c : Chip) {f : CwField} (h : f ≠ .cs) :
    getField g (selectW g w c) f = getField g w f := getField_putField_ne hg w _ (Ne.symm h)

theorem getField_deselectW {g : Cfg} (hg : g.wf) (w : CwWord) (c : Chip) {f : CwField} (h : f ≠ .cs) :
    getField g (deselectW g w c) f = getField g w f := getField_putField_ne hg w _ (Ne.symm h)

/-- The state after a write of the chip-select field: no chip changes. -/
theorem csAssert_state {g : Cfg} (hg : g.wf) (c : Chip) {s : State} (h : s.env.ioFailure = none) :
    csAssert g c s =
      .ok () { s with cw := selectW g s.cw c, hist := s.hist ++ cwWriteEvents g s.cw (selectW g s.cw c) } := by
  rw [csAssert_eq g c h]
  simp only [State.wroteCw, State.writeCw_putField hg s _ (show CwField.cs ≠ .reset by simp)]
  rfl

theorem csDeassert_state {g : Cfg} (hg : g.wf) (c : Chip) {s : State} (h : s.env.ioFailure = none) :
    csDeassert g c s =
      .ok () { s with cw := deselectW g s.cw c, hist := s.hist ++ cwWriteEvents g s.cw (deselectW g s.cw c) } := by
  rw [csDeassert_eq g c h]
  simp only [State.wroteCw, State.writeCw_putField hg s _ (show CwField.cs ≠ .reset by simp)]
  rfl

/-- The state in which the transfer of a framed transfer takes place. -/
def framedAt (g : Cfg) (c : Chip) (s : State) : State :=
  { s with cw := selectW g s.cw c, hist := s.hist ++ cwWriteEvents g s.cw (selectW g s.cw c) }

/-- The events of a framed transfer from control word `w`. -/
def framedEvents (g : Cfg) (w : CwWord) (c : Chip) (tx rx : List Byte) : List Event :=
  cwWriteEvents g w (selectW g w c) ++ [.xfer (selected g (selectW g w c)) tx rx] ++
    cwWriteEvents g (selectW g w c) (deselectW g (selectW g w c) c)

/-- A framed transfer: assert, transfer, deassert (R224 steps 2 and 3). -/
theorem framed_eq {g : Cfg} (hg : g.wf) (c : Chip) {tx : List Byte} {s : State} (htx : tx ≠ [])
    (hio : s.env.ioFailure = none)
    (hrel : ∀ p, p ∈ members g c ∨ isSelected g s.cw p = true → resetBit g s.cw p = false) :
    framed g c tx s =
      .ok (chipResponse g (selected g (selectW g s.cw c)) tx (framedAt g c s)).1
        { (chipResponse g (selected g (selectW g s.cw c)) tx (framedAt g c s)).2 with
          cw := deselectW g (selectW g s.cw c) c
          hist := s.hist ++ framedEvents g s.cw c tx
            (chipResponse g (selected g (selectW g s.cw c)) tx (framedAt g c s)).1 } := by
  have h1 : ∀ p ∈ selected g (framedAt g c s).cw, resetBit g (framedAt g c s).cw p = false := by
    intro p hp
    rw [mem_selected, framedAt, isSelected_selectW hg] at hp
    show resetBit g (selectW g s.cw c) p = false
    rw [resetBit_selectW hg]
    exact hrel p (by simpa using hp)
  unfold framed
  rw [csAssert_state hg c hio, Res.ok_bind]
  change ((spiXfer g tx (framedAt g c s)).bind _) = _
  rw [spiXfer_eq g tx htx (s := framedAt g c s) hio h1, Res.ok_bind]
  have hs := chipResponse_state g (selected g (framedAt g c s).cw) tx (framedAt g c s)
  have hcw : (chipResponse g (selected g (framedAt g c s).cw) tx (framedAt g c s)).2.cw = selectW g s.cw c := by
    rcases hs with e | e | ⟨a, v, -, e⟩ <;> rw [e] <;> rfl
  have henv : (chipResponse g (selected g (framedAt g c s).cw) tx (framedAt g c s)).2.env = s.env := by
    rcases hs with e | e | ⟨a, v, -, e⟩ <;> rw [e] <;> rfl
  have hh : (chipResponse g (selected g (framedAt g c s).cw) tx (framedAt g c s)).2.hist =
      s.hist ++ cwWriteEvents g s.cw (selectW g s.cw c) := by
    rcases hs with e | e | ⟨a, v, -, e⟩ <;> rw [e] <;> rfl
  rw [csDeassert_state hg c (by simpa [henv] using hio), Res.ok_bind]
  simp only [State.record_cw, State.record_hist, hcw, hh]
  simp only [framedEvents, List.append_assoc]
  rfl

/-- Who hears the transfers of `c`: its chips and those selected before (R228 (a), (e)). -/
theorem selected_selectW {g : Cfg} (hg : g.wf) (w : CwWord) (c : Chip) : selected g (selectW g w c) = wrvListeners g c w :=
  List.filter_congr fun q _ => isSelected_selectW hg w c q

theorem mem_wrvListeners (g : Cfg) (c : Chip) (w : CwWord) (q : PhysChip) :
    q ∈ wrvListeners g c w ↔ q ∈ members g c ++ selected g w := by
  rw [List.mem_append, mem_selected]
  cases q <;> simp [wrvListeners, PhysChip.all]

/-- The listeners depend only on the selection of the chips outside `c`. -/
theorem wrvListeners_congr {g : Cfg} {c : Chip} {w w' : CwWord}
    (h : ∀ q, q ∉ members g c → isSelected g w' q = isSelected g w q) : wrvListeners g c w' = wrvListeners g c w :=
  List.filter_congr fun q _ => by
    by_cases hq : q ∈ members g c
    · simp [hq]
    · rw [h q hq]

/-- The control word after a framed transfer. -/
def pulsedW (g : Cfg) (w : CwWord) (c : Chip) : CwWord := deselectW g (selectW g w c) c

theorem isSelected_pulsedW {g : Cfg} (hg : g.wf) (w : CwWord) (c : Chip) (p : PhysChip) :
    isSelected g (pulsedW g w c) p = (!decide (p ∈ members g c) && isSelected g w p) := by
  rw [pulsedW, isSelected_deselectW hg, isSelected_selectW hg]
  by_cases h : p ∈ members g c <;> simp [h]

theorem resetBit_pulsedW {g : Cfg} (hg : g.wf) (w : CwWord) (c : Chip) (p : PhysChip) :
    resetBit g (pulsedW g w c) p = resetBit g w p := by
  rw [pulsedW, resetBit_deselectW hg, resetBit_selectW hg]

theorem getField_pulsedW {g : Cfg} (hg : g.wf) (w : CwWord) (c : Chip) {f : CwField} (h : f ≠ .cs) :
    getField g (pulsedW g w c) f = getField g w f := by
  rw [pulsedW, getField_deselectW hg _ _ h, getField_selectW hg _ _ h]

/-- The state after the write frame of an attempt. -/
def afterWrite (g : Cfg) (c : Chip) (a : Nat) (vb : List Byte) (s : State) : State :=
  { (framedAt g c s).latch g (selected g (selectW g s.cw c)) a (valueOf g vb) with
    cw := pulsedW g s.cw c
    hist := s.hist ++ framedEvents g s.cw c (writeFrame a vb)
      (junkBytes s.env.link (framedAt g c s).hist (selected g (selectW g s.cw c)) (writeFrame a vb)) }

/-- The bytes received in the read frame of an attempt. -/
def attemptRx (g : Cfg) (c : Chip) (a : Nat) (s : State) : List Byte :=
  (chipResponse g (selected g (selectW g s.cw c)) (readFrame g a) (framedAt g c s)).1

/-- A read frame changes no chip (R193, R194). -/
theorem chipResponse_readFrame {g : Cfg} (hg : g.wf) (sel : List PhysChip) {a : Nat} (ha : a < g.nreg) (s : State) :
    (chipResponse g sel (readFrame g a) s).2 = s := by
  have h128 : a < 128 := lt_of_lt_of_le ha hg.regs.1
  have h1 : frameAddr (cmdByte a false) = a := frameAddr_cmdByte a false h128
  unfold readFrame
  rcases sel with _ | ⟨p, _ | ⟨q, more⟩⟩ <;>
    simp [chipResponse, h1, frameLen_eq hg, cmdByte_bit0, Nat.not_le.mpr ha]

/-- The write frame of an attempt between its chip-select writes. -/
theorem framed_write {g : Cfg} (hg : g.wf) (c : Chip) {a : Nat} {vb : List Byte} {s : State} (ha : a < g.nreg)
    (hvb : vb.length = g.valueBytes) (hio : s.env.ioFailure = none)
    (hrel : ∀ p, p ∈ members g c ∨ isSelected g s.cw p = true → resetBit g s.cw p = false) :
    ∃ rx, framed g c (writeFrame a vb) s = .ok rx (afterWrite g c a vb s) := by
  rw [framed_eq hg c (by simp [writeFrame]) hio hrel,
    chipResponse_write g _ ha (lt_of_lt_of_le ha hg.regs.1) (by rw [hvb, frameLen_eq hg])]
  exact ⟨_, rfl⟩

/-- The read frame of an attempt between its chip-select writes. -/
theorem framed_read {g : Cfg} (hg : g.wf) (c : Chip) {a : Nat} {s : State} (ha : a < g.nreg)
    (hio : s.env.ioFailure = none)
    (hrel : ∀ p, p ∈ members g c ∨ isSelected g s.cw p = true → resetBit g s.cw p = false) :
    framed g c (readFrame g a) s =
      .ok (attemptRx g c a s)
        { s with cw := pulsedW g s.cw c, hist := s.hist ++ framedEvents g s.cw c (readFrame g a) (attemptRx g c a s) } := by
  rw [framed_eq hg c (by simp [readFrame]) hio hrel, chipResponse_readFrame hg _ ha]
  rfl

/-- The state after one attempt. -/
def afterAttempt (g : Cfg) (c : Chip) (a : Nat) (vb : List Byte) (s : State) : State :=
  let s1 := afterWrite g c a vb s
  { s1 with
    cw := pulsedW g s1.cw c
    hist := s1.hist ++ framedEvents g s1.cw c (readFrame g a) (attemptRx g c a s1) }

/-- One attempt (R224): its verdict is the masked compare of the value sent and the value read back. -/
theorem attemptWrite_eq {g : Cfg} (hg : g.wf) (c : Chip) {a : Nat} {vb : List Byte} {s : State} (ha : a < g.nreg)
    (hvb : vb.length = g.valueBytes) (hio : s.env.ioFailure = none)
    (hrel : ∀ p, p ∈ members g c ∨ isSelected g s.cw p = true → resetBit g s.cw p = false) :
    attemptWrite g c a vb s =
      .ok (vcmp g a (valueOf g vb) (readBack g (attemptRx g c a (afterWrite g c a vb s)))) (afterAttempt g c a vb s) := by
  obtain ⟨rx, h⟩ := framed_write hg c ha hvb hio hrel
  have hrel' : ∀ p, p ∈ members g c ∨ isSelected g (afterWrite g c a vb s).cw p = true →
      resetBit g (afterWrite g c a vb s).cw p = false := by
    intro p hp
    show resetBit g (pulsedW g s.cw c) p = false
    rw [resetBit_pulsedW hg]
    refine hrel p (hp.imp_right fun h => ?_)
    have h' : isSelected g (pulsedW g s.cw c) p = true := h
    rw [isSelected_pulsedW hg] at h'
    simp_all
  unfold attemptWrite
  rw [h, Res.ok_bind, framed_read hg c ha (s := afterWrite g c a vb s) hio hrel', Res.ok_bind]
  rfl

/-- What one attempt leaves and records (R227). -/
structure Attempted (g : Cfg) (c : Chip) (a : Nat) (vb : List Byte) (s u : State) (es : List Event) : Prop where
  hist  : u.hist = s.hist ++ es
  life  : u.life = s.life
  env   : u.env = s.env
  place : u.pc = s.pc ∧ u.result = s.result ∧ u.outcome = s.outcome ∧ u.mapOK = s.mapOK ∧ u.spiOK = s.spiOK ∧
    u.program = s.program ∧ u.pending = s.pending ∧ u.names = s.names ∧ u.cursor = s.cursor
  sel   : ∀ q, isSelected g u.cw q = (!decide (q ∈ members g c) && isSelected g s.cw q)
  other : ∀ f, f ≠ .cs → getField g u.cw f = getField g s.cw f
  only  : OnlyRegister s u (members g c ++ selected g s.cw) a

theorem Attempted.trans {g : Cfg} {c : Chip} {a : Nat} {vb : List Byte} {s t u : State} {es fs : List Event}
    (h : Attempted g c a vb s t es) (k : Attempted g c a vb t u fs) : Attempted g c a vb s u (es ++ fs) where
  hist := by rw [k.hist, h.hist, List.append_assoc]
  life := k.life.trans h.life
  env := k.env.trans h.env
  place := by
    obtain ⟨a1, a2, a3, a4, a5, a6, a7, a8, a9⟩ := h.place
    obtain ⟨b1, b2, b3, b4, b5, b6, b7, b8, b9⟩ := k.place
    exact ⟨b1.trans a1, b2.trans a2, b3.trans a3, b4.trans a4, b5.trans a5, b6.trans a6, b7.trans a7, b8.trans a8,
      b9.trans a9⟩
  sel := by
    intro q
    rw [k.sel, h.sel]
    by_cases hq : q ∈ members g c <;> simp [hq]
  other := fun f hf => (k.other f hf).trans (h.other f hf)
  only := by
    intro q b hqb
    refine (k.only q b fun hk => hqb ⟨?_, hk.2⟩).trans (h.only q b hqb)
    rcases List.mem_append.mp hk.1 with h' | h'
    · exact List.mem_append_left _ h'
    · rw [mem_selected, h.sel] at h'
      exact List.mem_append_right _ ((mem_selected g s.cw q).mpr (by simp_all))

theorem afterAttempt_attempted {g : Cfg} (hg : g.wf) (c : Chip) (a : Nat) (vb : List Byte) (s : State) :
    ∃ es, Attempted g c a vb s (afterAttempt g c a vb s) es ∧ es.map eventShape = attemptShape g a vb ∧
      transfers es = attemptTransfers g c a vb s.cw ∧
      (∀ q ∈ members g c ++ selected g s.cw,
        (afterAttempt g c a vb s).reg q a = .known (Link.latch g s.env.link (s.hist ++ es.take 2) q a (valueOf g vb))) ∧
      lastReceived es = some (attemptRx g c a (afterWrite g c a vb s)) := by
  refine ⟨framedEvents g s.cw c (writeFrame a vb)
      (junkBytes s.env.link (framedAt g c s).hist (selected g (selectW g s.cw c)) (writeFrame a vb)) ++
    framedEvents g (afterWrite g c a vb s).cw c (readFrame g a) (attemptRx g c a (afterWrite g c a vb s)), ?_, ?_, ?_, ?_, ?_⟩
  · refine ⟨?_, rfl, rfl, ⟨rfl, rfl, rfl, rfl, rfl, rfl, rfl, rfl, rfl⟩, ?_, ?_, ?_⟩
    · simp [afterAttempt, afterWrite]
    · intro q
      show isSelected g (pulsedW g (pulsedW g s.cw c) c) q = _
      rw [isSelected_pulsedW hg, isSelected_pulsedW hg]
      by_cases hq : q ∈ members g c <;> simp [hq]
    · intro f hf
      show getField g (pulsedW g (pulsedW g s.cw c) c) f = _
      rw [getField_pulsedW hg _ _ hf, getField_pulsedW hg _ _ hf]
    · intro q b hqb
      show RegFile.read (((framedAt g c s).latch g (selected g (selectW g s.cw c)) a (valueOf g vb)).regs.get q) b = s.reg q b
      rw [State.latch_get_regs]
      split
      · rename_i hq
        rw [mem_selected, isSelected_selectW hg] at hq
        have hq' : q ∈ members g c ++ selected g s.cw := by
          rcases (Bool.or_eq_true _ _).mp hq with h | h
          · exact List.mem_append_left _ (of_decide_eq_true h)
          · exact List.mem_append_right _ ((mem_selected _ _ _).mpr h)
        rw [RegFile.read_write_ne _ _ fun h => hqb ⟨hq', h⟩]
        rfl
      · rfl
  · simp [framedEvents, cwWriteEvents, attemptShape, cwShape, eventShape]
  · have h : wrvListeners g c (afterWrite g c a vb s).cw = wrvListeners g c s.cw := wrvListeners_congr fun q hq => by
      show isSelected g (pulsedW g s.cw c) q = _
      rw [isSelected_pulsedW hg]; simp [hq]
    simp [transfers, framedEvents, cwWriteEvents, attemptTransfers, selected_selectW hg, h]
  · intro q hq
    show RegFile.read (((framedAt g c s).latch g (selected g (selectW g s.cw c)) a (valueOf g vb)).regs.get q) a = _
    rw [State.latch_get_regs, selected_selectW hg, if_pos ((mem_wrvListeners g c s.cw q).mpr hq), RegFile.read_write_same]
    rfl
  · simp [lastReceived, framedEvents, cwWriteEvents]

theorem readBackAgrees_eq {g : Cfg} {a : Nat} {vb : List Byte} {es : List Event} {rx : List Byte}
    (h : lastReceived es = some rx) : readBackAgrees g a vb es = vcmp g a (valueOf g vb) (readBack g rx) := by
  unfold readBackAgrees
  rw [h]

/-- The loop of attempts (R224, R229): the events of the attempts made, one list each; every attempt but the last mismatched, and
the last one matched or `left + 1` mismatched; the listeners hold what they latched in the last one, of whose events two come before its
write frame. -/
theorem attempts_spec {g : Cfg} (hg : g.wf) (c : Chip) {a : Nat} {vb : List Byte} (ha : a < g.nreg) (hvb : vb.length = g.valueBytes) :
    ∀ (left k : Nat) (s : State), s.env.ioFailure = none →
      (∀ p, p ∈ members g c ∨ isSelected g s.cw p = true → resetBit g s.cw p = false) →
      ∃ (u : State) (ess : List (List Event)), 1 ≤ ess.length ∧ ess.length ≤ left + 1 ∧ Attempted g c a vb s u ess.flatten ∧
        (∀ es ∈ ess, es.map eventShape = attemptShape g a vb ∧ transfers es = attemptTransfers g c a vb s.cw) ∧
        (∀ q ∈ members g c ++ selected g s.cw, u.reg q a =
          .known (Link.latch g s.env.link (s.hist ++ ess.flatten.take (10 * ess.length - 8)) q a (valueOf g vb))) ∧
        (∀ es ∈ ess.dropLast, readBackAgrees g a vb es = false) ∧
        (attempts g c a vb k left s = .ok () u ∧ u.attempt = none ∧
            (∃ es, ess.getLast? = some es ∧ readBackAgrees g a vb es = true) ∨
          ess.length = left + 1 ∧ (∀ es ∈ ess, readBackAgrees g a vb es = false) ∧
            attempts g c a vb k left s = .stop (.error (.writeVerification c a)) u)
  | left, k, s => by
    intro hio hrel
    have hA := attemptWrite_eq hg c (s := { s with attempt := some k }) ha hvb hio hrel
    obtain ⟨es, hes, hshape, hsent, hreg, hlast⟩ := afterAttempt_attempted hg c a vb { s with attempt := some k }
    have hreg' : ∀ q ∈ members g c ++ selected g s.cw, (afterAttempt g c a vb { s with attempt := some k }).reg q a =
        .known (Link.latch g s.env.link (s.hist ++ [es].flatten.take (10 * [es].length - 8)) q a (valueOf g vb)) := by
      simpa using hreg
    have hes' : Attempted g c a vb s (afterAttempt g c a vb { s with attempt := some k }) es :=
      ⟨hes.hist, hes.life, hes.env, hes.place, hes.sel, hes.other, hes.only⟩
    unfold attempts
    rw [hA, Res.ok_bind, ← readBackAgrees_eq hlast]
    cases hv : readBackAgrees g a vb es with
    | true =>
      exact ⟨{ afterAttempt g c a vb { s with attempt := some k } with attempt := none }, [es], le_refl _, by simp,
        by simpa using ⟨hes.hist, hes.life, hes.env, hes.place, hes.sel, hes.other, hes.only⟩,
        by simpa using ⟨hshape, hsent⟩, hreg', by simp, .inl ⟨by simp, rfl, es, rfl, hv⟩⟩
    | false =>
      cases left with
      | zero =>
        exact ⟨_, [es], le_refl _, by simp, by simpa using hes', by simpa using ⟨hshape, hsent⟩, hreg', by simp,
          .inr ⟨rfl, by simpa using hv, by simp⟩⟩
      | succ left =>
        have hrel' : ∀ p, p ∈ members g c ∨
            isSelected g (afterAttempt g c a vb { s with attempt := some k }).cw p = true →
            resetBit g (afterAttempt g c a vb { s with attempt := some k }).cw p = false := by
          intro p hp
          show resetBit g (pulsedW g (pulsedW g s.cw c) c) p = false
          rw [resetBit_pulsedW hg, resetBit_pulsedW hg]
          refine hrel p (hp.imp_right fun h => ?_)
          rw [hes'.sel] at h
          simp_all
        obtain ⟨u, ess, h1, h2, h3, h4, hr, h5, h6⟩ :=
          attempts_spec hg c ha hvb left (k + 1) (afterAttempt g c a vb { s with attempt := some k })
            (by rw [hes'.env]; exact hio) hrel'
        have hne : ess ≠ [] := by rintro rfl; simp at h1
        refine ⟨u, es :: ess, by simp, by simpa using h2, by simpa using hes'.trans h3, ?_, ?_, ?_, ?_⟩
        · have hw : wrvListeners g c (afterAttempt g c a vb { s with attempt := some k }).cw = wrvListeners g c s.cw :=
            wrvListeners_congr fun q hq => by rw [hes'.sel]; simp [hq]
          simpa [hshape, hsent, attemptTransfers, hw] using h4
        · intro q hq
          have hlen : es.length = 10 := by simpa [attemptShape, cwShape] using congrArg List.length hshape
          rw [hr q ?_, hes'.env, hes'.hist, List.length_cons, List.flatten_cons,
            show 10 * (ess.length + 1) - 8 = es.length + (10 * ess.length - 8) by omega, List.take_length_add_append,
            List.append_assoc]
          rw [List.mem_append, mem_selected] at hq ⊢
          by_cases hm : q ∈ members g c
          · exact .inl hm
          · exact .inr (by rw [hes'.sel]; simpa [hm] using hq)
        · rw [List.dropLast_cons_of_ne_nil hne]
          simpa [hv] using h5
        · rcases h6 with ⟨e, e0, fs, e1, e2⟩ | ⟨e0, e1, e⟩
          · exact .inl ⟨by simpa using e, e0, fs, by rw [List.getLast?_cons_of_ne_nil hne, e1], e2⟩
          · exact .inr ⟨by simpa using e0, by simpa [hv] using e1, by simpa using e⟩

/-- With no chip selected, CS.ASSERT of one chip selects exactly it (R188). -/
theorem selected_selectW_one {g : Cfg} (hg : g.wf) {w : CwWord} (h : selected g w = []) {p : PhysChip}
    (hp : g.hasChip p = true) : selected g (selectW g w (asChip p)) = [p] := by
  have h0 : ∀ q, isSelected g w q = false := by
    intro q
    by_contra hq
    have : q ∈ selected g w := (mem_selected g w q).mpr (by simpa using hq)
    simp [h] at this
  have h1 : ∀ q, isSelected g (selectW g w (asChip p)) q = decide (q = p) := by
    intro q
    rw [isSelected_selectW hg, h0, Bool.or_false]
    exact decide_eq_decide.mpr (mem_members_asChip hp q)
  unfold selected PhysChip.all
  cases p <;> simp [h1]

theorem selected_pulsedW_none {g : Cfg} (hg : g.wf) {w : CwWord} (h : selected g w = []) (c : Chip) :
    selected g (pulsedW g w c) = [] := by
  rw [List.eq_nil_iff_forall_not_mem]
  intro q hq
  rw [mem_selected, isSelected_pulsedW hg] at hq
  have : q ∈ selected g w := (mem_selected g w q).mpr (by simp_all)
  simp [h] at this

/-- The value read back in an attempt on one chip that alone listens (R193). -/
theorem readBack_attempt {g : Cfg} (hg : g.wf) {p : PhysChip} {a : Nat} {vb : List Byte} {s : State} (ha : a < g.nreg)
    (hn : selected g s.cw = []) (hp : g.hasChip p = true) :
    ∃ hist, (hist = (framedAt g (asChip p) (afterWrite g (asChip p) a vb s)).hist) ∧
    readBack g (attemptRx g (asChip p) a (afterWrite g (asChip p) a vb s)) =
      Link.data g s.env.link hist p a (.known (Link.latch g s.env.link (framedAt g (asChip p) s).hist p a (valueOf g vb))) &&&
        lowMask g.valueBits := by
  refine ⟨_, rfl, ?_⟩
  have hs : selected g (selectW g (afterWrite g (asChip p) a vb s).cw (asChip p)) = [p] :=
    selected_selectW_one hg (selected_pulsedW_none hg hn _) hp
  have hr : (framedAt g (asChip p) (afterWrite g (asChip p) a vb s)).reg p a =
      .known (Link.latch g s.env.link (framedAt g (asChip p) s).hist p a (valueOf g vb)) := by
    show RegFile.read (((framedAt g (asChip p) s).latch g (selected g (selectW g s.cw (asChip p))) a (valueOf g vb)).regs.get p) a = _
    rw [State.latch_get_regs, selected_selectW_one hg hn hp]
    simp [RegFile.read_write_same, framedAt]
  unfold attemptRx
  rw [hs, readFrame, chipResponse_read g p _ ha (lt_of_lt_of_le ha hg.regs.1) (by simp [frameLen_eq hg]), hr]
  exact valueOf_wireBytes hg _

theorem lastWrite_attempt {g : Cfg} (hg : g.wf) {p : PhysChip} {a : Nat} {vb : List Byte} {s : State}
    (hvb : vb.length = g.valueBytes) (hn : selected g s.cw = []) (hp : g.hasChip p = true) :
    lastWrite g (framedAt g (asChip p) (afterWrite g (asChip p) a vb s)).hist p a = some (valueOf g vb) := by
  simp only [lastWrite, framedAt, afterWrite, framedEvents, cwWriteEvents, writeFrame, selected_selectW_one hg hn hp,
    List.reverse_append, List.append_assoc, List.reverse_cons, List.reverse_nil, List.nil_append, List.cons_append,
    List.findSome?_cons]
  simp [sentValue, hvb]

theorem putField_twice (g : Cfg) (w : CwWord) (f : CwField) (u v : BitVec 4) :
    putField g (putField g w f u) f v = putField g w f v := by
  apply BitVec.eq_of_getLsbD_eq
  intro j hj
  rw [putField_bit g _ f v j hj, putField_bit g w f u j hj, putField_bit g w f v j hj]
  split <;> rfl

end Sys2Proof.Machine
end

