-- ==== Sys2Proof/Laws/Composite.lean ====
section
/-! SUPPORT. Sys2Proof/Laws/Composite.lean: what the steps of a verified write and of a `PROG` do whatever access fails and whatever
chip is held in reset, one lemma for each shared operation. -/

namespace Sys2Proof.Machine

/-! ## How a step ends -/

/-- A step of an operation ends in one of the three ways, and none of them is a refusal. -/
def Res.Ends {α : Type} (m : Res α) (ok : α → State → Prop) (er : ArchError → State → Prop) (fl : FaultKind → State → Prop) : Prop :=
  match m with
  | .ok v u => ok v u
  | .stop (.error e) u => er e u
  | .stop (.fault f) u => fl f u
  | .stop (.refuse _) _ => False

theorem Res.Ends.bind {α β : Type} {m : Res α} {k : α → State → Res β} {ok : α → State → Prop} {ok' : β → State → Prop}
    {er er' : ArchError → State → Prop} {fl fl' : FaultKind → State → Prop} (h : m.Ends ok er fl)
    (hk : ∀ v u, ok v u → (k v u).Ends ok' er' fl') (he : ∀ e u, er e u → er' e u) (hf : ∀ f u, fl f u → fl' f u) :
    (m.bind k).Ends ok' er' fl' := by
  match m with
  | .ok v u => exact hk v u h
  | .stop (.error e) u => exact he e u h
  | .stop (.fault f) u => exact hf f u h
  | .stop (.refuse r) u => exact h.elim

theorem Res.Ends.imp {α : Type} {m : Res α} {ok ok' : α → State → Prop} {er er' : ArchError → State → Prop}
    {fl fl' : FaultKind → State → Prop} (h : m.Ends ok er fl) (ho : ∀ v u, ok v u → ok' v u) (he : ∀ e u, er e u → er' e u)
    (hf : ∀ f u, fl f u → fl' f u) : m.Ends ok' er' fl' := by
  match m with
  | .ok v u => exact ho v u h
  | .stop (.error e) u => exact he e u h
  | .stop (.fault f) u => exact hf f u h
  | .stop (.refuse r) u => exact h.elim

/-! ## What the steps keep -/

/-- The draw of an access failure after `k` accesses that did not fail; the rest of the environment stays. -/
structure Spent (e e' : Env) (k : Nat) : Prop where
  rest : e' = { e with ioFailure := e'.ioFailure }
  none : e.ioFailure = none → e'.ioFailure = none
  some : ∀ n took, e.ioFailure = some ⟨n, took⟩ → k ≤ n ∧ e'.ioFailure = some ⟨n - k, took⟩

theorem Spent.refl (e : Env) : Spent e e 0 := ⟨rfl, id, fun _ _ h => ⟨Nat.zero_le _, by simpa using h⟩⟩

theorem Spent.trans {e e' e'' : Env} {j k : Nat} (h : Spent e e' j) (h' : Spent e' e'' k) : Spent e e'' (j + k) where
  rest := by rw [h'.rest, h.rest]
  none := fun i => h'.none (h.none i)
  some := fun n took i => by
    obtain ⟨h1, h2⟩ := h.some n took i
    obtain ⟨h3, h4⟩ := h'.some _ took h2
    exact ⟨by omega, by rw [h4]; congr 2; omega⟩

/-- What the steps of a verified write and of a `PROG` keep between `s` and `u`, `es` being the events recorded: everything but the
selection of the chips in `ps`, registers, the attempt counter, the cursor and the draw. -/
structure Part (g : Cfg) (ps : List PhysChip) (s u : State) (es : List Event) : Prop where
  hist  : u.hist = s.hist ++ es
  place : u.pc = s.pc ∧ u.result = s.result ∧ u.outcome = s.outcome ∧ u.mapOK = s.mapOK ∧ u.spiOK = s.spiOK ∧
    u.program = s.program ∧ u.pending = s.pending ∧ u.names = s.names
  other : ∀ f, f ≠ .cs → getField g u.cw f = getField g s.cw f
  stays : ∀ q, q ∉ ps → isSelected g u.cw q = isSelected g s.cw q

theorem Part.refl (g : Cfg) (ps : List PhysChip) (s : State) : Part g ps s s [] :=
  ⟨by simp, ⟨rfl, rfl, rfl, rfl, rfl, rfl, rfl, rfl⟩, fun _ _ => rfl, fun _ _ => rfl⟩

theorem Part.trans {g : Cfg} {ps : List PhysChip} {s t u : State} {es fs : List Event} (h : Part g ps s t es)
    (k : Part g ps t u fs) : Part g ps s u (es ++ fs) where
  hist := by rw [k.hist, h.hist, List.append_assoc]
  place := by
    obtain ⟨a1, a2, a3, a4, a5, a6, a7, a8⟩ := h.place
    obtain ⟨b1, b2, b3, b4, b5, b6, b7, b8⟩ := k.place
    exact ⟨b1.trans a1, b2.trans a2, b3.trans a3, b4.trans a4, b5.trans a5, b6.trans a6, b7.trans a7, b8.trans a8⟩
  other := fun f hf => (k.other f hf).trans (h.other f hf)
  stays := fun q hq => (k.stays q hq).trans (h.stays q hq)

theorem Part.mono {g : Cfg} {ps qs : List PhysChip} {s u : State} {es : List Event} (h : Part g ps s u es)
    (hp : ∀ q ∈ ps, q ∈ qs) : Part g qs s u es := ⟨h.hist, h.place, h.other, fun q hq => h.stays q fun hm => hq (hp q hm)⟩

theorem Part.resetBit {g : Cfg} {ps : List PhysChip} {s u : State} {es : List Event} (h : Part g ps s u es) (q : PhysChip) :
    resetBit g u.cw q = resetBit g s.cw q := by
  rw [resetBit_eq, resetBit_eq, h.other .reset (by simp)]

/-- A chip that listens later was one of `ps` or listened before. -/
theorem Part.heard {g : Cfg} {ps : List PhysChip} {s u : State} {es : List Event} (h : Part g ps s u es) {q : PhysChip}
    (hq : q ∈ ps ∨ isSelected g u.cw q = true) : q ∈ ps ∨ isSelected g s.cw q = true := by
  by_cases hp : q ∈ ps
  · exact .inl hp
  · exact .inr (by rw [← h.stays q hp]; exact hq.resolve_left hp)

/-- Why a fault comes after `k` accesses from `s`: a failure was drawn for the next one, or a chip in `ps` or selected in `s` is held
in reset. -/
def FaultAt (g : Cfg) (ps : List PhysChip) (s : State) (k : Nat) (f : FaultKind) : Prop :=
  (f = .ioFault ∧ ∃ took, s.env.ioFailure = some ⟨k, took⟩) ∨
    (f = .spiWhileInReset ∧ ∃ q, (q ∈ ps ∨ isSelected g s.cw q = true) ∧ resetBit g s.cw q = true)

theorem FaultAt.after {g : Cfg} {ps : List PhysChip} {s t : State} {es : List Event} {j k : Nat} {f : FaultKind}
    (h : FaultAt g ps t k f) (hp : Part g ps s t es) (hs : Spent s.env t.env j) : FaultAt g ps s (j + k) f := by
  rcases h with ⟨rfl, took, e⟩ | ⟨rfl, q, hq, hr⟩
  · left
    refine ⟨rfl, took, ?_⟩
    cases hi : s.env.ioFailure with
    | none => rw [hs.none hi] at e; cases e
    | some d =>
      obtain ⟨n, tk⟩ := d
      obtain ⟨h1, h2⟩ := hs.some n tk hi
      rw [h2] at e
      cases e
      congr 2; omega
  · exact .inr ⟨rfl, q, hp.heard hq, by rw [← hp.resetBit]; exact hr⟩

theorem FaultAt.mono {g : Cfg} {ps qs : List PhysChip} {s : State} {k : Nat} {f : FaultKind} (h : FaultAt g ps s k f)
    (hp : ∀ q ∈ ps, q ∈ qs) : FaultAt g qs s k f := by
  rcases h with h | ⟨e, q, hq, hr⟩
  · exact .inl h
  · exact .inr ⟨e, q, hq.imp_left (hp q), hr⟩

/-! ## One access -/

/-- The draw for an access: it fails now, or it does not and one access of the draw is spent. -/
theorem drawIo_cases {g : Cfg} (hm : g.ioMayFail = true) (s : State) :
    (∃ took, s.env.ioFailure = some ⟨0, took⟩ ∧ drawIo g s = (some took, s)) ∨
      ∃ e, drawIo g s = (none, { s with env := e }) ∧ Spent s.env e 1 := by
  cases hi : s.env.ioFailure with
  | none => exact .inr ⟨s.env, by rw [drawIo_of_none g hi], rfl, fun _ => hi, fun n took h => by rw [hi] at h; cases h⟩
  | some d =>
    obtain ⟨n, took⟩ := d
    cases n with
    | zero => exact .inl ⟨took, rfl, by simp [drawIo, hm, hi]⟩
    | succ n =>
      refine .inr ⟨{ s.env with ioFailure := some ⟨n, took⟩ }, by simp [drawIo, hm, hi], rfl, fun h => ?_, fun m tk h => ?_⟩
      · rw [hi] at h; cases h
      · rw [hi] at h; cases h
        exact ⟨by omega, by simp⟩

/-- What a step inside a verified write keeps besides: no lifecycle, no attempt counter, no cursor. -/
def Quiet (s u : State) : Prop := u.life = s.life ∧ u.attempt = s.attempt ∧ u.cursor = s.cursor

theorem Quiet.trans {s t u : State} (h : Quiet s t) (k : Quiet t u) : Quiet s u :=
  ⟨k.1.trans h.1, k.2.1.trans h.2.1, k.2.2.trans h.2.2⟩

/-- A write of the chip-select field that only the bits of the chips in `ps` can feel. -/
theorem csWrite_ends {g : Cfg} (hg : g.wf) (hm : g.ioMayFail = true) (ps : List PhysChip) (h : BitVec 4 → BitVec 4) (s : State)
    (hsel : ∀ q, q ∉ ps → isSelected g (putField g s.cw .cs (h (getField g s.cw .cs))) q = isSelected g s.cw q) :
    (fieldWrite g .cs h s).Ends
      (fun _ u => u.cw = putField g s.cw .cs (h (getField g s.cw .cs)) ∧ Part g ps s u (cwWriteEvents g s.cw u.cw) ∧
        Spent s.env u.env 2 ∧ u.regs = s.regs ∧ Quiet s u)
      (fun _ _ => False)
      (fun f u => ∃ k, k < 2 ∧ (∀ w, Part g ps s u ((cwWriteEvents g s.cw w).take k)) ∧ FaultAt g ps s k f ∧ u.regs = s.regs ∧
        Quiet s u) := by
  have hother : ∀ f, f ≠ CwField.cs →
      getField g (putField g s.cw .cs (h (getField g s.cw .cs))) f = getField g s.cw f := fun f hf =>
    getField_putField_ne hg s.cw _ (Ne.symm hf)
  have hw : ∀ t : State, t.cw = s.cw → t.writeCw g (putField g s.cw .cs (h (getField g s.cw .cs))) =
      { t with cw := putField g s.cw .cs (h (getField g s.cw .cs)) } := fun t ht =>
    State.writeCw_of_same_reset g t _ fun p => by rw [ht]; exact resetBit_putField_ne hg s.cw _ (by simp) p
  unfold fieldWrite readReg
  rcases drawIo_cases hm s with ⟨took, hi, hd⟩ | ⟨e, hd, hs⟩
  · rw [hd]
    exact ⟨0, by omega, fun w => Part.refl g ps s, .inl ⟨rfl, took, hi⟩, rfl, rfl, rfl, rfl⟩
  · rw [hd]
    simp only [Res.ok_bind, State.windowValue, setWidth_32_64_32]
    unfold writeCwReg
    rcases drawIo_cases hm
      (State.record { s with env := e } (.mmioR (WinReg.cw.offset g) (WinReg.cw.width g) (s.cw.setWidth 64))) with
      ⟨took, hi, hd2⟩ | ⟨e2, hd2, hs2⟩
    · rw [hd2]
      have hf : FaultAt g ps s 1 .ioFault :=
        FaultAt.after (t := { s with env := e }) (k := 0) (.inl ⟨rfl, took, hi⟩)
          (es := []) ⟨by simp, ⟨rfl, rfl, rfl, rfl, rfl, rfl, rfl, rfl⟩, fun _ _ => rfl, fun _ _ => rfl⟩ hs
      cases took with
      | false =>
        exact ⟨1, by omega, fun w => ⟨rfl, ⟨rfl, rfl, rfl, rfl, rfl, rfl, rfl, rfl⟩, fun _ _ => rfl, fun _ _ => rfl⟩, hf, rfl,
          rfl, rfl, rfl⟩
      | true =>
        simp only [if_true]
        rw [hw (State.record { s with env := e } _) rfl]
        exact ⟨1, by omega, fun w => ⟨rfl, ⟨rfl, rfl, rfl, rfl, rfl, rfl, rfl, rfl⟩, hother, hsel⟩, hf, rfl, rfl, rfl, rfl⟩
    · rw [hd2]
      simp only
      rw [hw { State.record { s with env := e } _ with env := e2 } rfl]
      refine ⟨rfl, ⟨?_, ⟨rfl, rfl, rfl, rfl, rfl, rfl, rfl, rfl⟩, hother, hsel⟩, hs.trans hs2, rfl, rfl, rfl, rfl⟩
      simp [cwWriteEvents, State.record, WinReg.offset, WinReg.width]

theorem csAssert_ends {g : Cfg} (hg : g.wf) (hm : g.ioMayFail = true) (c : Chip) (s : State) :
    (csAssert g c s).Ends
      (fun _ u => u.cw = selectW g s.cw c ∧ Part g (members g c) s u (cwWriteEvents g s.cw u.cw) ∧ Spent s.env u.env 2 ∧
        u.regs = s.regs ∧ Quiet s u)
      (fun _ _ => False)
      (fun f u => ∃ k, k < 2 ∧ (∀ w, Part g (members g c) s u ((cwWriteEvents g s.cw w).take k)) ∧ FaultAt g (members g c) s k f ∧
        u.regs = s.regs ∧ Quiet s u) := by
  have hsel : ∀ q, q ∉ members g c → isSelected g (selectW g s.cw c) q = isSelected g s.cw q := fun q hq => by
    rw [isSelected_selectW hg]; simp [hq]
  unfold csAssert
  unfold selectW selectField at hsel ⊢
  cases hp : g.csPolarity <;> simp only [hp] at hsel ⊢
  · exact csWrite_ends hg hm (members g c) (fun old => old ||| amask g c) s hsel
  · exact csWrite_ends hg hm (members g c) (fun old => old &&& dmask g c) s hsel

theorem csDeassert_ends {g : Cfg} (hg : g.wf) (hm : g.ioMayFail = true) (c : Chip) (s : State) :
    (csDeassert g c s).Ends
      (fun _ u => u.cw = deselectW g s.cw c ∧ Part g (members g c) s u (cwWriteEvents g s.cw u.cw) ∧ Spent s.env u.env 2 ∧
        u.regs = s.regs ∧ Quiet s u)
      (fun _ _ => False)
      (fun f u => ∃ k, k < 2 ∧ (∀ w, Part g (members g c) s u ((cwWriteEvents g s.cw w).take k)) ∧ FaultAt g (members g c) s k f ∧
        u.regs = s.regs ∧ Quiet s u) := by
  have hsel : ∀ q, q ∉ members g c → isSelected g (deselectW g s.cw c) q = isSelected g s.cw q := fun q hq => by
    rw [isSelected_deselectW hg]; simp [hq]
  unfold csDeassert
  unfold deselectW deselectField at hsel ⊢
  cases hp : g.csPolarity <;> simp only [hp] at hsel ⊢
  · exact csWrite_ends hg hm (members g c) (fun old => old &&& dmask g c) s hsel
  · exact csWrite_ends hg hm (members g c) (fun old => old ||| amask g c) s hsel

/-! ## One transfer -/

/-- The two frames of an attempt on address `a` (R224). -/
def AttemptFrame (g : Cfg) (a : Nat) (tx : List Byte) : Prop :=
  tx = readFrame g a ∨ ∃ vb : List Byte, vb.length = g.valueBytes ∧ tx = writeFrame a vb

/-- Registers other than `a` of the chips in `ps` and of those selected in `s` are as before. -/
def OnlyHeard (g : Cfg) (ps : List PhysChip) (s u : State) (a : Nat) : Prop :=
  ∀ q b, ¬ ((q ∈ ps ∨ isSelected g s.cw q = true) ∧ b = a) → u.reg q b = s.reg q b

theorem OnlyHeard.of_regs {g : Cfg} {ps : List PhysChip} {s u : State} (a : Nat) (h : u.regs = s.regs) : OnlyHeard g ps s u a :=
  fun q b _ => by unfold State.reg; rw [h]

theorem OnlyHeard.trans {g : Cfg} {ps : List PhysChip} {s t u : State} {es : List Event} {a : Nat} (h : OnlyHeard g ps s t a)
    (hp : Part g ps s t es) (k : OnlyHeard g ps t u a) : OnlyHeard g ps s u a := fun q b hn =>
  (k q b fun hk => hn ⟨hp.heard hk.1, hk.2⟩).trans (h q b hn)

/-- The response to a frame of an attempt changes register `a` of the listeners and nothing else. -/
theorem chipResponse_only {g : Cfg} (hg : g.wf) (sel : List PhysChip) {a : Nat} {tx : List Byte} (ha : a < g.nreg)
    (htx : AttemptFrame g a tx) (s : State) (q : PhysChip) (b : Nat) (h : ¬ (q ∈ sel ∧ b = a)) :
    (chipResponse g sel tx s).2.reg q b = s.reg q b := by
  rcases htx with rfl | ⟨vb, hvb, rfl⟩
  · rw [chipResponse_readFrame hg sel ha]
  · rw [chipResponse_write g s ha (lt_of_lt_of_le ha hg.regs.1) (by rw [hvb, frameLen_eq hg])]
    show RegFile.read ((s.latch g sel a (valueOf g vb)).regs.get q) b = _
    rw [State.latch_get_regs]
    split
    · rename_i hq
      rw [RegFile.read_write_ne _ _ fun e => h ⟨hq, e⟩]
      rfl
    · rfl

theorem AttemptFrame.ne_nil {g : Cfg} {a : Nat} {tx : List Byte} (h : AttemptFrame g a tx) : tx ≠ [] := by
  rcases h with rfl | ⟨vb, -, rfl⟩ <;> simp [readFrame, writeFrame]

/-- The transfer of a frame of an attempt. -/
theorem spiXfer_ends {g : Cfg} (hg : g.wf) (hm : g.ioMayFail = true) {a : Nat} {tx : List Byte} (ha : a < g.nreg)
    (htx : AttemptFrame g a tx) (ps : List PhysChip) (s : State) :
    (spiXfer g tx s).Ends
      (fun rx u => u.cw = s.cw ∧ Part g ps s u [.xfer (selected g s.cw) tx rx] ∧ Spent s.env u.env 1 ∧ OnlyHeard g ps s u a ∧
        Quiet s u)
      (fun _ _ => False)
      (fun f u => Part g ps s u [] ∧ FaultAt g ps s 0 f ∧ OnlyHeard g ps s u a ∧ Quiet s u) := by
  have hresp : ∀ (sel : List PhysChip) (e : Env), (∀ q ∈ sel, isSelected g s.cw q = true) →
      let u := (chipResponse g sel tx { s with env := e }).2
      u.cw = s.cw ∧ u.env = e ∧ Part g ps s u [] ∧ OnlyHeard g ps s u a ∧ Quiet s u := by
    intro sel e hsel u
    have honly : OnlyHeard g ps s u a := fun q b hn =>
      chipResponse_only hg sel ha htx { s with env := e } q b fun hk => hn ⟨.inr (hsel q hk.1), hk.2⟩
    rcases chipResponse_state g sel tx { s with env := e } with h | h | ⟨b, v, -, h⟩ <;>
    · have hu : u = _ := h
      refine ⟨by rw [hu] <;> rfl, by rw [hu] <;> rfl, ⟨by rw [hu]; simp, by rw [hu]; exact ⟨rfl, rfl, rfl, rfl, rfl, rfl, rfl, rfl⟩,
        fun f _ => by rw [hu] <;> rfl, fun q _ => by rw [hu] <;> rfl⟩, honly, by rw [hu]; exact ⟨rfl, rfl, rfl⟩⟩
  unfold spiXfer
  rw [if_neg htx.ne_nil]
  rcases drawIo_cases hm s with ⟨took, hi, hd⟩ | ⟨e, hd, hs⟩
  · simp only [hd]
    have hf : FaultAt g ps s 0 .ioFault := .inl ⟨rfl, took, hi⟩
    cases took with
    | false => exact ⟨Part.refl g ps s, hf, OnlyHeard.of_regs a rfl, rfl, rfl, rfl⟩
    | true =>
      obtain ⟨-, -, h3, h4, h5⟩ := hresp ((selected g s.cw).filter fun p => !resetBit g s.cw p) s.env fun q hq =>
        (mem_selected g s.cw q).mp (List.mem_filter.mp hq).1
      exact ⟨h3, hf, h4, h5⟩
  · simp only [hd]
    by_cases hheld : (selected g s.cw).any (resetBit g s.cw) = true
    · rw [if_pos hheld]
      obtain ⟨q, hq, hr⟩ := List.any_eq_true.mp hheld
      exact ⟨⟨by simp, ⟨rfl, rfl, rfl, rfl, rfl, rfl, rfl, rfl⟩, fun _ _ => rfl, fun _ _ => rfl⟩,
        .inr ⟨rfl, q, .inr ((mem_selected g s.cw q).mp hq), hr⟩, OnlyHeard.of_regs a rfl, rfl, rfl, rfl⟩
    · rw [if_neg hheld]
      obtain ⟨h1, h2, h3, h4, h5⟩ := hresp (selected g s.cw) e fun q hq => (mem_selected g s.cw q).mp hq
      refine ⟨h1, ⟨?_, h3.place, h3.other, h3.stays⟩, by rw [State.record_env, h2]; exact hs, h4, h5⟩
      rw [State.record_hist, h3.hist, List.append_nil]

/-! ## A framed transfer and an attempt -/

/-- What a framed transfer leaves besides its events. -/
structure Framed (g : Cfg) (c : Chip) (a : Nat) (s u : State) (es : List Event) : Prop where
  part  : Part g (members g c) s u es
  only  : OnlyHeard g (members g c) s u a
  quiet : Quiet s u

theorem Framed.trans {g : Cfg} {c : Chip} {a : Nat} {s t u : State} {es fs : List Event} (h : Framed g c a s t es)
    (k : Framed g c a t u fs) : Framed g c a s u (es ++ fs) :=
  ⟨h.part.trans k.part, h.only.trans h.part k.only, h.quiet.trans k.quiet⟩

/-- Who listens to the transfers of `c` from `s` on depends only on the selection of the chips outside `c`. -/
theorem listeners_eq {g : Cfg} (hg : g.wf) {c : Chip} {s t : State} {es : List Event} (h : Part g (members g c) s t es) :
    selected g (selectW g t.cw c) = selected g (selectW g s.cw c) := by
  unfold selected
  refine List.filter_congr fun q _ => ?_
  rw [isSelected_selectW hg, isSelected_selectW hg]
  by_cases hq : q ∈ members g c
  · simp [hq]
  · rw [h.stays q hq]

theorem framed_ends {g : Cfg} (hg : g.wf) (hm : g.ioMayFail = true) (c : Chip) {a : Nat} {tx : List Byte} (ha : a < g.nreg)
    (htx : AttemptFrame g a tx) (s : State) :
    (framed g c tx s).Ends
      (fun rx u => u.cw = pulsedW g s.cw c ∧ Framed g c a s u (framedEvents g s.cw c tx rx) ∧ Spent s.env u.env 5)
      (fun _ _ => False)
      (fun f u => ∃ rx k, k < 5 ∧ Framed g c a s u ((framedEvents g s.cw c tx rx).take k) ∧ FaultAt g (members g c) s k f) := by
  unfold framed
  refine Res.Ends.bind (csAssert_ends hg hm c s) ?_ (fun _ _ h => h) ?_
  · rintro - t ⟨hcw, hp, hs, hr, hq⟩
    rw [hcw] at hp
    refine Res.Ends.bind (spiXfer_ends hg hm ha htx (members g c) t) ?_ (fun _ _ h => h) ?_
    · rintro rx u ⟨hcw', hp', hs', ho', hq'⟩
      rw [hcw] at hcw' hp'
      have ho := (OnlyHeard.of_regs a hr).trans hp ho'
      refine Res.Ends.bind (csDeassert_ends hg hm c u) ?_ (fun _ _ h => h) ?_
      · rintro - v ⟨hcw'', hp'', hs'', hr'', hq''⟩
        rw [hcw''] at hp''
        rw [hcw'] at hcw'' hp''
        exact ⟨hcw'', ⟨(hp.trans hp').trans hp'', ho.trans (hp.trans hp') (OnlyHeard.of_regs a hr''),
          (hq.trans hq').trans hq''⟩, (hs.trans hs').trans hs''⟩
      · rintro f v ⟨k, hk, hp'', hf, hr'', hq''⟩
        rw [hcw'] at hp''
        refine ⟨rx, 3 + k, by omega, ⟨?_, ho.trans (hp.trans hp') (OnlyHeard.of_regs a hr''), (hq.trans hq').trans hq''⟩, ?_⟩
        · have := (hp.trans hp').trans (hp'' (deselectW g (selectW g s.cw c) c))
          simpa [framedEvents, cwWriteEvents, Nat.add_comm 3 k] using this
        · exact hf.after (hp.trans hp') (hs.trans hs')
    · rintro f u ⟨hp', hf, ho', hq'⟩
      refine ⟨[], 2, by omega, ⟨?_, (OnlyHeard.of_regs a hr).trans hp ho', hq.trans hq'⟩, hf.after hp hs⟩
      simpa [framedEvents, cwWriteEvents] using hp.trans hp'
  · rintro f u ⟨k, hk, hp, hf, hr, hq⟩
    refine ⟨[], k, by omega, ⟨?_, OnlyHeard.of_regs a hr, hq⟩, hf⟩
    have := hp (selectW g s.cw c)
    rcases k with _ | _ | k
    · simpa [framedEvents, cwWriteEvents] using this
    · simpa [framedEvents, cwWriteEvents] using this
    · omega

theorem framedEvents_length (g : Cfg) (w : CwWord) (c : Chip) (tx rx : List Byte) : (framedEvents g w c tx rx).length = 5 := rfl

theorem writeFrames_append (es fs : List Event) : writeFrames (es ++ fs) = writeFrames es ++ writeFrames fs := by
  unfold writeFrames
  exact List.filterMap_append ..

theorem writeFrames_framed_write (g : Cfg) (w : CwWord) (c : Chip) (a : Nat) (vb rx : List Byte) (k : Nat) :
    writeFrames ((framedEvents g w c (writeFrame a vb) rx).take k) =
      if 3 ≤ k then [(selected g (selectW g w c), writeFrame a vb)] else [] := by
  rcases k with _ | _ | _ | _ | _ | _ | k <;> simp [framedEvents, cwWriteEvents, writeFrames, writeFrame, cmdByte_flag]

theorem writeFrames_framed_read (g : Cfg) (w : CwWord) (c : Chip) (a : Nat) (rx : List Byte) (k : Nat) :
    writeFrames ((framedEvents g w c (readFrame g a) rx).take k) = [] := by
  rcases k with _ | _ | _ | _ | _ | _ | k <;> simp [framedEvents, cwWriteEvents, writeFrames, readFrame, cmdByte_bit0]

/-- The shapes of the events of a framed transfer. -/
theorem framedEvents_shape (g : Cfg) (w : CwWord) (c : Chip) (tx rx : List Byte) :
    (framedEvents g w c tx rx).map eventShape = cwShape g ++ [.xfer [] tx []] ++ cwShape g := by
  simp [framedEvents, cwWriteEvents, cwShape, eventShape]

/-- The write frames of `k` attempts of `c` on address `a` from `s`, in which the chips of `c` and those selected listen. -/
def heardFrames (g : Cfg) (c : Chip) (a : Nat) (vb : List Byte) (s : State) (k : Nat) : List (List PhysChip × List Byte) :=
  List.replicate k (selected g (selectW g s.cw c), writeFrame a vb)

/-- One attempt (R224, R227), whatever is drawn. -/
theorem attemptWrite_ends {g : Cfg} (hg : g.wf) (hm : g.ioMayFail = true) (c : Chip) {a : Nat} {vb : List Byte} (ha : a < g.nreg)
    (hvb : vb.length = g.valueBytes) (s : State) :
    (attemptWrite g c a vb s).Ends
      (fun _ u => ∃ es, Framed g c a s u es ∧ Spent s.env u.env es.length ∧ es.map eventShape = attemptShape g a vb ∧
        writeFrames es = heardFrames g c a vb s 1 ∧
        ∀ q, isSelected g u.cw q = (!decide (q ∈ members g c) && isSelected g s.cw q))
      (fun _ _ => False)
      (fun f u => ∃ es, es.length < 10 ∧ Framed g c a s u es ∧ es.map eventShape = (attemptShape g a vb).take es.length ∧
        writeFrames es = heardFrames g c a vb s ((es.length + 7) / 10) ∧ FaultAt g (members g c) s es.length f) := by
  have hA : AttemptFrame g a (writeFrame a vb) := .inr ⟨vb, hvb, rfl⟩
  have hB : AttemptFrame g a (readFrame g a) := .inl rfl
  unfold attemptWrite
  refine Res.Ends.bind (framed_ends hg hm c ha hA s) ?_ (fun _ _ h => h) ?_
  · rintro rx t ⟨hcw, hF, hS⟩
    have hw := writeFrames_framed_write g s.cw c a vb rx 5
    rw [List.take_of_length_le (by rw [framedEvents_length])] at hw
    refine Res.Ends.bind (framed_ends hg hm c ha hB t) ?_ (fun _ _ h => h) ?_
    · rintro rx' u ⟨hcw', hF', hS'⟩
      have hr := writeFrames_framed_read g t.cw c a rx' 5
      rw [List.take_of_length_le (by rw [framedEvents_length])] at hr
      refine ⟨_, hF.trans hF', hS.trans hS', ?_, ?_, fun q => ?_⟩
      · simp [framedEvents_shape, attemptShape]
      · rw [writeFrames_append, hw, hr]; rfl
      · rw [hcw', hcw, isSelected_pulsedW hg, isSelected_pulsedW hg]
        by_cases hq : q ∈ members g c <;> simp [hq]
    · rintro f u ⟨rx', k, hk, hF', hf⟩
      have hl : (framedEvents g s.cw c (writeFrame a vb) rx ++
          (framedEvents g t.cw c (readFrame g a) rx').take k).length = 5 + k := by
        rw [List.length_append, framedEvents_length, List.length_take, framedEvents_length]; omega
      refine ⟨_, by rw [hl]; omega, hF.trans hF', ?_, ?_, by rw [hl]; exact hf.after hF.part hS⟩
      · rw [hl, List.map_append, List.map_take, framedEvents_shape, framedEvents_shape]
        simp only [attemptShape, cwShape]
        rcases k with _ | _ | _ | _ | _ | k <;> simp
        omega
      · rw [writeFrames_append, hw, writeFrames_framed_read, hl]
        rw [show (5 + k + 7) / 10 = 1 by omega]; rfl
  · rintro f t ⟨rx, k, hk, hF, hf⟩
    have hl : ((framedEvents g s.cw c (writeFrame a vb) rx).take k).length = k := by
      rw [List.length_take, framedEvents_length]; omega
    refine ⟨_, by rw [hl]; omega, hF, ?_, ?_, by rw [hl]; exact hf⟩
    · rw [hl, List.map_take, framedEvents_shape]
      simp only [attemptShape, cwShape]
      rcases k with _ | _ | _ | _ | _ | k <;> simp
      omega
    · rw [writeFrames_framed_write, hl]
      split
      · rw [show (k + 7) / 10 = 1 by omega]; rfl
      · rw [show (k + 7) / 10 = 0 by omega]; rfl

/-! ## The attempts of a verified write -/

theorem attemptShape_length (g : Cfg) (a : Nat) (vb : List Byte) : (attemptShape g a vb).length = 10 := rfl

/-- The shapes of `m` attempts. -/
def attemptsShape (g : Cfg) (a : Nat) (vb : List Byte) (m : Nat) : List Event := (List.replicate m (attemptShape g a vb)).flatten

theorem attemptsShape_succ (g : Cfg) (a : Nat) (vb : List Byte) (m : Nat) :
    attemptsShape g a vb (m + 1) = attemptShape g a vb ++ attemptsShape g a vb m := by
  simp [attemptsShape, List.replicate_succ]

theorem attemptsShape_length (g : Cfg) (a : Nat) (vb : List Byte) (m : Nat) : (attemptsShape g a vb m).length = 10 * m := by
  induction m with
  | zero => rfl
  | succ m ih => rw [attemptsShape_succ, List.length_append, ih, attemptShape_length]; omega

/-- What a part of a verified write leaves besides its events: registers of the listeners, the selection of `c`, the attempt counter
and the draw may differ. -/
structure Verifying (g : Cfg) (c : Chip) (a : Nat) (s u : State) (es : List Event) : Prop where
  part   : Part g (members g c) s u es
  only   : OnlyHeard g (members g c) s u a
  life   : u.life = s.life
  cursor : u.cursor = s.cursor

theorem Verifying.trans {g : Cfg} {c : Chip} {a : Nat} {s t u : State} {es fs : List Event} (h : Verifying g c a s t es)
    (k : Verifying g c a t u fs) : Verifying g c a s u (es ++ fs) :=
  ⟨h.part.trans k.part, h.only.trans h.part k.only, k.life.trans h.life, k.cursor.trans h.cursor⟩

/-- `m` whole attempts (R224, R227). -/
structure Tried (g : Cfg) (c : Chip) (a : Nat) (vb : List Byte) (s u : State) (es : List Event) (m : Nat) : Prop where
  leaves : Verifying g c a s u es
  spent  : Spent s.env u.env es.length
  shape  : es.map eventShape = attemptsShape g a vb m
  sent   : writeFrames es = heardFrames g c a vb s m
  select : ∀ q, isSelected g u.cw q = (!decide (q ∈ members g c) && isSelected g s.cw q)

/-- A fault inside a verified write of at most `m` attempts, the first of which is number `k`. -/
structure CutShort (g : Cfg) (c : Chip) (a : Nat) (vb : List Byte) (s u : State) (es : List Event) (k m : Nat) (f : FaultKind) :
    Prop where
  leaves  : Verifying g c a s u es
  short   : es.length < 10 * m
  shape   : es.map eventShape = (attemptsShape g a vb m).take es.length
  sent    : writeFrames es = heardFrames g c a vb s ((es.length + 7) / 10)
  attempt : u.attempt = some (k + es.length / 10)
  fault   : FaultAt g (members g c) s es.length f

theorem heardFrames_eq {g : Cfg} (hg : g.wf) {c : Chip} {s t : State} {es : List Event} (a : Nat) (vb : List Byte) (m : Nat)
    (h : Part g (members g c) s t es) : heardFrames g c a vb t m = heardFrames g c a vb s m := by
  unfold heardFrames
  rw [listeners_eq hg h]

theorem heardFrames_add (g : Cfg) (c : Chip) (a : Nat) (vb : List Byte) (s : State) (j k : Nat) :
    heardFrames g c a vb s j ++ heardFrames g c a vb s k = heardFrames g c a vb s (j + k) := by
  exact List.replicate_append_replicate

theorem Tried.trans {g : Cfg} (hg : g.wf) {c : Chip} {a : Nat} {vb : List Byte} {s t u : State} {es fs : List Event} {m : Nat}
    (h : Tried g c a vb s t es 1) (k : Tried g c a vb t u fs m) : Tried g c a vb s u (es ++ fs) (m + 1) where
  leaves := h.leaves.trans k.leaves
  spent := by rw [List.length_append]; exact h.spent.trans k.spent
  shape := by
    rw [List.map_append, h.shape, k.shape, attemptsShape_succ g a vb m, attemptsShape_succ g a vb 0]
    simp [attemptsShape]
  sent := by
    rw [writeFrames_append, h.sent, k.sent, heardFrames_eq hg a vb m h.leaves.part, heardFrames_add, Nat.add_comm]
  select := fun q => by
    rw [k.select, h.select]
    by_cases hq : q ∈ members g c <;> simp [hq]

/-- The loop of attempts (R224, R41), whatever is drawn: it ends after one to `left + 1` attempts, in an error after `left + 1`, or in
a fault inside one of them. -/
theorem attempts_ends {g : Cfg} (hg : g.wf) (hm : g.ioMayFail = true) (c : Chip) {a : Nat} {vb : List Byte} (ha : a < g.nreg)
    (hvb : vb.length = g.valueBytes) :
    ∀ (left k : Nat) (s : State), (attempts g c a vb k left s).Ends
      (fun _ u => ∃ es m, 1 ≤ m ∧ m ≤ left + 1 ∧ Tried g c a vb s u es m)
      (fun e u => e = .writeVerification c a ∧ ∃ es, Tried g c a vb s u es (left + 1))
      (fun f u => ∃ es, CutShort g c a vb s u es k (left + 1) f)
  | left, k, s => by
    unfold attempts
    refine Res.Ends.bind (attemptWrite_ends hg hm c ha hvb { s with attempt := some k }) ?_ (fun _ _ h => h.elim) ?_
    · rintro ok t ⟨es, hF, hS, hsh, hw, hsel⟩
      have hV : Verifying g c a s t es := ⟨⟨hF.part.1, hF.part.2, hF.part.3, hF.part.4⟩, hF.only, hF.quiet.1, hF.quiet.2.2⟩
      have hT : Tried g c a vb s t es 1 := ⟨hV, hS, by rw [hsh]; simp [attemptsShape], hw, hsel⟩
      have hlen : es.length = 10 := by
        have := congrArg List.length hsh
        rwa [List.length_map, attemptShape_length] at this
      cases ok with
      | true =>
        exact ⟨es, 1, le_refl _, by omega, ⟨⟨hV.part.1, hV.part.2, hV.part.3, hV.part.4⟩, hV.only, hV.life, hV.cursor⟩, hT.spent,
          hT.shape, hT.sent, hT.select⟩
      | false =>
        match left with
        | 0 => exact ⟨rfl, es, hT⟩
        | left + 1 =>
          refine Res.Ends.imp (attempts_ends hg hm c ha hvb left (k + 1) t) ?_ ?_ ?_
          · rintro - u ⟨fs, m, h1, h2, h3⟩
            exact ⟨es ++ fs, m + 1, by omega, by omega, hT.trans hg h3⟩
          · rintro e u ⟨he, fs, h3⟩
            exact ⟨he, es ++ fs, hT.trans hg h3⟩
          · rintro f u ⟨fs, h3⟩
            have hl : (es ++ fs).length = 10 + fs.length := by rw [List.length_append, hlen]
            refine ⟨es ++ fs, hV.trans h3.leaves, by have := h3.short; omega, ?_, ?_, ?_, ?_⟩
            · rw [List.map_append, hsh, h3.shape, hl, attemptsShape_succ g a vb (left + 1),
                show 10 + fs.length = (attemptShape g a vb).length + fs.length from rfl, List.take_length_add_append]
            · rw [writeFrames_append, hT.sent, h3.sent, heardFrames_eq hg a vb _ hV.part, heardFrames_add, hl]
              congr 1; omega
            · rw [h3.attempt, hl]; congr 1; omega
            · rw [hl, ← hlen]; exact h3.fault.after hV.part hS
    · rintro f t ⟨es, hlen, hF, hsh, hw, hf⟩
      refine ⟨es, ⟨⟨hF.part.1, hF.part.2, hF.part.3, hF.part.4⟩, hF.only, hF.quiet.1, hF.quiet.2.2⟩, by omega, ?_, hw, ?_, hf⟩
      · rw [hsh, attemptsShape_succ, List.take_append_of_le_length (by rw [attemptShape_length]; omega)]
      · rw [hF.quiet.2.1, show es.length / 10 = 0 by omega]; rfl

end Sys2Proof.Machine
end

