-- ==== Sys2Proof/Laws/Exec.lean ====
section
/-! SUPPORT. Sys2Proof/Laws/Exec.lean: what `exec` and `step` can do, said once. -/

namespace Sys2Proof.Machine

theorem withChip_good {g : Cfg} {c : ChipArg} {s : State} {k : Chip → Res Result} (hk : ∀ c, (k c).post (Good g s)) :
    (withChip c s k).post (Good g s) := by
  cases c
  · exact hk _
  · exact Good.refl g s

theorem withAddr_good {α : Type} {g : Cfg} {a : Int} {s : State} {k : Nat → Res α} (hk : ∀ n, (k n).post (Good g s)) :
    (withAddr g a s k).post (Good g s) := by
  unfold withAddr; split
  · exact hk _
  · exact Good.refl g s

theorem withCwField_good {g : Cfg} {f : FieldArg} {s : State} {k : CwField → Res Result}
    (hk : ∀ f, (k f).post (Good g s)) : (withCwField f s k).post (Good g s) := by
  cases f
  · exact hk _
  · exact Good.refl g s
  · exact Good.refl g s

theorem withNibble_good {g : Cfg} {v : Int} {s : State} {k : BitVec 4 → Res Result}
    (hk : ∀ v, (k v).post (Good g s)) : (withNibble v s k).post (Good g s) := by
  unfold withNibble; split
  · exact hk _
  · exact Good.refl g s

theorem withDuration_good {g : Cfg} {d : Duration} {s : State} {k : Nat → Res Result}
    (hk : ∀ n, (k n).post (Good g s)) : (withDuration d s k).post (Good g s) := by
  cases d
  · exact hk _
  · exact Good.refl g s

/-- A fault comes from a step that a fault stopped. -/
theorem finish_fault_inv {g : Cfg} {s : State} {m : Res Result} {f : Fault} (hm : m.post (Good g s)) (h : finish m = .fault f) :
    ∃ k u, Good g s u ∧ f = u.fail k := by
  cases m with
  | ok r u => simp at h
  | stop w u =>
    cases w with
    | error e => simp at h
    | fault k => exact ⟨k, u, hm, by simpa using h.symm⟩
    | refuse r => simp at h

/-- An admitted operation whose body is good ends, if in a next state, with a good step and then its completion or an error. -/
theorem admit_good {g : Cfg} {s t : State} {body : State → Res Result} (hb : (body s).post (Good g s))
    (h : admitted s body = .next t) :
    s.mapOK = true ∧ s.spiOK = true ∧ ∃ u, Good g s u ∧ ((∃ r, t = u.complete r) ∨ ∃ e, t = u.raise e) := by
  obtain ⟨hm, hs, hf⟩ := admit_next h
  refine ⟨hm, hs, ?_⟩
  rcases finish_next hf with ⟨r, u, e, rfl⟩ | ⟨er, u, e, rfl⟩ <;> rw [e] at hb
  · exact ⟨u, hb, .inl ⟨r, rfl⟩⟩
  · exact ⟨u, hb, .inr ⟨er, rfl⟩⟩

/-- What OPEN can do in a next state (R280): acquire both handles as the first operation, or raise DeviceOpenError. -/
theorem execOpen_next {s t : State} {g : Cfg} (h : execOpen s g = .next t) :
    s.mapOK = false ∧ s.spiOK = false ∧ s.pc = 0 ∧
      (t = ({ s with mapOK := true, spiOK := true } : State).complete .none ∨ ∃ c, t = s.raise (.deviceOpen c)) := by
  unfold execOpen at h
  split_ifs at h with h1 h2 h3
  · simp at h
  all_goals
    simp only [Bool.or_eq_true, not_or, Bool.not_eq_true, bne_iff_ne, ne_eq, not_not] at h1
    refine ⟨h1.1.1.1, h1.1.1.2, h1.1.2, ?_⟩
  · exact .inr ⟨.mmap, by simpa using h.symm⟩
  · exact .inr ⟨.spi, by simpa using h.symm⟩
  · exact .inl (by simpa using h.symm)

/-- `exec` is the meaning under the machine's own configuration. -/
theorem execOf_cfg : execOf Config.cfg = exec := by
  funext i s
  cases i <;> rfl

/-- Without its caller, `step` is the block's step of R49 under the machine's own configuration, on the programs that State holds. -/
theorem step_onBlock (s : State) : onBlock (step s) = stepOf Config.cfg s.program s.pending s.toBlock := by
  unfold step stepOf
  rw [execOf_cfg, State.toBlock_calledBy]

/-- Every operation but OPEN is admitted by its handles and has a body whose steps are good, whether it ends done, in an error, in a
fault or in a refusal. -/
theorem execOf_body {g : Cfg} (hg : g.wf) {i : Instr} (s : State) (hi : i ≠ .openDev) :
    ∃ body : State → Res Result, execOf g i s = admitted s body ∧ (body s).post (Good g s) := by
  have refl := Good.refl g
  cases i with
  | openDev => exact absurd rfl hi
  | frameW a v =>
    simp only [execOf, execFrameW]
    refine ⟨_, rfl, ?_⟩
    exact Good.bind (spiXfer_good _ _ s) fun _ t => refl t
  | frameR a d =>
    simp only [execOf, execFrameR]
    refine ⟨_, rfl, ?_⟩
    exact Good.bind (spiXfer_good _ _ s) fun _ t => refl t
  | catSiglen a =>
    simp only [execOf, execCatSiglen]
    refine ⟨_, rfl, ?_⟩
    exact withAddr_good fun n => refl s
  | catMask a =>
    simp only [execOf, execCatMask]
    refine ⟨_, rfl, ?_⟩
    exact withAddr_good fun n => refl s
  | catLayout a =>
    simp only [execOf, execCatLayout]
    refine ⟨_, rfl, ?_⟩
    exact withAddr_good fun n => refl s
  | catPack a xs =>
    simp only [execOf, execCatPack]
    refine ⟨_, rfl, ?_⟩
    refine withAddr_good fun n => ?_
    split <;> exact refl s
  | catUnpack a v =>
    simp only [execOf, execCatUnpack]
    refine ⟨_, rfl, ?_⟩
    exact withAddr_good fun n => refl s
  | cwRead f =>
    simp only [execOf, execCwRead]
    refine ⟨_, rfl, ?_⟩
    cases f with
    | cw f => exact Good.bind (readReg_good _ _ s) fun _ t => refl t
    | sw f => exact refl s
    | bad id => exact refl s
  | cwAssign f v =>
    simp only [execOf, execCwAssign]
    refine ⟨_, rfl, ?_⟩
    exact withCwField_good fun f => withNibble_good fun v =>
      Good.bind (fieldWrite_good hg _ _ s) fun _ t => refl t
  | cwSet f c =>
    simp only [execOf, execCwSet]
    refine ⟨_, rfl, ?_⟩
    exact withChip_good fun c => withCwField_good fun f =>
      Good.bind (fieldWrite_good hg _ _ s) fun _ t => refl t
  | cwClear f c =>
    simp only [execOf, execCwClear]
    refine ⟨_, rfl, ?_⟩
    exact withChip_good fun c => withCwField_good fun f =>
      Good.bind (fieldWrite_good hg _ _ s) fun _ t => refl t
  | swRead f =>
    simp only [execOf, execSwRead]
    refine ⟨_, rfl, ?_⟩
    cases f with
    | sw f => exact Good.bind (Good.bind (readReg_good _ _ s) fun _ t => refl t) fun _ t => refl t
    | cw f => exact refl s
    | bad id => exact refl s
  | spiXfer tx =>
    simp only [execOf, execSpiXfer]
    refine ⟨_, rfl, ?_⟩
    exact Good.bind (spiXfer_good _ _ s) fun _ t => refl t
  | csAssert c =>
    simp only [execOf, execCsAssert]
    refine ⟨_, rfl, ?_⟩
    exact withChip_good fun c => Good.bind (csAssert_good hg c s) fun _ t => refl t
  | csDeassert c =>
    simp only [execOf, execCsDeassert]
    refine ⟨_, rfl, ?_⟩
    exact withChip_good fun c => Good.bind (csDeassert_good hg c s) fun _ t => refl t
  | vcmp a w r =>
    simp only [execOf, execVcmp]
    refine ⟨_, rfl, ?_⟩
    split <;> exact refl s
  | wrv c a vb =>
    simp only [execOf, execWrv]
    refine ⟨_, rfl, ?_⟩
    refine withChip_good fun c => ?_
    split
    · exact Good.bind (verifiedWrite_good hg c a vb s) fun _ t => refl t
    · exact refl s
  | setClk code =>
    simp only [execOf, execSetClk]
    refine ⟨_, rfl, ?_⟩
    exact withNibble_good fun v => Good.bind (fieldWrite_good hg _ _ s) fun _ t => refl t
  | reset c d =>
    simp only [execOf, execReset]
    refine ⟨_, rfl, ?_⟩
    exact withChip_good fun c => withDuration_good fun d =>
      Good.bind (pulseReset_good hg c d s) fun _ t => refl t
  | setTrig m =>
    simp only [execOf, execSetTrig]
    refine ⟨_, rfl, ?_⟩
    cases m with
    | mode m => exact Good.bind (fieldWrite_good hg _ _ s) fun _ t => Good.setTrigger _ t m
    | bad id => exact refl s
  | rdErr =>
    simp only [execOf, execRdErr]
    refine ⟨_, rfl, ?_⟩
    exact Good.bind (Good.bind (readReg_good _ _ s) fun _ t => refl t) fun _ t => refl t
  | rdTemp =>
    simp only [execOf, execRdTemp]
    refine ⟨_, rfl, ?_⟩
    exact Good.bind (readReg_good _ _ s) fun _ t => Good.bind (readSecond_good _ t) fun _ u => refl u
  | prog c b =>
    simp only [execOf, execProg]
    refine ⟨_, rfl, ?_⟩
    refine withChip_good fun c => ?_
    cases b with
    | bytes bs => exact Good.bind (programChips_good hg _ _ s) fun _ t => Good.setCursor _ t none
    | unreadable => exact refl s
  | sleep d =>
    simp only [execOf, execSleep]
    refine ⟨_, rfl, ?_⟩
    exact withDuration_good fun d => Good.bind (m := sleep d s) (Good.record _ s _) fun _ t => refl t

/-- What any other operation can do in a next state: an instance was there, a good step was made, and the operation ended done
or in an architectural error. -/
theorem execOf_next {g : Cfg} (hg : g.wf) {i : Instr} {s t : State} (hi : i ≠ .openDev) (h : execOf g i s = .next t) :
    s.mapOK = true ∧ s.spiOK = true ∧
      ∃ u, Good g s u ∧ ((∃ r, t = u.complete r) ∨ ∃ e, t = u.raise e) := by
  obtain ⟨body, he, hb⟩ := execOf_body hg s hi
  exact admit_good hb (he ▸ h)

/-- What a faulting operation leaves: the state of a good step, with the fault recorded and no attempt and no cursor (R312). -/
theorem execOf_fault {g : Cfg} (hg : g.wf) {i : Instr} {s : State} {f : Fault} (h : execOf g i s = .fault f) :
    ∃ k u, Good g s u ∧ f = u.fail k := by
  by_cases hi : i = .openDev
  · subst hi
    simp only [execOf, execOpen] at h
    split_ifs at h <;> simp at h
  · obtain ⟨body, he, hb⟩ := execOf_body hg s hi
    rw [he] at h
    unfold admitted at h
    split at h
    · exact finish_fault_inv hb h
    · simp at h

theorem exec_next {i : Instr} {s t : State} (hi : i ≠ .openDev) (h : exec i s = .next t) :
    s.mapOK = true ∧ s.spiOK = true ∧
      ∃ u, Good Config.cfg s u ∧ ((∃ r, t = u.complete r) ∨ ∃ e, t = u.raise e) :=
  execOf_next Config.cfg_wf hi (by rwa [execOf_cfg])

/-- What waiting for the caller can do in a next state: start its next program, or nothing. -/
theorem awaitCaller_next {later : List Program} {s t : State} (h : awaitCaller later s = .next t) :
    (∃ p ps, later = p :: ps ∧ s.mayRestart = true ∧ t = s.startProgram p ps) ∨ later = [] ∧ t = s := by
  unfold awaitCaller at h
  split at h
  · exact .inr ⟨rfl, by simpa using h.symm⟩
  · rename_i p ps
    split at h
    · exact .inl ⟨p, ps, rfl, ‹_›, by simpa using h.symm⟩
    · simp at h

/-- What a step can do in a next state: run the line at `pc`, or, where no line is left to run, wait for the caller. -/
theorem runStep_next {g : Cfg} {run : Instr → State → Host.Outcome State Fault Refusal} {prog : Program} {later : List Program}
    {s t : State} (h : runStep g run prog later s = .next t) :
    s.env.secondCaller = false ∧
      ((∃ line l u, s.outcome = .running ∧ prog[s.pc]? = some line ∧ decode line g = .ok l ∧ run l.op s = .next u ∧
          t = (u.nameResult l.dest).proceed prog) ∨
        ((s.outcome = .done ∨ (∃ e, s.outcome = .error e) ∨ s.outcome = .running ∧ prog[s.pc]? = none) ∧
          ((∃ p ps, later = p :: ps ∧ s.mayRestart = true ∧ t = s.startProgram p ps) ∨ later = [] ∧ t = s))) := by
  unfold runStep at h
  split at h
  · simp at h
  · simp at h
  · rename_i ho
    split_ifs at h with hc
    exact ⟨by simpa using hc, .inr ⟨.inl ho, awaitCaller_next h⟩⟩
  · rename_i e ho
    split_ifs at h with hc
    exact ⟨by simpa using hc, .inr ⟨.inr (.inl ⟨e, ho⟩), awaitCaller_next h⟩⟩
  · rename_i ho
    split_ifs at h with hc
    refine ⟨by simpa using hc, ?_⟩
    split at h
    · rename_i hl
      exact .inr ⟨.inr (.inr ⟨ho, hl⟩), awaitCaller_next h⟩
    · rename_i line hl
      split at h
      · rename_i l hd
        left
        cases hx : run l.op s with
        | next u =>
          rw [hx] at h
          exact ⟨line, l, u, ho, hl, hd, hx, by simpa [afterLine] using h.symm⟩
        | fault f => rw [hx] at h; simp [afterLine] at h
        | refused r => rw [hx] at h; simp [afterLine] at h
      · simp at h

end Sys2Proof.Machine
end

