-- ==== Sys2Proof/Laws/Text.lean ====
section
/-! SUPPORT. Sys2Proof/Laws/Text.lean: numbers and names read back as they were written, and they are words of R121. -/

namespace Sys2Proof

theorem digit_toNat {d : Nat} (h : d < 10) : (BitVec.ofNat 8 (0x30 + d)).toNat = 0x30 + d := by
  simp only [BitVec.toNat_ofNat]; omega

theorem decDigit_digit {d : Nat} (h : d < 10) : decDigit (BitVec.ofNat 8 (0x30 + d)) = some d := by
  unfold decDigit
  rw [digit_toNat h, if_pos (by omega)]
  simp

theorem isDigit_digit {d : Nat} (h : d < 10) : isDigit (BitVec.ofNat 8 (0x30 + d)) = true := by
  unfold isDigit
  rw [digit_toNat h]
  simp; omega

theorem digitsValue_append (base : Nat) (f : Byte → Option Nat) : ∀ (xs ys : Text) (acc : Nat),
    digitsValue base f acc (xs ++ ys) = (digitsValue base f acc xs).bind fun v => digitsValue base f v ys
  | [], ys, acc => rfl
  | x :: xs, ys, acc => by
    simp only [List.cons_append, digitsValue]
    cases f x with
    | none => rfl
    | some d => exact digitsValue_append base f xs ys _

theorem decDigits_value : ∀ (fuel n : Nat), n < fuel →
    digitsValue 10 decDigit 0 (decDigits fuel n) = some n ∧ decDigits fuel n ≠ [] ∧ (decDigits fuel n).all isDigit = true
  | 0, n, h => absurd h (Nat.not_lt_zero n)
  | fuel + 1, n, h => by
    unfold decDigits
    split
    · rename_i hn
      simp [digitsValue, decDigit_digit hn, isDigit_digit hn]
    · have ih := decDigits_value fuel (n / 10) (by omega)
      have hm : n % 10 < 10 := Nat.mod_lt _ (by omega)
      refine ⟨?_, by simp, ?_⟩
      · rw [digitsValue_append, ih.1]
        simp only [Option.bind_some, digitsValue, decDigit_digit hm]
        congr 1; omega
      · rw [List.all_append, ih.2.2]
        simp [isDigit_digit hm]

theorem natText_ne_nil (n : Nat) : natText n ≠ [] := (decDigits_value (n + 1) n (by omega)).2.1

theorem natText_digits (n : Nat) : (natText n).all isDigit = true := (decDigits_value (n + 1) n (by omega)).2.2

theorem parseDec_natText (n : Nat) : parseDec (natText n) = some n := by
  unfold parseDec
  rw [if_neg (natText_ne_nil n)]
  exact (decDigits_value (n + 1) n (by omega)).1

/-- A text of digits is read as a decimal number, never as a hexadecimal one. -/
theorem parseNat_of_digits {w : Text} (h : w.all isDigit = true) : parseNat w = parseDec w := by
  unfold parseNat
  split
  · rename_i hh hs
    simp [isDigit] at h
  · rfl

theorem parseNat_natText (n : Nat) : parseNat (natText n) = some n := by
  rw [parseNat_of_digits (natText_digits n), parseDec_natText]

theorem digit_ne_minus {b : Byte} (h : isDigit b = true) : b ≠ 0x2D#8 := by
  rintro rfl; simp [isDigit] at h

theorem parseInt_natText (n : Nat) : parseInt (natText n) = some (n : Int) := by
  have hd := natText_digits n
  have hp := parseNat_natText n
  unfold parseInt signed
  split
  · rename_i w e
    rw [e] at hd
    simp only [List.all_cons, Bool.and_eq_true] at hd
    exact absurd rfl (digit_ne_minus hd.1)
  · rw [hp]; rfl

/-- An integer reads back as it was written. -/
theorem parseInt_intText : ∀ z : Int, parseInt (intText z) = some z
  | .ofNat n => parseInt_natText n
  | .negSucc n => by
    show (parseNat (natText (n + 1))).map (fun n => -(n : Int)) = _
    rw [parseNat_natText]
    rfl

theorem parseBits_natText {n : Nat} (v : BitVec n) : parseBits n (natText v.toNat) = some v := by
  simp [parseBits, parseNat_natText, v.isLt]

theorem parseRegAddr_natText {a : Nat} {g : Cfg} (h : isRegAddr a g = true) : parseRegAddr (natText a) g = some a := by
  simp [parseRegAddr, parseNat_natText, h]

theorem allSome_map {α β : Type} (f : β → α) (r : α → Option β) (h : ∀ x, r (f x) = some x) :
    ∀ xs : List β, allSome r (xs.map f) = some xs
  | [] => rfl
  | x :: xs => by simp [allSome, h x, allSome_map f r h xs]

theorem takeWhile_append_of_all {w u : Text} (h : w.all isDigit = true) (hu : u.takeWhile isDigit = []) :
    (w ++ u).takeWhile isDigit = w ∧ (w ++ u).dropWhile isDigit = u := by
  induction w with
  | nil =>
    cases u with
    | nil => exact ⟨rfl, rfl⟩
    | cons b u =>
      have hb : isDigit b = false := by
        by_contra hb
        simp [List.takeWhile_cons, hb] at hu
      simp [hb]
  | cons b w ih =>
    simp only [List.all_cons, Bool.and_eq_true] at h
    simp [h.1, ih h.2]

/-- A duration in microseconds reads back as it was written, under every unit of R7. -/
theorem parseDuration_micros (n : Nat) (g : Cfg) : parseDuration (natText n ++ ascii ['u', 's']) g = .micros n := by
  obtain ⟨h1, h2⟩ := takeWhile_append_of_all (u := ascii ['u', 's']) (natText_digits n) (by decide)
  have hu : unitFactor g (ascii ['u', 's']) = some 1 := by
    unfold unitFactor
    rw [if_neg (by decide), if_pos rfl]
  simp [parseDuration, h1, h2, parseDec_natText, hu]

theorem parseDuration_bad {w : Text} (h : isDurationText w = false) (g : Cfg) : parseDuration w g = .bad w := by
  unfold parseDuration
  split
  · rename_i n k hn hk
    exfalso
    have h1 : w.takeWhile isDigit ≠ [] := by
      intro e; rw [e] at hn; simp [parseDec] at hn
    have h2 : [[], ascii ['u', 's'], ascii ['m', 's']].contains (w.dropWhile isDigit) = true := by
      unfold unitFactor at hk
      split_ifs at hk with e1 e2 e3
      · rw [e1]; decide
      · rw [e2]; decide
      · rw [e3]; decide
    unfold isDurationText at h
    rw [h2, Bool.and_true, bne_eq_false_iff_eq] at h
    exact h1 h
  · rfl

theorem chipId_inj : ∀ c c' : Chip, chipId c = chipId c' → c = c' := by
  intro c c'
  cases c <;> cases c' <;> decide

theorem parseChip_text (c : ChipArg) {g : Cfg} (h : c.wf g = true) : parseChip c.text g = c := by
  cases c with
  | chip c =>
    have hne : ∀ c', c ≠ c' → chipId c ≠ chipId c' := fun c' hn e => hn (chipId_inj c c' e)
    have hr : c.recognized g = true := h
    unfold parseChip ChipArg.text
    cases c <;> simp [hr, hne]
  | bad id =>
    have hn : ∀ c, ¬ (id = chipId c ∧ c.recognized g = true) := by
      intro c ⟨e1, e2⟩
      simp only [ChipArg.wf, Bool.and_eq_true, List.all_eq_true] at h
      have := h.2 c (by cases c <;> simp)
      simp [e1, e2] at this
    simp [parseChip, ChipArg.text, hn]

theorem parseValue_natText {v : Word} {g : Cfg} (h : isValue v g = true) : parseValue (natText v.toNat) g = some v := by
  have h' : v.toNat < 2 ^ g.valueBits := of_decide_eq_true h
  simp [parseValue, parseNat_natText, h']

theorem parseField_text (f : FieldArg) (h : f.wf = true) : parseField f.text = f := by
  cases f with
  | cw f => cases f <;> decide
  | sw f => cases f <;> decide
  | bad id =>
    simp only [FieldArg.wf, List.all_cons, List.all_nil, Bool.and_eq_true, bne_iff_ne, ne_eq, Bool.and_true] at h
    obtain ⟨⟨-, h1, h2, h3, h4⟩, h5, h6, h7, h8, h9⟩ := h
    simp [parseField, FieldArg.text, h1, h2, h3, h4, h5, h6, h7, h8, h9]

theorem parseMode_text (m : ModeArg) (h : m.wf = true) : parseMode m.text = m := by
  cases m with
  | mode m => cases m <;> decide
  | bad id =>
    simp only [ModeArg.wf, List.all_cons, List.all_nil, Bool.and_eq_true, bne_iff_ne, ne_eq, Bool.and_true] at h
    obtain ⟨-, h1, h2, h3⟩ := h
    simp [parseMode, ModeArg.text, h1, h2, h3]

theorem parseDuration_text (d : Duration) (h : d.wf = true) (g : Cfg) : parseDuration d.text g = d := by
  cases d with
  | micros n => exact parseDuration_micros n g
  | bad id =>
    simp only [Duration.wf, Bool.and_eq_true, Bool.not_eq_true'] at h
    exact parseDuration_bad h.2 g

/-! ## Words -/

theorem isWordByte_of_isDigit {b : Byte} (h : isDigit b = true) : isWordByte b = true := by
  revert h; revert b; decide

theorem isWord_natText (n : Nat) : isWord (natText n) = true := by
  have h := natText_digits n
  simp only [isWord, Bool.and_eq_true, bne_iff_ne, ne_eq, natText_ne_nil, not_false_eq_true, true_and]
  rw [List.all_eq_true] at h ⊢
  exact fun b hb => isWordByte_of_isDigit (h b hb)

theorem isWord_intText (z : Int) : isWord (intText z) = true := by
  cases z with
  | ofNat n => exact isWord_natText n
  | negSucc n =>
    have h := isWord_natText (n + 1)
    simp only [isWord, Bool.and_eq_true] at h
    have h0 : isWordByte 0x2D#8 = true := by decide
    simp [isWord, intText, h.2, h0]

theorem isWord_chip (c : ChipArg) {g : Cfg} (h : c.wf g = true) : isWord c.text = true := by
  cases c with
  | chip c => cases c <;> decide
  | bad id => simp only [ChipArg.wf, Bool.and_eq_true] at h; exact h.1

theorem isWord_field (f : FieldArg) (h : f.wf = true) : isWord f.text = true := by
  cases f with
  | cw f => cases f <;> decide
  | sw f => cases f <;> decide
  | bad id => simp only [FieldArg.wf, Bool.and_eq_true] at h; exact h.1.1

theorem isWord_mode (m : ModeArg) (h : m.wf = true) : isWord m.text = true := by
  cases m with
  | mode m => cases m <;> decide
  | bad id => simp only [ModeArg.wf, Bool.and_eq_true] at h; exact h.1

theorem isWord_duration (d : Duration) (h : d.wf = true) : isWord d.text = true := by
  cases d with
  | micros n =>
    have h0 := isWord_natText n
    have h1 : (ascii ['u', 's']).all isWordByte = true := by decide
    simp only [isWord, Bool.and_eq_true, bne_iff_ne, ne_eq] at h0 ⊢
    exact ⟨by simp [Duration.text, natText_ne_nil], by rw [Duration.text, List.all_append, h0.2, h1]; rfl⟩
  | bad id => simp only [Duration.wf, Bool.and_eq_true] at h; exact h.1

/-- An operand all of whose words are words of R121. -/
def Arg.plain : Arg → Bool
  | .word w => isWord w
  | .list ws => ws.all isWord

theorem plain_bytesArg (bs : List Byte) : (bytesArg bs).plain = true := by
  simp [Arg.plain, bytesArg, isWord_natText]

theorem isWord_mnem (m : Mnem) : isWord m.text = true := by cases m <;> decide

theorem parseMnem_text (m : Mnem) : parseMnem m.text = some m := by cases m <;> decide

end Sys2Proof
end

