-- ==== Sys2Proof/Laws/PerInstr.lean ====
section
/-! SUPPORT. Sys2Proof/Laws/PerInstr.lean: laws stated once for every constructor of `Instr`. -/

namespace Sys2Proof.Laws

/-- BuildParts: the operation that a well-formed instruction is written as is the operation that is read back from its
mnemonic and operands, under every configuration, and every word written is a word of R121. A frame has no such parts. -/
def BuildParts.Statement (i : Instr) : Prop :=
  ∀ g, i.wf g = true → ∀ m args, i.parts = some (m, args) → build m args g = some i ∧ args.all Arg.plain = true

theorem BuildParts.frameW (a : BitVec 7) (v : Word) : BuildParts.Statement (.frameW a v) := by
  intro g _ m args h; cases h

theorem BuildParts.frameR (a : BitVec 7) (d : Word) : BuildParts.Statement (.frameR a d) := by
  intro g _ m args h; cases h

theorem BuildParts.openDev : BuildParts.Statement .openDev := by
  intro g _ m args h; cases h; exact ⟨rfl, rfl⟩

theorem BuildParts.catSiglen (a : Int) : BuildParts.Statement (.catSiglen a) := by
  intro g _ m args h; cases h
  exact ⟨by simp [build, parseInt_intText], by simp [Arg.plain, isWord_intText]⟩

theorem BuildParts.catMask (a : Int) : BuildParts.Statement (.catMask a) := by
  intro g _ m args h; cases h
  exact ⟨by simp [build, parseInt_intText], by simp [Arg.plain, isWord_intText]⟩

theorem BuildParts.catLayout (a : Int) : BuildParts.Statement (.catLayout a) := by
  intro g _ m args h; cases h
  exact ⟨by simp [build, parseInt_intText], by simp [Arg.plain, isWord_intText]⟩

theorem BuildParts.catPack (a : Int) (xs : List Nat) : BuildParts.Statement (.catPack a xs) := by
  intro g _ m args h; cases h
  exact ⟨by simp [build, parseInt_intText, allSome_map _ _ parseNat_natText], by simp [Arg.plain, isWord_intText, isWord_natText]⟩

theorem BuildParts.catUnpack (a : Int) (v : Word) : BuildParts.Statement (.catUnpack a v) := by
  intro g hw m args h; cases h
  exact ⟨by simp [build, parseInt_intText, parseValue_natText hw], by simp [Arg.plain, isWord_intText, isWord_natText]⟩

theorem BuildParts.cwRead (f : FieldArg) : BuildParts.Statement (.cwRead f) := by
  intro g hw m args h; cases h
  exact ⟨by simp [build, parseField_text f hw], by simp [Arg.plain, isWord_field f hw]⟩

theorem BuildParts.cwAssign (f : FieldArg) (v : Int) : BuildParts.Statement (.cwAssign f v) := by
  intro g hw m args h; cases h
  exact ⟨by simp [build, parseInt_intText, parseField_text f hw], by simp [Arg.plain, isWord_intText, isWord_field f hw]⟩

theorem BuildParts.cwSet (f : FieldArg) (c : ChipArg) : BuildParts.Statement (.cwSet f c) := by
  intro g hw m args h; cases h
  simp only [Instr.wf, Bool.and_eq_true] at hw
  exact ⟨by simp [build, parseField_text f hw.1, parseChip_text c (g := g) hw.2], by simp [Arg.plain, isWord_field f hw.1, isWord_chip c (g := g) hw.2]⟩

theorem BuildParts.cwClear (f : FieldArg) (c : ChipArg) : BuildParts.Statement (.cwClear f c) := by
  intro g hw m args h; cases h
  simp only [Instr.wf, Bool.and_eq_true] at hw
  exact ⟨by simp [build, parseField_text f hw.1, parseChip_text c (g := g) hw.2], by simp [Arg.plain, isWord_field f hw.1, isWord_chip c (g := g) hw.2]⟩

theorem BuildParts.swRead (f : FieldArg) : BuildParts.Statement (.swRead f) := by
  intro g hw m args h; cases h
  exact ⟨by simp [build, parseField_text f hw], by simp [Arg.plain, isWord_field f hw]⟩

theorem BuildParts.spiXfer (tx : List Byte) : BuildParts.Statement (.spiXfer tx) := by
  intro g _ m args h; cases h
  exact ⟨by simp [build, bytesArg, allSome_map _ _ parseBits_natText], by simp [Arg.plain, bytesArg, isWord_natText]⟩

theorem BuildParts.csAssert (c : ChipArg) : BuildParts.Statement (.csAssert c) := by
  intro g hw m args h; cases h
  exact ⟨by simp [build, parseChip_text c (g := g) hw], by simp [Arg.plain, isWord_chip c (g := g) hw]⟩

theorem BuildParts.csDeassert (c : ChipArg) : BuildParts.Statement (.csDeassert c) := by
  intro g hw m args h; cases h
  exact ⟨by simp [build, parseChip_text c (g := g) hw], by simp [Arg.plain, isWord_chip c (g := g) hw]⟩

theorem BuildParts.vcmp (a : Nat) (w r : Word) : BuildParts.Statement (.vcmp a w r) := by
  intro g hw m args h; cases h
  simp only [Instr.wf, Bool.and_eq_true] at hw
  exact ⟨by simp [build, parseValue_natText hw.1.2, parseValue_natText hw.2, parseRegAddr_natText hw.1.1], by simp [Arg.plain, isWord_natText]⟩

theorem BuildParts.wrv (c : ChipArg) (a : Int) (vb : List Byte) : BuildParts.Statement (.wrv c a vb) := by
  intro g hw m args h; cases h
  exact ⟨by simp [build, parseInt_intText, bytesArg, allSome_map _ _ parseBits_natText, parseChip_text c (g := g) hw], by simp [Arg.plain, isWord_intText, bytesArg, isWord_natText, isWord_chip c (g := g) hw]⟩

theorem BuildParts.setClk (v : Int) : BuildParts.Statement (.setClk v) := by
  intro g _ m args h; cases h
  exact ⟨by simp [build, parseInt_intText], by simp [Arg.plain, isWord_intText]⟩

theorem BuildParts.reset (c : ChipArg) (d : Duration) : BuildParts.Statement (.reset c d) := by
  intro g hw m args h; cases h
  simp only [Instr.wf, Bool.and_eq_true] at hw
  exact ⟨by simp [build, parseChip_text c (g := g) hw.1, parseDuration_text d hw.2 g], by simp [Arg.plain, isWord_chip c (g := g) hw.1, isWord_duration d hw.2]⟩

theorem BuildParts.setTrig (m : ModeArg) : BuildParts.Statement (.setTrig m) := by
  intro g hw n args h; cases h
  exact ⟨by simp [build, parseMode_text m hw], by simp [Arg.plain, isWord_mode m hw]⟩

theorem BuildParts.rdErr : BuildParts.Statement .rdErr := by
  intro g _ m args h; cases h; exact ⟨rfl, rfl⟩

theorem BuildParts.rdTemp : BuildParts.Statement .rdTemp := by
  intro g _ m args h; cases h; exact ⟨rfl, rfl⟩

theorem BuildParts.prog (c : ChipArg) (b : Blob) : BuildParts.Statement (.prog c b) := by
  intro g hw m args h; cases h
  cases b with
  | bytes bs =>
    exact ⟨by simp [build, Blob.arg, bytesArg, allSome_map _ _ parseBits_natText, parseChip_text c (g := g) hw],
      by simp [Arg.plain, isWord_chip c (g := g) hw, Blob.arg, bytesArg, isWord_natText]⟩
  | unreadable =>
    refine ⟨by simp [build, Blob.arg, parseChip_text c (g := g) hw], ?_⟩
    have h0 : isWord unreadableId = true := by decide
    simp [Arg.plain, isWord_chip c (g := g) hw, Blob.arg, h0]

theorem BuildParts.sleep (d : Duration) : BuildParts.Statement (.sleep d) := by
  intro g hw m args h; cases h
  exact ⟨by simp [build, parseDuration_text d hw g], by simp [Arg.plain, isWord_duration d hw]⟩

end Sys2Proof.Laws
end

