-- ==== Sys2Proof/Laws/Lex.lean ====
section
/-! SUPPORT. Sys2Proof/Laws/Lex.lean: the words, commas and brackets that a printed operation is cut into, and the operands that
are read from them. -/

namespace Sys2Proof

theorem wordByte_facts {b : Byte} (h : isWordByte b = true) :
    b ≠ 0x3B#8 ∧ isSpace b = false ∧ b ≠ 0x2C#8 ∧ b ≠ 0x5B#8 ∧ b ≠ 0x5D#8 := by
  simp only [isWordByte, Bool.and_eq_true, Bool.not_eq_true', bne_iff_ne, ne_eq] at h
  tauto

/-- The bytes of a word are taken into the word being read. -/
theorem lex_word : ∀ (w cur rest : Text), w.all isWordByte = true → lex cur (w ++ rest) = lex (cur ++ w) rest
  | [], cur, rest, _ => by simp
  | b :: w, cur, rest, h => by
    simp only [List.all_cons, Bool.and_eq_true] at h
    obtain ⟨h1, h2, h3, h4, h5⟩ := wordByte_facts h.1
    rw [List.cons_append, lex, if_neg h1, if_neg (by simp [h2]), if_neg h3, if_neg h4, if_neg h5,
      lex_word w _ rest h.2, List.append_assoc]
    rfl

theorem isWord_iff {w : Text} : isWord w = true ↔ w ≠ [] ∧ w.all isWordByte = true := by
  simp [isWord]

theorem lex_word_end {w : Text} (h : isWord w = true) : lex [] w = [.word w] := by
  obtain ⟨h1, h2⟩ := isWord_iff.mp h
  have := lex_word w [] [] h2
  simpa [lex, flushWord, h1] using this

theorem lex_word_space {w : Text} (h : isWord w = true) (rest : Text) :
    lex [] (w ++ 0x20#8 :: rest) = .word w :: lex [] rest := by
  obtain ⟨h1, h2⟩ := isWord_iff.mp h
  rw [lex_word w [] _ h2, List.nil_append, lex, if_neg (by decide), if_pos (by decide)]
  simp [flushWord, h1]

theorem lex_word_comma {w : Text} (h : isWord w = true) (rest : Text) :
    lex [] (w ++ 0x2C#8 :: 0x20#8 :: rest) = .word w :: .comma :: lex [] rest := by
  obtain ⟨h1, h2⟩ := isWord_iff.mp h
  rw [lex_word w [] _ h2, List.nil_append, lex, if_neg (by decide), if_neg (by decide), if_pos rfl, lex,
    if_neg (by decide), if_pos (by decide)]
  simp [flushWord, h1]

theorem lex_word_rbrack {w : Text} (h : isWord w = true) (rest : Text) :
    lex [] (w ++ 0x5D#8 :: rest) = .word w :: .rbrack :: lex [] rest := by
  obtain ⟨h1, h2⟩ := isWord_iff.mp h
  rw [lex_word w [] _ h2, List.nil_append, lex, if_neg (by decide), if_neg (by decide), if_neg (by decide),
    if_neg (by decide), if_pos rfl]
  simp [flushWord, h1]

theorem lex_lbrack (rest : Text) : lex [] (0x5B#8 :: rest) = .lbrack :: lex [] rest := by
  rw [lex, if_neg (by decide), if_neg (by decide), if_neg (by decide), if_pos rfl]
  simp [flushWord]

theorem lex_rbrack (rest : Text) : lex [] (0x5D#8 :: rest) = .rbrack :: lex [] rest := by
  rw [lex, if_neg (by decide), if_neg (by decide), if_neg (by decide), if_neg (by decide), if_pos rfl]
  simp [flushWord]

theorem lex_comma_space (rest : Text) : lex [] (0x2C#8 :: 0x20#8 :: rest) = .comma :: lex [] rest := by
  rw [lex, if_neg (by decide), if_neg (by decide), if_pos rfl, lex, if_neg (by decide), if_pos (by decide)]
  simp [flushWord]

/-- The words and commas of a list. -/
def wordToks : List Text → List Tok
  | [] => []
  | [w] => [.word w]
  | w :: ws => .word w :: .comma :: wordToks ws

/-- The pieces of an operand. -/
def Arg.toks : Arg → List Tok
  | .word w => [.word w]
  | .list ws => .lbrack :: wordToks ws ++ [.rbrack]

/-- The pieces of an operand sequence. -/
def argToks : List Arg → List Tok
  | [] => []
  | [a] => a.toks
  | a :: as => a.toks ++ .comma :: argToks as

theorem lex_list : ∀ (ws : List Text) (rest : Text), ws.all isWord = true →
    lex [] (commaSep ws ++ 0x5D#8 :: rest) = wordToks ws ++ .rbrack :: lex [] rest
  | [], rest, _ => lex_rbrack rest
  | [w], rest, h => by
    simp only [List.all_cons, Bool.and_eq_true] at h
    exact lex_word_rbrack h.1 rest
  | w :: w' :: ws, rest, h => by
    simp only [List.all_cons, Bool.and_eq_true] at h
    have ih := lex_list (w' :: ws) rest (by simp [h.2])
    simp only [commaSep, wordToks, List.append_assoc, List.cons_append] at ih ⊢
    rw [lex_word_comma h.1, ih]

theorem lex_list_arg {ws : List Text} (h : ws.all isWord = true) (rest : Text) :
    lex [] ((Arg.list ws).text ++ rest) = (Arg.list ws).toks ++ lex [] rest := by
  simp only [Arg.text, Arg.toks, List.cons_append, List.append_assoc, List.nil_append]
  rw [lex_lbrack, lex_list ws rest h]

theorem lex_args : ∀ args : List Arg, args.all Arg.plain = true → lex [] (commaSep (args.map Arg.text)) = argToks args
  | [], _ => rfl
  | [.word w], h => by
    simp only [List.all_cons, Bool.and_eq_true, Arg.plain] at h
    exact lex_word_end h.1
  | [.list ws], h => by
    simp only [List.all_cons, Bool.and_eq_true, Arg.plain] at h
    simpa [lex, flushWord, argToks, commaSep] using lex_list_arg h.1 []
  | .word w :: a :: as, h => by
    rw [List.all_cons, Bool.and_eq_true] at h
    have ih := lex_args (a :: as) h.2
    simp only [List.map_cons, commaSep, argToks, Arg.text, Arg.toks] at ih ⊢
    rw [lex_word_comma (show isWord w = true from h.1), ih]
    rfl
  | .list ws :: a :: as, h => by
    rw [List.all_cons, Bool.and_eq_true] at h
    have ih := lex_args (a :: as) h.2
    simp only [List.map_cons, commaSep, argToks] at ih ⊢
    rw [lex_list_arg (show ws.all isWord = true from h.1), lex_comma_space, ih]

/-! ## Reading operands -/

theorem parse_items : ∀ (vs ws : List Text) (ts : List Tok),
    vs ≠ [] → parseArgs (.item ws) (wordToks vs ++ .rbrack :: ts) =
      (parseArgs .separator ts).map (Arg.list (ws ++ vs) :: ·)
  | [], _, _, h => absurd rfl h
  | [w], ws, ts, _ => by simp [wordToks, parseArgs]
  | w :: w' :: vs, ws, ts, _ => by
    have ih := parse_items (w' :: vs) (ws ++ [w]) ts (by simp)
    simp only [wordToks, List.cons_append, parseArgs] at ih ⊢
    rw [ih]
    simp

theorem parse_list (ws : List Text) (ts : List Tok) :
    parseArgs .operand ((Arg.list ws).toks ++ ts) = (parseArgs .separator ts).map (Arg.list ws :: ·) := by
  simp only [Arg.toks, List.cons_append, List.append_assoc, List.nil_append, parseArgs]
  match ws with
  | [] => simp [wordToks, parseArgs]
  | [w] => simp [wordToks, parseArgs]
  | w :: w' :: vs =>
    simp only [wordToks, List.cons_append, parseArgs]
    rw [parse_items (w' :: vs) [w] ts (by simp)]
    simp

theorem parse_args : ∀ args : List Arg, args ≠ [] → parseArgs .operand (argToks args) = some args
  | [], h => absurd rfl h
  | [.word w], _ => by simp [argToks, Arg.toks, parseArgs]
  | [.list ws], _ => by
    have := parse_list ws []
    simpa [argToks, parseArgs] using this
  | .word w :: a :: as, _ => by
    have ih := parse_args (a :: as) (by simp)
    simp only [argToks, Arg.toks, List.cons_append, List.nil_append, parseArgs, ih, Option.map_some]
  | .list ws :: a :: as, _ => by
    have ih := parse_args (a :: as) (by simp)
    simp only [argToks]
    rw [parse_list, parseArgs, ih]
    rfl

theorem operands_toks (args : List Arg) : operands (argToks args) = some args := by
  match args with
  | [] => rfl
  | a :: as =>
    have h := parse_args (a :: as) (by simp)
    have hne : argToks (a :: as) ≠ [] := by
      cases a <;> cases as <;> simp [argToks, Arg.toks]
    unfold operands
    split
    · contradiction
    · exact h

/-- A printed operation is cut into its mnemonic and the pieces of its operands. -/
theorem lex_opText (m : Mnem) {args : List Arg} (h : args.all Arg.plain = true) :
    lex [] (opText m args) = .word m.text :: argToks args := by
  unfold opText
  split
  · rename_i e; rw [e, lex_word_end (isWord_mnem m)]; rfl
  · rw [lex_word_space (isWord_mnem m), lex_args args h]

/-- No frame begins like an operation: the first byte of a mnemonic names no address 0 to 27 (R112). -/
theorem decodeFrame_opText {g : Cfg} (hg : g.nreg ≤ 28) (m : Mnem) (args : List Arg) : decodeFrame (opText m args) g = none := by
  have hm : ∃ b w, m.text = b :: w ∧ 28 ≤ (b.extractLsb' 1 7).toNat := by
    cases m <;> exact ⟨_, _, rfl, by decide⟩
  obtain ⟨b, w, e, hb⟩ := hm
  have hcons : ∃ ys, opText m args = b :: ys := by
    unfold opText
    split
    · exact ⟨w, e⟩
    · exact ⟨_, by rw [e]; rfl⟩
  obtain ⟨ys, hy⟩ := hcons
  rw [hy]
  exact if_neg fun h => by have := of_decide_eq_true h.2; omega

end Sys2Proof
end

