-- ==== Sys2Proof/Laws/Program.lean ====
section
/-! SUPPORT. Sys2Proof/Laws/Program.lean: what a `PROG` does whatever is drawn: the pairs it writes, and where an error or a fault
stops it. -/

namespace Sys2Proof.Machine

/-! ## Pairs of chip and address -/

/-- The shapes of the events of the pairs `xs`, `ks` attempts each, `ch` giving each address its chunk. -/
def runShape (g : Cfg) (ch : Nat → List Byte) (xs : List (PhysChip × Nat)) (ks : List Nat) : List Event :=
  ((xs.zip ks).map fun x => attemptsShape g x.1.2 (ch x.1.2) x.2).flatten

/-- The write frames of the pairs `xs`, `ks` attempts each, `hear` giving each chip those who hear its frames. -/
def runFrames (hear : PhysChip → List PhysChip) (ch : Nat → List Byte) (xs : List (PhysChip × Nat)) (ks : List Nat) :
    List (List PhysChip × List Byte) :=
  ((xs.zip ks).map fun x => List.replicate x.2 (hear x.1.1, writeFrame x.1.2 (ch x.1.2))).flatten

/-- Pairing with a shorter list sees only as many pairs. -/
theorem zip_take {α β : Type} : ∀ (xs : List α) (ks : List β) (m : Nat), ks.length ≤ m → (xs.take m).zip ks = xs.zip ks
  | [], ks, m, _ => by simp
  | x :: xs, [], m, _ => by simp
  | x :: xs, k :: ks, 0, h => by simp at h
  | x :: xs, k :: ks, m + 1, h => by simp [zip_take xs ks m (by simpa using h)]

theorem runShape_append (g : Cfg) (ch : Nat → List Byte) {xs ys : List (PhysChip × Nat)} {ks js : List Nat}
    (h : xs.length = ks.length) : runShape g ch (xs ++ ys) (ks ++ js) = runShape g ch xs ks ++ runShape g ch ys js := by
  simp [runShape, List.zip_append h]

theorem runFrames_append (hear : PhysChip → List PhysChip) (ch : Nat → List Byte) {xs ys : List (PhysChip × Nat)} {ks js : List Nat}
    (h : xs.length = ks.length) :
    runFrames hear ch (xs ++ ys) (ks ++ js) = runFrames hear ch xs ks ++ runFrames hear ch ys js := by
  simp [runFrames, List.zip_append h]

/-- The pairs `xs` have been written, after `ks` attempts each; the events are `es`. -/
structure Wrote (g : Cfg) (ps : List PhysChip) (hear : PhysChip → List PhysChip) (ch : Nat → List Byte)
    (xs : List (PhysChip × Nat)) (s u : State) (es : List Event) (ks : List Nat) : Prop where
  count : xs.length = ks.length
  tries : ∀ k ∈ ks, 1 ≤ k ∧ k ≤ g.maxAttempts
  part  : Part g ps s u es
  spent : Spent s.env u.env es.length
  shape : es.map eventShape = runShape g ch xs ks
  sent  : writeFrames es = runFrames hear ch xs ks
  regs  : ∀ q b, (∀ x ∈ xs, ¬ (b = x.2 ∧ q ∈ hear x.1)) → u.reg q b = s.reg q b

variable {g : Cfg} {ps : List PhysChip} {hear : PhysChip → List PhysChip} {ch : Nat → List Byte}

theorem Wrote.none (g : Cfg) (ps : List PhysChip) (hear : PhysChip → List PhysChip) (ch : Nat → List Byte) (s : State) :
    Wrote g ps hear ch [] s s [] [] :=
  ⟨rfl, by simp, Part.refl g ps s, Spent.refl _, rfl, rfl, fun _ _ _ => rfl⟩

theorem Wrote.trans {xs ys : List (PhysChip × Nat)} {s t u : State} {es fs : List Event} {ks js : List Nat}
    (h : Wrote g ps hear ch xs s t es ks) (k : Wrote g ps hear ch ys t u fs js) :
    Wrote g ps hear ch (xs ++ ys) s u (es ++ fs) (ks ++ js) where
  count := by simp [h.count, k.count]
  tries := fun m hm => (List.mem_append.mp hm).elim (h.tries m) (k.tries m)
  part := h.part.trans k.part
  spent := by rw [List.length_append]; exact h.spent.trans k.spent
  shape := by rw [List.map_append, h.shape, k.shape, runShape_append g ch h.count]
  sent := by rw [writeFrames_append, h.sent, k.sent, runFrames_append hear ch h.count]
  regs := fun q b hn => (k.regs q b fun x hx => hn x (List.mem_append_right _ hx)).trans
    (h.regs q b fun x hx => hn x (List.mem_append_left _ hx))

theorem Wrote.mono {qs : List PhysChip} {hear' : PhysChip → List PhysChip} {xs : List (PhysChip × Nat)} {s u : State}
    {es : List Event} {ks : List Nat} (h : Wrote g ps hear ch xs s u es ks) (hp : ∀ q ∈ ps, q ∈ qs)
    (hh : ∀ x ∈ xs, hear x.1 = hear' x.1) : Wrote g qs hear' ch xs s u es ks where
  count := h.count
  tries := h.tries
  part := h.part.mono hp
  spent := h.spent
  shape := h.shape
  sent := by
    rw [h.sent]
    unfold runFrames
    congr 1
    refine List.map_congr_left fun x hx => ?_
    rw [hh x.1 (List.of_mem_zip hx).1]
  regs := fun q b hn => h.regs q b fun x hx => by rw [hh x hx]; exact hn x hx

/-! ## One verified write -/

/-- A verified write (R224), whatever is drawn. -/
theorem verifiedWrite_ends (hg : g.wf) (hm : g.ioMayFail = true) (c : Chip) (a : Nat) {vb : List Byte} (hvb : vb.length = g.valueBytes)
    (s : State) :
    (verifiedWrite g c a vb s).Ends
      (fun _ u => a < g.nreg ∧ ∃ es m, 1 ≤ m ∧ m ≤ g.maxAttempts ∧ Tried g c a vb s u es m)
      (fun e u => (g.nreg ≤ a ∧ e = .unknownRegister a ∧ u = s) ∨
        (a < g.nreg ∧ e = .writeVerification c a ∧ ∃ es, Tried g c a vb s u es g.maxAttempts))
      (fun f u => a < g.nreg ∧ ∃ es, CutShort g c a vb s u es 1 g.maxAttempts f) := by
  have hmax : g.maxAttempts - 1 + 1 = g.maxAttempts := by have := hg.attempts; omega
  unfold verifiedWrite withAddr
  by_cases ha : a < g.nreg
  · rw [show checkAddr g a = some a by simp [checkAddr, ha]]
    have h := attempts_ends hg hm c ha hvb (g.maxAttempts - 1) 1 s
    rw [hmax] at h
    exact h.imp (fun _ u h => ⟨ha, h⟩) (fun e u h => .inr ⟨ha, h⟩) fun f u h => ⟨ha, h⟩
  · rw [show checkAddr g a = none by simp [checkAddr, ha]]
    exact .inl ⟨Nat.le_of_not_lt ha, rfl, rfl⟩

/-! ## The chunks of one chip -/

/-- The pairs of chip `p` at the `n` addresses from `i` up. -/
def pairsFrom (p : PhysChip) (i n : Nat) : List (PhysChip × Nat) := (List.range' i n).map fun j => (p, j)

theorem pairsFrom_succ (p : PhysChip) (i n : Nat) : pairsFrom p i (n + 1) = (p, i) :: pairsFrom p (i + 1) n := by
  simp [pairsFrom, List.range'_succ]

theorem members_asChip {p : PhysChip} (hp : g.hasChip p = true) : members g (asChip p) = [p] := by
  cases p <;> simp [members, asChip, named, hp]

/-- The selection after a chip's turn, or before it. -/
def TurnOver (g : Cfg) (p : PhysChip) (s u : State) (m : Nat) : Prop :=
  ∀ q, isSelected g u.cw q = (!(decide (0 < m) && decide (q = p)) && isSelected g s.cw q)

/-- One whole verified write of the pair `(p, i)`. -/
theorem Tried.wrote {p : PhysChip} {i m : Nat} {s u : State} {es : List Event}
    (hear : PhysChip → List PhysChip) (hh : hear p = selected g (selectW g s.cw (asChip p)))
    (hg : g.wf) (hc : g.hasChip p = true) (h1 : 1 ≤ m) (h2 : m ≤ g.maxAttempts) (h : Tried g (asChip p) i (ch i) { s with cursor := some (p, i) } u es m) :
    Wrote g [p] hear ch [(p, i)] s u es [m] where
  count := rfl
  tries := by simpa using ⟨h1, h2⟩
  part := by
    have := h.leaves.part
    rw [members_asChip hc] at this
    exact ⟨this.hist, this.place, this.other, this.stays⟩
  spent := h.spent
  shape := by rw [h.shape]; simp [runShape]
  sent := by rw [h.sent]; simp [runFrames, heardFrames, hh]
  regs := fun q b hn => by
    refine h.leaves.only q b fun ⟨hq, hb⟩ => hn (p, i) (by simp) ⟨hb, ?_⟩
    rw [hh, mem_selected, isSelected_selectW hg]
    rcases hq with hq | hq
    · simp [hq]
    · have : isSelected g s.cw q = true := hq
      simp [this]

/-- The chunks of one chip from address `i` up, whatever is drawn. -/
theorem programChunks_ends (hg : g.wf) (hm : g.ioMayFail = true) {p : PhysChip} (hc : g.hasChip p = true) :
    ∀ (cs : List (List Byte)) (i : Nat) (s : State), (∀ vb ∈ cs, vb.length = g.valueBytes) →
      (∀ j (h : j < cs.length), cs[j] = ch (i + j)) → hear p = selected g (selectW g s.cw (asChip p)) →
      (programChunks g p i cs s).Ends
        (fun _ u => (i ≤ g.nreg → i + cs.length ≤ g.nreg) ∧ ∃ es ks, Wrote g [p] hear ch (pairsFrom p i cs.length) s u es ks ∧
          u.life = s.life ∧ TurnOver g p s u cs.length)
        (fun e u => ∃ m es ks, Wrote g [p] hear ch (pairsFrom p i m) s u es ks ∧ u.life = s.life ∧ TurnOver g p s u m ∧
          ((1 ≤ m ∧ m ≤ cs.length ∧ e = .writeVerification (asChip p) ((i + m - 1 : Nat) : Int) ∧ ks.getLast? = some g.maxAttempts) ∨
            (m < cs.length ∧ e = .unknownRegister ((i + m : Nat) : Int) ∧ (i ≤ g.nreg → i + m = g.nreg))))
        (fun f u => ∃ m t es ks fs, m < cs.length ∧ Wrote g [p] hear ch (pairsFrom p i m) s t es ks ∧ t.life = s.life ∧
          TurnOver g p s t m ∧ t.cursor = some (p, i + m) ∧
          CutShort g (asChip p) (i + m) (ch (i + m)) t u fs 1 g.maxAttempts f)
  | [], i, s => fun _ _ _ => ⟨fun h => by simpa using h, [], [], Wrote.none g [p] hear ch s, rfl, fun q => by simp⟩
  | vb :: rest, i, s => by
    intro h4 hch hh
    have hvb : vb = ch i := hch 0 (by simp)
    have hw := verifiedWrite_ends hg hm (asChip p) i (h4 vb (by simp)) { s with cursor := some (p, i) }
    rw [hvb] at hw
    simp only [programChunks, hvb]
    refine hw.bind ?_ ?_ ?_
    · rintro - t ⟨hi, es, m, h1, h2, hT⟩
      have hW := hT.wrote hear hh hg hc h1 h2
      have hlife : t.life = s.life := hT.leaves.life
      have hsel : TurnOver g p s t 1 := fun q => by
        rw [hT.select, members_asChip hc]; simp
      have hh' : hear p = selected g (selectW g t.cw (asChip p)) := by
        rw [hh]
        refine (listeners_eq hg (es := es) ?_).symm
        rw [members_asChip hc]; exact hW.part
      have hcomb : ∀ (u : State) (k : Nat), TurnOver g p t u k → TurnOver g p s u (k + 1) := fun u k h q => by
        rw [h, hsel]
        by_cases hq : q = p <;> simp [hq]
      refine (programChunks_ends hg hm hc rest (i + 1) t (fun v hv => h4 v (by simp [hv])) (fun j hj => ?_) hh').imp ?_ ?_ ?_
      · have := hch (j + 1) (by simpa using hj)
        rw [show i + 1 + j = i + (j + 1) by omega, ← this]; rfl
      · rintro - u ⟨hb, fs, ks, hW', hl, ht⟩
        refine ⟨fun _ => by have := hb (by omega); rw [List.length_cons]; omega, es ++ fs, [m] ++ ks, ?_, hl.trans hlife, hcomb u _ ht⟩
        rw [List.length_cons, pairsFrom_succ]
        exact hW.trans hW'
      · rintro e u ⟨k, fs, ks, hW', hl, ht, hcase⟩
        refine ⟨k + 1, es ++ fs, [m] ++ ks, ?_, hl.trans hlife, hcomb u k ht, ?_⟩
        · rw [pairsFrom_succ]; exact hW.trans hW'
        · rcases hcase with ⟨c1, c2, c3, c4⟩ | ⟨c1, c2, c3⟩
          · refine .inl ⟨by omega, by simpa using c2, ?_, ?_⟩
            · rw [c3, show i + 1 + k - 1 = i + (k + 1) - 1 by omega]
            · rw [List.getLast?_append, c4]; rfl
          · refine .inr ⟨by simpa using c1, ?_, fun _ => ?_⟩
            · rw [c2, show i + 1 + k = i + (k + 1) by omega]
            · have := c3 (by omega); omega
      · rintro f u ⟨k, v, fs, ks, gs, hk, hW', hl, ht, hcur, hcut⟩
        refine ⟨k + 1, v, es ++ fs, [m] ++ ks, gs, by simpa using hk, ?_, hl.trans hlife, hcomb v k ht, ?_, ?_⟩
        · rw [pairsFrom_succ]; exact hW.trans hW'
        · rw [hcur, show i + 1 + k = i + (k + 1) by omega]
        · rw [show i + (k + 1) = i + 1 + k by omega]; exact hcut
    · rintro e u (⟨h1, h2, h3⟩ | ⟨h1, h2, es, hT⟩)
      · refine ⟨0, [], [], ?_, ?_, ?_, .inr ⟨by simp, h2, fun _ => by omega⟩⟩
        · rw [h3]; exact ⟨rfl, by simp, ⟨by simp, ⟨rfl, rfl, rfl, rfl, rfl, rfl, rfl, rfl⟩, fun _ _ => rfl, fun _ _ => rfl⟩, Spent.refl _, rfl, rfl, fun _ _ _ => rfl⟩
        · rw [h3]
        · rw [h3]; intro q; simp
      · have hW := hT.wrote hear hh hg hc hg.attempts (le_refl _)
        refine ⟨1, es, [g.maxAttempts], hW, hT.leaves.life, fun q => ?_, .inl ⟨le_refl _, by simp, ?_, rfl⟩⟩
        · rw [hT.select, members_asChip hc]; simp
        · rw [h2]; simp
    · rintro f u ⟨hi, fs, hcut⟩
      exact ⟨0, { s with cursor := some (p, i) }, [], [], fs, by simp,
        ⟨rfl, by simp, ⟨by simp, ⟨rfl, rfl, rfl, rfl, rfl, rfl, rfl, rfl⟩, fun _ _ => rfl, fun _ _ => rfl⟩, Spent.refl _, rfl, rfl,
          fun _ _ _ => rfl⟩, rfl, fun q => by simp, rfl, hcut⟩

/-! ## The chips of a `PROG` -/

/-- Chunk `j` of a blob (R108). -/
theorem chunks_get (bs : List Byte) (j : Nat) (h : j < (chunks g bs).length) : (chunks g bs)[j] = chunkAt g bs j := by
  simp [chunks]

/-- The pairs of the chips `qs` at the `n` addresses from 0 up, chip after chip (R271). -/
def pairsOf (qs : List PhysChip) (n : Nat) : List (PhysChip × Nat) := qs.flatMap fun p => pairsFrom p 0 n

theorem progOrder_eq (c : Chip) (n : Nat) : progOrder g c n = pairsOf (members g c) n := by
  simp [progOrder, pairsOf, pairsFrom, List.range_eq_range']

/-- Who hears chip `p` when the chips `qs` have their turns one after the other from `s` on. -/
def hearIn (g : Cfg) (qs : List PhysChip) (s : State) (p : PhysChip) : List PhysChip :=
  PhysChip.all.filter fun q => decide (q = p) || (isSelected g s.cw q && !((qs.takeWhile (· != p)).contains q))

theorem progListeners_eq (g : Cfg) (s : State) (c : Chip) : progListeners g s c = hearIn g (members g c) s := rfl

theorem hearIn_head (hg : g.wf) {p : PhysChip} (hc : g.hasChip p = true) (rest : List PhysChip) (s : State) :
    hearIn g (p :: rest) s p = selected g (selectW g s.cw (asChip p)) := by
  unfold hearIn selected
  refine List.filter_congr fun q _ => ?_
  rw [isSelected_selectW hg, members_asChip hc]
  simp

/-- The pairs `xs` have had their chips' selection taken back. -/
def Deselected (g : Cfg) (s u : State) (xs : List (PhysChip × Nat)) : Prop :=
  ∀ q, isSelected g u.cw q = (!decide (q ∈ xs.map Prod.fst) && isSelected g s.cw q)

theorem mem_pairsFrom (p q : PhysChip) (i n : Nat) : q ∈ (pairsFrom p i n).map Prod.fst ↔ 0 < n ∧ q = p := by
  cases n with
  | zero => simp [pairsFrom]
  | succ n =>
    rw [pairsFrom_succ]
    simp only [pairsFrom, List.map_cons, List.map_map, List.mem_cons, List.mem_map, Function.comp]
    constructor
    · rintro (h | ⟨j, -, h⟩)
      · exact ⟨by omega, h⟩
      · exact ⟨by omega, h.symm⟩
    · exact fun h => .inl h.2

theorem TurnOver.deselected {p : PhysChip} {s u : State} {i m : Nat} (h : TurnOver g p s u m) :
    Deselected g s u (pairsFrom p i m) := fun q => by
  rw [h q]
  congr 2
  rw [← Bool.decide_and]
  exact decide_eq_decide.mpr (mem_pairsFrom p q i m).symm

theorem Deselected.trans {s t u : State} {xs ys : List (PhysChip × Nat)} (h : Deselected g s t xs) (k : Deselected g t u ys) :
    Deselected g s u (xs ++ ys) := fun q => by
  rw [k q, h q]
  by_cases h1 : q ∈ xs.map Prod.fst <;> by_cases h2 : q ∈ ys.map Prod.fst <;> simp_all

theorem pairsFrom_length (p : PhysChip) (i n : Nat) : (pairsFrom p i n).length = n := by simp [pairsFrom]

theorem pairsFrom_take (p : PhysChip) (i : Nat) {m n : Nat} (h : m ≤ n) : (pairsFrom p i n).take m = pairsFrom p i m := by
  refine List.ext_getElem (by simp [pairsFrom, h]) fun j h1 h2 => ?_
  simp [pairsFrom]

theorem pairsFrom_get (p : PhysChip) (i : Nat) {m n : Nat} (h : m < n) : (pairsFrom p i n)[m]? = some (p, i + m) := by
  simp [pairsFrom, h]

theorem mem_pairsOf {qs : List PhysChip} {n : Nat} {x : PhysChip × Nat} (h : x ∈ pairsOf qs n) : x.1 ∈ qs ∧ 0 < n := by
  obtain ⟨p, hp, hx⟩ := List.mem_flatMap.mp h
  have := (mem_pairsFrom p x.1 0 n).mp (List.mem_map_of_mem hx)
  exact ⟨this.2 ▸ hp, this.1⟩

/-- The lifecycle of a chip whose turn is over (R290). -/
theorem configured_life (s : State) (p q : PhysChip) :
    (s.configured p).life.get q = if q = p ∧ s.life.get q ≠ .heldInReset then .configured else s.life.get q := by
  unfold State.configured
  by_cases hq : q = p
  · subst hq
    split
    · rename_i h; simp [h]
    · rename_i h; simp [State.setLife_get_life, h]
  · split
    · simp [hq]
    · simp [State.setLife_get_life, hq]

theorem ConfiguredOnly.step {p : PhysChip} {s t u : State} {qs : List PhysChip} (hl : t.life = s.life)
    (h : ConfiguredOnly (t.configured p) u qs) (hp : p ∉ qs) : ConfiguredOnly s u (p :: qs) := fun q => by
  rw [h q, configured_life, hl]
  by_cases hq : q = p
  · subst hq
    simp [hp]
  · simp [hq]

theorem ConfiguredOnly.nil {s t : State} (h : t.life = s.life) : ConfiguredOnly s t [] := fun q => by simp [h]

theorem State.configured_cw (s : State) (p : PhysChip) : (s.configured p).cw = s.cw := by unfold State.configured; split <;> rfl

/-- A chip's turn leaves the block as it was but for its lifecycle. -/
theorem State.configured_part (g : Cfg) (s : State) (p : PhysChip) : Wrote g ps hear ch [] s (s.configured p) [] [] := by
  unfold State.configured
  split
  · exact Wrote.none g ps hear ch s
  · exact ⟨rfl, by simp, ⟨by simp, ⟨rfl, rfl, rfl, rfl, rfl, rfl, rfl, rfl⟩, fun _ _ => rfl, fun _ _ => rfl⟩, Spent.refl _, rfl,
      rfl, fun _ _ _ => rfl⟩

/-- The chips that a later chip's frames are heard by are the same seen from before and from after the turn of `p`. -/
theorem hearIn_tail {p r : PhysChip} {rest : List PhysChip} {s t : State} {n : Nat} (ht : TurnOver g p s t n) (hn : 0 < n)
    (hr : r ≠ p) : hearIn g rest (t.configured p) r = hearIn g (p :: rest) s r := by
  unfold hearIn
  refine List.filter_congr fun q _ => ?_
  have hne : (p != r) = true := by simpa using Ne.symm hr
  rw [State.configured_cw, ht q, List.takeWhile_cons_of_pos (by simpa using hne)]
  by_cases hq : q = p <;> simp [hq, hn]

/-- The chips of a `PROG` one after the other (R270 to R273), whatever is drawn. -/
theorem programChips_ends (hg : g.wf) (hm : g.ioMayFail = true) {cs : List (List Byte)} (h4 : ∀ vb ∈ cs, vb.length = g.valueBytes)
    (hch : ∀ j (h : j < cs.length), cs[j] = ch j) :
    ∀ (qs : List PhysChip) (s : State), qs.Nodup → (∀ q ∈ qs, g.hasChip q = true) →
      (programChips g cs qs s).Ends
        (fun _ u => ∃ es ks, Wrote g qs (hearIn g qs s) ch (pairsOf qs cs.length) s u es ks ∧ ConfiguredOnly s u qs ∧
          Deselected g s u (pairsOf qs cs.length))
        (fun e u => ∃ m es ks, m ≤ (pairsOf qs cs.length).length ∧
          Wrote g qs (hearIn g qs s) ch ((pairsOf qs cs.length).take m) s u es ks ∧
          Deselected g s u ((pairsOf qs cs.length).take m) ∧
          ((∃ x, 1 ≤ m ∧ (pairsOf qs cs.length)[m - 1]? = some x ∧ e = .writeVerification (asChip x.1) (x.2 : Int) ∧
              ks.getLast? = some g.maxAttempts ∧ ConfiguredOnly s u (qs.takeWhile (· != x.1))) ∨
            (g.nreg < cs.length ∧ m = g.nreg ∧ e = .unknownRegister (g.nreg : Int) ∧ u.life = s.life)))
        (fun f u => ∃ m x t es ks fs, (pairsOf qs cs.length)[m]? = some x ∧
          Wrote g qs (hearIn g qs s) ch ((pairsOf qs cs.length).take m) s t es ks ∧
          Deselected g s t ((pairsOf qs cs.length).take m) ∧ ConfiguredOnly s t (qs.takeWhile (· != x.1)) ∧
          (∀ q, q ≠ x.1 → isSelected g t.cw q = (!(qs.takeWhile (· != x.1)).contains q && isSelected g s.cw q)) ∧
          t.cursor = some x ∧ hearIn g qs s x.1 = selected g (selectW g t.cw (asChip x.1)) ∧
          CutShort g (asChip x.1) x.2 (ch x.2) t u fs 1 g.maxAttempts f)
  | [], s => fun _ _ => ⟨[], [], Wrote.none g [] _ ch s, fun q => by simp, fun q => by simp [pairsOf]⟩
  | p :: rest, s => by
    intro hnd hthere
    have hc := hthere p (by simp)
    have hthere' : ∀ q ∈ rest, g.hasChip q = true := fun q hq => hthere q (List.mem_cons_of_mem _ hq)
    have hp : p ∉ rest := (List.nodup_cons.mp hnd).1
    have horder : pairsOf (p :: rest) cs.length = pairsFrom p 0 cs.length ++ pairsOf rest cs.length := by
      simp [pairsOf]
    have hlen := pairsFrom_length p 0 cs.length
    have hsub : ∀ q ∈ [p], q ∈ p :: rest := by simp
    have hsub' : ∀ q ∈ rest, q ∈ p :: rest := fun q hq => List.mem_cons_of_mem _ hq
    have htake : ∀ m, m ≤ cs.length → (pairsOf (p :: rest) cs.length).take m = pairsFrom p 0 m := fun m h => by
      rw [horder, List.take_append_of_le_length (by omega), pairsFrom_take p 0 h]
    have htake' : ∀ m, (pairsOf (p :: rest) cs.length).take (cs.length + m) =
        pairsFrom p 0 cs.length ++ (pairsOf rest cs.length).take m := fun m => by
      have := List.take_length_add_append (l₁ := pairsFrom p 0 cs.length) (l₂ := pairsOf rest cs.length) m
      rwa [hlen, ← horder] at this
    have hget' : ∀ m, (pairsOf (p :: rest) cs.length)[cs.length + m]? = (pairsOf rest cs.length)[m]? := fun m => by
      rw [horder, List.getElem?_append_right (by omega), hlen]
      congr 1; omega
    have hhead := hearIn_head hg hc rest s
    unfold programChips
    refine Res.Ends.bind (programChunks_ends hg hm hc cs 0 s h4 (fun j h => by rw [hch j h, Nat.zero_add]) hhead) ?_ ?_ ?_
    · rintro - t ⟨hb, es, ks, hW, hl, ht⟩
      have hN := hb (Nat.zero_le _)
      rw [Nat.zero_add] at hN
      have hW0 := (hW.mono hsub (fun _ _ => rfl)).trans (t.configured_part g p (ps := p :: rest) (hear := hearIn g (p :: rest) s) (ch := ch))
      simp only [List.append_nil] at hW0
      have hear' : ∀ x ∈ pairsOf rest cs.length, hearIn g rest (t.configured p) x.1 = hearIn g (p :: rest) s x.1 := fun x hx => by
        obtain ⟨h1, h2⟩ := mem_pairsOf hx
        exact hearIn_tail ht h2 fun e => hp (e ▸ h1)
      have hd : Deselected g s (t.configured p) (pairsFrom p 0 cs.length) := fun q => by
        rw [State.configured_cw]; exact ht.deselected q
      have hwhile : ∀ x ∈ pairsOf rest cs.length,
          (p :: rest).takeWhile (· != x.1) = p :: rest.takeWhile (· != x.1) := fun x hx => by
        obtain ⟨h1, -⟩ := mem_pairsOf hx
        exact List.takeWhile_cons_of_pos (by simpa using fun e : p = x.1 => hp (e ▸ h1))
      have hpw : ∀ r : PhysChip, p ∉ rest.takeWhile (· != r) := fun r h => hp (List.takeWhile_subset _ h)
      refine (programChips_ends hg hm h4 hch rest (t.configured p) (List.nodup_cons.mp hnd).2 hthere').imp ?_ ?_ ?_
      · rintro - u ⟨fs, js, hW', hc, hd'⟩
        rw [horder]
        exact ⟨es ++ fs, ks ++ js, hW0.trans (hW'.mono hsub' hear'), hc.step hl hp, hd.trans hd'⟩
      · rintro e u ⟨m, fs, js, hm', hW', hd', hc⟩
        refine ⟨cs.length + m, es ++ fs, ks ++ js, ?_, ?_, ?_, ?_⟩
        · rw [horder, List.length_append, hlen]; omega
        · rw [htake']
          exact hW0.trans (hW'.mono hsub' fun x hx => hear' x (List.mem_of_mem_take hx))
        · rw [htake']; exact hd.trans hd'
        · rcases hc with ⟨x, h1, h2, h3, h5, h6⟩ | ⟨h1, -⟩
          · refine .inl ⟨x, by omega, ?_, h3, ?_, ?_⟩
            · rw [show cs.length + m - 1 = cs.length + (m - 1) by omega, hget', h2]
            · rw [List.getLast?_append, h5]; rfl
            · rw [hwhile x (List.mem_of_getElem? h2)]
              exact h6.step hl (hpw x.1)
          · omega
      · rintro f u ⟨m, x, v, fs, js, gs, h1, hW', hd', hc, hsel, hcur, hh, hcut⟩
        have hx := List.mem_of_getElem? h1
        refine ⟨cs.length + m, x, v, es ++ fs, ks ++ js, gs, by rw [hget', h1], ?_, ?_, ?_, ?_, hcur, ?_, hcut⟩
        · rw [htake']
          exact hW0.trans (hW'.mono hsub' fun y hy => hear' y (List.mem_of_mem_take hy))
        · rw [htake']; exact hd.trans hd'
        · rw [hwhile x hx]; exact hc.step hl (hpw x.1)
        · intro q hq
          rw [hsel q hq, State.configured_cw, ht q, hwhile x hx]
          by_cases hqp : q = p <;> simp [hqp, (mem_pairsOf hx).2]
        · rw [← hear' x hx]; exact hh
    · rintro e u ⟨m, es, ks, hW, hl, ht, hc⟩
      have hle : m ≤ cs.length := by rcases hc with ⟨-, h, -⟩ | ⟨h, -⟩ <;> omega
      refine ⟨m, es, ks, ?_, ?_, ?_, ?_⟩
      · rw [horder, List.length_append, hlen]; omega
      · rw [htake m hle]; exact hW.mono hsub fun _ _ => rfl
      · rw [htake m hle]; exact ht.deselected
      · rcases hc with ⟨h1, h2, h3, h5⟩ | ⟨h1, h2, h3⟩
        · refine .inl ⟨(p, m - 1), h1, ?_, ?_, h5, ?_⟩
          · rw [horder, List.getElem?_append_left (by omega), pairsFrom_get p 0 (by omega)]; simp
          · rw [h3]; simp
          · rw [List.takeWhile_cons_of_neg (by simp)]; exact ConfiguredOnly.nil hl
        · have := h3 (Nat.zero_le _)
          exact .inr ⟨by omega, by omega, by rw [h2, ← this], hl⟩
    · rintro f u ⟨m, t, es, ks, fs, hm', hW, hl, ht, hcur, hcut⟩
      rw [Nat.zero_add] at hcur hcut
      refine ⟨m, (p, m), t, es, ks, fs, ?_, ?_, ?_, ?_, ?_, hcur, ?_, hcut⟩
      · rw [horder, List.getElem?_append_left (by omega), pairsFrom_get p 0 hm', Nat.zero_add]
      · rw [htake m (by omega)]; exact hW.mono hsub fun _ _ => rfl
      · rw [htake m (by omega)]; exact ht.deselected
      · rw [List.takeWhile_cons_of_neg (by simp)]; exact ConfiguredOnly.nil hl
      · intro q hq
        rw [ht q, List.takeWhile_cons_of_neg (by simp)]
        simp [show q ≠ p from hq]
      · rw [hhead]
        refine (listeners_eq hg (es := es) ?_).symm
        rw [members_asChip hc]; exact hW.part

end Sys2Proof.Machine
end

