-- ==== Sys2Proof/Tests/Slice0.lean ====
section
/-! SUPPORT. Sys2Proof/Tests/Slice0.lean: small tests. Expected values come from spec/95_test_vectors.md (its vector is named in the
comment), from the encoding tables of spec/30_encoding.md, or are worked out from a rule; none is the model's own answer. The
last part shows, for every statement with hypotheses, that they can be met. -/

namespace Sys2Proof.Tests

open Sys2Proof.Machine

set_option maxRecDepth 8000
set_option Elab.async false

/-! ## Helpers -/

/-- A constructed controller with control word `cw` and link `k`. -/
def ready (cw : CwWord) (k : Link) : State :=
  { State.powerOn cw with mapOK := true, spiOK := true, env := { Env.initial with link := k } }

/-- The next state, if there is one. -/
def next? : Host.Outcome State Fault Refusal → Option State
  | .next t => some t
  | _ => none

/-- Why an operation was refused. -/
def declined? : Host.Outcome State Fault Refusal → Option Reason
  | .refused (.declined r _) => some r
  | _ => none

/-- The state that a fault leaves. -/
def faulted? : Host.Outcome State Fault Refusal → Option State
  | .fault (.ioFault s) => some s
  | .fault (.spiWhileInReset s) => some s
  | _ => none

/-- A property of the next state. -/
def holds (o : Host.Outcome State Fault Refusal) (p : State → Bool) : Bool :=
  match next? o with
  | some t => p t
  | none => false

/-- The decoded line of a text. -/
def line (cs : String) : Option Line := (decode (ascii cs.toList)).toOption

/-- The error of a text. -/
def lineError (cs : String) : Option DecodeError :=
  match decode (ascii cs.toList) with
  | .ok _ => none
  | .error e => some e

/-- The machine's configuration with the other chip-select polarity (D2). -/
def onZero : Cfg := { Config.cfg with csPolarity := .selectOnZero }

/-- The machine's configuration with hold codes written out (D7). -/
def codes : Cfg :=
  { Config.cfg with holdCode := fun m => match m with | .off => 0x4#4 | .hz1 => 0x1#4 | .khz1 => 0xB#4 }

/-- The machine's configuration with 42 registers a chip (R7). -/
def wide : Cfg := { Config.cfg with nreg := 42, siglens := Config.cfg.siglens ++ List.replicate 14 32 }

/-- The machine's configuration with another duration unit and more attempts (R7). -/
def millis : Cfg := { Config.cfg with durationUnit := .milli, maxAttempts := 5 }

/-- A machine with other sizes in R7's rows: three chips, values of 16 bits in frames of three bytes, a CW of 32 bits and one status
word of 64. -/
def small : Cfg :=
  { Config.cfg with
    nchip := 3
    valueBits := 16
    frameLen := 3
    cwBits := 32
    swCount := 1
    swBits := 64
    siglens := List.replicate 28 12
    cwOffset := 4
    sw0Offset := 8
    cwLo := fun f => match f with | .hold => 0 | .reset => 8 | .cs => 16 | .sysclk => 28
    swPos := fun f => match f with
      | .err => ⟨.sw0, 0, 4⟩
      | .tempA => ⟨.sw0, 4, 12⟩
      | .tempB => ⟨.sw0, 16, 12⟩
      | .tempC => ⟨.sw0, 32, 12⟩
      | .tempD => ⟨.sw0, 44, 12⟩
    layout := fun _ => channelFieldNames.map fun n => (n, 2) }

/-- A constructed controller of `small` with control word `cw` and link `k`. -/
def readySmall (cw : CwWord) (k : Link) : State :=
  { State.powerOn cw small with mapOK := true, spiOK := true, env := { Env.initial with link := k } }

/-! ## Well-formedness: an ill-formed term for each check -/

theorem test_wf_frameW_reserved : (Instr.frameW 28#7 0#32).wf = false := by decide +kernel
theorem test_wf_frameR_reserved : (Instr.frameR 127#7 0#32).wf = false := by decide +kernel
theorem test_wf_frameW_last : (Instr.frameW 27#7 0#32).wf = true := by decide +kernel
theorem test_wf_vcmp_address : (Instr.vcmp 28 0#32 0#32).wf = false := by decide +kernel
theorem test_wf_chip_is_one : (Instr.csAssert (.bad (ascii ['A']))).wf = false := by decide +kernel
theorem test_wf_chip_no_word : (Instr.csDeassert (.bad (ascii ['Q', ' ', 'R']))).wf = false := by decide +kernel
theorem test_wf_chip_empty : (Instr.wrv (.bad []) 0 []).wf = false := by decide +kernel
theorem test_wf_field_is_control : (Instr.cwRead (.bad (ascii ['c', 's']))).wf = false := by decide +kernel
theorem test_wf_field_is_status : (Instr.swRead (.bad (ascii ['e', 'r', 'r']))).wf = false := by decide +kernel
theorem test_wf_field_assign : (Instr.cwAssign (.bad []) 0).wf = false := by decide +kernel
theorem test_wf_field_set : (Instr.cwSet (.bad (ascii ['h', 'o', 'l', 'd'])) (.chip .A)).wf = false := by decide +kernel
theorem test_wf_chip_clear : (Instr.cwClear (.cw .hold) (.bad (ascii ['A', 'l', 'l']))).wf = false := by decide +kernel
theorem test_wf_mode_is_one : (Instr.setTrig (.bad (ascii ['O', 'F', 'F']))).wf = false := by decide +kernel
theorem test_wf_duration_is_one : (Instr.sleep (.bad (ascii ['5', 'm', 's']))).wf = false := by decide +kernel
theorem test_wf_duration_reset : (Instr.reset (.chip .A) (.bad [])).wf = false := by decide +kernel
/-- With three chips `D` names none, and with values of 16 bits a wider one is none (R7). -/
theorem test_wf_chip_absent : (Instr.csAssert (.chip .D)).wf small = false ∧ (Instr.csAssert (.bad (ascii ['D']))).wf small = true := by
  decide +kernel
theorem test_wf_value : (Instr.frameW 0#7 0x10000#32).wf small = false ∧ (Instr.vcmp 0 0x10000#32 0#32).wf small = false := by
  decide +kernel
theorem test_wf_prog_chip : (Instr.prog (.bad (ascii ['B'])) .unreadable).wf = false := by decide +kernel

/-! ## Decoding, words written out from the spec's tables -/

/-- V-SRC-10 and R103: `0010011 1` and 32 value bits. -/
theorem test_decode_frame_write :
    decode [0b00100111#8, 0#8, 0#8, 0#8, 0b00101010#8] = .ok ⟨none, .frameW 0b0010011#7 0x2A#32⟩ := by decide +kernel
/-- V-SRC-10: the read command byte of address 27 is 0x36. -/
theorem test_decode_frame_read : decode [0x36#8, 0#8, 0#8, 0#8, 0#8] = .ok ⟨none, .frameR 27#7 0#32⟩ := by decide +kernel
/-- R112: 0x39 names address 28. -/
theorem test_decode_frame_reserved : decode [0x39#8, 0#8, 0#8, 0#8, 0#8] = .error .reservedFrame := by decide +kernel
/-- The opcode table's FRAME.W row: bit 32 is the write flag. -/
theorem test_table_word_write : decodeTableWord 40 0x0100000000 = some (.frameW 0#7 0#32) := by decide +kernel
theorem test_table_word_read : decodeTableWord 40 0x3600000000 = some (.frameR 27#7 0#32) := by decide +kernel
/-- R120's syntax column, one line for each operation. -/
theorem test_decode_open : line "OPEN" = some ⟨none, .openDev⟩ := by decide +kernel
theorem test_decode_siglen : line "n <- CAT.SIGLEN 17" = some ⟨some (ascii ['n']), .catSiglen 17⟩ := by decide +kernel
theorem test_decode_mask : line "CAT.MASK -1" = some ⟨none, .catMask (-1)⟩ := by decide +kernel
theorem test_decode_layout : line "CAT.LAYOUT 0x1B" = some ⟨none, .catLayout 27⟩ := by decide +kernel
theorem test_decode_pack : line "CAT.PACK 3, [0x3, 5]" = some ⟨none, .catPack 3 [3, 5]⟩ := by decide +kernel
theorem test_decode_unpack : line "CAT.UNPACK 3, 0x17" = some ⟨none, .catUnpack 3 0x17#32⟩ := by decide +kernel
theorem test_decode_cw_read : line "CW.READ cs" = some ⟨none, .cwRead (.cw .cs)⟩ := by decide +kernel
theorem test_decode_cw_assign : line "CW.ASSIGN sysclk, 0x7" = some ⟨none, .cwAssign (.cw .sysclk) 7⟩ := by decide +kernel
theorem test_decode_cw_set : line "CW.SET reset, B" = some ⟨none, .cwSet (.cw .reset) (.chip .B)⟩ := by decide +kernel
theorem test_decode_cw_clear : line "CW.CLEAR hold, All" = some ⟨none, .cwClear (.cw .hold) (.chip .All)⟩ := by decide +kernel
theorem test_decode_sw_read : line "SW.READ tempD" = some ⟨none, .swRead (.sw .tempD)⟩ := by decide +kernel
theorem test_decode_xfer :
    line "SPI.XFER [0x26, 0, 0, 0, 255]" = some ⟨none, .spiXfer [0x26#8, 0#8, 0#8, 0#8, 0xFF#8]⟩ := by decide +kernel
theorem test_decode_assert : line "CS.ASSERT C" = some ⟨none, .csAssert (.chip .C)⟩ := by decide +kernel
theorem test_decode_deassert : line "CS.DEASSERT D" = some ⟨none, .csDeassert (.chip .D)⟩ := by decide +kernel
theorem test_decode_vcmp : line "VCMP 19, 42, 0x8000002A" = some ⟨none, .vcmp 19 0x2A#32 0x8000002A#32⟩ := by decide +kernel
theorem test_decode_wrv :
    line "WRV A, 19, [0x00,0x00,0x00,0x2A]" = some ⟨none, .wrv (.chip .A) 19 [0#8, 0#8, 0#8, 0x2A#8]⟩ := by decide +kernel
theorem test_decode_setclk : line "SETCLK 3 ; divisor" = some ⟨none, .setClk 3⟩ := by decide +kernel
theorem test_decode_reset : line "RESET B, 1ms" = some ⟨none, .reset (.chip .B) (.micros 1000)⟩ := by decide +kernel
theorem test_decode_settrig : line "SETTRIG 1KHZ" = some ⟨none, .setTrig (.mode .khz1)⟩ := by decide +kernel
theorem test_decode_rderr : line "RDERR" = some ⟨none, .rdErr⟩ := by decide +kernel
theorem test_decode_rdtemp : line "RDTEMP" = some ⟨none, .rdTemp⟩ := by decide +kernel
theorem test_decode_prog : line "PROG All, [0xDE]" = some ⟨none, .prog (.chip .All) (.bytes [0xDE#8])⟩ := by decide +kernel
theorem test_decode_prog_unreadable : line "PROG A, UNREADABLE" = some ⟨none, .prog (.chip .A) .unreadable⟩ := by decide +kernel
theorem test_decode_sleep : line "SLEEP 1000us" = some ⟨none, .sleep (.micros 1000)⟩ := by decide +kernel
/-- What names nothing stays in the operation (R303, R113), and what is no operation is rejected by name. -/
theorem test_decode_bad_chip : line "WRV Q, 19, [0]" = some ⟨none, .wrv (.bad (ascii ['Q'])) 19 [0#8]⟩ := by decide +kernel
theorem test_decode_bad_mode : line "SETTRIG 10HZ" = some ⟨none, .setTrig (.bad (ascii ['1', '0', 'H', 'Z']))⟩ := by decide +kernel
theorem test_decode_case : line "RESET b, 1.5" =
    some ⟨none, .reset (.bad (ascii ['b'])) (.bad (ascii ['1', '.', '5']))⟩ := by decide +kernel
theorem test_reject_mnemonic : lineError "JUMP A" = some (.unknownMnemonic (ascii ['J', 'U', 'M', 'P'])) := by decide +kernel
theorem test_reject_operands : lineError "SPI.XFER [256]" = some (.badOperands .spiXfer) := by decide +kernel
theorem test_reject_shape : lineError "SPI.XFER [1" = some .badShape := by decide +kernel
theorem test_reject_comment : lineError " ; nothing" = some .emptyLine := by decide +kernel
theorem test_reject_unchecked : lineError "VCMP 28, 0, 0" = some (.badOperands .vcmp) := by decide +kernel
/-- A caller's name for a result is no operand (notes/assumptions/5.md). -/
theorem test_reject_name : lineError "VCMP 19, r, 0" = some (.badOperands .vcmp) := by decide +kernel
/-- A frame of a machine with values of 16 bits, and the operand `D` where there are three chips (R7, R91). -/
theorem test_decode_small : decode [0x27#8, 0x01#8, 0x2A#8] small = .ok ⟨none, .frameW 19#7 0x012A#32⟩ ∧
    encode (.frameR 27#7 0xBEEF#32) small = [0x36#8, 0xBE#8, 0xEF#8] ∧
    decode (ascii "CS.ASSERT D".toList) small = .ok ⟨none, .csAssert (.bad (ascii ['D']))⟩ := by decide +kernel
/-- A frame wins over text, and with 42 registers a mnemonic begins with a frame's byte (notes/assumptions/4.md). -/
theorem test_frame_before_text : decode (ascii "RDERR".toList) wide = .ok ⟨none, .frameR 41#7 0x44455252#32⟩ := by decide +kernel
/-- The encoder writes the frame of V-SRC-10 and the syntax of R121. -/
theorem test_encode_frame : encode (.frameW 19#7 0x2A#32) = [0x27#8, 0#8, 0#8, 0#8, 0x2A#8] := by decide +kernel
theorem test_encode_text : encode (.reset (.chip .All) (.micros 50)) = ascii "RESET All, 50us".toList := by decide +kernel
/-- With another duration unit (R7) a bare number counts in it, and a suffix says its own unit (R121). -/
theorem test_duration_unit : decode (ascii "SLEEP 2".toList) millis = .ok ⟨none, .sleep (.micros 2000)⟩ ∧
    decode (ascii "SLEEP 2us".toList) millis = .ok ⟨none, .sleep (.micros 2)⟩ := by decide +kernel
/-- An indented operation of a program's text is read as text; five raw bytes are a frame (notes/assumptions/4.md). -/
theorem test_indented : Program.ofText (ascii " OPEN".toList) = [ascii "OPEN".toList] ∧
    decode (ascii " OPEN".toList) = .ok ⟨none, .frameR 16#7 0x4F50454E#32⟩ := by decide +kernel
theorem test_program_lines :
    Program.ofText (ascii "OPEN\n; boot\nSETCLK 3".toList) = [ascii "OPEN".toList, ascii "SETCLK 3".toList] := by decide +kernel

/-! ## The catalog (section 2.1 of the vectors) -/

/-- V-CAT-2. -/
theorem test_cat_siglen : holds (exec (.catSiglen 16) (ready 0 .free)) (·.result == .length 14) = true := by decide +kernel
/-- V-CAT-5. -/
theorem test_cat_mask : holds (exec (.catMask 17) (ready 0 .free)) (·.result == .word 0x00FFFFFF#32) = true := by decide +kernel
/-- V-CAT-7: no event. -/
theorem test_cat_mask_error : holds (exec (.catMask (-1)) (ready 0 .free))
    (fun t => t.outcome == .error (.unknownRegister (-1)) && t.hist == [] && t.pc == 0) = true := by decide +kernel
/-- V-CAT-8, V-CAT-9, V-CAT-10, V-CAT-11, V-CAT-12, V-CAT-13. -/
theorem test_pack : pack 0 [("p", 2), ("q", 3)] [0b11, 0b101] = some 0x17#32 := by decide +kernel
theorem test_unpack : unpack 0 [("p", 2), ("q", 3)] 0x17#32 = [0b11, 0b101] := by decide +kernel
theorem test_unpack_rest : unpack 0 [("p", 2), ("q", 3)] 0xFFFFFFE0#32 = [0, 0] := by decide +kernel
theorem test_pack_oversize : pack 0 [("p", 2), ("q", 3)] [0b100, 0] = none := by decide +kernel
theorem test_pack_count : pack 0 [("p", 2), ("q", 3)] [1] = none := by decide +kernel
theorem test_pack_full : pack 0 [("x", 32)] [0xFFFFFFFF] = some 0xFFFFFFFF#32 := by decide +kernel

/-! ## The control word (section 2.2) -/

/-- V-CW-1. -/
theorem test_cw_assign : holds (exec (.cwAssign (.cw .sysclk) 7) (ready 0x0350 .free)) (·.cw == 0x7350#32) = true := by decide +kernel
/-- V-CW-2. -/
theorem test_cw_read : holds (exec (.cwRead (.cw .cs)) (ready 0x7350 .free)) (·.result == .nibble 3#4) = true := by decide +kernel
/-- V-CW-3, and R290: B is held. -/
theorem test_cw_set : holds (exec (.cwSet (.cw .reset) (.chip .B)) (ready 0x0050 .free))
    (fun t => t.cw == 0x0070#32 && t.life.get .B == .heldInReset) = true := by decide +kernel
/-- V-CW-4, and R290: B is released. -/
theorem test_cw_clear : holds (exec (.cwClear (.cw .reset) (.chip .B)) (ready 0x0070 .free))
    (fun t => t.cw == 0x0050#32 && t.life.get .B == .released && t.life.get .A == .heldInReset) = true := by decide +kernel
/-- V-CW-7. -/
theorem test_cw_set_all : holds (exec (.cwSet (.cw .cs) (.chip .All)) (ready 0x1234 .free)) (·.cw == 0x1F34#32) = true := by
  decide +kernel
/-- V-CW-13, V-CW-14. -/
theorem test_cw_assign_range : declined? (exec (.cwAssign (.cw .hold) 16) (ready 0 .free)) = some .valueOutOfRange := by decide +kernel
theorem test_cw_assign_status : declined? (exec (.cwAssign (.sw .tempA) 1) (ready 0 .free)) = some .statusWrite := by decide +kernel
/-- A failing write that takes effect leaves the new value (U29). -/
theorem test_io_fault : (faulted? (exec (.setClk 3)
    { ready 0 .free with env := { Env.initial with ioFailure := some ⟨1, true⟩ } })).map (·.cw) = some 0x3000#32 := by decide +kernel

/-- A controller whose status words are fixed, as in V-SRC-9. -/
def readings : State :=
  { ready 0 .free with env := { Env.initial with status := .fixed 0x0ABC1235#64 0x00456789#64 } }

/-- V-CW-16, V-CW-17. -/
theorem test_sw_read : holds (exec (.swRead (.sw .tempB)) readings) (·.result == .status 0xABC#64) = true := by decide +kernel
theorem test_sw_read_second : holds (exec (.swRead (.sw .tempD)) readings) (·.result == .status 0x456#64) = true := by decide +kernel
/-- V-CW-15. -/
theorem test_rderr : holds (exec .rdErr readings) (·.result == .status 0x5#64) = true := by decide +kernel
/-- V-DEV-11. -/
theorem test_rdtemp : holds (exec .rdTemp readings) (·.result == .temps 0x123#64 0xABC#64 0x789#64 0x456#64) = true := by decide +kernel

/-- R7 and R266: one status word of 64 bits is read once, with 8 bytes. -/
theorem test_rdtemp_small : holds (execRdTemp
    { readySmall 0 .free with env := { Env.initial with status := .fixed 0x004567890ABC1235#64 0#64 } } small)
    (fun t => t.result == .temps 0x123#64 0xABC#64 0x789#64 0x456#64 && t.hist == [.mmioR 8 8 0x004567890ABC1235#64]) = true := by
  decide +kernel
/-- R7 and R151: a CW of 32 bits is accessed with 4 bytes, and bits outside the fields stay. -/
theorem test_setclk_small : holds (execSetClk 3 (readySmall 0x0A5A5000 .free) small)
    (fun t => t.cw == 0x3A5A5000#32 && t.hist == [.mmioR 4 4 0x0A5A5000#64, .mmioW 4 4 0x3A5A5000#64]) = true := by decide +kernel
/-- R7, R95: with three chips `All` selects three. -/
theorem test_cs_assert_small : amask small .All = 0b0111#4 ∧ holds (execCsAssert (.chip .All) (readySmall 0 .free) small)
    (fun t => t.cw == 0x00070000#32 && selected small t.cw == [.A, .B, .C]) = true := by decide +kernel

/-! ## The SPI bus and the chip-select multiplexer (section 2.3) -/

/-- V-SPI-3, V-SPI-4. -/
theorem test_cs_assert : holds (exec (.csAssert (.chip .B)) (ready 0x0100 .free))
    (fun t => t.cw == 0x0300#32 && selected Config.cfg t.cw == [.A, .B]) = true := by decide +kernel
theorem test_cs_deassert : holds (exec (.csDeassert (.chip .A)) (ready 0x0F00 .free)) (·.cw == 0x0E00#32) = true := by decide +kernel
/-- V-SPI-6, V-SPI-7. -/
theorem test_cs_assert_on_zero : holds (execCsAssert (.chip .A) (ready 0x0F00 .free) onZero)
    (fun t => t.cw == 0x0E00#32 && selected onZero t.cw == [.A]) = true := by decide +kernel
theorem test_cs_deassert_on_zero : holds (execCsDeassert (.chip .A) (ready 0x0E00 .free) onZero)
    (fun t => t.cw == 0x0F00#32 && selected onZero t.cw == []) = true := by decide +kernel
/-- V-SPI-10: only 6 bits are latched. -/
theorem test_xfer_write : holds (exec (.spiXfer [0x27#8, 0xFF#8, 0xFF#8, 0xFF#8, 0xFF#8]) (ready 0x0100 .ideal))
    (fun t => t.reg .A 19 == .known 0x3F#32 && t.reg .B 19 == .unknown) = true := by decide +kernel
/-- V-SPI-12: a broadcast write. -/
theorem test_frameW_broadcast : holds (exec (.frameW 0#7 5#32) (ready 0x0F00 .ideal))
    (fun t => PhysChip.all.all fun p => t.reg p 0 == .known 5#32) = true := by decide +kernel
/-- V-SPI-13: a read frame heard by four chips, under a link whose junk is 0x00 (R198). -/
theorem test_xfer_read_all : holds (exec (.spiXfer [0x26#8, 0#8, 0#8, 0#8, 0#8]) { ready 0x0F00 .echo with
      regs := ⟨[(19, 0x2A#32)], [], [], []⟩ })
    (fun t => t.result == .bytes [0#8, 0#8, 0#8, 0#8, 0#8] && t.regs == ⟨[(19, 0x2A#32)], [], [], []⟩) = true := by decide +kernel
/-- V-SPI-20 after the write of V-SPI-19. -/
theorem test_frameR_flip : ((next? (exec (.frameW 19#7 0x2A#32) (ready 0x0100 (.flip 31)))).bind fun t =>
    next? (exec (.frameR 19#7 0#32) t)).map (·.result) = some (.word 0x8000002A#32) := by decide +kernel
/-- V-SPI-14, V-SPI-15: only a selected chip in reset faults. -/
theorem test_xfer_in_reset : (faulted? (exec (.spiXfer [0#8, 0#8, 0#8, 0#8, 0#8]) (ready 0x0110 .free))).map
    (fun s => (s.outcome, s.hist)) = some (.fault .spiWhileInReset, []) := by decide +kernel
theorem test_xfer_other_in_reset :
    holds (exec (.spiXfer [0#8, 0#8, 0#8, 0#8, 0#8]) (ready 0x0120 .free)) (·.pc == 1) = true := by decide +kernel
/-- A failed broadcast that took effect reaches the released chip and not the one held in reset (U29, notes/assumptions/21.md). -/
theorem test_failed_broadcast : (faulted? (exec (.frameW 0#7 5#32) { ready 0x0310 .ideal with
      env := { Env.initial with link := .ideal, ioFailure := some ⟨0, true⟩ } })).map
    (fun s => (s.reg .A 0, s.reg .B 0, s.hist)) = some (.unknown, .known 5#32, []) := by decide +kernel
/-- V-SPI-17: length 3 after a write. -/
theorem test_xfer_short : ((next? (exec (.frameW 19#7 1#32) (ready 0x0100 .ideal))).bind fun t =>
    next? (exec (.spiXfer [0x27#8, 0#8, 0#8]) t)).map (·.reg .A 19) = some .unknown := by decide +kernel
/-- V-SPI-18. -/
theorem test_xfer_empty : declined? (exec (.spiXfer []) (ready 0 .free)) = some .emptyTransfer := by decide +kernel

/-! ## Compare and verified write (section 2.4) -/

/-- V-VCMP-3, V-VCMP-4. -/
theorem test_vcmp_match : holds (exec (.vcmp 19 0x2A#32 0x6A#32) (ready 0 .free)) (·.result == .verdict true) = true := by
  decide +kernel
theorem test_vcmp_mismatch : holds (exec (.vcmp 19 0x2A#32 0x0A#32) (ready 0 .free)) (·.result == .verdict false) = true := by
  decide +kernel
/-- V-WRV-1: one attempt, 10 events. -/
theorem test_wrv_echo : holds (exec (.wrv (.chip .A) 19 [0#8, 0#8, 0#8, 0x2A#8]) (ready 0x3000 .echo))
    (fun t => t.hist.length == 10 && t.cw == 0x3000#32 && t.reg .A 19 == .known 0x2A#32 && t.outcome == .done) = true := by
  decide +kernel
/-- V-WRV-3: three attempts, 30 events, 6 transfers. -/
theorem test_wrv_low_flip : holds (exec (.wrv (.chip .A) 19 [0#8, 0#8, 0#8, 0x2A#8]) (ready 0x3000 (.flip 0)))
    (fun t => t.hist.length == 30 && t.hist.countP isXfer == 6 && t.outcome == .error (.writeVerification .A 19) &&
      t.cw == 0x3000#32) = true := by decide +kernel
/-- V-WRV-7 under a link whose junk is 0x00 (R198): the broadcasts are latched by all four, and no read-back agrees. -/
theorem test_wrv_all : holds (exec (.wrv (.chip .All) 19 [0#8, 0#8, 0#8, 0x2A#8]) (ready 0x3000 .echo))
    (fun t => t.outcome == .error (.writeVerification .All 19) && t.cw == 0x3000#32 &&
      (transfers t.hist).all (fun x => x.1 == [.A, .B, .C, .D]) &&
      PhysChip.all.all (fun p => t.reg p 19 == .known 0x2A#32)) = true := by decide +kernel
/-- V-WRV-9's selection, under the same link: chip B hears both frames and stays selected. -/
theorem test_wrv_other_selected : holds (exec (.wrv (.chip .A) 19 [0#8, 0#8, 0#8, 0x2A#8]) (ready 0x3200 .echo))
    (fun t => t.cw == 0x3200#32 && (transfers t.hist).take 2 == [([.A, .B], [0x27#8, 0#8, 0#8, 0#8, 0x2A#8]),
      ([.A, .B], [0x26#8, 0#8, 0#8, 0#8, 0#8])] && t.reg .B 19 == .known 0x2A#32 && t.reg .C 19 == .unknown) = true := by
  decide +kernel
/-- A verified write of a value of 16 bits: frames of three bytes (R7, R224). -/
theorem test_wrv_small : holds (execWrv (.chip .B) 19 [0xF1#8, 0x2A#8] (readySmall 0 .echo) small)
    (fun t => t.outcome == .done && t.reg .B 19 == .known 0x12A#32 &&
      (transfers t.hist) == [([.B], [0x27#8, 0xF1#8, 0x2A#8]), ([.B], [0x26#8, 0#8, 0#8])]) = true := by decide +kernel
/-- V-WRV-5. -/
theorem test_wrv_short : declined? (exec (.wrv (.chip .A) 19 [0#8, 0#8, 0#8]) (ready 0 .free)) = some .valueNotFourBytes := by
  decide +kernel
/-- V-WRV-8: the chip stays selected. -/
theorem test_wrv_in_reset : (faulted? (exec (.wrv (.chip .A) 19 [0#8, 0#8, 0#8, 0x2A#8]) (ready 0x3010 .free))).map
    (fun s => (s.cw, s.hist.length, s.attempt)) = some (0x3110#32, 2, none) := by decide +kernel

/-! ## Device control (section 2.5) -/

/-- V-DEV-2, V-DEV-3. -/
theorem test_setclk : holds (exec (.setClk 15) (ready 0x3A5C .free)) (·.cw == 0xFA5C#32) = true := by decide +kernel
theorem test_setclk_range : declined? (exec (.setClk 16) (ready 0 .free)) = some .valueOutOfRange := by decide +kernel
/-- V-DEV-4, V-DEV-5. -/
theorem test_reset_one : holds (exec (.reset (.chip .B) (.micros 1000)) (ready 0x0050 .free))
    (fun t => t.cw == 0x0050#32 && t.life.get .B == .released && t.life.get .A == .heldInReset && t.hist.length == 5) = true := by
  decide +kernel
theorem test_reset_all : holds (exec (.reset (.chip .All) (.micros 50)) (ready 0x0A55 .free))
    (fun t => t.cw == 0x0A05#32 && t.hist.contains (.sleep 50)) = true := by decide +kernel
/-- V-DEV-7, V-DEV-8: the lifecycle. -/
theorem test_settrig : holds (execSetTrig (.mode .khz1)
    { ready 0x3080 .free with life := ⟨.configured, .released, .triggering .hz1, .heldInReset⟩ } codes)
    (fun t => t.cw == 0x308B#32 && t.life == ⟨.triggering .khz1, .released, .triggering .khz1, .heldInReset⟩) = true := by decide +kernel
theorem test_settrig_off : holds (execSetTrig (.mode .off)
    { ready 0x300F .free with life := ⟨.configured, .unknown, .triggering .hz1, .released⟩ } codes)
    (fun t => t.cw == 0x3004#32 && t.life == ⟨.configured, .unknown, .configured, .released⟩) = true := by decide +kernel
/-- V-DEV-12: four verified writes, each chip alone. -/
theorem test_prog_all : holds (exec (.prog (.chip .All) (.bytes [0xDE#8, 0xAD#8, 0xBE#8, 0xEF#8])) (ready 0 .echo))
    (fun t => t.hist.length == 40 && (writeFrames t.hist).map Prod.fst == [[.A], [.B], [.C], [.D]] &&
      PhysChip.all.all (fun p => t.reg p 0 == .known 0x02ADBEEF#32 && t.life.get p == .configured)) = true := by decide +kernel
/-- V-DEV-14: the first pair fails. -/
theorem test_prog_abort : holds
    (exec (.prog (.chip .All) (.bytes [1#8, 2#8, 3#8, 4#8, 5#8, 6#8, 7#8, 8#8])) (ready 0 (.flip 0)))
    (fun t => t.outcome == .error (.writeVerification .A 0) && t.hist.length == 30 && t.life.get .A == .unknown) = true := by
  decide +kernel
/-- PROG without a whole chunk configures its chips, but not one held in reset (R290, notes/assumptions/11.md). -/
theorem test_prog_no_chunk : holds (exec (.prog (.chip .All) (.bytes [1#8, 2#8, 3#8])) (ready 0x0010 .free))
    (fun t => t.life == ⟨.heldInReset, .configured, .configured, .configured⟩ && t.hist == []) = true := by decide +kernel
/-- V-DEV-6's sleep and V-DEV-17. -/
theorem test_sleep : holds (exec (.sleep (.micros 1000)) (ready 0 .free)) (·.hist == [.sleep 1000]) = true := by decide +kernel
theorem test_open_spi_fails : holds (exec .openDev
    { State.reset with env := { Env.initial with canOpenSpi := false } })
    (fun t => t.outcome == .error (.deviceOpen .spi) && !t.mapOK && !t.spiOK) = true := by decide +kernel
/-- V-DEV-18. -/
theorem test_open_again : declined? (exec .openDev (ready 0 .free)) = some .openNotFirst := by decide +kernel
theorem test_not_admitted : declined? (exec .rdErr State.reset) = some .notAdmitted := by decide +kernel

/-! ## Steps -/

/-- A line of a loaded program runs and names its result (R121). -/
theorem test_step_names : holds (step ((ready 0 .free).load [ascii "n <- CAT.SIGLEN 17".toList]))
    (fun t => t.names == [(ascii ['n'], .length 24)] && t.outcome == .done && t.pc == 1) = true := by decide +kernel
/-- A name for an operation without a result (notes/assumptions/5.md). -/
theorem test_step_names_none : holds (step ((ready 0 .free).load [ascii "n <- SETCLK 3".toList]))
    (fun t => t.names == [(ascii ['n'], .none)] && t.cw == 0x3000#32) = true := by decide +kernel
/-- The first step of a program after reset is its OPEN (R340). -/
theorem test_step_open : holds (step (State.reset.load [ascii "OPEN".toList, ascii "SETCLK 3".toList]))
    (fun t => t.mapOK && t.spiOK && t.pc == 1 && t.outcome == .running) = true := by decide +kernel
/-- A new program after an error (R310, program P3). -/
theorem test_step_after_error : holds (step
    { ready 0x3000 .free with outcome := .error .configBlob, pc := 4, pending := [[ascii "RDERR".toList]] })
    (fun t => t.pc == 0 && t.outcome == .running && t.program == [ascii "RDERR".toList] && t.cw == 0x3000#32) = true := by decide +kernel
/-- A run under another configuration: five attempts of two transfers (R7, R224). -/
theorem test_step_other_config :
    (match stepOf millis [ascii "WRV A, 19, [0, 0, 0, 42]".toList] [] (ready 0 (.flip 0)).toBlock with
      | .next t => t.hist.countP isXfer == 10 && t.outcome == .error (.writeVerification .A 19)
      | _ => false) = true := by decide +kernel
/-- A fault stays, also when a second caller comes (R43, R312). -/
theorem test_fault_stays : (faulted? (step { ready 0 .free with
      outcome := .fault .ioFault, env := { Env.initial with secondCaller := true } })).map (·.outcome) =
    some (.fault .ioFault) := by decide +kernel
/-- The codes of R300's table. -/
theorem test_error_codes : [ArchError.deviceOpen .spi, .unknownRegister 28, .invalidChip [], .writeVerification .All 3,
    .configBlob].map ArchError.code = [1, 2, 3, 4, 5] := by decide +kernel
/-- A frame of the opcode table runs as the next instruction. -/
theorem test_fetch_word : holds (step (State.reset.withFetchWord 40 0x0100000000)) (·.pc == 1) = true := by decide +kernel
/-- The power-on lifecycle of R48. -/
theorem test_power_on : (State.powerOn 0x0050#32).life = ⟨.heldInReset, .unknown, .heldInReset, .unknown⟩ := by decide +kernel

/-! ## Hypotheses that can be met -/

theorem echo_ready : Ready (ready 0 .echo) := ⟨rfl, rfl, rfl⟩
theorem ideal_ready : Ready (ready 0 .ideal) := ⟨rfl, rfl, rfl⟩
theorem all_selected_ready : Ready (ready 0x0F00 .ideal) := ⟨rfl, rfl, rfl⟩
theorem none_selected (k : Link) : NoneSelected Config.cfg (ready 0 k) := by
  show selected Config.cfg 0#32 = []
  decide +kernel
theorem all_released (k : Link) (p : PhysChip) : Released Config.cfg p (ready 0 k) := by
  show resetBit Config.cfg 0#32 p = false
  cases p <;> decide +kernel
theorem can_transfer : CanTransfer Config.cfg (members Config.cfg .All) (ready 0x0F00 .ideal) := by
  intro p _
  show resetBit Config.cfg 0x0F00#32 p = false
  cases p <;> decide +kernel
theorem small_wf : small.wf where
  chips := by decide
  value := by decide
  control := by decide
  status := by decide
  words := by decide
  frame := rfl
  attempts := Config.cfg_wf.attempts
  clock := Config.cfg_wf.clock
  regs := ⟨by decide, rfl, by decide⟩
  cwPlace := by decide
  swPlace w h := by cases w <;> revert h <;> decide
  swApart h := by revert h; decide
  cwApart w h := by cases w <;> revert h <;> decide
  cwNibble f := by cases f <;> decide
  cwInj f f' := by cases f <;> cases f' <;> decide
  swFits f := by cases f <;> decide
  holdInj := Config.cfg_wf.holdInj
  layouts _ := ⟨by show ∀ f ∈ small.layout 0, 1 ≤ f.2; decide, by show ((small.layout 0).map Prod.snd).sum ≤ 16; decide⟩
  channel _ _ := ⟨rfl, rfl⟩
theorem small_ready : Ready (readySmall 0x00010000 .ideal) := ⟨rfl, rfl, rfl⟩
theorem small_can_transfer : CanTransfer small [] (readySmall 0x00010000 .ideal) := by
  intro p _
  show resetBit small (0x00010000#32 &&& lowMask 32) p = false
  cases p <;> decide +kernel
theorem ideal_link : IdealLink Config.cfg (.ideal : Link) := by
  refine ⟨fun _ _ _ _ => rfl, fun hist p a y hy => ?_⟩
  show (Config.linkData hist p a (.known y) &&& ~~~ sigMask Config.cfg a ||| y &&& sigMask Config.cfg a) &&&
    sigMask Config.cfg a = y
  apply BitVec.eq_of_getLsbD_eq
  intro i hi
  have h := congrArg (fun v : Word => v.getLsbD i) hy
  simp only [BitVec.getLsbD_and, BitVec.getLsbD_or, BitVec.getLsbD_not] at h ⊢
  revert h
  cases y.getLsbD i <;> cases (sigMask Config.cfg a).getLsbD i <;> simp
theorem onZero_wf : onZero.wf := by
  have h := Config.cfg_wf
  exact ⟨h.chips, h.value, h.control, h.status, h.words, h.frame, h.attempts, h.clock, h.regs, h.cwPlace, h.swPlace, h.swApart, h.cwApart, h.cwNibble, h.cwInj,
    h.swFits, h.holdInj, h.layouts, h.channel⟩

theorem readings_ready : Ready readings := ⟨rfl, rfl, rfl⟩
theorem power_on_inv_regs (cw : CwWord) (k : Link) (p : PhysChip) : (ready cw k).regs.get p = [] := by cases p <;> rfl

/-! A witness for each statement that has hypotheses; a second one where its clauses divide a range. -/

theorem witness_DecodeEncodeRoundTrip : (Instr.wrv (.bad (ascii ['Q'])) (-1) [0x80#8]).wf = true := by decide +kernel
theorem witness_DecodeEncodeRoundTrip_small : small.wf ∧ small.nreg ≤ 28 ∧ (Instr.frameW 27#7 0xFFFF#32).wf small = true :=
  ⟨small_wf, by decide, by decide +kernel⟩
theorem witness_NamedLineDecodes : isWord (ascii ['r', '1']) = true ∧ (Instr.sleep (.micros 0)).wf = true ∧
    (Instr.sleep (.micros 0)).parts.isSome = true := by decide +kernel
theorem witness_FrameWords : (27#7).toNat ≤ 27 ∧ 27 < (28#7).toNat := by decide +kernel
theorem witness_ChipMaskLaws : amask Config.cfg (asChip .D) = amask Config.cfg (asChip .D) := rfl
theorem witness_SiglenAnswer : (ready 0 .free).mapOK = true ∧ (ready 0 .free).spiOK = true ∧
    (List.replicate 16 26 ++ [14, 24, 23, 6, 8, 18, 6, 19, 15, 6, 2, 2])[27]? = some 2 ∧ ((-1 : Int) < 0 ∨ (27 : Int) < -1) ∧
    ((28 : Int) < 0 ∨ (27 : Int) < 28) := by decide +kernel
theorem witness_MaskAnswer : (ready 0 .free).mapOK = true ∧ (ready 0 .free).spiOK = true ∧
    (List.replicate 16 0x03FFFFFF#32 ++ [0x3FFF#32, 0xFFFFFF#32, 0x7FFFFF#32, 0x3F#32, 0xFF#32, 0x3FFFF#32, 0x3F#32] ++
      [0x7FFFF#32, 0x7FFF#32, 0x3F#32, 0x3#32, 0x3#32])[27]? = some 0x3#32 := by decide +kernel
theorem witness_LayoutAnswer : (ready 0 .free).mapOK = true ∧ (ready 0 .free).spiOK = true ∧ 15 ≤ 15 ∧ 27 ≤ 27 ∧
    ((28 : Int) < 0 ∨ (27 : Int) < 28) := by decide +kernel
theorem witness_PackAnswer : (List.replicate (Config.cfg.layout 0).length 0).length = (Config.cfg.layout 0).length ∧
    ∀ j x w : Nat, (List.replicate (Config.cfg.layout 0).length 0)[j]? = some x →
      ((Config.cfg.layout 0).map Prod.snd)[j]? = some w → x < 2 ^ w := by
  refine ⟨by simp, fun j x w hx _ => ?_⟩
  obtain ⟨h, rfl⟩ := List.getElem?_eq_some_iff.mp hx
  simp
theorem witness_PackAnswer_count : (List.replicate ((Config.cfg.layout 0).length + 1) 0).length ≠ (Config.cfg.layout 0).length := by
  simp
theorem witness_PackAnswer_oversize : ∃ w : Nat, ((Config.cfg.layout 0).map Prod.snd)[0]? = some w ∧ 2 ^ w ≤ 2 ^ 32 := by
  have hf := Config.cfg_wf.layouts 0
  have hn := congrArg List.length (Config.cfg_wf.channel 0 (by decide +kernel)).1
  cases hl : Config.cfg.layout 0 with
  | nil => rw [hl] at hn; simp [channelFieldNames] at hn
  | cons e l =>
    refine ⟨e.2, by simp, Nat.pow_le_pow_right (by decide +kernel) ?_⟩
    have : _ ≤ 32 := hf.2
    rw [hl] at this
    simp at this
    omega
theorem witness_UnpackAnswer : Layout.fits [("p", 2), ("q", 3)] ∧ pack 0 [("p", 2), ("q", 3)] [3, 5] = some 0x17#32 :=
  ⟨⟨by decide +kernel, by decide⟩, by decide⟩
theorem witness_UnknownRegisterRaised : (ready 0 .free).mapOK = true ∧ (ready 0 .free).spiOK = true ∧
    ((28 : Int) < 0 ∨ (27 : Int) < 28) ∧ ([0#8, 0#8, 0#8, 0#8] : List Byte).length = 4 := by decide +kernel
theorem witness_WindowAccesses : onZero.wf ∧ (ready 0 .free).env.ioFailure = none := ⟨onZero_wf, rfl⟩
theorem witness_WindowAccesses_small : small.wf ∧ (ready 0 .free).env.ioFailure = none ∧ small.hasWord .sw0 = true ∧
    small.hasWord .sw1 = false := ⟨small_wf, rfl, rfl, rfl⟩
theorem witness_WindowAccesses_apart : ¬ (Config.cfg.cwOffset = Config.cfg.sw0Offset) := by
  have h := Config.cfg_wf.cwApart .sw0 rfl
  simp only [Cfg.swOffset, cwBytes_cfg, swBytes_cfg] at h
  omega
theorem witness_CwReadAnswer : Ready (ready 0x7350 .free) := ⟨rfl, rfl, rfl⟩
theorem witness_CwAssignWrites : Ready (ready 0x0350 .free) ∧ (0 : Int) ≤ 15 ∧ ((16 : Int) < 0 ∨ (15 : Int) < 16) :=
  ⟨⟨rfl, rfl, rfl⟩, by decide +kernel, by decide⟩
theorem witness_CwSetClearWrites : Ready (ready 0x0050 .free) := ⟨rfl, rfl, rfl⟩
theorem witness_FieldNamesRefused : (ready 0 .free).mapOK = true ∧ (ready 0 .free).spiOK = true := by decide +kernel
theorem witness_OtherChipsKept : (next? (exec (.cwSet (.cw .reset) (.chip .B)) (ready 0x0050 .free))).isSome = true ∧
    (next? (exec (.cwClear (.cw .reset) (.chip .B)) (ready 0x0070 .free))).isSome = true ∧
    (next? (exec (.reset (.chip .B) (.micros 0)) (ready 0x0050 .free))).isSome = true := by decide +kernel
theorem witness_OutputsFollowCw : onZero.wf ∧ Ready (ready 0xFFFF .free) := ⟨onZero_wf, rfl, rfl, rfl⟩
theorem witness_SetClkWrites : Ready (ready 0x3A5C .free) ∧ ((-1 : Int) < 0 ∨ (15 : Int) < -1) := ⟨⟨rfl, rfl, rfl⟩, by decide +kernel⟩
theorem witness_StatusReads : Ready readings ∧ readings.env.status = .fixed 0x0ABC1235#64 0x00456789#64 :=
  ⟨readings_ready, rfl⟩
theorem witness_TemperaturesRead : Ready readings ∧ readings.env.status = .fixed 0x0ABC1235#64 0x00456789#64 :=
  ⟨readings_ready, rfl⟩
theorem witness_StatusReads_small : small.wf ∧ Ready (readySmall 0x00010000 .ideal) ∧ small.swCount = 1 := ⟨small_wf, small_ready, rfl⟩
theorem witness_TransferCompletes : Ready (ready 0x0F00 .ideal) ∧ CanTransfer Config.cfg [] (ready 0x0F00 .ideal) ∧
    ([0x27#8] : List Byte) ≠ [] :=
  ⟨all_selected_ready, fun p h => can_transfer p (h.elim (by simp) .inr), by decide +kernel⟩
/-- A refused operand is refused before any access: a selected chip is held, and the first access would fail (R308). -/
def hopeless : State := { ready 0x0110 .free with env := { Env.initial with ioFailure := some ⟨0, true⟩ } }
theorem test_refused_before_access : declined? (exec (.spiXfer []) hopeless) = some .emptyTransfer ∧
    declined? (exec (.setClk 16) hopeless) = some .valueOutOfRange ∧
    declined? (exec (.cwAssign (.cw .cs) (-1)) hopeless) = some .valueOutOfRange := by decide +kernel
theorem witness_TransferCompletes_empty : hopeless.mapOK = true ∧ hopeless.spiOK = true := by decide +kernel
theorem witness_NoListener : Ready (ready 0 .free) ∧ NoneSelected Config.cfg (ready 0 .free) ∧ ([0#8] : List Byte) ≠ [] :=
  ⟨⟨rfl, rfl, rfl⟩, none_selected .free, by decide +kernel⟩
theorem witness_WriteFrameLatches : Ready (ready 0x0F00 .ideal) ∧ CanTransfer Config.cfg [] (ready 0x0F00 .ideal) ∧
    (27#7).toNat ≤ 27 ∧ IdealLink Config.cfg (ready 0x0F00 .ideal).env.link ∧ PhysChip.C ∈ selected Config.cfg 0x0F00#32 :=
  ⟨all_selected_ready, fun p h => can_transfer p (h.elim (by simp) .inr), by decide +kernel, ideal_link, by decide⟩
theorem witness_WriteFrameLatches_echo : Ready (ready 0x0F00 .echo) ∧ CanTransfer Config.cfg [] (ready 0x0F00 .echo) ∧
    (ready 0x0F00 .echo).env.link = .echo := by
  refine ⟨⟨rfl, rfl, rfl⟩, fun p _ => ?_, rfl⟩
  show resetBit Config.cfg 0x0F00#32 p = false
  cases p <;> decide +kernel
/-- Chip A of `small` is selected, and 0xFFFF is the last value of 16 bits. -/
theorem witness_WriteFrameLatches_small : small.wf ∧ Ready (readySmall 0x00010000 .ideal) ∧
    CanTransfer small [] (readySmall 0x00010000 .ideal) ∧ (27#7).toNat < small.nreg ∧ (0xFFFF#32).toNat < 2 ^ small.valueBits ∧
    selected small (readySmall 0x00010000 .ideal).cw = [.A] :=
  ⟨small_wf, small_ready, small_can_transfer, by decide, by decide, by decide +kernel⟩
/-- A controller with chip A selected and its register 19 known. -/
def known19 : State := { ready 0x0100 .ideal with regs := ⟨[(19, 0x2A#32)], [], [], []⟩ }
theorem witness_ReadFrameReturns : Ready known19 ∧ CanTransfer Config.cfg [] known19 ∧ (19#7).toNat ≤ 27 ∧
    selected Config.cfg known19.cw = [.A] ∧ IdealLink Config.cfg known19.env.link ∧ known19.reg .A 19 = .known 0x2A#32 ∧
    0x2A#32 &&& sigMask Config.cfg 19 = 0x2A#32 := by
  refine ⟨⟨rfl, rfl, rfl⟩, fun p _ => ?_, by decide +kernel, by decide, ideal_link, rfl, by decide⟩
  show resetBit Config.cfg 0x0100#32 p = false
  cases p <;> decide +kernel
/-- Four listeners, and none. -/
theorem witness_ReadFrameReturns_listeners : Ready (ready 0x0F00 .ideal) ∧ CanTransfer Config.cfg [] (ready 0x0F00 .ideal) ∧
    (∀ p, selected Config.cfg (ready 0x0F00 .ideal).cw ≠ [p]) ∧ ∀ p, selected Config.cfg (ready 0 .ideal).cw ≠ [p] :=
  ⟨all_selected_ready, fun p h => can_transfer p (h.elim (by simp) .inr),
    fun p => by show selected Config.cfg 0x0F00#32 ≠ [p]; cases p <;> decide +kernel,
    fun p => by show selected Config.cfg 0#32 ≠ [p]; cases p <;> decide +kernel⟩
theorem witness_IllFormedForgets : Ready (ready 0x0F00 .ideal) ∧ CanTransfer Config.cfg [] (ready 0x0F00 .ideal) ∧
    ([0x27#8, 0#8, 0#8] : List Byte).length ≠ 5 ∧ 27 < frameAddr (([0x39#8, 0#8, 0#8, 0#8, 0#8] : List Byte).headD 0#8) ∧
    27 < (28#7).toNat ∧ isSelected Config.cfg 0x0F00#32 .D = true :=
  ⟨all_selected_ready, fun p h => can_transfer p (h.elim (by simp) .inr), by decide +kernel, by decide, by decide, by decide⟩
theorem witness_TransferInResetFaults : Ready (ready 0x0110 .free) ∧ isSelected Config.cfg 0x0110#32 .A = true ∧
    ¬ Released Config.cfg .A (ready 0x0110 .free) := by
  refine ⟨⟨rfl, rfl, rfl⟩, by decide +kernel, ?_⟩
  show ¬ resetBit Config.cfg 0x0110#32 .A = false
  decide +kernel
theorem witness_ChipSelect : onZero.wf ∧ Ready (ready 0x0F00 .free) := ⟨onZero_wf, rfl, rfl, rfl⟩
theorem witness_ChipSelect_small : small.wf ∧ Ready (readySmall 0x00010000 .ideal) ∧ chipIdx .C < small.nchip ∧
    ¬ chipIdx .D < small.nchip := ⟨small_wf, small_ready, by decide, by decide⟩
/-- The states after an assert of chip B, and then after a transfer and a SETCLK. -/
theorem witness_SingleListener : Ready (ready 0 .free) ∧ NoneSelected Config.cfg (ready 0 .free) ∧
    (∃ t u, exec (.csAssert (.chip .B)) (ready 0 .free) = .next t ∧ Reaches [.spiXfer [0#8], .setClk 3] t u) ∧
    ∀ i ∈ [Instr.spiXfer [0#8], .setClk 3], ¬ WritesCs i := by
  refine ⟨⟨rfl, rfl, rfl⟩, none_selected .free, ⟨_, _, rfl, _, rfl, _, rfl, rfl⟩, ?_⟩
  simp [WritesCs]
theorem witness_MaskedCompare : (ready 0 .free).mapOK = true ∧ (ready 0 .free).spiOK = true ∧
    (List.replicate 16 26 ++ [14, 24, 23, 6, 8, 18, 6, 19, 15, 6, 2, 2])[19]? = some 6 ∧ 27 ≤ 27 := by decide +kernel
theorem witness_WrvUnderSimulatedLinks : Ready (ready 0 .echo) ∧ NoneSelected Config.cfg (ready 0 .echo) ∧
    Released Config.cfg .A (ready 0 .echo) ∧ 27 ≤ 27 ∧ ([0#8, 0#8, 0#8, 0x2A#8] : List Byte).length = 4 :=
  ⟨echo_ready, none_selected .echo, all_released .echo .A, by decide +kernel, by decide⟩
theorem witness_WrvUnderSimulatedLinks_high : Ready (ready 0 (.flip 6)) ∧ sigLen Config.cfg 19 ≤ 6 ∧ 6 ≤ 31 :=
  ⟨⟨rfl, rfl, rfl⟩, by decide +kernel, by decide⟩
theorem witness_WrvUnderSimulatedLinks_low : Ready (ready 0 (.flip 5)) ∧ 5 < sigLen Config.cfg 19 :=
  ⟨⟨rfl, rfl, rfl⟩, by decide +kernel⟩
theorem witness_WrvUnderSimulatedLinks_ideal : Ready (ready 0 .ideal) ∧ NoneSelected Config.cfg (ready 0 .ideal) ∧
    Released Config.cfg .D (ready 0 .ideal) ∧ IdealLink Config.cfg (ready 0 .ideal).env.link :=
  ⟨ideal_ready, none_selected .ideal, all_released .ideal .D, ideal_link⟩
/-- A controller whose access after `n` more fails. -/
def failing (n : Nat) (took : Bool) : State := { ready 0 .free with env := { Env.initial with ioFailure := some ⟨n, took⟩ } }
theorem failing_can_transfer (n : Nat) (took : Bool) (ps : List PhysChip) : CanTransfer Config.cfg ps (failing n took) := by
  intro p _
  show resetBit Config.cfg 0#32 p = false
  cases p <;> decide +kernel
/-- A chip that has been configured by a PROG All that a failing link ends at chip B's first pair keeps that lifecycle (R290). -/
theorem test_prog_lifecycles : (match exec (.prog (.chip .All) (.bytes [1#8, 2#8, 3#8, 4#8]))
      { ready 0 .echo with env := { Env.initial with link := .echo, ioFailure := some ⟨13, false⟩ } } with
    | .fault (.ioFault u) => u.life.get .A == .configured && u.life.get .B == .unknown && u.hist.length == 13
    | _ => false) = true := by decide +kernel
/-- A verified write stopped in its second attempt, and a PROG stopped at its second pair. -/
theorem witness_FaultsInsideComposites :
    (match verifiedWrite Config.cfg .A 19 [0#8, 0#8, 0#8, 0x2A#8]
        { ready 0 (.flip 0) with env := { Env.initial with link := .flip 0, ioFailure := some ⟨15, false⟩ } } with
      | .stop (.fault .ioFault) u => u.attempt == some 2 && u.hist.length == 15
      | _ => false) = true ∧
    (match programChips Config.cfg (chunks Config.cfg (List.replicate 8 1#8)) (members Config.cfg .A)
        { ready 0 .echo with env := { Env.initial with link := .echo, ioFailure := some ⟨13, false⟩ } } with
      | .stop (.fault .ioFault) u => u.cursor == some (.A, 1) && u.attempt == some 1
      | _ => false) = true := by decide +kernel
theorem witness_FaultsInsideComposites_draws : FailsAfter 7 true (failing 7 true) ∧
    CanTransfer Config.cfg (members Config.cfg .All) (failing 7 true) ∧ 27 ≤ 27 ∧ ([0#8, 0#8, 0#8, 0x2A#8] : List Byte).length = 4 :=
  ⟨⟨rfl, rfl, rfl⟩, failing_can_transfer 7 true _, by decide, by decide⟩
theorem witness_WrvUnderAnyLink : Ready (ready 0x0F00 .ideal) ∧ CanTransfer Config.cfg (members Config.cfg .All) (ready 0x0F00 .ideal) :=
  ⟨all_selected_ready, can_transfer⟩
theorem witness_WrvUnderAnyLink_ideal : Ready (ready 0 .ideal) ∧ IdealLink Config.cfg (ready 0 .ideal).env.link ∧
    PhysChip.D ∈ members Config.cfg .All ++ selected Config.cfg (ready 0 .ideal).cw ∧ 27 ≤ 27 ∧ ([0#8, 0#8, 0#8, 0x2A#8] : List Byte).length = 4 :=
  ⟨ideal_ready, ideal_link, List.mem_append_left _ (by decide), by decide, by decide⟩
theorem witness_RetryBound : holds (exec (.wrv (.chip .A) 19 [0#8, 0#8, 0#8, 0x2A#8]) (ready 0 (.flip 0)))
    (fun t => t.hist.countP isXfer == 6 && t.hist.countP isWindow == 24) = true := by decide +kernel
theorem held_not_released {cw : CwWord} {k : Link} {p : PhysChip} (h : resetBit Config.cfg (ready cw k).cw p = true) :
    ¬ Released Config.cfg p (ready cw k) := by
  show ¬ resetBit Config.cfg (ready cw k).cw p = false
  simp [h]
/-- Chip B held: under the operand All, and as another selected chip. -/
theorem witness_WrvInResetFaults : Ready (ready 0x0220 .free) ∧ PhysChip.B ∈ members Config.cfg .All ∧
    isSelected Config.cfg (ready 0x0220 .free).cw .B = true ∧ ¬ Released Config.cfg .B (ready 0x0220 .free) ∧
    ([1#8, 2#8, 3#8, 4#8] : List Byte).length = 4 :=
  ⟨⟨rfl, rfl, rfl⟩, by decide, by decide +kernel, held_not_released (by decide +kernel), by decide⟩
theorem witness_ResetPulse : Ready (ready 0x0A55 .free) ∧ PhysChip.A ∈ members Config.cfg .All ∧ PhysChip.A ∉ members Config.cfg .B :=
  ⟨⟨rfl, rfl, rfl⟩, by decide +kernel, by decide⟩
theorem witness_TriggerMode : Ready { ready 0 .free with life := ⟨.configured, .released, .triggering .hz1, .unknown⟩ } ∧
    TrigMode.off ≠ TrigMode.hz1 := ⟨⟨rfl, rfl, rfl⟩, by decide +kernel⟩
theorem witness_RunInv (k : Link) : RunInv (ready 0 k) where
  regs p := by
    rw [power_on_inv_regs]
    exact ⟨List.Pairwise.nil, by simp⟩
  word := rfl
  held p := by
    show (ready 0 k).life.get p = .heldInReset ↔ resetBit Config.cfg 0#32 p = true
    cases p <;> exact ⟨fun h => (by cases h), fun h => absurd h (by decide +kernel)⟩
  forgotten p _ := power_on_inv_regs 0 k p
  oneMode p q m m' h _ := by cases p <;> cases h
  between := ⟨rfl, rfl⟩
  handles := rfl
  unopened h := by cases h
  inProgram := Nat.le_refl 0
theorem witness_ProgramUnderIdealLink : Ready (ready 0 .ideal) ∧ RunInv (ready 0 .ideal) ∧
    NoneSelected Config.cfg (ready 0 .ideal) ∧ (∀ p ∈ members Config.cfg .All, Released Config.cfg p (ready 0 .ideal)) ∧
    IdealLink Config.cfg (ready 0 .ideal).env.link ∧ (List.replicate 115 0x7F#8).length / 4 ≤ 28 :=
  ⟨ideal_ready, witness_RunInv .ideal, none_selected .ideal, fun p _ => all_released .ideal p, ideal_link, by decide +kernel⟩
theorem witness_ProgramOrder : Ready (ready 0x0F00 .ideal) ∧ CanTransfer Config.cfg (members Config.cfg .All) (ready 0x0F00 .ideal) ∧
    progListeners Config.cfg (ready 0x0F00 .ideal) .All .C = [.C, .D] :=
  ⟨all_selected_ready, can_transfer, by decide +kernel⟩
/-- Chip C is held, and A and B before it are released. -/
theorem witness_WrvInResetFaults_all : Ready (ready 0x0040 .ideal) ∧ RunInv (ready 0x0040 .ideal) ∧
    NoneSelected Config.cfg (ready 0x0040 .ideal) ∧ IdealLink Config.cfg (ready 0x0040 .ideal).env.link ∧
    ¬ Released Config.cfg .C (ready 0x0040 .ideal) ∧
    (∀ q, chipIdx q < chipIdx .C → Released Config.cfg q (ready 0x0040 .ideal)) ∧ 4 ≤ 112 ∧ 112 / 4 ≤ 28 := by
  refine ⟨⟨rfl, rfl, rfl⟩, ⟨fun p => ?_, rfl, fun p => ?_, fun p _ => power_on_inv_regs _ _ p, fun p q m m' h _ => ?_, ⟨rfl, rfl⟩, rfl,
    (fun h => by cases h), Nat.le_refl 0⟩, ?_, ideal_link, held_not_released (by decide +kernel), fun q _ => ?_, by decide, by decide⟩
  · rw [power_on_inv_regs]
    exact ⟨List.Pairwise.nil, by simp⟩
  · show (ready 0x0040 .ideal).life.get p = .heldInReset ↔ resetBit Config.cfg 0x0040#32 p = true
    cases p <;> decide +kernel
  · cases p <;> cases h
  · show selected Config.cfg 0x0040#32 = []
    decide +kernel
  · show resetBit Config.cfg 0x0040#32 q = false
    cases q
    case C => rename_i h; exact absurd h (by decide)
    case D => rename_i h; exact absurd h (by decide)
    all_goals decide +kernel
theorem witness_ProgramOversize : Ready (ready 0 .ideal) ∧ NoneSelected Config.cfg (ready 0 .ideal) ∧
    (∀ p ∈ members Config.cfg .All, Released Config.cfg p (ready 0 .ideal)) ∧ IdealLink Config.cfg (ready 0 .ideal).env.link ∧
    28 < (List.replicate 116 0x7F#8).length / 4 :=
  ⟨ideal_ready, none_selected .ideal, fun p _ => all_released .ideal p, ideal_link, by decide +kernel⟩
theorem witness_BlobHandling : (ready 0 .free).mapOK = true ∧ (ready 0 .free).spiOK = true ∧
    ([1#8, 2#8, 3#8, 4#8] : List Byte).length % 4 = 0 ∧ ([5#8, 6#8, 7#8] : List Byte).length < 4 ∧
    (ready 0x0010 .free).life.get .A = .heldInReset ∧ (ready 0x0010 .free).mapOK = true ∧ (ready 0x0010 .free).spiOK = true := by
  decide +kernel
theorem witness_OpenConstructs : State.reset.mapOK = false ∧ State.reset.spiOK = false ∧ State.reset.pc = 0 ∧
    State.reset.outcome = .running ∧ State.reset.env.canMap = true ∧ State.reset.env.canOpenSpi = true := by decide +kernel
/-- A power-on state in which one of the two handles cannot be acquired. -/
def closed (canMap canOpenSpi : Bool) : State :=
  { State.reset with env := { Env.initial with canMap := canMap, canOpenSpi := canOpenSpi } }
theorem witness_OpenConstructs_fails : (closed false true).mapOK = false ∧ (closed false true).env.canMap = false ∧
    (closed true false).env.canMap = true ∧ (closed true false).env.canOpenSpi = false ∧ (ready 0 .free).mapOK = true := by decide +kernel
theorem witness_SleepRecorded : (ready 0 .free).mapOK = true ∧ (ready 0 .free).spiOK = true := by decide +kernel
theorem witness_InvalidChipRaised : (ready 0 .free).mapOK = true ∧ (ready 0 .free).spiOK = true := by decide +kernel
theorem witness_OperandsRefused : (ready 0 .free).mapOK = true ∧ (ready 0 .free).spiOK = true ∧
    ([1#8, 2#8, 3#8] : List Byte).length ≠ 4 ∧ 27 < 28 := by decide +kernel
theorem witness_NotAdmitted : Instr.rdErr ≠ .openDev ∧ (State.reset.mapOK = false ∨ State.reset.spiOK = false) := by decide +kernel
theorem witness_IoFaultEnds : FailsAfter 0 true (failing 0 true) ∧ FailsAfter 1 false (failing 1 false) ∧
    FailsAfter 2 true (failing 2 true) ∧ FailsAfter 3 true (failing 3 true) :=
  ⟨⟨rfl, rfl, rfl⟩, ⟨rfl, rfl, rfl⟩, ⟨rfl, rfl, rfl⟩, ⟨rfl, rfl, rfl⟩⟩
theorem witness_ErrorEntry : holds (exec (.catMask 28) (ready 0 .free))
    (fun t => t.outcome == .error (.unknownRegister 28)) = true := by decide +kernel
theorem witness_ErrorsHaveRaisers : holds (exec (.prog (.chip .A) .unreadable) (ready 0 .free))
    (fun t => t.outcome == .error .configBlob) = true := by decide +kernel
/-- A controller with a program of one line. -/
def loaded (l : String) : State := (ready 0 .free).load [ascii l.toList]
theorem witness_StepRunsDecoded : (loaded "n <- CAT.SIGLEN 17").env.secondCaller = false ∧
    (loaded "n <- CAT.SIGLEN 17").outcome = .running ∧
    (loaded "n <- CAT.SIGLEN 17").program[0]? = some (ascii "n <- CAT.SIGLEN 17".toList) ∧
    decode (ascii "n <- CAT.SIGLEN 17".toList) = .ok ⟨some (ascii ['n']), .catSiglen 17⟩ ∧
    holds (exec (.catSiglen 17) (loaded "n <- CAT.SIGLEN 17")) (·.outcome == .done) = true := by decide +kernel
/-- A controller after an error, with a program to run next. -/
def erred (e : ArchError) : State := { ready 0 .free with outcome := .error e, pending := [[ascii "RDERR".toList]] }
theorem witness_NewProgramStarts : (erred .configBlob).env.secondCaller = false ∧
    (erred .configBlob).outcome = .error .configBlob ∧ (erred .configBlob).pending = [[ascii "RDERR".toList]] ∧
    (erred (.deviceOpen .spi)).outcome = .error (.deviceOpen .spi) := by decide +kernel
theorem witness_RunEndsAreFinal : (loaded "JUMP A").env.secondCaller = false ∧ (loaded "JUMP A").outcome = .running ∧
    (loaded "JUMP A").program[0]? = some (ascii "JUMP A".toList) ∧
    decode (ascii "JUMP A".toList) = .error (.unknownMnemonic (ascii "JUMP".toList)) := by decide +kernel
/-- A program of one line, run under another configuration with the program as a parameter. -/
theorem witness_StepRunsDecoded_stepOf : (ready 0 .free).env.secondCaller = false ∧ (ready 0 .free).outcome = .running ∧
    ([ascii "SLEEP 2".toList] : Program)[0]? = some (ascii "SLEEP 2".toList) ∧
    decode (ascii "SLEEP 2".toList) millis = .ok ⟨none, .sleep (.micros 2000)⟩ ∧
    (match execBlock millis (.sleep (.micros 2000)) (ready 0 .free).toBlock with
      | .next t => t.outcome == .done
      | _ => false) = true := by decide +kernel
theorem witness_RunEndsAreFinal_caller : { ready 0 .free with env := { Env.initial with secondCaller := true } }.outcome = .running ∧
    { ready 0 .free with env := { Env.initial with secondCaller := true } }.env.secondCaller = true := by decide +kernel
theorem witness_SequencerMoves : (next? (step (loaded "OPEN"))).isSome = false ∧
    (next? (step (loaded "RDERR"))).isSome = true := by decide +kernel
theorem witness_HistoryOnlyGrows : holds (step (loaded "SLEEP 5")) (fun t => t.hist == [.sleep 5]) = true := by decide +kernel
theorem witness_CwFieldWriters : holds (exec (.setClk 3) (ready 0 .free))
    (fun t => getField Config.cfg t.cw .sysclk != getField Config.cfg 0#32 .sysclk) = true := by decide +kernel
theorem witness_RegisterWriters : holds (exec (.frameW 19#7 1#32) (ready 0x0100 .ideal))
    (fun t => t.regs.get .A != []) = true := by decide +kernel
theorem witness_StepKeepsInv : RunInv (loaded "RDERR") ∧ (next? (step (loaded "RDERR"))).isSome = true := by
  have h := witness_RunInv .free
  exact ⟨⟨h.regs, h.word, h.held, h.forgotten, h.oneMode, h.between, h.handles, h.unopened, Nat.zero_le _⟩, by decide +kernel⟩

end Sys2Proof.Tests
end

section
/-! Proofs about the state (10_state.md): the history and the handles, the writers of the control word, and the masks of the catalog. -/

namespace Sys2Proof.Machine

/-! ## The states that an outcome leaves

A step and an operation answer a next state, or a fault or a refusal with the final state of the run (R15). The lemmas here carry a
property of a state from the steps inside an operation to whatever state the operation or the step leaves. -/

/-- The state that an outcome leaves, be it a next state or the final state of a fault or a refusal, has the property `P`. -/
def Leaves (P : State → Prop) : Host.Outcome State Fault Refusal → Prop
  | .next t => P t
  | .fault (.ioFault t) => P t
  | .fault (.spiWhileInReset t) => P t
  | .refused (.declined _ t) => P t
  | .refused (.notModelled _) => True

/-- `P` does not speak of what the end of an operation records (R14, R40): its completion and its halt keep it. -/
structure KeptAtEnd (P : State → Prop) : Prop where
  complete : ∀ u r, P u → P (u.complete r)
  halt     : ∀ u o, P u → P (u.halt o)

section

variable {P : State → Prop}

theorem Leaves.elim {o : Host.Outcome State Fault Refusal} {t : State} (h : Leaves P o)
    (ht : o = .next t ∨ o = .fault (.ioFault t) ∨ o = .fault (.spiWhileInReset t) ∨ ∃ r, o = .refused (.declined r t)) :
    P t := by
  rcases ht with rfl | rfl | rfl | ⟨r, rfl⟩ <;> exact h

theorem Leaves.finish (hP : KeptAtEnd P) {m : Res Result} (hm : m.post P) : Leaves P (finish m) := by
  cases m with
  | ok r u => exact hP.complete u r hm
  | stop w u =>
    cases w with
    | error e => exact hP.halt u _ hm
    | fault f => cases f <;> exact hP.halt u _ hm
    | refuse r => exact hP.halt u _ hm

theorem Leaves.admitted (hP : KeptAtEnd P) {s : State} {body : State → Res Result} (hs : P s) (hb : (body s).post P) :
    Leaves P (admitted s body) := by
  unfold Machine.admitted
  split
  · exact Leaves.finish hP hb
  · exact Leaves.finish hP hs

theorem Leaves.afterLine {dest : Option Text} {p : Program} {o : Host.Outcome State Fault Refusal}
    (hP : ∀ u, P u → P ((u.nameResult dest).proceed p)) (ho : Leaves P o) : Leaves P (afterLine dest p o) := by
  cases o with
  | next u => exact hP u ho
  | fault f => exact ho
  | refused r => exact ho

theorem withChip_post {c : ChipArg} {s : State} {k : Chip → Res Result} (hs : P s) (hk : ∀ c, (k c).post P) :
    (withChip c s k).post P := by
  cases c with
  | chip c => exact hk c
  | bad id => exact hs

theorem withAddr_post {α : Type} {g : Cfg} {a : Int} {s : State} {k : Nat → Res α} (hs : P s) (hk : ∀ n, (k n).post P) :
    (withAddr g a s k).post P := by
  unfold withAddr
  split
  · exact hk _
  · exact hs

theorem withCwField_post {f : FieldArg} {s : State} {k : CwField → Res Result} (hs : P s)
    (hk : ∀ f', f = .cw f' → (k f').post P) : (withCwField f s k).post P := by
  cases f with
  | cw f => exact hk f rfl
  | sw f => exact hs
  | bad id => exact hs

theorem withNibble_post {v : Int} {s : State} {k : BitVec 4 → Res Result} (hs : P s) (hk : ∀ v, (k v).post P) :
    (withNibble v s k).post P := by
  unfold withNibble
  split
  · exact hk _
  · exact hs

theorem withDuration_post {d : Duration} {s : State} {k : Nat → Res Result} (hs : P s) (hk : ∀ n, (k n).post P) :
    (withDuration d s k).post P := by
  cases d with
  | micros n => exact hk n
  | bad id => exact hs

end

/-! ## The history and the handles -/

/-- The history of `t` begins with that of `s` (R44), and a handle held in `s` is held in `t` (R35). -/
structure Grows (s t : State) : Prop where
  hist  : s.hist <+: t.hist
  mapOK : s.mapOK = true → t.mapOK = true
  spiOK : s.spiOK = true → t.spiOK = true

theorem Grows.refl (s : State) : Grows s s := ⟨List.prefix_rfl, id, id⟩

/-- Only the history and the handles count. -/
theorem Grows.congr {s t u : State} (h : Grows s t) (hh : u.hist = t.hist) (hm : u.mapOK = t.mapOK) (hs : u.spiOK = t.spiOK) :
    Grows s u := ⟨hh ▸ h.hist, hm ▸ h.mapOK, hs ▸ h.spiOK⟩

theorem Grows.keptAtEnd (s : State) : KeptAtEnd (Grows s) := ⟨fun _ _ h => h.congr rfl rfl rfl, fun _ _ h => h.congr rfl rfl rfl⟩

theorem Good.grows {g : Cfg} {s t : State} (h : Good g s t) : Grows s t :=
  ⟨h.1.hist, fun hm => h.1.handles.1.trans hm, fun hs => h.1.handles.2.trans hs⟩

theorem execOpen_grows (g : Cfg) (s : State) : Leaves (Grows s) (execOpen s g) := by
  refine Leaves.finish (Grows.keptAtEnd s) ?_
  split_ifs
  · exact Grows.refl s
  · exact Grows.refl s
  · exact Grows.refl s
  · exact ⟨List.prefix_rfl, fun _ => rfl, fun _ => rfl⟩

theorem execOf_grows {g : Cfg} (hg : g.wf) (i : Instr) (s : State) : Leaves (Grows s) (execOf g i s) := by
  by_cases hi : i = .openDev
  · subst hi
    exact execOpen_grows g s
  · obtain ⟨body, he, hb⟩ := execOf_body hg s hi
    rw [he]
    exact Leaves.admitted (Grows.keptAtEnd s) (Grows.refl s) (Res.post_mono hb fun _ => Good.grows)

theorem awaitCaller_grows (later : List Program) (s : State) : Leaves (Grows s) (awaitCaller later s) := by
  unfold awaitCaller
  split
  · exact Grows.refl s
  · split
    · exact (Grows.refl s).congr rfl rfl rfl
    · exact (Grows.refl s).congr rfl rfl rfl

/-- The sequencer adds nothing that forgets an event or a handle to what its operations do (R40, R310). -/
theorem runStep_grows {g : Cfg} {run : Instr → State → Host.Outcome State Fault Refusal} {s : State}
    (hrun : ∀ i, Leaves (Grows s) (run i s)) (p : Program) (later : List Program) :
    Leaves (Grows s) (runStep g run p later s) := by
  have hdecline : ∀ r, Leaves (Grows s) (.refused (s.decline r)) := fun _ => (Grows.refl s).congr rfl rfl rfl
  have hended : Leaves (Grows s) (if s.env.secondCaller then .refused (s.decline .secondCaller) else awaitCaller later s) := by
    split
    · exact hdecline _
    · exact awaitCaller_grows later s
  unfold runStep
  split
  next f _ => cases f <;> exact Grows.refl s
  next => exact Grows.refl s
  next => exact hended
  next => exact hended
  next =>
    split
    · exact hdecline _
    · split
      · exact awaitCaller_grows later s
      · split
        · exact Leaves.afterLine (fun u h => h.congr (by simp) (by simp) (by simp)) (hrun _)
        · exact hdecline _

theorem step_grows (s : State) : Leaves (Grows s) (step s) :=
  runStep_grows (fun i => execOf_cfg ▸ execOf_grows Config.cfg_wf i s) s.program s.pending

/-- Settles O55: every step leaves a state whose history and handles have grown from the state before. -/
theorem historyOnlyGrows : Obligations.HistoryOnlyGrows := by
  intro s t h
  obtain ⟨hhist, hmap, hspi⟩ := (step_grows s).elim h
  exact ⟨hhist, hmap, hspi⟩

/-! ## What becomes of the control word -/

theorem readReg_cw (g : Cfg) (r : WinReg) (s : State) : (readReg g r s).post fun t => t.cw = s.cw := by
  have hd := drawIo_cw g s
  unfold readReg
  split <;> (rename_i heq; rw [heq] at hd; exact hd)

theorem readSecond_cw (g : Cfg) (s : State) : (readSecond g s).post fun t => t.cw = s.cw := by
  unfold readSecond
  split
  · exact readReg_cw g _ s
  · rfl

/-- A read of CW gives the word that is there. -/
theorem readReg_cw_ok {g : Cfg} {s t : State} {v : WinVal} (h : readReg g .cw s = .ok v t) : v.setWidth 32 = t.cw := by
  unfold readReg at h
  split at h
  · cases h
  · cases h
    exact setWidth_32_64_32 _

/-- A write of CW, failed or not, leaves the old word or the new one (U29). -/
theorem writeCwReg_cw (g : Cfg) (v : CwWord) (s : State) : (writeCwReg g v s).post fun t => t.cw = s.cw ∨ t.cw = v := by
  have hd := drawIo_cw g s
  unfold writeCwReg
  split
  · rename_i took u heq
    rw [heq] at hd
    cases took with
    | true => exact .inr rfl
    | false => exact .inl hd
  · exact .inr rfl

/-- A field write, failed or not, leaves the old word or the old word with the field's new value (R151, U29). -/
theorem fieldWrite_cw (g : Cfg) (f : CwField) (h : BitVec 4 → BitVec 4) (s : State) :
    (fieldWrite g f h s).post fun t => t.cw = s.cw ∨ t.cw = putField g s.cw f (h (getField g s.cw f)) := by
  unfold fieldWrite
  have hr := readReg_cw g .cw s
  cases e : readReg g .cw s with
  | stop w t =>
    rw [e] at hr
    exact .inl hr
  | ok v t =>
    rw [e] at hr
    have ht : t.cw = s.cw := hr
    simp only [Res.ok_bind, readReg_cw_ok e, ← ht]
    exact writeCwReg_cw g _ t

theorem chipResponse_cw (g : Cfg) (sel : List PhysChip) (tx : List Byte) (s : State) : (chipResponse g sel tx s).2.cw = s.cw := by
  rcases chipResponse_state g sel tx s with e | e | ⟨a, v, -, e⟩ <;> rw [e]
  · rw [State.forget_cw]
  · rw [State.latch_cw]

theorem spiXfer_cw (g : Cfg) (tx : List Byte) (s : State) : (spiXfer g tx s).post fun t => t.cw = s.cw := by
  have hd := drawIo_cw g s
  unfold spiXfer
  split
  · rfl
  · dsimp only
    split
    · rename_i took u heq
      rw [heq] at hd
      cases took with
      | true => exact (chipResponse_cw g _ tx u).trans hd
      | false => exact hd
    · rename_i u heq
      rw [heq] at hd
      split
      · exact hd
      · exact (chipResponse_cw g _ tx u).trans hd

/-! ## Which field of the control word an operation may change -/

/-- No field of CW but `o` differs between `s` and `t`; with `none`, no field at all (R20). -/
def CwOnly (g : Cfg) (o : Option CwField) (s t : State) : Prop := ∀ f, o ≠ some f → getField g t.cw f = getField g s.cw f

theorem CwOnly.of_cw {g : Cfg} {o : Option CwField} {s t : State} (h : t.cw = s.cw) : CwOnly g o s t := fun f _ => by rw [h]

theorem CwOnly.refl (g : Cfg) (o : Option CwField) (s : State) : CwOnly g o s s := CwOnly.of_cw rfl

theorem CwOnly.trans {g : Cfg} {o : Option CwField} {s t u : State} (h : CwOnly g o s t) (k : CwOnly g o t u) : CwOnly g o s u :=
  fun f hf => (k f hf).trans (h f hf)

theorem CwOnly.keptAtEnd (g : Cfg) (o : Option CwField) (s : State) : KeptAtEnd (CwOnly g o s) := ⟨fun _ _ h => h, fun _ _ h => h⟩

theorem CwOnly.bind {α β : Type} {g : Cfg} {o : Option CwField} {s : State} {m : Res α} {k : α → State → Res β}
    (hm : m.post (CwOnly g o s)) (hk : ∀ v t, (k v t).post (CwOnly g o t)) : (m.bind k).post (CwOnly g o s) :=
  Res.post_bind hm fun v t ht => Res.post_mono (hk v t) fun _ hu => ht.trans hu

theorem readReg_cwOnly (g : Cfg) (o : Option CwField) (r : WinReg) (s : State) : (readReg g r s).post (CwOnly g o s) :=
  Res.post_mono (readReg_cw g r s) fun _ => CwOnly.of_cw

theorem readSecond_cwOnly (g : Cfg) (o : Option CwField) (s : State) : (readSecond g s).post (CwOnly g o s) :=
  Res.post_mono (readSecond_cw g s) fun _ => CwOnly.of_cw

theorem swRead_cwOnly (g : Cfg) (o : Option CwField) (f : SwField) (s : State) : (swRead g f s).post (CwOnly g o s) :=
  CwOnly.bind (readReg_cwOnly g o _ s) fun _ t => CwOnly.refl g o t

theorem spiXfer_cwOnly (g : Cfg) (o : Option CwField) (tx : List Byte) (s : State) : (spiXfer g tx s).post (CwOnly g o s) :=
  Res.post_mono (spiXfer_cw g tx s) fun _ => CwOnly.of_cw

section

variable {g : Cfg} (hg : g.wf)
include hg

theorem fieldWrite_cwOnly (f : CwField) (h : BitVec 4 → BitVec 4) (s : State) :
    (fieldWrite g f h s).post (CwOnly g (some f) s) := by
  refine Res.post_mono (fieldWrite_cw g f h s) fun t ht => ?_
  rcases ht with ht | ht
  · exact CwOnly.of_cw ht
  · intro f' hf
    rw [ht, getField_putField_ne hg s.cw _ fun e => hf (congrArg some e)]

theorem csAssert_cwOnly (c : Chip) (s : State) : (csAssert g c s).post (CwOnly g (some .cs) s) := by
  unfold csAssert
  split
  · exact fieldWrite_cwOnly hg .cs _ s
  · exact fieldWrite_cwOnly hg .cs _ s

theorem csDeassert_cwOnly (c : Chip) (s : State) : (csDeassert g c s).post (CwOnly g (some .cs) s) := by
  unfold csDeassert
  split
  · exact fieldWrite_cwOnly hg .cs _ s
  · exact fieldWrite_cwOnly hg .cs _ s

theorem framed_cwOnly (c : Chip) (tx : List Byte) (s : State) : (framed g c tx s).post (CwOnly g (some .cs) s) :=
  CwOnly.bind (csAssert_cwOnly hg c s) fun _ t => CwOnly.bind (spiXfer_cwOnly g _ tx t) fun _ u =>
    CwOnly.bind (csDeassert_cwOnly hg c u) fun _ v => CwOnly.refl g _ v

theorem attemptWrite_cwOnly (c : Chip) (a : Nat) (vb : List Byte) (s : State) :
    (attemptWrite g c a vb s).post (CwOnly g (some .cs) s) :=
  CwOnly.bind (framed_cwOnly hg c _ s) fun _ t => CwOnly.bind (framed_cwOnly hg c _ t) fun _ u => CwOnly.refl g _ u

theorem attempts_cwOnly (c : Chip) (a : Nat) (vb : List Byte) :
    ∀ (left k : Nat) (s : State), (attempts g c a vb k left s).post (CwOnly g (some .cs) s)
  | left, k, s => by
    unfold attempts
    refine CwOnly.bind (attemptWrite_cwOnly hg c a vb { s with attempt := some k }) fun ok t => ?_
    split
    · exact CwOnly.refl g _ t
    · match left with
      | 0 => exact CwOnly.refl g _ t
      | left + 1 => exact attempts_cwOnly c a vb left (k + 1) t

theorem verifiedWrite_cwOnly (c : Chip) (a : Int) (vb : List Byte) (s : State) :
    (verifiedWrite g c a vb s).post (CwOnly g (some .cs) s) :=
  withAddr_post (CwOnly.refl g _ s) fun n => attempts_cwOnly hg c n vb _ _ s

theorem programChunks_cwOnly (p : PhysChip) :
    ∀ (cs : List (List Byte)) (i : Nat) (s : State), (programChunks g p i cs s).post (CwOnly g (some .cs) s)
  | [], _, s => CwOnly.refl g _ s
  | vb :: rest, i, s =>
    CwOnly.bind (s := s) (verifiedWrite_cwOnly hg (asChip p) i vb { s with cursor := some (p, i) }) fun _ t =>
      programChunks_cwOnly p rest (i + 1) t

theorem programChips_cwOnly (cs : List (List Byte)) :
    ∀ (ps : List PhysChip) (s : State), (programChips g cs ps s).post (CwOnly g (some .cs) s)
  | [], s => CwOnly.refl g _ s
  | p :: ps, s => CwOnly.bind (programChunks_cwOnly hg p cs 0 s) fun _ t =>
      Res.post_mono (programChips_cwOnly cs ps (t.configured p)) fun _ hu => (CwOnly.of_cw (t.configured_cw p)).trans hu

theorem pulseReset_cwOnly (c : Chip) (d : Nat) (s : State) : (pulseReset g c d s).post (CwOnly g (some .reset) s) :=
  CwOnly.bind (fieldWrite_cwOnly hg .reset _ s) fun _ t =>
    CwOnly.bind (m := sleep d ((t.forget (members g c)).setLife (members g c) .heldInReset)) (CwOnly.of_cw rfl) fun _ u =>
      CwOnly.bind (fieldWrite_cwOnly hg .reset _ u) fun _ _ => CwOnly.of_cw rfl

end

/-- The field of CW that an instruction writes: that of an assign, a set or a clear (R151), and that of the composite operations
(R186, R187, R224, R250, R255, R260, R270). -/
def cwTarget : Instr → Option CwField
  | .cwAssign (.cw f) _ => some f
  | .cwSet (.cw f) _ => some f
  | .cwClear (.cw f) _ => some f
  | .csAssert _ => some .cs
  | .csDeassert _ => some .cs
  | .wrv _ _ _ => some .cs
  | .prog _ _ => some .cs
  | .setClk _ => some .sysclk
  | .reset _ _ => some .reset
  | .setTrig _ => some .hold
  | _ => none

/-- An operation, however it ends, changes no field of CW but its own. -/
theorem execOf_cwOnly {g : Cfg} (hg : g.wf) (i : Instr) (s : State) :
    Leaves (CwOnly g (cwTarget i) s) (execOf g i s) := by
  have hP := CwOnly.keptAtEnd g (cwTarget i) s
  have hs := CwOnly.refl g (cwTarget i) s
  have refl := CwOnly.refl g (cwTarget i)
  cases i <;> simp only [execOf]
  case frameW a v => exact Leaves.admitted hP hs (CwOnly.bind (spiXfer_cwOnly g _ _ s) fun _ => refl)
  case frameR a d => exact Leaves.admitted hP hs (CwOnly.bind (spiXfer_cwOnly g _ _ s) fun _ => refl)
  case openDev =>
    refine Leaves.finish hP ?_
    split_ifs
    · exact hs
    · exact hs
    · exact hs
    · exact CwOnly.of_cw rfl
  case catSiglen a => exact Leaves.admitted hP hs (withAddr_post hs fun _ => hs)
  case catMask a => exact Leaves.admitted hP hs (withAddr_post hs fun _ => hs)
  case catLayout a => exact Leaves.admitted hP hs (withAddr_post hs fun _ => hs)
  case catPack a xs =>
    refine Leaves.admitted hP hs (withAddr_post hs fun n => ?_)
    split
    · exact hs
    · exact hs
  case catUnpack a v => exact Leaves.admitted hP hs (withAddr_post hs fun _ => hs)
  case cwRead f =>
    refine Leaves.admitted hP hs ?_
    cases f with
    | cw f => exact CwOnly.bind (readReg_cwOnly g _ _ s) fun _ => refl
    | sw f => exact hs
    | bad id => exact hs
  case cwAssign f v =>
    refine Leaves.admitted hP hs (withCwField_post hs fun f' hf => withNibble_post hs fun v => ?_)
    subst hf
    exact CwOnly.bind (fieldWrite_cwOnly hg f' _ s) fun _ => refl
  case cwSet f c =>
    refine Leaves.admitted hP hs (withChip_post hs fun c => withCwField_post hs fun f' hf => ?_)
    subst hf
    exact CwOnly.bind (fieldWrite_cwOnly hg f' _ s) fun _ => refl
  case cwClear f c =>
    refine Leaves.admitted hP hs (withChip_post hs fun c => withCwField_post hs fun f' hf => ?_)
    subst hf
    exact CwOnly.bind (fieldWrite_cwOnly hg f' _ s) fun _ => refl
  case swRead f =>
    refine Leaves.admitted hP hs ?_
    cases f with
    | sw f => exact CwOnly.bind (swRead_cwOnly g _ f s) fun _ => refl
    | cw f => exact hs
    | bad id => exact hs
  case spiXfer tx => exact Leaves.admitted hP hs (CwOnly.bind (spiXfer_cwOnly g _ tx s) fun _ => refl)
  case csAssert c => exact Leaves.admitted hP hs (withChip_post hs fun c => CwOnly.bind (csAssert_cwOnly hg c s) fun _ => refl)
  case csDeassert c => exact Leaves.admitted hP hs (withChip_post hs fun c => CwOnly.bind (csDeassert_cwOnly hg c s) fun _ => refl)
  case vcmp a w r =>
    refine Leaves.admitted hP hs ?_
    split
    · exact hs
    · exact hs
  case wrv c a vb =>
    refine Leaves.admitted hP hs (withChip_post hs fun c => ?_)
    split
    · exact CwOnly.bind (verifiedWrite_cwOnly hg c a vb s) fun _ => refl
    · exact hs
  case setClk code =>
    exact Leaves.admitted hP hs (withNibble_post hs fun v => CwOnly.bind (fieldWrite_cwOnly hg .sysclk _ s) fun _ => refl)
  case reset c d =>
    exact Leaves.admitted hP hs (withChip_post hs fun c => withDuration_post hs fun d =>
      CwOnly.bind (pulseReset_cwOnly hg c d s) fun _ => refl)
  case setTrig m =>
    refine Leaves.admitted hP hs ?_
    cases m with
    | mode m => exact CwOnly.bind (fieldWrite_cwOnly hg .hold _ s) fun _ _ => CwOnly.of_cw rfl
    | bad id => exact hs
  case rdErr => exact Leaves.admitted hP hs (CwOnly.bind (swRead_cwOnly g _ .err s) fun _ => refl)
  case rdTemp =>
    exact Leaves.admitted hP hs (CwOnly.bind (readReg_cwOnly g _ _ s) fun _ t =>
      CwOnly.bind (readSecond_cwOnly g _ t) fun _ => refl)
  case prog c b =>
    refine Leaves.admitted hP hs (withChip_post hs fun c => ?_)
    cases b with
    | bytes bs => exact CwOnly.bind (programChips_cwOnly hg _ _ s) fun _ _ => CwOnly.of_cw rfl
    | unreadable => exact hs
  case sleep d =>
    exact Leaves.admitted hP hs (withDuration_post hs fun d => CwOnly.bind (m := sleep d s) (CwOnly.of_cw rfl) fun _ => refl)

theorem exec_cwOnly (i : Instr) (s : State) : Leaves (CwOnly Config.cfg (cwTarget i) s) (exec i s) :=
  execOf_cfg ▸ execOf_cwOnly Config.cfg_wf i s

/-- Settles O56: a field that differs is the one that the instruction writes, and `cwTarget` names only the writers listed. -/
theorem cwFieldWriters : Obligations.CwFieldWriters := by
  intro i s t f hx hne
  have htarget : cwTarget i = some f := by
    by_contra hf
    exact hne ((exec_cwOnly i s).elim (.inl hx) f hf)
  unfold cwTarget at htarget
  split at htarget <;> cases htarget <;> simp

/-! ## The significant masks -/

theorem checkAddr_of_lt {g : Cfg} {a : Nat} (h : a < g.nreg) : checkAddr g a = some a := by simp [checkAddr, h]

/-- CAT.MASK of a register address ends done with its significant mask (R132). -/
theorem execCatMask_of_lt {g : Cfg} {s : State} (hm : s.mapOK = true) (hs : s.spiOK = true) {a : Nat} (ha : a < g.nreg) :
    execCatMask a s g = .next (s.complete (.word (sigMask g a))) := by
  simp [execCatMask, admit_of_ready hm hs, withAddr, checkAddr_of_lt ha]

theorem endsDone_complete (s : State) (r : Result) : EndsDone s (s.complete r) r [] :=
  ⟨rfl, rfl, (List.append_nil _).symm, rfl, ⟨rfl, rfl⟩, ⟨rfl, rfl⟩, ⟨rfl, rfl, rfl⟩, rfl⟩

theorem untouched_complete (s : State) (r : Result) : Untouched s (s.complete r) := ⟨⟨rfl, rfl⟩, rfl, fun _ _ => rfl⟩

/-- The mask column of R31 is what R132 derives from the lengths. -/
theorem sigMask_column :
    List.replicate 16 0x03FFFFFF#32 ++ [0x3FFF#32, 0xFFFFFF#32, 0x7FFFFF#32, 0x3F#32, 0xFF#32, 0x3FFFF#32, 0x3F#32] ++
      [0x7FFFF#32, 0x7FFF#32, 0x3F#32, 0x3#32, 0x3#32] = (List.range 28).map (sigMask Config.cfg) := by
  decide

/-- Settles O8: the operation answers the significant mask, and the masks of the 28 addresses are the table's. -/
theorem maskAnswer : Obligations.MaskAnswer := by
  intro s n m hm hs htable
  rw [sigMask_column] at htable
  obtain ⟨hn, rfl⟩ : n < 28 ∧ sigMask Config.cfg n = m := by
    simpa [List.getElem?_eq_some_iff] using htable
  exact ⟨_, execCatMask_of_lt hm hs hn, endsDone_complete s _, untouched_complete s _⟩

end Sys2Proof.Machine
end

section
/-! Proofs about the encodings (30_encoding.md): the command byte of R100 and the chip masks of R95 to R97. -/

namespace Sys2Proof.Machine

/-! ## The command byte -/

/-- The command byte is a pattern of R103: the address bits, then the flag. -/
theorem cmdByte_eq_append (a : BitVec 7) (w : Bool) : cmdByte a.toNat w = a ++ BitVec.ofBool w := by
  have happend : (a ++ BitVec.ofBool w).toNat = a.toNat * 2 + w.toNat := by
    rw [BitVec.toNat_append, ← Nat.shiftLeft_add_eq_or_of_lt (BitVec.ofBool w).isLt, Nat.shiftLeft_eq, BitVec.toNat_ofBool, pow_one]
  rw [cmdByte, ← happend, BitVec.ofNat_toNat, BitVec.setWidth_eq]

/-- Settles O2: the shift, the address and the flag are read off the pattern of address bits and flag. -/
theorem commandByteFields : Obligations.CommandByteFields := by
  intro a w
  refine ⟨?shifted, ?address, cmdByte_flag a.toNat w, frameAddr_cmdByte a.toNat w a.isLt⟩
  case shifted =>
    rw [cmdByte_eq_append, BitVec.append_def, BitVec.shiftLeftZeroExtend_eq, BitVec.setWidth'_eq]
  case address => rw [cmdByte_eq_append, BitVec.extractLsb'_append_eq_left]

/-! ## The chip masks -/

/-- The assert mask of a physical chip has the one bit at the chip's index (R92, R95). -/
theorem maskTable_asChip (p : PhysChip) : maskTable (asChip p) = 1#4 <<< chipIdx p := by cases p <;> rfl

/-- Physical chips that are there have different assert masks: the bit at a chip's index is in its own mask only (R97). -/
theorem amask_asChip_inj {g : Cfg} (hg : g.wf) {p q : PhysChip} (hp : g.hasChip p = true) (hq : g.hasChip q = true)
    (h : amask g (asChip p) = amask g (asChip q)) : p = q := by
  have hbit : (amask g (asChip q)).getLsbD (chipIdx p) = true := by
    rw [← h, amask_bit hg, decide_eq_true_eq, mem_members_asChip hp]
  rwa [amask_bit hg, decide_eq_true_eq, mem_members_asChip hq] at hbit

theorem amask_and_dmask (g : Cfg) (c : Chip) : amask g c &&& dmask g c = 0#4 := BitVec.and_not_self _

theorem amask_or_dmask (g : Cfg) (c : Chip) : amask g c ||| dmask g c = 0xF#4 := BitVec.or_not_self _

/-- Settles O6: on the machine the assert masks are the table, and the laws hold under every configuration. -/
theorem chipMaskLaws : Obligations.ChipMaskLaws := by
  refine ⟨?table, ?shifted, dmask_eq Config.cfg, ?injective, ?complements⟩
  case table =>
    exact ⟨amask_cfg .A, amask_cfg .B, amask_cfg .C, amask_cfg .D, amask_cfg .All⟩
  case shifted => exact fun p => (amask_cfg _).trans (maskTable_asChip p)
  case injective => exact fun p q => amask_asChip_inj Config.cfg_wf (hasChip_cfg p) (hasChip_cfg q)
  case complements => exact fun p => ⟨amask_and_dmask _ _, amask_or_dmask _ _⟩

end Sys2Proof.Machine
end

section
/-! Proofs about the register catalog (40_catalog.md): the lengths of R131, the layouts of R133, and the addresses that R130 rejects. -/

namespace Sys2Proof.Machine

/-! ## An operation that takes a register address -/

theorem endsInError_raise (s : State) (e : ArchError) : EndsInError s (s.raise e) e [] :=
  ⟨rfl, rfl, (List.append_nil _).symm, rfl, ⟨rfl, rfl⟩, ⟨rfl, rfl⟩, ⟨rfl, rfl, rfl⟩, rfl⟩

theorem untouched_raise (s : State) (e : ArchError) : Untouched s (s.raise e) := ⟨⟨rfl, rfl⟩, rfl, fun _ _ => rfl⟩

theorem checkAddr_of_outside {g : Cfg} {a : Int} (ha : a < 0 ∨ (g.nreg : Int) ≤ a) : checkAddr g a = none :=
  if_neg (by omega)

section

variable {g : Cfg} {s : State} (hm : s.mapOK = true) (hs : s.spiOK = true) {k : Nat → State → Res Result}
include hm hs

/-- A register address passes the check of R130, and the operation ends as its body does. -/
theorem admitted_withAddr_of_lt {n : Nat} (hn : n < g.nreg) :
    admitted s (fun s => withAddr g n s fun n => k n s) = finish (k n s) := by
  rw [admit_of_ready hm hs, withAddr, checkAddr_of_lt hn]

/-- An address outside the register space ends the operation before its body (R130, R302). -/
theorem admitted_withAddr_of_outside {a : Int} (ha : a < 0 ∨ (g.nreg : Int) ≤ a) :
    ∃ t, admitted s (fun s => withAddr g a s fun n => k n s) = .next t ∧ EndsInError s t (.unknownRegister a) [] ∧
      Untouched s t := by
  refine ⟨s.raise (.unknownRegister a), ?_, endsInError_raise s _, untouched_raise s _⟩
  rw [admit_of_ready hm hs, withAddr, checkAddr_of_outside ha, finish_error]

end

/-! ## The significant lengths -/

/-- An entry of the table of R31 is the significant length of a register address. -/
theorem sigLen_of_getElem? {g : Cfg} (hg : g.wf) {n N : Nat} (h : g.siglens[n]? = some N) : n < g.nreg ∧ sigLen g n = N := by
  obtain ⟨-, hlength, -⟩ := hg.regs
  obtain ⟨hn, -⟩ := List.getElem?_eq_some_iff.mp h
  exact ⟨hlength ▸ hn, by rw [sigLen, List.getD_eq_getElem?_getD, h, Option.getD_some]⟩

/-- Settles O7: the statement's table is that of the configuration, whose entries are the answers at its 28 addresses. -/
theorem siglenAnswer : Obligations.SiglenAnswer := by
  refine fun s a hm hs => ⟨fun n N ha htable => ?inside, fun ha => ?outside⟩
  case inside =>
    obtain ⟨hn, rfl⟩ := sigLen_of_getElem? Config.cfg_wf htable
    subst ha
    exact ⟨_, admitted_withAddr_of_lt hm hs hn, endsDone_complete s _, untouched_complete s _⟩
  case outside => exact admitted_withAddr_of_outside (g := Config.cfg) hm hs ha

/-! ## The layouts -/

/-- Settles O9: the configuration's well-formedness gives the bound and the channel names of the layout that is answered. -/
theorem layoutAnswer : Obligations.LayoutAnswer := by
  refine fun s a hm hs => ⟨fun n ha hn => ⟨?answer, Config.cfg_wf.layouts n, fun hch => ?channel⟩, fun ha => ?outside⟩
  case answer =>
    subst ha
    exact ⟨_, admitted_withAddr_of_lt (g := Config.cfg) hm hs (Nat.lt_succ_of_le hn), endsDone_complete s _,
      untouched_complete s _⟩
  case channel =>
    obtain ⟨hnames, hshared⟩ := Config.cfg_wf.channel n (Nat.lt_succ_of_le hch)
    exact ⟨hshared, hnames⟩
  case outside => exact admitted_withAddr_of_outside (g := Config.cfg) hm hs ha

end Sys2Proof.Machine
end

section
/-! Proofs about the control region (41_control_region.md): an assignment of a field, and the chip-side outputs of R47. -/

namespace Sys2Proof.Machine

/-! ## An assignment of a field -/

/-- A nibble passes the range check of a 4-bit operand and reaches the body as it is (R109). -/
theorem withNibble_toNat (v : BitVec 4) (s : State) (k : BitVec 4 → Res Result) : withNibble v.toNat s k = k v := by
  have hrange : (0 : Int) ≤ v.toNat ∧ (v.toNat : Int) ≤ 15 := by have := v.isLt; omega
  rw [withNibble, if_pos hrange, BitVec.ofInt_natCast, BitVec.ofNat_toNat, BitVec.setWidth_eq]

/-- An assignment of a nibble ends with the control word that has it in the field (R152). -/
theorem execCwAssign_of_ready (g : Cfg) {s : State} (hs : Ready s) (f : CwField) (v : BitVec 4) :
    execCwAssign (.cw f) v.toNat s g = .next ((s.wroteCw g (putField g s.cw f v)).complete .none) := by
  obtain ⟨hmap, hspi, hio⟩ := hs
  rw [execCwAssign, admit_of_ready hmap hspi, withCwField, withNibble_toNat, cwAssign_eq g f v hio, Res.ok_bind, finish_ok]

/-- An assignment gives its field the new value and keeps the other fields (R152, R156). -/
theorem execCwAssign_fieldSet {g : Cfg} (hg : g.wf) {s : State} (hs : Ready s) (f : CwField) (v : BitVec 4) :
    ∃ t, execCwAssign (.cw f) v.toNat s g = .next t ∧ FieldSet g s.cw t.cw f v :=
  ⟨_, execCwAssign_of_ready g hs f v, getField_putField_same hg s.cw f v,
    fun _ h => getField_putField_ne hg s.cw v h.symm⟩

/-! ## The chip-side outputs -/

/-- The chip-select lines are a function of the cs field. -/
theorem csN_congr (g : Cfg) {w w' : CwWord} (h : getField g w' .cs = getField g w .cs) : csN g w' = csN g w := by
  rw [csN, csN, h]

/-- The chip-select line of a chip that is there is low exactly when the chip is selected (R24, R47). -/
theorem csN_bit (g : Cfg) (w : CwWord) {p : PhysChip} (hp : g.hasChip p = true) :
    (csN g w).getLsbD (chipIdx p) = !isSelected g w p := by
  rw [csN, isSelected, hp, Bool.true_and]
  cases g.csPolarity with
  | selectOnOne => simp only [BitVec.getLsbD_not, chipIdx_lt p, decide_true, Bool.true_and]
  | selectOnZero => exact (Bool.not_not _).symm

/-- Settles O19: an assignment sets one field and keeps the others, and each group of lines is a function of one field. -/
theorem outputsFollowCw : Obligations.OutputsFollowCw := by
  intro g s v hg hs
  have hassign := fun f => execCwAssign_fieldSet hg hs f v
  refine ⟨fun p => csN_bit g s.cw, ?hold, ?reset, ?cs, ?sysclk⟩
  case hold =>
    obtain ⟨t, hrun, hset, hkept⟩ := hassign .hold
    exact ⟨t, hrun, hset, hkept .reset (by decide), csN_congr g (hkept .cs (by decide)), hkept .sysclk (by decide)⟩
  case reset =>
    obtain ⟨t, hrun, hset, hkept⟩ := hassign .reset
    exact ⟨t, hrun, hset, hkept .hold (by decide), csN_congr g (hkept .cs (by decide)), hkept .sysclk (by decide)⟩
  case cs =>
    obtain ⟨t, hrun, rfl, hkept⟩ := hassign .cs
    exact ⟨t, hrun, rfl, hkept .hold (by decide), hkept .reset (by decide), hkept .sysclk (by decide)⟩
  case sysclk =>
    obtain ⟨t, hrun, hset, hkept⟩ := hassign .sysclk
    exact ⟨t, hrun, hset, hkept .hold (by decide), hkept .reset (by decide), csN_congr g (hkept .cs (by decide))⟩

end Sys2Proof.Machine
end

section
/-! Proofs about the verified write (43_verified_write.md): the masked compare of R222 as an agreement of residues. -/

namespace Sys2Proof.Machine

/-! ## The significant bits as a residue -/

/-- A significant length fits a word; where the table has no entry it is 0. -/
theorem sigLen_le_32 {g : Cfg} (hg : g.wf) (a : Nat) : sigLen g a ≤ 32 := by
  obtain ⟨-, -, hbits⟩ := hg.value
  obtain ⟨-, -, hentries⟩ := hg.regs
  rw [sigLen, List.getD_eq_getElem?_getD]
  cases h : g.siglens[a]? with
  | none => exact Nat.zero_le 32
  | some N => exact (hentries N (List.mem_of_getElem? h)).trans hbits

/-- The bits under a mask of R132 are the residue modulo that power of two. -/
theorem toNat_and_lowMask {w n : Nat} (hn : n ≤ w) (v : BitVec w) : (v &&& lowMask n).toNat = v.toNat % 2 ^ n := by
  have hfits : 2 ^ n - 1 < 2 ^ w :=
    (Nat.sub_lt (Nat.two_pow_pos n) Nat.one_pos).trans_le (Nat.pow_le_pow_right Nat.two_pos hn)
  rw [BitVec.toNat_and, lowMask, BitVec.toNat_ofNat, Nat.mod_eq_of_lt hfits, Nat.and_two_pow_sub_one_eq_mod]

/-! ## The masked compare -/

/-- The verdict of R222 is whether the two values agree modulo 2^SIGLEN. -/
theorem vcmp_eq_decide_mod {g : Cfg} (hg : g.wf) (a : Nat) (w r : Word) :
    vcmp g a w r = decide (w.toNat % 2 ^ sigLen g a = r.toNat % 2 ^ sigLen g a) := by
  have hlen := sigLen_le_32 hg a
  rw [Bool.eq_iff_iff, decide_eq_true_eq, vcmp_iff, ← BitVec.toNat_inj, sigMask, toNat_and_lowMask hlen,
    toNat_and_lowMask hlen]

/-- Flipping every bit beyond the significant length does not change the verdict (R223). -/
theorem vcmp_xor_not_sigMask (g : Cfg) (a : Nat) (v : Word) : vcmp g a v (v ^^^ ~~~ sigMask g a) = true := by
  rw [vcmp_iff]
  ext i hi
  simp only [BitVec.getElem_and, BitVec.getElem_xor, BitVec.getElem_not]
  cases (sigMask g a)[i] with
  | false => rw [Bool.and_false, Bool.and_false]
  | true => rw [Bool.not_true, Bool.xor_false]

/-- VCMP on a register address of an open device answers the verdict of the compare (R222). -/
theorem execVcmp_of_lt {g : Cfg} {s : State} (hm : s.mapOK = true) (hs : s.spiOK = true) {a : Nat} (ha : a < g.nreg)
    (w r : Word) : execVcmp a w r s g = .next (s.complete (.verdict (vcmp g a w r))) := by
  rw [execVcmp, admit_of_ready hm hs, if_pos ha, finish_ok]

/-- Settles O31: the table's entry is the significant length of the address, modulo whose power the compare works. -/
theorem maskedCompare : Obligations.MaskedCompare := by
  refine ⟨fun s n N w r hm hs htable => ?verdict, fun a v _ => vcmp_xor_not_sigMask Config.cfg a v⟩
  case verdict =>
    obtain ⟨hn, rfl⟩ := sigLen_of_getElem? Config.cfg_wf htable
    rw [← vcmp_eq_decide_mod Config.cfg_wf]
    exact ⟨_, execVcmp_of_lt hm hs hn w r, endsDone_complete s _, untouched_complete s _⟩

end Sys2Proof.Machine
end

section
/-! Proofs about the device controller (44_device_controller.md): the clock divider of R250, and what PROG does with its blob and its
chips. -/

namespace Sys2Proof.Machine

/-! ## A write of a control-word field (R151) -/

theorem fieldSet_putField {g : Cfg} (hg : g.wf) (w : CwWord) (f : CwField) (v : BitVec 4) :
    FieldSet g w (putField g w f v) f v :=
  ⟨getField_putField_same hg w f v, fun _ h => getField_putField_ne hg w v h.symm⟩

theorem endsDone_wroteCw (g : Cfg) (s : State) (w : CwWord) (r : Result) :
    EndsDone s ((s.wroteCw g w).complete r) r (cwWriteEvents g s.cw w) :=
  ⟨rfl, rfl, rfl, rfl, ⟨rfl, rfl⟩, ⟨rfl, rfl⟩, ⟨rfl, rfl, rfl⟩, rfl⟩

/-- A write of a field other than reset reaches no chip (R290). -/
theorem sameChips_wroteCw {g : Cfg} (hg : g.wf) (s : State) {f : CwField} (v : BitVec 4) (hf : f ≠ .reset) :
    SameChips s (s.wroteCw g (putField g s.cw f v)) := by
  rw [SameChips, State.wroteCw_regs, State.wroteCw_life, State.writeCw_putField hg s v hf]
  exact ⟨rfl, rfl⟩

theorem withNibble_of_inside {v : Int} (h0 : 0 ≤ v) (h15 : v ≤ 15) (s : State) (k : BitVec 4 → Res Result) :
    withNibble v s k = k (BitVec.ofInt 4 v) := if_pos ⟨h0, h15⟩

theorem withNibble_of_outside {v : Int} (h : v < 0 ∨ 15 < v) (s : State) (k : BitVec 4 → Res Result) :
    withNibble v s k = .stop (.refuse .valueOutOfRange) s := if_neg (by omega)

/-- Settles O20: the code passes the range check and is assigned to the sysclk field, or it is refused there. -/
theorem setClkWrites : Obligations.SetClkWrites := by
  refine fun s code => ⟨fun hready h0 h15 => ?assigned, fun hm hs hout => ?refused⟩
  case assigned =>
    obtain ⟨hm, hs, hio⟩ := hready
    have hrun : execSetClk code s =
        .next ((s.wroteCw Config.cfg (putField Config.cfg s.cw .sysclk (BitVec.ofInt 4 code))).complete .none) := by
      rw [execSetClk, admit_of_ready hm hs, withNibble_of_inside h0 h15, cwAssign_eq _ _ _ hio, Res.ok_bind, finish_ok]
    exact ⟨_, hrun, endsDone_wroteCw Config.cfg s _ _, fieldSet_putField Config.cfg_wf s.cw _ _,
      sameChips_wroteCw Config.cfg_wf s _ (by decide)⟩
  case refused =>
    have hrun : execSetClk code s = .refused (s.decline .valueOutOfRange) := by
      rw [execSetClk, admit_of_ready hm hs, withNibble_of_outside hout, finish_refuse]
    exact hrun

/-! ## The blob of a `PROG` -/

theorem members_nodup (g : Cfg) (c : Chip) : (members g c).Nodup :=
  List.Nodup.filter _ (by cases c <;> decide)

theorem execProg_bytes {s : State} (hm : s.mapOK = true) (hs : s.spiOK = true) (g : Cfg) (c : Chip) (bs : List Byte) :
    execProg (.chip c) (.bytes bs) s g =
      finish ((programChips g (chunks g bs) (members g c) s).bind fun _ u => .ok .none { u with cursor := none }) := by
  rw [execProg, admit_of_ready hm hs, withChip]

/-- A blob acts through its chunks alone (R108). -/
theorem execProg_of_same_chunks {g : Cfg} (c : ChipArg) (s : State) {bs bs' : List Byte} (h : chunks g bs = chunks g bs') :
    execProg c (.bytes bs) s g = execProg c (.bytes bs') s g := by
  simp only [execProg, h]

/-- A blob that could not be read ends the operation before any access (R305). -/
theorem execProg_unreadable {s : State} (hm : s.mapOK = true) (hs : s.spiOK = true) (g : Cfg) (c : Chip) :
    execProg (.chip c) .unreadable s g = .next (s.raise .configBlob) := by
  rw [execProg, admit_of_ready hm hs, withChip, finish_error]

/-- Bytes after the last whole chunk, fewer than a value has, are in no chunk (R108). -/
theorem chunks_append_rest {g : Cfg} {bs rest : List Byte} (hbs : bs.length % g.valueBytes = 0)
    (hrest : rest.length < g.valueBytes) : chunks g (bs ++ rest) = chunks g bs := by
  have hcount : chunkCount g (bs ++ rest) = chunkCount g bs := by
    rw [chunkCount, chunkCount, List.length_append, Nat.add_div (by omega), if_neg, Nat.div_eq_of_lt hrest]
    · rfl
    · rw [hbs, Nat.zero_add, not_le]
      exact Nat.mod_lt _ (by omega)
  rw [chunks, chunks, hcount]
  refine List.map_congr_left fun i hi => ?_
  have hfull := chunkAt_length (List.mem_range.mp hi)
  rw [chunkAt, List.length_take, List.length_drop] at hfull
  have hvalue : g.valueBytes ≤ (bs.drop (g.valueBytes * i)).length := by rw [List.length_drop]; omega
  rw [chunkAt, chunkAt, List.drop_append_of_le_length (by omega), List.take_append_of_le_length hvalue]

theorem chunks_of_short {g : Cfg} {bs : List Byte} (h : bs.length < g.valueBytes) : chunks g bs = [] := by
  rw [chunks, chunkCount, Nat.div_eq_of_lt h]
  rfl

/-- The end of a chip's turn changes lifecycles only. -/
theorem configured_only_life (s : State) (p : PhysChip) : ∃ l, s.configured p = { s with life := l } := by
  unfold State.configured
  split
  · exact ⟨s.life, rfl⟩
  · exact ⟨_, rfl⟩

/-- The turns of a `PROG` without chunks change nothing but the lifecycles of their chips (R270, R290). -/
theorem programChips_no_chunks (g : Cfg) : ∀ (qs : List PhysChip) (s : State), qs.Nodup →
    ∃ l, programChips g [] qs s = .ok () { s with life := l } ∧ ConfiguredOnly s { s with life := l } qs
  | [], s, _ => ⟨s.life, rfl, ConfiguredOnly.nil rfl⟩
  | p :: qs, s, hnd => by
    obtain ⟨hp, hnd⟩ := List.nodup_cons.mp hnd
    obtain ⟨l, hl⟩ := configured_only_life s p
    obtain ⟨l', hrun, honly⟩ := programChips_no_chunks g qs (s.configured p) hnd
    rw [hl] at hrun
    have honly' := ConfiguredOnly.step (s := s) rfl honly hp
    rw [hl] at honly'
    exact ⟨l', by rw [programChips, programChunks, Res.ok_bind, hl, hrun], honly'⟩

/-- Settles O42: the blob acts through its chunks alone, and without a chunk every turn only configures its chip. -/
theorem blobHandling : Obligations.BlobHandling := by
  refine ⟨fun s c hm hs => ?unreadable, fun s c bs rest hbs hrest => ?trailing, fun s c bs hm hs hlen => ?short⟩
  case unreadable => exact ⟨_, execProg_unreadable hm hs Config.cfg c, endsInError_raise s _, untouched_raise s _⟩
  case trailing =>
    exact execProg_of_same_chunks (g := Config.cfg) c s (chunks_append_rest hbs hrest)
  case short =>
    obtain ⟨l, hrun, honly⟩ := programChips_no_chunks Config.cfg (members Config.cfg c) s (members_nodup Config.cfg c)
    have hexec : execProg (.chip c) (.bytes bs) s = .next (State.complete { s with life := l, cursor := none } .none) := by
      rw [execProg_bytes hm hs, chunks_of_short (g := Config.cfg) hlen, hrun, Res.ok_bind, finish_ok]
    exact ⟨_, hexec, ⟨rfl, rfl, (List.append_nil _).symm, rfl, ⟨rfl, rfl⟩, ⟨rfl, rfl⟩, ⟨rfl, rfl, rfl⟩, rfl⟩,
      ⟨rfl, fun _ _ => rfl⟩, rfl, honly⟩

/-! ## A `PROG` without a fault

With no access failure drawn, and no selected chip and no chip of the operand held in reset, the case of a fault in
`programChips_ends` cannot occur. -/

theorem not_faultAt {g : Cfg} {ps : List PhysChip} {s : State} (hio : s.env.ioFailure = none) (hrel : CanTransfer g ps s) (k : Nat)
    (f : FaultKind) : ¬ FaultAt g ps s k f := by
  rintro (⟨-, took, hdraw⟩ | ⟨-, q, hq, hheld⟩)
  · rw [hio] at hdraw
    cases hdraw
  · have hfree : resetBit g s.cw q = false := hrel q hq
    rw [hfree] at hheld
    cases hheld

/-- A step that cannot fault ends with its value or in an architectural error. -/
theorem Res.Ends.ok_or_error {α : Type} {m : Res α} {ok : α → State → Prop} {er : ArchError → State → Prop}
    {fl : FaultKind → State → Prop} (h : m.Ends ok er fl) (hfl : ∀ f u, ¬ fl f u) :
    (∃ v u, m = .ok v u ∧ ok v u) ∨ ∃ e u, m = .stop (.error e) u ∧ er e u := by
  match m with
  | .ok v u => exact .inl ⟨v, u, rfl, h⟩
  | .stop (.error e) u => exact .inr ⟨e, u, rfl, h⟩
  | .stop (.fault f) u => exact (hfl f u h).elim
  | .stop (.refuse r) u => exact h.elim

/-- A draw of no failure is spent on no access. -/
theorem Spent.eq_of_none {e e' : Env} {k : Nat} (h : Spent e e' k) (hio : e.ioFailure = .none) : e' = e := by
  rw [h.rest, h.none hio, ← hio]

theorem Part.endsDone {g : Cfg} {ps : List PhysChip} {s u : State} {es : List Event} (h : Part g ps s u es) (henv : u.env = s.env)
    (r : Result) : EndsDone s (State.complete { u with cursor := none } r) r es := by
  obtain ⟨hpc, -, -, hmap, hspi, hprogram, hpending, hnames⟩ := h.place
  exact ⟨congrArg (· + 1) hpc, rfl, h.hist, rfl, ⟨rfl, rfl⟩, ⟨hmap, hspi⟩, ⟨hprogram, hpending, hnames⟩, henv⟩

theorem Part.endsInError {g : Cfg} {ps : List PhysChip} {s u : State} {es : List Event} (h : Part g ps s u es) (henv : u.env = s.env)
    (e : ArchError) : EndsInError s (u.raise e) e es := by
  obtain ⟨hpc, hresult, -, hmap, hspi, hprogram, hpending, hnames⟩ := h.place
  exact ⟨hpc, hresult, h.hist, rfl, ⟨rfl, rfl⟩, ⟨hmap, hspi⟩, ⟨hprogram, hpending, hnames⟩, henv⟩

/-- The first pairs of a `PROG` that starts in `s` are over, as many as `ks` has entries and after `ks` attempts each, with the events
`es`; the chips that had their turn are unselected. -/
structure FirstPairs (g : Cfg) (c : Chip) (bs : List Byte) (s u : State) (es : List Event) (ks : List Nat) : Prop where
  wrote      : Wrote g (members g c) (progListeners g s c) (chunkAt g bs) ((progOrder g c (chunkCount g bs)).take ks.length) s u es ks
  deselected : Deselected g s u ((progOrder g c (chunkCount g bs)).take ks.length)

section

variable {g : Cfg} {c : Chip} {bs : List Byte} {s u : State} {es : List Event} {ks : List Nat}

theorem FirstPairs.sentInOrder (h : FirstPairs g c bs s u es ks) : SentInOrder g s c bs ks (writeFrames es) := by
  have hcount := h.wrote.count
  rw [List.length_take] at hcount
  refine ⟨by omega, ?_⟩
  rw [h.wrote.sent, runFrames, zip_take _ _ _ le_rfl]
  rfl

theorem FirstPairs.shape (h : FirstPairs g c bs s u es ks) : es.map eventShape = progShape g c bs ks := by
  rw [h.wrote.shape, runShape, zip_take _ _ _ le_rfl]
  rfl

theorem FirstPairs.onlyProgrammed (h : FirstPairs g c bs s u es ks) : OnlyProgrammed g s u c (chunkCount g bs) ks.length :=
  h.wrote.regs

/-- The turns of a `PROG` that cannot fault: all pairs are written; or one mismatches to its last attempt; or the first chip comes to
an address that is no register's (R270 to R272). -/
theorem programChips_of_canTransfer (hg : g.wf) (hm : g.ioMayFail = true) (c : Chip) (bs : List Byte)
    (hio : s.env.ioFailure = none) (hrel : CanTransfer g (members g c) s) :
    (∃ u es ks, programChips g (chunks g bs) (members g c) s = .ok () u ∧ FirstPairs g c bs s u es ks ∧
      ks.length = (progOrder g c (chunkCount g bs)).length ∧ ConfiguredOnly s u (members g c)) ∨
    ∃ e u es ks, programChips g (chunks g bs) (members g c) s = .stop (.error e) u ∧ FirstPairs g c bs s u es ks ∧
      ((∃ x, (progOrder g c (chunkCount g bs))[ks.length - 1]? = some x ∧ e = .writeVerification (asChip x.1) (x.2 : Int) ∧
          ks.getLast? = some g.maxAttempts ∧ ConfiguredOnly s u ((members g c).takeWhile (· != x.1))) ∨
        (g.nreg < chunkCount g bs ∧ ks.length = g.nreg ∧ e = .unknownRegister (g.nreg : Int) ∧ u.life = s.life)) := by
  have hends := programChips_ends hg hm (mem_chunks_length g bs) (chunks_get bs) (members g c) s (members_nodup g c)
    fun q hq => members_hasChip hq
  simp only [length_chunks, ← progOrder_eq, ← progListeners_eq] at hends
  have hcases := hends.ok_or_error ?nofault
  case nofault =>
    rintro f u ⟨m, x, t, es, ks, fs, hx, hW, -, -, -, -, -, hcut⟩
    rw [progOrder_eq] at hx
    have hx1 := (mem_pairsOf (List.mem_of_getElem? hx)).1
    have hmem : ∀ q ∈ members g (asChip x.1), q ∈ members g c := fun q hq => by
      rwa [(mem_members_asChip (members_hasChip hx1) q).mp hq]
    exact not_faultAt hio hrel _ f ((hcut.fault.mono hmem).after hW.part hW.spent)
  rcases hcases with ⟨⟨⟩, u, hrun, es, ks, hW, hlife, hsel⟩ | ⟨e, u, hrun, m, es, ks, hm, hW, hsel, hend⟩
  · have hall : (progOrder g c (chunkCount g bs)).take ks.length = progOrder g c (chunkCount g bs) :=
      List.take_of_length_le hW.count.le
    exact .inl ⟨u, es, ks, hrun, ⟨hall.symm ▸ hW, hall.symm ▸ hsel⟩, hW.count.symm, hlife⟩
  · have hlen : ks.length = m := by rw [← hW.count, List.length_take, Nat.min_eq_left hm]
    subst hlen
    refine .inr ⟨e, u, es, ks, hrun, ⟨hW, hsel⟩, hend.imp_left ?_⟩
    rintro ⟨x, -, h⟩
    exact ⟨x, h⟩

end

/-- Settles O40: the pairs attempted are the first of the order, and each of the three endings says how many they are. -/
theorem programOrder : Obligations.ProgramOrder := by
  intro s c bs ⟨hm, hs, hio⟩ hrel
  have hexec : exec (.prog (.chip c) (.bytes bs)) s = _ := execProg_bytes hm hs Config.cfg c bs
  rcases programChips_of_canTransfer Config.cfg_wf rfl c bs hio hrel with
    ⟨u, es, ks, hrun, hfirst, hall, hlife⟩ | ⟨e, u, es, ks, hrun, hfirst, hend⟩ <;>
    have henv := hfirst.wrote.spent.eq_of_none hio <;>
    rw [hrun] at hexec
  · exact ⟨_, es, ks, hexec, hfirst.wrote.tries, hfirst.sentInOrder, hfirst.shape,
      .inl ⟨hfirst.wrote.part.endsDone henv _, hall, hlife⟩, hfirst.deselected, hfirst.wrote.part.other, hfirst.onlyProgrammed⟩
  · refine ⟨_, es, ks, hexec, hfirst.wrote.tries, hfirst.sentInOrder, hfirst.shape, .inr ?_, hfirst.deselected,
      hfirst.wrote.part.other, hfirst.onlyProgrammed⟩
    have herror := hfirst.wrote.part.endsInError henv e
    rcases hend with ⟨x, hx, rfl, hthird, hlife⟩ | ⟨hmany, hcount, rfl, hlife⟩
    · exact .inl ⟨x.1, x.2, herror, hthird, hx, hlife⟩
    · exact .inr ⟨hmany, herror, hcount, hlife⟩

/-! ## A verified write of one chip under the ideal link

From an empty selection a framed transfer is heard by its chip alone and leaves the control word as it was; the ideal link (R197) makes
the first read-back agree. -/

theorem isSelected_of_none {g : Cfg} {w : CwWord} (h : selected g w = []) (p : PhysChip) : isSelected g w p = false := by
  rw [← Bool.not_eq_true, ← mem_selected, h]
  exact List.not_mem_nil

/-- Two nibbles with the same bit at every chip's index are equal (R92). -/
theorem nibble_ext_chipIdx {v w : BitVec 4} (h : ∀ p, v.getLsbD (chipIdx p) = w.getLsbD (chipIdx p)) : v = w := by
  refine BitVec.eq_of_getLsbD_eq fun i hi => ?_
  match i, hi with
  | 0, _ => exact h .A
  | 1, _ => exact h .B
  | 2, _ => exact h .C
  | 3, _ => exact h .D

/-- Writing the value that a field has changes nothing. -/
theorem putField_getField (g : Cfg) (w : CwWord) (f : CwField) : putField g w f (getField g w f) = w := by
  refine BitVec.eq_of_getLsbD_eq fun j hj => ?_
  rw [putField_bit g w f _ j hj]
  split
  · rw [getField_bit g w f _ (by omega), Nat.add_sub_cancel' (by omega)]
  · rfl

/-- Where no chip is selected, unselecting the chips just selected gives the old field back. -/
theorem deselectField_selectField {g : Cfg} (hg : g.wf) {w : CwWord} (h : selected g w = []) (c : Chip) :
    deselectField g (selectField g (getField g w .cs) c) c = getField g w .cs := by
  refine nibble_ext_chipIdx fun p => ?_
  have hsel := isSelected_of_none h p
  cases hpol : g.csPolarity with
  | selectOnOne =>
    have hbit : p ∈ members g c → (getField g w .cs).getLsbD (chipIdx p) = false := fun hp => by
      rwa [isSelected, members_hasChip hp, hpol, Bool.true_and] at hsel
    simp only [deselectField, selectField, hpol, dmask_eq, BitVec.getLsbD_and, BitVec.getLsbD_or, BitVec.getLsbD_not, amask_bit hg,
      chipIdx_lt p, decide_true, Bool.true_and]
    by_cases hp : p ∈ members g c
    · simp only [hp, hbit hp, decide_true, Bool.not_true, Bool.and_false]
    · simp only [hp, decide_false, Bool.or_false, Bool.not_false, Bool.and_true]
  | selectOnZero =>
    have hbit : p ∈ members g c → (getField g w .cs).getLsbD (chipIdx p) = true := fun hp => by
      rwa [isSelected, members_hasChip hp, hpol, Bool.true_and, Bool.not_eq_false'] at hsel
    simp only [deselectField, selectField, hpol, dmask_eq, BitVec.getLsbD_and, BitVec.getLsbD_or, BitVec.getLsbD_not, amask_bit hg,
      chipIdx_lt p, decide_true, Bool.true_and]
    by_cases hp : p ∈ members g c
    · simp only [hp, hbit hp, decide_true, Bool.or_true]
    · simp only [hp, decide_false, Bool.not_false, Bool.and_true, Bool.or_false]

/-- A framed transfer that starts with no chip selected leaves the control word as it was. -/
theorem pulsedW_of_none_selected {g : Cfg} (hg : g.wf) {w : CwWord} (h : selected g w = []) (c : Chip) : pulsedW g w c = w := by
  rw [pulsedW, deselectW, selectW, putField_twice, getField_putField_same hg, deselectField_selectField hg h, putField_getField]

/-- The significant bits of a register are among the bits of a value (R31, R132). -/
theorem valueMask_and_sigMask {g : Cfg} (hg : g.wf) (a : Nat) : (lowMask g.valueBits : Word) &&& sigMask g a = sigMask g a := by
  obtain ⟨-, -, hbits⟩ := hg.value
  obtain ⟨-, -, hentries⟩ := hg.regs
  have hlen : sigLen g a ≤ g.valueBits := by
    rw [sigLen, List.getD_eq_getElem?_getD]
    cases h : g.siglens[a]? with
    | none => exact Nat.zero_le _
    | some N => exact hentries N (List.mem_of_getElem? h)
  refine BitVec.eq_of_getLsbD_eq fun i hi => ?_
  rw [BitVec.getLsbD_and, sigMask, lowMask_getLsbD _ _ hbits, lowMask_getLsbD _ _ (hlen.trans hbits)]
  rw [← Bool.decide_and]
  exact decide_eq_decide.mpr ⟨And.right, fun h => ⟨h.trans_le hlen, h⟩⟩

/-- The launch premises of R344 that make a verified write of a released chip succeed: no failure drawn, no chip selected, the ideal
link. -/
structure Calm (g : Cfg) (s : State) : Prop where
  io    : s.env.ioFailure = none
  none  : NoneSelected g s
  ideal : IdealLink g s.env.link

/-- The read-back of an attempt agrees with the value sent (R222, R197). -/
theorem Calm.readBack_agrees {g : Cfg} (hg : g.wf) {s : State} (h : Calm g s) {p : PhysChip} (hp : g.hasChip p = true) {a : Nat}
    (ha : a < g.nreg) (vb : List Byte) :
    vcmp g a (valueOf g vb) (readBack g (attemptRx g (asChip p) a (afterWrite g (asChip p) a vb s))) = true := by
  obtain ⟨hlatch, hdata⟩ := h.ideal
  obtain ⟨hist, -, hread⟩ := readBack_attempt (vb := vb) hg ha h.none hp
  rw [vcmp_iff, hread, hlatch, BitVec.and_assoc, valueMask_and_sigMask hg, hdata _ _ _ _ (sigMask_and_idem g a _)]

/-- The pairs `xs` have been written from `s` to `u`, each by one write frame that its chip alone heard and whose value's significant
bits its register holds, `ch` giving each address its chunk; nothing else of the block changed but lifecycles, the attempt counter and
the cursor. -/
structure Stored (g : Cfg) (ch : Nat → List Byte) (xs : List (PhysChip × Nat)) (s u : State) (es : List Event) : Prop where
  part  : Part g [] s u es
  env   : u.env = s.env
  cw    : u.cw = s.cw
  sent  : writeFrames es = xs.map fun x => ([x.1], writeFrame x.2 (ch x.2))
  regs  : ∀ q b, u.reg q b = if (q, b) ∈ xs then .known (valueOf g (ch b) &&& sigMask g b) else s.reg q b
  files : ∀ q, q ∉ xs.map Prod.fst → u.regs.get q = s.regs.get q

/-! ## A `PROG` under the ideal link -/

section

variable {g : Cfg} {ch : Nat → List Byte} {xs ys : List (PhysChip × Nat)} {s t u : State} {es fs : List Event}

theorem Stored.refl (g : Cfg) (ch : Nat → List Byte) (s : State) : Stored g ch [] s s [] :=
  ⟨Part.refl g [] s, rfl, rfl, rfl, fun _ _ => rfl, fun _ _ => rfl⟩

theorem Stored.trans (h : Stored g ch xs s t es) (k : Stored g ch ys t u fs) : Stored g ch (xs ++ ys) s u (es ++ fs) where
  part := h.part.trans k.part
  env := k.env.trans h.env
  cw := k.cw.trans h.cw
  sent := by rw [writeFrames_append, h.sent, k.sent, List.map_append]
  regs := fun q b => by
    rw [k.regs, h.regs]
    by_cases hy : (q, b) ∈ ys
    · rw [if_pos hy, if_pos (List.mem_append_right xs hy)]
    · simp only [hy, if_false, List.mem_append, or_false]
  files := fun q hq => by
    rw [List.map_append, List.mem_append, not_or] at hq
    exact (k.files q hq.2).trans (h.files q hq.1)

theorem Stored.calm (h : Stored g ch xs s u es) (hs : Calm g s) : Calm g u :=
  ⟨by rw [h.env]; exact hs.io, by rw [NoneSelected, h.cw]; exact hs.none, by rw [h.env]; exact hs.ideal⟩

/-- The end of a chip's turn writes nothing. -/
theorem stored_configured (g : Cfg) (ch : Nat → List Byte) (s : State) (p : PhysChip) : Stored g ch [] s (s.configured p) [] := by
  obtain ⟨l, hl⟩ := configured_only_life s p
  rw [hl]
  exact ⟨⟨(List.append_nil _).symm, ⟨rfl, rfl, rfl, rfl, rfl, rfl, rfl, rfl⟩, fun _ _ => rfl, fun _ _ => rfl⟩, rfl, rfl, rfl,
    fun _ _ => rfl, fun _ _ => rfl⟩

/-- Whether a transfer sends a write frame (R103). -/
def sendsWrite (x : List PhysChip × List Byte) : Bool :=
  match x.2 with
  | c :: _ => c.getLsbD 0
  | [] => false

theorem writeFrames_eq_filter (es : List Event) : writeFrames es = (transfers es).filter sendsWrite := by
  rw [writeFrames, transfers, List.filter_filterMap]
  congr 1
  funext e
  cases e with
  | xfer sel tx rx =>
    cases tx with
    | nil => rfl
    | cons c vb => simp [Option.filter, sendsWrite]
  | mmioR off n v => rfl
  | mmioW off n v => rfl
  | sleep d => rfl

/-- The attempt counter and the cursor are no part of what is written. -/
theorem Stored.of_counters {k k' : Option Nat} {cur : Option (PhysChip × Nat)}
    (h : Stored g ch xs { s with attempt := k, cursor := cur } u es) : Stored g ch xs s { u with attempt := k' } es :=
  ⟨⟨h.part.hist, h.part.place, h.part.other, h.part.stays⟩, h.env, h.cw, h.sent, h.regs, h.files⟩

/-- One attempt on one chip, with no chip selected before, stores the value in that chip alone. -/
theorem stored_afterAttempt (hg : g.wf) {p : PhysChip} (hp : g.hasChip p = true) (a : Nat) (hs : Calm g s) :
    ∃ es, Stored g ch [(p, a)] s (afterAttempt g (asChip p) a (ch a) s) es := by
  obtain ⟨es, hA, -, hsent, hheld, -⟩ := afterAttempt_attempted hg (asChip p) a (ch a) s
  have hcw : (afterAttempt g (asChip p) a (ch a) s).cw = s.cw := by
    show pulsedW g (pulsedW g s.cw (asChip p)) (asChip p) = s.cw
    rw [pulsedW_of_none_selected hg hs.none, pulsedW_of_none_selected hg hs.none]
  have hhear : selected g (selectW g s.cw (asChip p)) = [p] := selected_selectW_one hg hs.none hp
  have hlisten : ∀ q, q ∈ members g (asChip p) ++ selected g s.cw ↔ q = p := fun q => by
    rw [show selected g s.cw = [] from hs.none, List.append_nil, mem_members_asChip hp]
  obtain ⟨hpc, hresult, houtcome, hmap, hspi, hprogram, hpending, hnames, -⟩ := hA.place
  have hpart : Part g [] s (afterAttempt g (asChip p) a (ch a) s) es :=
    ⟨hA.hist, ⟨hpc, hresult, houtcome, hmap, hspi, hprogram, hpending, hnames⟩, hA.other, fun q _ => by rw [hcw]⟩
  refine ⟨es, hpart, hA.env, hcw, ?sent, fun q b => ?regs, fun q hq => ?files⟩
  case sent =>
    rw [writeFrames_eq_filter, hsent, attemptTransfers, ← selected_selectW hg, hhear]
    simp [sendsWrite, writeFrame, readFrame, cmdByte_bit0]
  case regs =>
    by_cases hqb : q = p ∧ b = a
    · obtain ⟨rfl, rfl⟩ := hqb
      rw [if_pos (List.mem_singleton.mpr rfl), hheld q ((hlisten q).mpr rfl), hs.ideal.1]
    · rw [if_neg (by simpa using hqb)]
      exact hA.only q b fun h => hqb ⟨(hlisten q).mp h.1, h.2⟩
  case files =>
    show ((framedAt g (asChip p) s).latch g (selected g (selectW g s.cw (asChip p))) a (valueOf g (ch a))).regs.get q = _
    rw [State.latch_get_regs, hhear, if_neg (by simpa using hq)]
    rfl

/-- A verified write of one chip that alone listens, under the ideal link: its first attempt succeeds (R225). -/
theorem verifiedWrite_of_calm (hg : g.wf) {p : PhysChip} (hp : g.hasChip p = true) {a : Nat} (ha : a < g.nreg)
    (hvb : (ch a).length = g.valueBytes) (hs : Calm g s) (hrel : Released g p s) :
    ∃ u es, verifiedWrite g (asChip p) a (ch a) { s with cursor := some (p, a) } = .ok () u ∧ Stored g ch [(p, a)] s u es ∧
      u.life = s.life := by
  have hs' : Calm g { s with attempt := some 1, cursor := some (p, a) } := ⟨hs.io, hs.none, hs.ideal⟩
  have hfree : ∀ q, q ∈ members g (asChip p) ∨ isSelected g s.cw q = true → resetBit g s.cw q = false := by
    rintro q (hq | hq)
    · rwa [(mem_members_asChip hp q).mp hq]
    · rw [isSelected_of_none hs.none] at hq
      cases hq
  have hattempt := attemptWrite_eq (s := { s with attempt := some 1, cursor := some (p, a) }) hg (asChip p) ha hvb hs'.io hfree
  rw [hs'.readBack_agrees hg hp ha] at hattempt
  obtain ⟨es, hstored⟩ := stored_afterAttempt hg hp a hs'
  refine ⟨_, es, ?run, hstored.of_counters (k' := none), rfl⟩
  rw [verifiedWrite, withAddr, checkAddr_of_lt ha]
  show attempts g (asChip p) a (ch a) 1 (g.maxAttempts - 1) { s with cursor := some (p, a) } = _
  rw [attempts, hattempt, Res.ok_bind, if_pos rfl]

/-- The chunks of one chip under the ideal link, at addresses that are registers' (R270). -/
theorem programChunks_of_calm (hg : g.wf) {p : PhysChip} (hp : g.hasChip p = true) :
    ∀ (cs : List (List Byte)) (i : Nat) (s : State), (∀ vb ∈ cs, vb.length = g.valueBytes) →
      (∀ j (h : j < cs.length), cs[j] = ch (i + j)) → i + cs.length ≤ g.nreg → Calm g s → Released g p s →
      ∃ u es, programChunks g p i cs s = .ok () u ∧ Stored g ch (pairsFrom p i cs.length) s u es ∧ u.life = s.life
  | [], i, s => fun _ _ _ _ _ => ⟨s, [], rfl, Stored.refl g ch s, rfl⟩
  | vb :: rest, i, s => by
    intro h4 hch hend hs hrel
    have hvb : vb = ch i := hch 0 (Nat.zero_lt_succ _)
    rw [List.length_cons] at hend
    obtain ⟨t, es, hrun, hT, hlife⟩ := verifiedWrite_of_calm (ch := ch) hg hp (a := i) (by omega)
      (hvb ▸ h4 vb List.mem_cons_self) hs hrel
    have hrel' : Released g p t := by rwa [Released, hT.cw]
    have hch' : ∀ j (h : j < rest.length), rest[j] = ch (i + 1 + j) := fun j h => by
      rw [Nat.add_assoc, Nat.add_comm 1 j]
      exact hch (j + 1) (Nat.succ_lt_succ h)
    obtain ⟨u, fs, hrun', hU, hlife'⟩ := programChunks_of_calm hg hp rest (i + 1) t (fun v hv => h4 v (List.mem_cons_of_mem _ hv))
      hch' (by omega) (hT.calm hs) hrel'
    refine ⟨u, es ++ fs, ?_, ?_, hlife'.trans hlife⟩
    · rw [programChunks, hvb, hrun, Res.ok_bind, hrun']
    · rw [List.length_cons, pairsFrom_succ]
      exact hT.trans hU

/-- The chips of a `PROG` one after the other under the ideal link, with no more chunks than registers (R270, R271). -/
theorem programChips_of_calm (hg : g.wf) {cs : List (List Byte)} (h4 : ∀ vb ∈ cs, vb.length = g.valueBytes)
    (hch : ∀ j (h : j < cs.length), cs[j] = ch j) (hfit : cs.length ≤ g.nreg) :
    ∀ (qs : List PhysChip) (s : State), qs.Nodup → (∀ q ∈ qs, g.hasChip q = true) → Calm g s → (∀ q ∈ qs, Released g q s) →
      ∃ u es, programChips g cs qs s = .ok () u ∧ Stored g ch (pairsOf qs cs.length) s u es ∧ ConfiguredOnly s u qs
  | [], s => fun _ _ _ _ => ⟨s, [], rfl, Stored.refl g ch s, ConfiguredOnly.nil rfl⟩
  | p :: qs, s => by
    intro hnd hthere hs hrel
    obtain ⟨hp, hnd⟩ := List.nodup_cons.mp hnd
    obtain ⟨hpthere, hthere⟩ := List.forall_mem_cons.mp hthere
    obtain ⟨hprel, hrel⟩ := List.forall_mem_cons.mp hrel
    obtain ⟨t, es, hrun, hT, hlife⟩ := programChunks_of_calm hg hpthere cs 0 s h4
      (fun j h => by rw [hch j h, Nat.zero_add]) (by omega) hs hprel
    have hT' := hT.trans (stored_configured g ch t p)
    rw [List.append_nil, List.append_nil] at hT'
    have hrel' : ∀ q ∈ qs, Released g q (t.configured p) := fun q hq => by
      rw [Released, hT'.cw]
      exact hrel q hq
    obtain ⟨u, fs, hrun', hU, honly⟩ := programChips_of_calm hg h4 hch hfit qs (t.configured p) hnd hthere (hT'.calm hs) hrel'
    exact ⟨u, es ++ fs, by rw [programChips, hrun, Res.ok_bind, hrun'], hT'.trans hU, honly.step hlife hp⟩

end

theorem mem_pairsOf_iff (qs : List PhysChip) (n : Nat) (q : PhysChip) (b : Nat) : (q, b) ∈ pairsOf qs n ↔ q ∈ qs ∧ b < n := by
  simp [pairsOf, pairsFrom]

theorem sameWindow_of_cw {s t : State} (h : t.cw = s.cw) : SameWindow s t :=
  ⟨h, fun g off => by rw [State.windowByte, State.windowByte, h]⟩

/-- Settles O39: from an empty selection the ideal link lets every chunk through at its first attempt, pair after pair. -/
theorem programUnderIdealLink : Obligations.ProgramUnderIdealLink := by
  intro s c bs ⟨hm, hs, hio⟩ hinv hnone hrel hideal hfit
  obtain ⟨u, es, hrun, hU, honly⟩ := programChips_of_calm (ch := chunkAt Config.cfg bs) Config.cfg_wf
    (mem_chunks_length Config.cfg bs) (chunks_get bs) (by rw [length_chunks]; exact hfit) (members Config.cfg c) s
    (members_nodup Config.cfg c) (fun q hq => members_hasChip hq) ⟨hio, hnone, hideal⟩ hrel
  rw [length_chunks, chunkCount_cfg] at hU
  have hexec : exec (.prog (.chip c) (.bytes bs)) s = _ := execProg_bytes hm hs Config.cfg c bs
  rw [hrun] at hexec
  have hlive : ∀ p ∈ members Config.cfg c, s.life.get p ≠ .heldInReset := fun p hp hheld => by
    have hreset := (hinv.held p).mp hheld
    rw [hrel p hp] at hreset
    cases hreset
  refine ⟨_, es, hexec, hU.part.endsDone hU.env _, ?sent, fun p hp => ⟨?life, fun i hi => ?inside, fun i hi => ?outside⟩,
    fun p hp => ⟨?otherLife, ?otherFile⟩, sameWindow_of_cw hU.cw⟩
  case sent =>
    rw [hU.sent, progOrder_eq]
    rfl
  case life => exact (honly p).trans (if_pos ⟨hp, hlive p hp⟩)
  case inside => exact (hU.regs p i).trans (if_pos ((mem_pairsOf_iff _ _ p i).mpr ⟨hp, hi⟩))
  case outside => exact (hU.regs p i).trans (if_neg fun h => absurd ((mem_pairsOf_iff _ _ p i).mp h).2 (Nat.not_lt.mpr hi))
  case otherLife => exact (honly p).trans (if_neg fun h => hp h.1)
  case otherFile =>
    refine hU.files p fun h => hp ?_
    obtain ⟨x, hx, rfl⟩ := List.mem_map.mp h
    exact (mem_pairsOf hx).1

end Sys2Proof.Machine
end

section
/-! Proofs about the exceptions (60_exceptions.md): admission, what an error leaves, who raises it, the check of
an address, and the next program. -/

namespace Sys2Proof.Machine

/-! ## Admission -/

/-- Settles O47: every operation but OPEN is admitted by its handles before its body runs. -/
theorem notAdmitted : Obligations.NotAdmitted := by
  intro s i hi hclosed
  obtain ⟨body, hbody, -⟩ := execOf_body Config.cfg_wf s hi
  rw [← execOf_cfg, hbody, admit_of_closed hclosed]
  rfl

/-! ## What an error leaves -/

/-- An operation that ends in an architectural error took it in a state that its steps reached (R309). -/
theorem exec_error {i : Instr} {s t : State} {e : ArchError} (h : exec i s = .next t) (ho : t.outcome = .error e) :
    ∃ u, Within s u ∧ t = u.raise e := by
  have of_raise : ∀ u e', Within s u → t = u.raise e' → ∃ u, Within s u ∧ t = u.raise e := by
    rintro u e' hu rfl
    cases ho
    exact ⟨u, hu, rfl⟩
  by_cases hi : i = .openDev
  · subst hi
    obtain ⟨-, -, -, rfl | ⟨c, ht⟩⟩ := execOpen_next (g := Config.cfg) h
    · cases ho
    · exact of_raise s _ (Within.refl s) ht
  · obtain ⟨-, -, u, ⟨hu, -⟩, ⟨r, rfl⟩ | ⟨e', ht⟩⟩ := exec_next hi h
    · cases ho
    · exact of_raise u e' hu ht

/-- Settles O49: the steps before the error keep what `Within` says, and taking it clears the attempt counter and the cursor. -/
theorem errorEntry : Obligations.ErrorEntry := by
  intro i s t e h ho
  obtain ⟨u, hu, rfl⟩ := exec_error h ho
  obtain ⟨hmap, hspi⟩ := hu.handles
  obtain ⟨hprogram, -, hnames⟩ := hu.caller
  exact ⟨hu.pc, hu.result, hu.hist, hmap, hspi, hprogram, hnames, rfl, rfl⟩

/-! ## Who raises an error

Like `Res.post` for the state after a step, `Res.ErrorIn` carries a property of the error from the steps to the whole operation. -/

/-- An architectural error that stops a step meets `E`. -/
def Res.ErrorIn {α : Type} (E : ArchError → Prop) : Res α → Prop
  | .stop (.error e) _ => E e
  | _ => True

section

variable {E : ArchError → Prop}

theorem Res.ErrorIn.bind {α β : Type} {m : Res α} {k : α → State → Res β} (hm : m.ErrorIn E) (hk : ∀ v t, (k v t).ErrorIn E) :
    (m.bind k).ErrorIn E := by
  match m with
  | .ok v t => exact hk v t
  | .stop (.error e) t => exact hm
  | .stop (.fault f) t => trivial
  | .stop (.refuse r) t => trivial

/-- A step and an end that adds no error of its own. -/
theorem Res.ErrorIn.then_ok {α β : Type} {m : Res α} (hm : m.ErrorIn E) {v : α → State → β} {f : α → State → State} :
    (m.bind fun x t => .ok (v x t) (f x t)).ErrorIn E := hm.bind fun _ _ => trivial

theorem withChip_errorIn {c : ChipArg} {s : State} {k : Chip → Res Result} (hbad : ∀ id, c = .bad id → E (.invalidChip id))
    (hk : ∀ c, (k c).ErrorIn E) : (withChip c s k).ErrorIn E := by
  cases c with
  | chip c => exact hk c
  | bad id => exact hbad id rfl

theorem withAddr_errorIn {α : Type} {g : Cfg} {a : Int} {s : State} {k : Nat → Res α} (hbad : E (.unknownRegister a))
    (hk : ∀ n, (k n).ErrorIn E) : (withAddr g a s k).ErrorIn E := by
  unfold withAddr
  split
  · exact hk _
  · exact hbad

theorem withCwField_errorIn {f : FieldArg} {s : State} {k : CwField → Res Result} (hk : ∀ f, (k f).ErrorIn E) :
    (withCwField f s k).ErrorIn E := by
  cases f with
  | cw f => exact hk f
  | sw f => trivial
  | bad id => trivial

theorem withNibble_errorIn {v : Int} {s : State} {k : BitVec 4 → Res Result} (hk : ∀ v, (k v).ErrorIn E) :
    (withNibble v s k).ErrorIn E := by
  unfold withNibble
  split
  · exact hk _
  · trivial

theorem withDuration_errorIn {d : Duration} {s : State} {k : Nat → Res Result} (hk : ∀ n, (k n).ErrorIn E) :
    (withDuration d s k).ErrorIn E := by
  cases d with
  | micros n => exact hk n
  | bad id => trivial

/-! ### Accesses and transfers raise no error: what stops them is a fault or a refusal -/

theorem readReg_errorIn (g : Cfg) (r : WinReg) (s : State) : (readReg g r s).ErrorIn E := by
  unfold readReg
  split
  · trivial
  · trivial

theorem readSecond_errorIn (g : Cfg) (s : State) : (readSecond g s).ErrorIn E := by
  unfold readSecond
  split
  · exact readReg_errorIn g _ s
  · trivial

theorem writeCwReg_errorIn (g : Cfg) (v : CwWord) (s : State) : (writeCwReg g v s).ErrorIn E := by
  unfold writeCwReg
  split
  · trivial
  · trivial

theorem fieldWrite_errorIn (g : Cfg) (f : CwField) (h : BitVec 4 → BitVec 4) (s : State) : (fieldWrite g f h s).ErrorIn E :=
  (readReg_errorIn g .cw s).bind fun _ t => writeCwReg_errorIn g _ t

theorem csAssert_errorIn (g : Cfg) (c : Chip) (s : State) : (csAssert g c s).ErrorIn E := by
  unfold csAssert
  split
  · exact fieldWrite_errorIn g .cs _ s
  · exact fieldWrite_errorIn g .cs _ s

theorem csDeassert_errorIn (g : Cfg) (c : Chip) (s : State) : (csDeassert g c s).ErrorIn E := by
  unfold csDeassert
  split
  · exact fieldWrite_errorIn g .cs _ s
  · exact fieldWrite_errorIn g .cs _ s

theorem swRead_errorIn (g : Cfg) (f : SwField) (s : State) : (swRead g f s).ErrorIn E := (readReg_errorIn g _ s).then_ok

theorem spiXfer_errorIn (g : Cfg) (tx : List Byte) (s : State) : (spiXfer g tx s).ErrorIn E := by
  unfold spiXfer
  split
  · trivial
  · dsimp only
    split
    · trivial
    · split
      · trivial
      · trivial

theorem pulseReset_errorIn (g : Cfg) (c : Chip) (d : Nat) (s : State) : (pulseReset g c d s).ErrorIn E :=
  (fieldWrite_errorIn g .reset _ s).bind fun _ t =>
    Res.ErrorIn.bind (m := sleep d ((t.forget (members g c)).setLife (members g c) .heldInReset)) trivial fun _ u =>
      (fieldWrite_errorIn g .reset _ u).then_ok

theorem framed_errorIn (g : Cfg) (c : Chip) (tx : List Byte) (s : State) : (framed g c tx s).ErrorIn E :=
  (csAssert_errorIn g c s).bind fun _ t => (spiXfer_errorIn g tx t).bind fun _ u => (csDeassert_errorIn g c u).then_ok

theorem attemptWrite_errorIn (g : Cfg) (c : Chip) (a : Nat) (vb : List Byte) (s : State) : (attemptWrite g c a vb s).ErrorIn E :=
  (framed_errorIn g c _ s).bind fun _ t => (framed_errorIn g c _ t).then_ok

/-! ### A verified write raises its two errors (R224) -/

section

variable (g : Cfg) (hverify : ∀ c a, E (.writeVerification c a))
include hverify

theorem attempts_errorIn (c : Chip) (a : Nat) (vb : List Byte) :
    ∀ (left k : Nat) (s : State), (attempts g c a vb k left s).ErrorIn E
  | left, k, s => by
    unfold attempts
    refine (attemptWrite_errorIn g c a vb { s with attempt := some k }).bind fun ok t => ?_
    split
    · trivial
    · match left with
      | 0 => exact hverify c a
      | left + 1 => exact attempts_errorIn c a vb left (k + 1) t

variable (haddr : ∀ a, E (.unknownRegister a))
include haddr

theorem verifiedWrite_errorIn (c : Chip) (a : Int) (vb : List Byte) (s : State) : (verifiedWrite g c a vb s).ErrorIn E :=
  withAddr_errorIn (haddr a) fun n => attempts_errorIn g hverify c n vb _ _ s

theorem programChunks_errorIn (p : PhysChip) :
    ∀ (cs : List (List Byte)) (i : Nat) (s : State), (programChunks g p i cs s).ErrorIn E
  | [], _, _ => trivial
  | vb :: rest, i, s => (verifiedWrite_errorIn g hverify haddr (asChip p) i vb { s with cursor := some (p, i) }).bind fun _ t =>
      programChunks_errorIn p rest (i + 1) t

theorem programChips_errorIn (cs : List (List Byte)) : ∀ (ps : List PhysChip) (s : State), (programChips g cs ps s).ErrorIn E
  | [], _ => trivial
  | p :: ps, s => (programChunks_errorIn g hverify haddr p cs 0 s).bind fun _ t => programChips_errorIn cs ps (t.configured p)

end

/-- An operation that ends in an architectural error ends in one that meets `E`. -/
def RaisesOnly (E : ArchError → Prop) (o : Host.Outcome State Fault Refusal) : Prop :=
  ∀ t e, o = .next t → t.outcome = .error e → E e

theorem RaisesOnly.finish {m : Res Result} (hm : m.ErrorIn E) : RaisesOnly E (finish m) := by
  intro t e h ho
  obtain ⟨r, u, rfl, rfl⟩ | ⟨e', u, rfl, rfl⟩ := finish_next h
  · cases ho
  · cases ho
    exact hm

theorem RaisesOnly.admitted {s : State} {body : State → Res Result} (hb : (body s).ErrorIn E) :
    RaisesOnly E (admitted s body) := by
  intro t e h
  obtain ⟨-, -, hf⟩ := admit_next h
  exact RaisesOnly.finish hb t e hf

end

/-! ### The taxonomy of R300 -/

/-- The chip operand of an instruction (R303). -/
def chipOperand : Instr → Option ChipArg
  | .cwSet _ c | .cwClear _ c | .csAssert c | .csDeassert c | .wrv c _ _ | .reset c _ | .prog c _ => some c
  | _ => none

/-- Whether an instruction checks a register address (R302): those of the catalog, WRV, and PROG for each of its chunks. -/
def checksAddr : Instr → Bool
  | .catSiglen _ | .catMask _ | .catLayout _ | .catPack _ _ | .catUnpack _ _ | .wrv _ _ _ | .prog _ _ => true
  | _ => false

/-- Whether an instruction makes verified writes (R304). -/
def verifies : Instr → Bool
  | .wrv _ _ _ | .prog _ _ => true
  | _ => false

/-- The errors that the taxonomy lets an instruction raise (R300 to R305). -/
def MayRaise (i : Instr) : ArchError → Prop
  | .deviceOpen _ => i = .openDev
  | .unknownRegister _ => checksAddr i = true
  | .invalidChip id => chipOperand i = some (.bad id)
  | .writeVerification _ _ => verifies i = true
  | .configBlob => ∃ c, i = .prog c .unreadable

/-- An identifier that names no chip, as the chip operand of `i`, is one that `i` may name in an InvalidChipError. -/
theorem mayRaise_invalidChip {i : Instr} {c : ChipArg} (hi : chipOperand i = some c) (id : Text) (hc : c = .bad id) :
    MayRaise i (.invalidChip id) := hi.trans (congrArg some hc)

theorem execOf_raisesOnly (g : Cfg) (i : Instr) (s : State) : RaisesOnly (MayRaise i) (execOf g i s) := by
  cases i <;> simp only [execOf]
  case frameW a v => exact RaisesOnly.admitted (spiXfer_errorIn g _ s).then_ok
  case frameR a d => exact RaisesOnly.admitted (spiXfer_errorIn g _ s).then_ok
  case openDev =>
    refine RaisesOnly.finish ?_
    split_ifs
    · trivial
    · rfl
    · rfl
    · trivial
  case catSiglen a => exact RaisesOnly.admitted (withAddr_errorIn rfl fun _ => trivial)
  case catMask a => exact RaisesOnly.admitted (withAddr_errorIn rfl fun _ => trivial)
  case catLayout a => exact RaisesOnly.admitted (withAddr_errorIn rfl fun _ => trivial)
  case catPack a xs =>
    refine RaisesOnly.admitted (withAddr_errorIn rfl fun n => ?_)
    split
    · trivial
    · trivial
  case catUnpack a v => exact RaisesOnly.admitted (withAddr_errorIn rfl fun _ => trivial)
  case cwRead f =>
    refine RaisesOnly.admitted ?_
    cases f with
    | cw f => exact (readReg_errorIn g _ s).then_ok
    | sw f => trivial
    | bad id => trivial
  case cwAssign f v =>
    exact RaisesOnly.admitted (withCwField_errorIn fun f => withNibble_errorIn fun v => (fieldWrite_errorIn g f _ s).then_ok)
  case cwSet f c =>
    exact RaisesOnly.admitted (withChip_errorIn (mayRaise_invalidChip rfl) fun c =>
      withCwField_errorIn fun f => (fieldWrite_errorIn g f _ s).then_ok)
  case cwClear f c =>
    exact RaisesOnly.admitted (withChip_errorIn (mayRaise_invalidChip rfl) fun c =>
      withCwField_errorIn fun f => (fieldWrite_errorIn g f _ s).then_ok)
  case swRead f =>
    refine RaisesOnly.admitted ?_
    cases f with
    | sw f => exact (swRead_errorIn g f s).then_ok
    | cw f => trivial
    | bad id => trivial
  case spiXfer tx => exact RaisesOnly.admitted (spiXfer_errorIn g tx s).then_ok
  case csAssert c =>
    exact RaisesOnly.admitted (withChip_errorIn (mayRaise_invalidChip rfl) fun c => (csAssert_errorIn g c s).then_ok)
  case csDeassert c =>
    exact RaisesOnly.admitted (withChip_errorIn (mayRaise_invalidChip rfl) fun c => (csDeassert_errorIn g c s).then_ok)
  case vcmp a w r =>
    refine RaisesOnly.admitted ?_
    split
    · trivial
    · trivial
  case wrv c a vb =>
    refine RaisesOnly.admitted (withChip_errorIn (mayRaise_invalidChip rfl) fun c => ?_)
    split
    · exact (verifiedWrite_errorIn g (fun _ _ => rfl) (fun _ => rfl) c a vb s).then_ok
    · trivial
  case setClk code =>
    exact RaisesOnly.admitted (withNibble_errorIn fun v => (fieldWrite_errorIn g .sysclk _ s).then_ok)
  case reset c d =>
    exact RaisesOnly.admitted (withChip_errorIn (mayRaise_invalidChip rfl) fun c =>
      withDuration_errorIn fun d => (pulseReset_errorIn g c d s).then_ok)
  case setTrig m =>
    refine RaisesOnly.admitted ?_
    cases m with
    | mode m => exact (fieldWrite_errorIn g .hold _ s).then_ok
    | bad id => trivial
  case rdErr => exact RaisesOnly.admitted (swRead_errorIn g .err s).then_ok
  case rdTemp =>
    exact RaisesOnly.admitted ((readReg_errorIn g _ s).bind fun _ t => (readSecond_errorIn g t).then_ok)
  case prog c b =>
    refine RaisesOnly.admitted (withChip_errorIn (mayRaise_invalidChip rfl) fun c' => ?_)
    cases b with
    | bytes bs => exact (programChips_errorIn g (fun _ _ => rfl) (fun _ => rfl) _ _ s).then_ok
    | unreadable => exact ⟨c, rfl⟩
  case sleep d =>
    exact RaisesOnly.admitted (withDuration_errorIn fun d => Res.ErrorIn.then_ok (m := sleep d s) trivial)

/-- Settles O50: an operation raises only the errors that `MayRaise` lists, and the listed instructions are those of the taxonomy. -/
theorem errorsHaveRaisers : Obligations.ErrorsHaveRaisers := by
  intro i s t e h ho
  have hmay : MayRaise i e := execOf_raisesOnly Config.cfg i s t e (by rwa [execOf_cfg]) ho
  cases e with
  | deviceOpen c => exact ⟨rfl, hmay⟩
  | unknownRegister a =>
    refine ⟨rfl, ?_⟩
    have haddr : checksAddr i = true := hmay
    unfold checksAddr at haddr
    split at haddr <;> cases haddr <;> simp
  | invalidChip id =>
    refine ⟨rfl, ?_⟩
    have hchip : chipOperand i = some (.bad id) := hmay
    unfold chipOperand at hchip
    split at hchip <;> cases hchip <;> simp
  | writeVerification c a =>
    refine ⟨rfl, ?_⟩
    have hwrite : verifies i = true := hmay
    unfold verifies at hwrite
    split at hwrite <;> cases hwrite <;> simp
  | configBlob => exact ⟨rfl, hmay⟩

/-! ## An address outside the register space -/

theorem withAddr_of_outside {α : Type} {g : Cfg} {a : Int} (ha : a < 0 ∨ (g.nreg : Int) ≤ a) (s : State) (k : Nat → Res α) :
    withAddr g a s k = .stop (.error (.unknownRegister a)) s := by
  rw [withAddr, checkAddr_of_outside ha]

/-- Settles O12: nothing before the address check accesses the machine; WRV has only checked its chip and its length (R308). -/
theorem unknownRegisterRaised : Obligations.UnknownRegisterRaised := by
  intro s a i hm hs ha hi
  have houtside : a < 0 ∨ (Config.cfg.nreg : Int) ≤ a := ha
  suffices hrun : exec i s = .next (s.raise (.unknownRegister a)) from
    ⟨_, hrun, endsInError_raise s _, untouched_raise s _⟩
  rcases hi with rfl | rfl | rfl | ⟨xs, rfl⟩ | ⟨v, rfl⟩ | ⟨c, vb, rfl, hvb⟩
  · rw [exec, execCatSiglen, admit_of_ready hm hs, withAddr_of_outside houtside, finish_error]
  · rw [exec, execCatMask, admit_of_ready hm hs, withAddr_of_outside houtside, finish_error]
  · rw [exec, execCatLayout, admit_of_ready hm hs, withAddr_of_outside houtside, finish_error]
  · rw [exec, execCatPack, admit_of_ready hm hs, withAddr_of_outside houtside, finish_error]
  · rw [exec, execCatUnpack, admit_of_ready hm hs, withAddr_of_outside houtside, finish_error]
  · rw [exec, execWrv, admit_of_ready hm hs, withChip, valueBytes_cfg, if_pos hvb, verifiedWrite,
      withAddr_of_outside houtside, Res.stop_bind, finish_error]

/-! ## The next program -/

theorem mayRestart_eq_false_iff {s : State} : s.mayRestart = false ↔ ∃ c, s.outcome = .error (.deviceOpen c) := by
  unfold State.mayRestart
  split
  · rename_i c h
    exact ⟨fun _ => ⟨c, h⟩, fun _ => rfl⟩
  · rename_i h
    exact ⟨fun hf => (Bool.noConfusion hf), fun ⟨c, hc⟩ => (h c hc).elim⟩

/-- A block whose program is done or ended in an error waits for its caller (R310, R340). -/
theorem step_of_ended {s : State} (hcaller : s.env.secondCaller = false) (hended : s.outcome = .done ∨ ∃ e, s.outcome = .error e) :
    step s = awaitCaller s.pending s := by
  rcases hended with ho | ⟨e, ho⟩ <;> simp [step, runStep, ho, hcaller]

/-- Settles O52: the wait for the caller starts its next program unless the construction has failed. -/
theorem newProgramStarts : Obligations.NewProgramStarts := by
  intro s hcaller hended
  rw [step_of_ended hcaller hended]
  refine ⟨fun hnone => ?idle, fun p ps hnext => ⟨fun hopen => ?starts, fun hopen => ?refused⟩⟩
  case idle => rw [hnone, awaitCaller]
  case starts =>
    have hmay : s.mayRestart = true := by
      rw [← Bool.not_eq_false, mayRestart_eq_false_iff]
      exact fun ⟨c, hc⟩ => hopen c hc
    rw [hnext, awaitCaller, if_pos hmay]
    rfl
  case refused =>
    rw [hnext, awaitCaller, mayRestart_eq_false_iff.mpr hopen]
    rfl

end Sys2Proof.Machine
end

section
/-! Proofs about the reset and the construction (70_reset_and_hazards.md): the pulse of R255 and the handles of R280. -/

namespace Sys2Proof.Machine

/-! ## The reset pulse -/

/-- A control word that keeps a chip's reset bit leaves the chip alone (R290). -/
theorem writeCw_get_of_same_reset {g : Cfg} {s : State} {w : CwWord} {p : PhysChip} (h : resetBit g w p = resetBit g s.cw p) :
    (s.writeCw g w).life.get p = s.life.get p ∧ (s.writeCw g w).regs.get p = s.regs.get p := by
  rw [State.writeCw_get_life, State.writeCw_get_regs, h]
  cases resetBit g s.cw p <;> exact ⟨rfl, rfl⟩

/-- The control word with the chips of the operand held in reset (R153). -/
def heldWord (g : Cfg) (w : CwWord) (c : Chip) : CwWord := putField g w .reset (getField g w .reset ||| amask g c)

/-- The control word with the chips of the operand not held in reset (R154). -/
def releasedWord (g : Cfg) (w : CwWord) (c : Chip) : CwWord := putField g w .reset (getField g w .reset &&& dmask g c)

/-- The state in the middle of a reset pulse, after its sleep (R255). -/
def State.pulseHeld (g : Cfg) (s : State) (c : Chip) (d : Nat) : State :=
  (((s.wroteCw g (heldWord g s.cw c)).forget (members g c)).setLife (members g c) .heldInReset).record (.sleep d)

/-- The state at the end of a reset pulse (R255, R256). -/
def State.pulsed (g : Cfg) (s : State) (c : Chip) (d : Nat) : State :=
  ((s.pulseHeld g c d).wroteCw g (releasedWord g (heldWord g s.cw c) c)).setLife (members g c) .released

/-- Both writes go through where no access failure is drawn (R255). -/
theorem pulseReset_eq (g : Cfg) (c : Chip) (d : Nat) {s : State} (hio : s.env.ioFailure = none) :
    pulseReset g c d s = .ok () (s.pulsed g c d) := by
  have hclear : cwClear g .reset c (s.pulseHeld g c d) =
      .ok () ((s.pulseHeld g c d).wroteCw g (releasedWord g (heldWord g s.cw c) c)) := cwClear_eq g .reset c hio
  rw [pulseReset, cwSet_eq g .reset c hio, Res.ok_bind, sleep, Res.ok_bind]
  exact congrArg (Res.bind · _) hclear

/-- RESET of an open device is the pulse (R255). -/
theorem execReset_of_ready (g : Cfg) {s : State} (hs : Ready s) (c : Chip) (d : Nat) :
    execReset (.chip c) (.micros d) s g = .next ((s.pulsed g c d).complete .none) := by
  obtain ⟨hmap, hspi, hio⟩ := hs
  rw [execReset, admit_of_ready hmap hspi, withChip, withDuration, pulseReset_eq g c d hio, Res.ok_bind, finish_ok]

/-- The five events of the pulse (R255). -/
theorem pulsed_hist (g : Cfg) (s : State) (c : Chip) (d : Nat) :
    (s.pulsed g c d).hist = s.hist ++ (cwWriteEvents g s.cw (heldWord g s.cw c) ++ [.sleep d] ++
      cwWriteEvents g (heldWord g s.cw c) (releasedWord g (heldWord g s.cw c) c)) := by
  simp only [State.pulsed, State.pulseHeld, State.setLife_hist, State.wroteCw_hist, State.record_hist, State.forget_hist,
    State.record_cw, State.setLife_cw, State.forget_cw, State.wroteCw_cw, List.append_assoc]

theorem endsDone_pulsed (g : Cfg) (s : State) (c : Chip) (d : Nat) (r : Result) :
    EndsDone s ((s.pulsed g c d).complete r) r (cwWriteEvents g s.cw (heldWord g s.cw c) ++ [.sleep d] ++
      cwWriteEvents g (heldWord g s.cw c) (releasedWord g (heldWord g s.cw c) c)) :=
  ⟨rfl, rfl, pulsed_hist g s c d, rfl, ⟨rfl, rfl⟩, ⟨rfl, rfl⟩, ⟨rfl, rfl, rfl⟩, rfl⟩

theorem resetBit_heldWord_of_not_mem {g : Cfg} (hg : g.wf) (w : CwWord) {c : Chip} {p : PhysChip} (hp : p ∉ members g c) :
    resetBit g (heldWord g w c) p = resetBit g w p := by
  rw [heldWord, resetBit_set hg, decide_eq_false hp, Bool.false_or]

theorem resetBit_releasedWord_of_mem {g : Cfg} (hg : g.wf) (w : CwWord) {c : Chip} {p : PhysChip} (hp : p ∈ members g c) :
    resetBit g (releasedWord g w c) p = false := by
  rw [releasedWord, resetBit_clear hg, decide_eq_true hp, Bool.not_true, Bool.false_and]

theorem resetBit_releasedWord_of_not_mem {g : Cfg} (hg : g.wf) (w : CwWord) {c : Chip} {p : PhysChip} (hp : p ∉ members g c) :
    resetBit g (releasedWord g w c) p = resetBit g w p := by
  rw [releasedWord, resetBit_clear hg, decide_eq_false hp, Bool.not_false, Bool.true_and]

/-- A chip of the operand ends the pulse released, with no register known (R256, R290). -/
theorem pulsed_of_mem (g : Cfg) (s : State) {c : Chip} (d : Nat) {p : PhysChip} (hp : p ∈ members g c) :
    (s.pulsed g c d).life.get p = .released ∧ (s.pulsed g c d).regs.get p = [] := by
  have hforgot : (s.pulseHeld g c d).regs.get p = [] := by
    rw [State.pulseHeld, State.record_regs, State.setLife_regs, State.forget_get_regs, if_pos hp]
  rw [State.pulsed, State.setLife_get_life, if_pos hp, State.setLife_regs, State.wroteCw_regs, State.writeCw_get_regs, hforgot,
    ite_self]
  exact ⟨rfl, rfl⟩

/-- A chip outside the operand is after the pulse as it was before (R255). -/
theorem pulsed_of_not_mem {g : Cfg} (hg : g.wf) (s : State) {c : Chip} (d : Nat) {p : PhysChip} (hp : p ∉ members g c) :
    (s.pulsed g c d).life.get p = s.life.get p ∧ (s.pulsed g c d).regs.get p = s.regs.get p := by
  obtain ⟨hlife, hregs⟩ := writeCw_get_of_same_reset (s := s) (resetBit_heldWord_of_not_mem hg s.cw hp)
  obtain ⟨hlife', hregs'⟩ := writeCw_get_of_same_reset (s := s.pulseHeld g c d)
    (resetBit_releasedWord_of_not_mem hg (heldWord g s.cw c) hp)
  rw [State.pulsed, State.setLife_get_life, if_neg hp, State.setLife_regs, State.wroteCw_life, State.wroteCw_regs, hlife', hregs',
    State.pulseHeld, State.record_life, State.record_regs, State.setLife_get_life, if_neg hp, State.setLife_regs,
    State.forget_life, State.forget_get_regs, if_neg hp]
  exact ⟨hlife, hregs⟩

/-- Settles O37: the operation is the pulse, whose middle word sets the reset bits of the chips that its last word clears. -/
theorem resetPulse : Obligations.ResetPulse := by
  intro s c d hready
  have hwf := Config.cfg_wf
  refine ⟨_, heldWord Config.cfg s.cw c, execReset_of_ready Config.cfg hready c d, endsDone_pulsed Config.cfg s c d .none,
    fieldSet_putField hwf s.cw .reset _, fieldSet_putField hwf (heldWord Config.cfg s.cw c) .reset _, fun p hp => ?member,
    fun p hp => ?other⟩
  case member =>
    obtain ⟨hlife, hregs⟩ := pulsed_of_mem Config.cfg s d hp
    refine ⟨resetBit_releasedWord_of_mem hwf _ hp, hlife, fun a => ?_⟩
    rw [State.reg, State.complete_regs, hregs, RegFile.read]
  case other =>
    exact ⟨(resetBit_releasedWord_of_not_mem hwf _ hp).trans (resetBit_heldWord_of_not_mem hwf _ hp),
      pulsed_of_not_mem hwf s d hp⟩

/-! ## The construction -/

/-- OPEN as the first operation tries the window and then the bus (R280). -/
theorem execOpen_of_first {s : State} (g : Cfg) (hm : s.mapOK = false) (hs : s.spiOK = false) (hpc : s.pc = 0)
    (hmay : s.mayRestart = true) :
    execOpen s g = finish (
      if !s.env.canMap then .stop (.error (.deviceOpen .mmap)) s
      else if !s.env.canOpenSpi then .stop (.error (.deviceOpen .spi)) s
      else .ok .none { s with mapOK := true, spiOK := true }) := by
  simp [execOpen, hm, hs, hpc, hmay]

/-- OPEN at any other place is refused (D35). -/
theorem execOpen_of_later {s : State} (g : Cfg) (h : s.mapOK = true ∨ s.spiOK = true ∨ s.pc ≠ 0) :
    execOpen s g = .refused (s.decline .openNotFirst) := by
  have hlater : (s.mapOK || s.spiOK || s.pc != 0 || !s.mayRestart) = true := by
    rcases h with h | h | h <;> simp [h]
  rw [execOpen, if_pos hlater, finish_refuse]

/-- Settles O43: the first OPEN ends as its two draws say, and every other one meets the check of its place. -/
theorem openConstructs : Obligations.OpenConstructs := by
  refine ⟨fun s hm hs hpc hrunning => ?first, fun s hlater => execOpen_of_later Config.cfg hlater⟩
  have hmay : s.mayRestart = true := by rw [State.mayRestart, hrunning]
  have hopen : exec .openDev s = _ := execOpen_of_first Config.cfg hm hs hpc hmay
  rw [hopen]
  refine ⟨fun hmap hspi => ?both, fun hmap => ?window, fun hmap hspi => ?bus⟩
  case both => simp [hmap, hspi, State.complete, hpc]
  case window =>
    refine ⟨s.raise (.deviceOpen .mmap), ?_, endsInError_raise s _, untouched_raise s _⟩
    simp [hmap]
  case bus =>
    refine ⟨s.raise (.deviceOpen .spi), ?_, endsInError_raise s _, untouched_raise s _⟩
    simp [hmap, hspi]

end Sys2Proof.Machine
end

section
/-! Proofs about the encodings (30_encoding.md): a well-formed instruction reads back as it was written, in a frame, in a line, or in a
line that names its result. -/

namespace Sys2Proof.Machine

/-! ## Lines of text -/

/-- The law `BuildParts` holds of every constructor. -/
theorem build_parts : ∀ i : Instr, Laws.BuildParts.Statement i
  | .frameW a v => Laws.BuildParts.frameW a v
  | .frameR a d => Laws.BuildParts.frameR a d
  | .openDev => Laws.BuildParts.openDev
  | .catSiglen a => Laws.BuildParts.catSiglen a
  | .catMask a => Laws.BuildParts.catMask a
  | .catLayout a => Laws.BuildParts.catLayout a
  | .catPack a xs => Laws.BuildParts.catPack a xs
  | .catUnpack a v => Laws.BuildParts.catUnpack a v
  | .cwRead f => Laws.BuildParts.cwRead f
  | .cwAssign f v => Laws.BuildParts.cwAssign f v
  | .cwSet f c => Laws.BuildParts.cwSet f c
  | .cwClear f c => Laws.BuildParts.cwClear f c
  | .swRead f => Laws.BuildParts.swRead f
  | .spiXfer tx => Laws.BuildParts.spiXfer tx
  | .csAssert c => Laws.BuildParts.csAssert c
  | .csDeassert c => Laws.BuildParts.csDeassert c
  | .vcmp a w r => Laws.BuildParts.vcmp a w r
  | .wrv c a vb => Laws.BuildParts.wrv c a vb
  | .setClk v => Laws.BuildParts.setClk v
  | .reset c d => Laws.BuildParts.reset c d
  | .setTrig m => Laws.BuildParts.setTrig m
  | .rdErr => Laws.BuildParts.rdErr
  | .rdTemp => Laws.BuildParts.rdTemp
  | .prog c b => Laws.BuildParts.prog c b
  | .sleep d => Laws.BuildParts.sleep d

/-- The mnemonic and the operands of an instruction are read as it. -/
theorem parseOp_toks {g : Cfg} {i : Instr} {m : Mnem} {args : List Arg} (h : build m args g = some i) (dest : Option Text) :
    parseOp dest (.word m.text :: argToks args) g = .ok ⟨dest, i⟩ := by
  simp only [parseOp, parseMnem_text, operands_toks, h]

/-- No operand sequence begins with two words, so a line without an arrow is an operation. -/
theorem parseLine_toks (w : Text) (args : List Arg) (g : Cfg) :
    parseLine (.word w :: argToks args) g = parseOp none (.word w :: argToks args) g := by
  match args with
  | [] => rfl
  | [.word _] => rfl
  | .word _ :: _ :: _ => rfl
  | [.list _] => rfl
  | .list _ :: _ :: _ => rfl

/-- A text that is no frame is the line that its words are read as. -/
theorem decode_of_text {g : Cfg} {bs : List Byte} {l : Line} (hframe : decodeFrame bs g = none)
    (hline : parseLine (lex [] bs) g = .ok l) : decode bs g = .ok l := by
  simp only [decode, hframe, hline]

theorem encode_of_parts {i : Instr} {m : Mnem} {args : List Arg} (h : i.parts = some (m, args)) (g : Cfg) :
    encode i g = opText m args := by
  unfold encode
  split
  · cases h
  · cases h
  · rw [h]

/-- The text of an operation reads back, where no frame begins like a mnemonic (R112, notes/assumptions/4.md). -/
theorem decode_encode_of_parts {g : Cfg} (hg : g.nreg ≤ 28) {i : Instr} (hi : i.wf g = true) {m : Mnem} {args : List Arg}
    (h : i.parts = some (m, args)) : decode (encode i g) g = .ok ⟨none, i⟩ := by
  obtain ⟨hbuild, hplain⟩ := build_parts i g hi m args h
  rw [encode_of_parts h]
  refine decode_of_text (decodeFrame_opText hg m args) ?_
  rw [lex_opText m hplain, parseLine_toks, parseOp_toks hbuild]

/-! ## Frames -/

theorem wireBytes_length (g : Cfg) (v : Word) : (wireBytes g v).length = g.valueBytes := by
  unfold wireBytes
  cases g.wireByteOrder
  · exact beBytes_length _ v
  · exact (List.length_reverse ..).trans (beBytes_length _ v)

/-- A value of `valueBits` bits has no others (R7). -/
theorem and_valueMask_of_isValue {g : Cfg} (hg : g.wf) {v : Word} (hv : isValue v g = true) : v &&& lowMask g.valueBits = v := by
  obtain ⟨-, -, hbits⟩ := hg.value
  refine BitVec.eq_of_toNat_eq ?_
  rw [toNat_and_lowMask hbits, Nat.mod_eq_of_lt (of_decide_eq_true hv)]

theorem cmdByte_address (a : BitVec 7) (w : Bool) : (cmdByte a.toNat w).extractLsb' 1 7 = a := by
  rw [cmdByte_eq_append, BitVec.extractLsb'_append_eq_left]

/-- The bytes of a frame that names a register address are the frame of their fields (R103). -/
theorem decodeFrame_frameBytes {g : Cfg} (hg : g.wf) {a : BitVec 7} (ha : isRegAddr a.toNat g = true) {v : Word}
    (hv : isValue v g = true) (w : Bool) :
    decodeFrame (frameBytes a w v g) g = some (if w then .frameW a v else .frameR a v) := by
  have hlen : (wireBytes g v).length + 1 = g.frameLen := by rw [wireBytes_length, frameLen_eq hg]
  have hvalue : valueOf g (wireBytes g v) = v := (valueOf_wireBytes hg v).trans (and_valueMask_of_isValue hg hv)
  rw [frameBytes, decodeFrame, cmdByte_address, cmdByte_flag, hvalue, if_pos ⟨hlen, ha⟩]
  cases w <;> rfl

theorem decode_of_frame {g : Cfg} {bs : List Byte} {i : Instr} (h : decodeFrame bs g = some i) : decode bs g = .ok ⟨none, i⟩ := by
  simp only [decode, h]

theorem decode_encode {g : Cfg} (hg : g.wf) (hreg : g.nreg ≤ 28) {i : Instr} (hi : i.wf g = true) :
    decode (encode i g) g = .ok ⟨none, i⟩ := by
  cases hparts : i.parts with
  | some p => exact decode_encode_of_parts hreg hi hparts
  | none =>
    cases i with
    | frameW a v =>
      obtain ⟨ha, hv⟩ := (Bool.and_eq_true _ _).mp hi
      exact decode_of_frame (decodeFrame_frameBytes hg ha hv true)
    | frameR a d =>
      obtain ⟨ha, hd⟩ := (Bool.and_eq_true _ _).mp hi
      exact decode_of_frame (decodeFrame_frameBytes hg ha hd false)
    | _ => cases hparts

/-- Settles O3: an instruction without a mnemonic is a frame; every other one is cut into its mnemonic and operands again. -/
theorem decodeEncodeRoundTrip : Obligations.DecodeEncodeRoundTrip :=
  ⟨fun _ => decode_encode Config.cfg_wf le_rfl, fun _ _ hg hreg => decode_encode hg hreg⟩

/-! ## A line that names its result -/

/-- The text between a name and its operation (R121). -/
theorem arrow_text : ascii " <- ".toList = 0x20#8 :: arrow ++ [0x20#8] := by decide

/-- A text of another length than a frame's is no frame. -/
theorem decodeFrame_of_length_ne {g : Cfg} {bs : List Byte} (h : bs.length ≠ g.frameLen) : decodeFrame bs g = none := by
  unfold decodeFrame
  split
  · rfl
  · exact if_neg fun hc => h hc.1

/-- Every mnemonic has at least three letters. -/
theorem three_le_opText_length (m : Mnem) (args : List Arg) : 3 ≤ (opText m args).length := by
  have hm : 3 ≤ m.text.length := by cases m <;> decide
  unfold opText
  split
  · exact hm
  · rw [List.length_append]
    exact hm.trans (Nat.le_add_right ..)

/-- Settles O4: the line is longer than a frame, and its second word is the arrow. -/
theorem namedLineDecodes : Obligations.NamedLineDecodes := by
  intro r i hr hi hop
  obtain ⟨⟨m, args⟩, hparts⟩ := Option.isSome_iff_exists.mp hop
  obtain ⟨hbuild, hplain⟩ := build_parts i Config.cfg hi m args hparts
  have hline : r ++ ascii " <- ".toList ++ encode i = r ++ 0x20#8 :: (arrow ++ 0x20#8 :: opText m args) := by
    rw [encode_of_parts hparts, arrow_text]
    simp
  have hlong : (r ++ 0x20#8 :: (arrow ++ 0x20#8 :: opText m args)).length ≠ Config.cfg.frameLen := by
    have hname : 1 ≤ r.length := List.length_pos_iff.mpr (isWord_iff.mp hr).1
    have hop := three_le_opText_length m args
    have hframe : Config.cfg.frameLen = 5 := rfl
    have harrow : arrow.length = 2 := rfl
    simp only [List.length_append, List.length_cons, harrow, hframe]
    omega
  rw [hline]
  refine decode_of_text (decodeFrame_of_length_ne hlong) ?_
  rw [lex_word_space hr, lex_word_space (by decide : isWord arrow = true), lex_opText m hplain, parseLine, if_pos rfl,
    parseOp_toks hbuild]

/-! ## Table words -/

/-- The 40-bit word of a frame has the command byte first and the value bytes after it (R103). -/
theorem tableBytes_frame (a : BitVec 7) (w : Bool) (v : BitVec 32) :
    tableBytes 40 (a ++ BitVec.ofBool w ++ v).toNat = frameBytes a w v := by
  have hbyte : ∀ k, BitVec.ofNat 8 ((a ++ BitVec.ofBool w ++ v).toNat / 2 ^ (8 * k)) =
      (a ++ BitVec.ofBool w ++ v).extractLsb' (8 * k) 8 := fun k => by
    rw [BitVec.extractLsb', Nat.shiftRight_eq_div_pow]
  have hcmd : (a ++ BitVec.ofBool w ++ v).extractLsb' 32 8 = cmdByte a.toNat w := by
    rw [cmdByte_eq_append]
    exact BitVec.extractLsb'_append_eq_left
  have hvalue : ∀ k, k < 4 → (a ++ BitVec.ofBool w ++ v).extractLsb' (8 * k) 8 = v.extractLsb' (8 * k) 8 := fun k hk =>
    BitVec.extractLsb'_append_eq_of_add_le (by omega)
  have hrange : (List.range ((40 + 7) / 8)).reverse = [4, 3, 2, 1, 0] := rfl
  simp only [tableBytes, hrange, List.map_cons, List.map_nil, hbyte]
  rw [hvalue 3 (by decide), hvalue 2 (by decide), hvalue 1 (by decide), hvalue 0 (by decide), hcmd]
  rfl

theorem isValue_cfg (v : Word) : isValue v = true := decide_eq_true v.isLt

/-- A frame of a reserved address is none that a chip decodes (R112). -/
theorem decodeFrame_reserved {g : Cfg} {a : BitVec 7} (ha : g.nreg ≤ a.toNat) (w : Bool) (v : Word) :
    decodeFrame (frameBytes a w v g) g = none := by
  rw [frameBytes, decodeFrame, cmdByte_address]
  exact if_neg fun hc => absurd (of_decide_eq_true hc.2) (Nat.not_lt.mpr ha)

/-- Operands build no frame. -/
theorem parts_isSome_of_build {k : Mnem} {args : List Arg} {g : Cfg} {i : Instr} (h : build k args g = some i) :
    i.parts.isSome = true := by
  cases i with
  | frameW a v => unfold build at h; split at h <;> simp [Option.bind_eq_some_iff] at h
  | frameR a v => unfold build at h; split at h <;> simp [Option.bind_eq_some_iff] at h
  | _ => rfl

theorem parts_isSome_of_parseOp {dest : Option Text} {ts : List Tok} {g : Cfg} {l : Line} (h : parseOp dest ts g = .ok l) :
    l.op.parts.isSome = true := by
  unfold parseOp at h
  split at h
  · cases h
  · split at h
    · cases h
    · cases h
    · split at h
      · cases h
        exact parts_isSome_of_build ‹_›
      · cases h
  · cases h

/-- A line of text is no frame. -/
theorem parts_isSome_of_parseLine {ts : List Tok} {g : Cfg} {l : Line} (h : parseLine ts g = .ok l) :
    l.op.parts.isSome = true := by
  unfold parseLine at h
  split at h
  · split at h
    · exact parts_isSome_of_parseOp h
    · exact parts_isSome_of_parseOp h
  · exact parts_isSome_of_parseOp h

/-- Bytes that are no frame decode to an operation written as text, if to any. -/
theorem parts_isSome_of_decode {bs : List Byte} {g : Cfg} {l : Line} (hframe : decodeFrame bs g = none)
    (h : decode bs g = .ok l) : l.op.parts.isSome = true := by
  simp only [decode, hframe] at h
  split at h
  · split at h <;> cases h
  · exact parts_isSome_of_parseLine h

theorem parts_isSome_of_decodeTableWord {nbits w : Nat} {i : Instr} (hframe : decodeFrame (tableBytes nbits w) = none)
    (h : decodeTableWord nbits w = some i) : i.parts.isSome = true := by
  unfold decodeTableWord at h
  split at h
  · split at h
    · cases h
      exact parts_isSome_of_decode hframe ‹_›
    · cases h
  · cases h

/-- Settles O5: the word's bytes are those of the frame of its fields, which is tried first; text never stands for a frame. -/
theorem frameWords : Obligations.FrameWords := by
  intro a w v
  refine ⟨fun ha => ?frame, fun ha b u => ?reserved⟩
  case frame =>
    have hframe := decodeFrame_frameBytes Config.cfg_wf (decide_eq_true (Nat.lt_succ_of_le ha)) (isValue_cfg v) w
    rw [decodeTableWord, tableBytes_frame, decode_of_frame hframe]
    rfl
  case reserved =>
    have hnone : decodeFrame (tableBytes 40 (a ++ BitVec.ofBool w ++ v).toNat) = none := by
      rw [tableBytes_frame]
      exact decodeFrame_reserved (g := Config.cfg) ha w v
    constructor <;>
    · intro h
      exact Bool.noConfusion (parts_isSome_of_decodeTableWord hnone h)

/-- Settles O1: the decoder evaluates each of the six texts to its operation. -/
theorem knownWordsDecode : Obligations.KnownWordsDecode := by
  unfold Obligations.KnownWordsDecode
  decide +kernel

end Sys2Proof.Machine
end

section
/-! Proofs about power-on and the sequencer (10_state.md): the invariant of a run, what a step runs, and how a run ends. -/

namespace Sys2Proof.Machine

/-! ## The invariant -/

theorem RunInv.chipsOK {s : State} (h : RunInv s) : ChipsOK Config.cfg s := ⟨h.regs, h.word, h.held, h.forgotten, h.oneMode⟩

/-- A state with the chips of one that meets the chips' part meets the invariant where the sequencer and the handles do. -/
theorem ChipsOK.runInv {s t : State} (h : ChipsOK Config.cfg s) (hcw : t.cw = s.cw) (hregs : t.regs = s.regs) (hlife : t.life = s.life)
    (hbetween : t.attempt = none ∧ t.cursor = none) (hhandles : t.mapOK = t.spiOK) (hunopened : t.mapOK = false → t.hist = [])
    (hpc : t.pc ≤ t.program.length) : RunInv t :=
  ⟨by rw [hregs]; exact h.regs, by rw [hcw]; exact h.word, by rw [hcw, hlife]; exact h.held,
    by rw [hcw, hregs]; exact h.forgotten, by rw [hlife]; exact h.oneMode, hbetween, hhandles, hunopened, hpc⟩

/-- The lifecycle of a chip at power-on is read off its reset bit (R48). -/
theorem powerOn_life (cw0 : CwWord) (g : Cfg) (p : PhysChip) :
    (State.powerOn cw0 g).life.get p = if resetBit g (State.powerOn cw0 g).cw p then .heldInReset else .unknown := by
  rw [resetBit_eq, getField_bit g _ _ _ (chipIdx_lt p), State.powerOn, PerChip.get_ofFn]

theorem powerOn_regs (cw0 : CwWord) (g : Cfg) (p : PhysChip) : (State.powerOn cw0 g).regs.get p = [] := by cases p <;> rfl

/-- Settles O58: the lifecycle of each chip is read off its reset bit; the other fields are written out. -/
theorem powerOnState : Obligations.PowerOnState := by
  refine fun cw0 g => ⟨rfl, fun p a => ?_, powerOn_life cw0 g, rfl, rfl, rfl, rfl, rfl, rfl, rfl⟩
  rw [State.reg, powerOn_regs, RegFile.read]

theorem runInv_powerOn (cw0 : CwWord) : RunInv (State.powerOn cw0) := by
  refine ⟨fun p => ?regs, ?word, fun p => ?held, fun p _ => powerOn_regs cw0 _ p, fun p q m m' hp => ?oneMode, ⟨rfl, rfl⟩, rfl,
    fun _ => rfl, Nat.zero_le _⟩
  case regs => rw [powerOn_regs]; exact RegFile.wf_nil _
  case word => show cw0 &&& _ &&& _ = cw0 &&& _; rw [BitVec.and_assoc, BitVec.and_self]
  case held => rw [powerOn_life]; split <;> simp_all
  case oneMode => rw [powerOn_life] at hp; split at hp <;> cases hp

/-- Settles O59: at power-on no register is known and no lifecycle says that a chip triggers. -/
theorem powerOnInv : Obligations.PowerOnInv := ⟨runInv_powerOn, runInv_powerOn 0#32⟩

/-- An operation that ends in a next state keeps the invariant, where a line of the program follows `pc`. -/
theorem exec_runInv {i : Instr} {s u : State} (hs : RunInv s) (hpc : s.pc < s.program.length) (h : exec i s = .next u) : RunInv u := by
  by_cases hi : i = .openDev
  · subst hi
    obtain ⟨hmap, -, -, rfl | ⟨c, rfl⟩⟩ := execOpen_next (g := Config.cfg) h
    · exact hs.chipsOK.runInv rfl rfl rfl ⟨rfl, rfl⟩ rfl (fun hf => Bool.noConfusion hf) hpc
    · exact hs.chipsOK.runInv rfl rfl rfl ⟨rfl, rfl⟩ hs.handles (fun _ => hs.unopened hmap) hpc.le
  · obtain ⟨hmap, hspi, v, ⟨hv, hchips⟩, hend⟩ := exec_next hi h
    obtain ⟨hvmap, hvspi⟩ := hv.handles
    obtain ⟨hprogram, -, -⟩ := hv.caller
    have hopen : v.mapOK = true := hvmap.trans hmap
    have hhandles : v.mapOK = v.spiOK := hopen.trans (hvspi.trans hspi).symm
    have hunopened : v.mapOK = false → v.hist = [] := fun hf => by rw [hopen] at hf; cases hf
    have hpc' : v.pc < v.program.length := by rw [hv.pc, hprogram]; exact hpc
    rcases hend with ⟨r, rfl⟩ | ⟨e, rfl⟩
    · exact (hchips hs.chipsOK).runInv rfl rfl rfl ⟨rfl, rfl⟩ hhandles hunopened hpc'
    · exact (hchips hs.chipsOK).runInv rfl rfl rfl ⟨rfl, rfl⟩ hhandles hunopened hpc'.le

/-- Naming a result and going on with the program touch nothing that the invariant speaks of. -/
theorem RunInv.afterLine {u : State} (h : RunInv u) (dest : Option Text) (p : Program) : RunInv ((u.nameResult dest).proceed p) :=
  h.chipsOK.runInv (by simp) (by simp) (by simp) (by simpa using h.between) (by simpa using h.handles)
    (by simpa using h.unopened) (by simpa using h.inProgram)

theorem RunInv.startProgram {s : State} (h : RunInv s) (p : Program) (ps : List Program) : RunInv (s.startProgram p ps) :=
  h.chipsOK.runInv rfl rfl rfl h.between h.handles h.unopened (Nat.zero_le _)

/-- Settles O60: a step runs an operation, starts a program or does nothing, and each keeps the invariant. -/
theorem stepKeepsInv : Obligations.StepKeepsInv := by
  intro s t hs h
  obtain ⟨-, ⟨line, l, u, -, hline, -, hrun, rfl⟩ | ⟨-, ⟨p, ps, -, -, rfl⟩ | ⟨-, rfl⟩⟩⟩ := runStep_next h
  · exact (exec_runInv hs (List.getElem?_eq_some_iff.mp hline).1 hrun).afterLine _ _
  · exact hs.startProgram p ps
  · exact hs

/-! ## The sequencer -/

/-- An operation that ends in a next state completes or raises an error in a state with the same `pc` and caller. -/
theorem exec_next_end {i : Instr} {s u : State} (h : exec i s = .next u) :
    ∃ v : State, v.pc = s.pc ∧ v.program = s.program ∧ v.pending = s.pending ∧
      ((∃ r, u = v.complete r) ∨ ∃ e, u = v.raise e) := by
  by_cases hi : i = .openDev
  · subst hi
    obtain ⟨-, -, -, rfl | ⟨c, rfl⟩⟩ := execOpen_next (g := Config.cfg) h
    · exact ⟨{ s with mapOK := true, spiOK := true }, rfl, rfl, rfl, .inl ⟨_, rfl⟩⟩
    · exact ⟨s, rfl, rfl, rfl, .inr ⟨_, rfl⟩⟩
  · obtain ⟨-, -, v, ⟨hv, -⟩, hend⟩ := exec_next hi h
    obtain ⟨hprogram, hpending, -⟩ := hv.caller
    exact ⟨v, hv.pc, hprogram, hpending, hend⟩

/-- After an error other than DeviceOpenError, or with nothing to start, a block waits for its caller. -/
theorem ne_deviceOpen_of_mayRestart {s : State} {e : ArchError} (ho : s.outcome = .error e) (h : s.mayRestart = true)
    (c : OpenCause) : e ≠ .deviceOpen c := by
  rintro rfl
  rw [mayRestart_eq_false_iff.mpr ⟨c, ho⟩] at h
  cases h

/-- Settles O54: the line at `pc` completes or raises an error; without a line to run the block waits for its caller. -/
theorem sequencerMoves : Obligations.SequencerMoves := by
  intro s t h
  obtain ⟨-, ⟨line, l, u, ho, hline, -, hrun, rfl⟩ | ⟨hended, hwait⟩⟩ := runStep_next h
  · obtain ⟨v, hpc, -, -, ⟨r, rfl⟩ | ⟨e, rfl⟩⟩ := exec_next_end hrun
    · refine .inl ⟨ho, (List.getElem?_eq_some_iff.mp hline).1, .inl ⟨?_, ?_⟩⟩
      · rw [State.proceed_pc, State.nameResult_pc, State.complete_pc, hpc]
      · rw [State.proceed_outcome, State.nameResult_outcome, State.nameResult_pc, State.complete_outcome, State.complete_pc, hpc]
        by_cases hmore : s.pc + 1 < s.program.length
        · rw [if_pos ⟨rfl, hmore⟩, if_neg (Nat.not_le.mpr hmore)]
        · rw [if_neg fun hc => hmore hc.2, if_pos (Nat.not_lt.mp hmore)]
    · refine .inl ⟨ho, (List.getElem?_eq_some_iff.mp hline).1, .inr ⟨?_, e, ?_⟩⟩
      · rw [State.proceed_pc, State.nameResult_pc, State.raise_pc, hpc]
      · rw [State.proceed_outcome, State.nameResult_outcome, State.raise_outcome, if_neg fun hc => by cases hc.1]
  · refine .inr ⟨?_, ?_⟩
    · rcases hended with ho | ⟨e, ho⟩ | ⟨ho, hline⟩
      · exact .inl ho
      · refine .inr (.inl ⟨e, ho, fun c => ?_⟩)
        rcases hwait with ⟨p, ps, -, hmay, -⟩ | ⟨hnone, -⟩
        · exact .inl (ne_deviceOpen_of_mayRestart ho hmay c)
        · exact .inr hnone
      · exact .inr (.inr ⟨ho, List.getElem?_eq_none_iff.mp hline⟩)
    · rcases hwait with ⟨p, ps, hnext, -, ht⟩ | hidle
      · exact .inl ⟨p, ps, hnext, ht⟩
      · exact .inr hidle

/-! ## What a step runs -/

/-- A running block with one caller runs the instruction that the line at `pc` decodes to (R40). -/
theorem runStep_of_decoded {g : Cfg} (run : Instr → State → Host.Outcome State Fault Refusal) {p : Program} (later : List Program)
    {s : State} {line : Text} {l : Line} (hcaller : s.env.secondCaller = false) (ho : s.outcome = .running)
    (hline : p[s.pc]? = some line) (hdecode : decode line g = .ok l) :
    runStep g run p later s = afterLine l.dest p (run l.op s) := by
  simp [runStep, ho, hcaller, hline, hdecode]

/-- The block after its operation, when it ended done: the result under its name, and whether the run goes on (R121, R345). -/
def Block.namedAndGoing (dest : Option Text) (p : Program) (b : Block) : Block :=
  { b with
    names := (match dest with | some r => (r, b.result) :: b.names | none => b.names)
    outcome := if b.pc < p.length then .running else .done }

/-- What a step adds to the next state of an operation that ended done. -/
theorem afterLine_of_done {t : State} (h : t.outcome = .done) (dest : Option Text) (p : Program) :
    (t.nameResult dest).proceed p = { t with toBlock := t.toBlock.namedAndGoing dest p } := by
  have hdone : t.toBlock = { t.toBlock with outcome := .done } := by rw [← h]
  unfold State.proceed Block.namedAndGoing
  rw [State.nameResult_outcome, State.nameResult_pc, h]
  by_cases hmore : t.pc < p.length
  · rw [if_pos ⟨rfl, hmore⟩, if_pos hmore]
    cases dest with
    | none => rfl
    | some r => rw [State.nameResult, if_pos h]
  · rw [if_neg fun hc => hmore hc.2, if_neg hmore]
    cases dest with
    | none => rw [State.nameResult, ← hdone]
    | some r => rw [State.nameResult, if_pos h, ← h]

/-- A step adds nothing to an operation that ended in an error. -/
theorem afterLine_of_not_done {t : State} (h : t.outcome ≠ .done) (dest : Option Text) (p : Program) :
    (t.nameResult dest).proceed p = t := by
  cases dest <;> simp [State.nameResult, State.proceed, h]

/-- The block that a step leaves after an operation that answered a next state. -/
theorem afterLine_next (t : State) (dest : Option Text) (p : Program) :
    afterLine dest p (.next t) =
      .next (if t.outcome = .done then { t with toBlock := t.toBlock.namedAndGoing dest p } else t) := by
  rw [afterLine]
  by_cases h : t.outcome = .done
  · rw [if_pos h, afterLine_of_done h]
  · rw [if_neg h, afterLine_of_not_done h]

/-- The same without the caller. -/
theorem onBlock_afterLine_next (t : State) (dest : Option Text) (p : Program) :
    onBlock (afterLine dest p (.next t)) =
      .next (if t.outcome = .done then t.toBlock.namedAndGoing dest p else t.toBlock) := by
  rw [afterLine_next]
  by_cases h : t.outcome = .done
  · rw [if_pos h, if_pos h]
    rfl
  · rw [if_neg h, if_neg h]
    rfl

/-- The block's step runs the decoded instruction under every configuration and program (R7, R49). -/
theorem stepOf_of_decoded {g : Cfg} {p : Program} (later : List Program) {b : Block} {line : Text} {l : Line}
    (hcaller : b.env.secondCaller = false) (ho : b.outcome = .running) (hline : p[b.pc]? = some line)
    (hdecode : decode line g = .ok l) :
    stepOf g p later b = onBlock (afterLine l.dest p (execOf g l.op (b.calledBy p later))) :=
  congrArg onBlock (runStep_of_decoded (execOf g) later (s := b.calledBy p later) hcaller ho hline hdecode)

/-- Settles O51: the decoded instruction is run, its end is that of `afterLine`, and the caller's programs play no part in it. -/
theorem stepRunsDecoded : Obligations.StepRunsDecoded := by
  refine ⟨fun s line l hcaller ho hline hdecode => ?run, fun i s => ⟨?block, fun t h => ?caller⟩, step_onBlock,
    fun g p later b line l hcaller ho hline hdecode => ?blockRun⟩
  case run =>
    have hstep : step s = _ := runStep_of_decoded exec s.pending hcaller ho hline hdecode
    rw [hstep]
    exact ⟨fun t h => by rw [h]; exact afterLine_next t l.dest s.program, fun f h => by rw [h]; rfl, fun r h => by rw [h]; rfl⟩
  case block => rw [← execOf_cfg, execOf_onBlock]
  case caller =>
    obtain ⟨v, -, hprogram, hpending, ⟨r, rfl⟩ | ⟨e, rfl⟩⟩ := exec_next_end h
    · exact ⟨hprogram, hpending⟩
    · exact ⟨hprogram, hpending⟩
  case blockRun =>
    have hexec : execBlock g l.op b = _ := (execOf_onBlock g l.op (b.calledBy p later)).symm
    rw [stepOf_of_decoded later hcaller ho hline hdecode, hexec]
    cases execOf g l.op (b.calledBy p later) with
    | next t =>
      refine ⟨fun u h => ?_, fun f h => (by cases h), fun r h => (by cases h)⟩
      cases h
      exact onBlock_afterLine_next t l.dest p
    | fault f => exact ⟨fun u h => (by cases h), fun f' h => h, fun r h => (by cases h)⟩
    | refused r => exact ⟨fun u h => (by cases h), fun f h => (by cases h), fun r' h => h⟩

/-! ## How a run ends -/

/-- Settles O53: the step looks at the outcome first, then at the number of callers, and then decodes the line. -/
theorem runEndsAreFinal : Obligations.RunEndsAreFinal := by
  intro s
  refine ⟨fun ho => ?_, fun ho => ?_, fun r ho => ?_, fun hcaller ho => ?_, fun line e hcaller ho hline hdecode => ?_⟩
  · rw [step, runStep, ho]; rfl
  · rw [step, runStep, ho]; rfl
  · rw [step, runStep, ho]
  · rcases ho with ho | ho | ⟨e, ho⟩ <;>
    · simp only [step, runStep, ho, hcaller, if_true]
      rfl
  · simp only [step, runStep, ho, hcaller, hline, hdecode]
    rfl

end Sys2Proof.Machine
end

section
/-! Proofs about the writers of a chip's registers (20_memory.md, R79). -/

namespace Sys2Proof.Machine

/-! ## What an access does to the chips -/

/-- The draw of an access failure changes the environment alone. -/
theorem drawIo_eq {g : Cfg} {s u : State} {o : Option Bool} (h : drawIo g s = (o, u)) : ∃ e, u = { s with env := e } := by
  unfold drawIo at h
  split at h
  · split at h <;> cases h <;> exact ⟨_, rfl⟩
  · cases h
    exact ⟨_, rfl⟩

theorem readReg_chips (g : Cfg) (r : WinReg) (s : State) : (readReg g r s).post fun t => t.cw = s.cw ∧ SameChips s t := by
  unfold readReg
  split <;>
  · rename_i heq
    obtain ⟨e, rfl⟩ := drawIo_eq heq
    exact ⟨rfl, rfl, rfl⟩

theorem readSecond_chips (g : Cfg) (s : State) : (readSecond g s).post fun t => t.cw = s.cw ∧ SameChips s t := by
  unfold readSecond
  split
  · exact readReg_chips g _ s
  · exact ⟨rfl, rfl, rfl⟩

/-- The control word is as before and so are the chips, or it is `w` and the chips are as its write leaves them (R290, U29). -/
def CwWrittenOrNot (g : Cfg) (w : CwWord) (s t : State) : Prop :=
  t.cw = s.cw ∧ SameChips s t ∨ t.cw = w ∧ SameChips (s.writeCw g w) t

/-- What a write of CW does depends on the control word and the chips alone. -/
theorem writeCw_sameChips {g : Cfg} {s t : State} (hcw : t.cw = s.cw) (h : SameChips s t) (w : CwWord) :
    SameChips (s.writeCw g w) (t.writeCw g w) := by
  obtain ⟨hregs, hlife⟩ := h
  simp only [SameChips, State.writeCw, hcw, hregs, hlife, and_self]

theorem SameChips.trans {s t u : State} (h : SameChips s t) (k : SameChips t u) : SameChips s u :=
  ⟨k.1.trans h.1, k.2.trans h.2⟩

theorem writeCwReg_chips (g : Cfg) (w : CwWord) (s : State) : (writeCwReg g w s).post (CwWrittenOrNot g w s) := by
  unfold writeCwReg
  split
  · rename_i took u heq
    obtain ⟨e, rfl⟩ := drawIo_eq heq
    cases took with
    | true => exact .inr ⟨rfl, rfl, rfl⟩
    | false => exact .inl ⟨rfl, rfl, rfl⟩
  · rename_i u heq
    obtain ⟨e, rfl⟩ := drawIo_eq heq
    exact .inr ⟨rfl, rfl, rfl⟩

/-- A field write, failed or not, writes the word with the field's new value or nothing (R151, U29). -/
theorem fieldWrite_chips (g : Cfg) (f : CwField) (h : BitVec 4 → BitVec 4) (s : State) :
    (fieldWrite g f h s).post (CwWrittenOrNot g (putField g s.cw f (h (getField g s.cw f))) s) := by
  unfold fieldWrite
  have hr := readReg_chips g .cw s
  cases e : readReg g .cw s with
  | stop w t =>
    rw [e] at hr
    exact .inl hr
  | ok v t =>
    rw [e] at hr
    obtain ⟨hcw, hchips⟩ : t.cw = s.cw ∧ SameChips s t := hr
    simp only [Res.ok_bind, readReg_cw_ok e, hcw]
    refine Res.post_mono (writeCwReg_chips g _ t) fun u hu => ?_
    rcases hu with ⟨hu, hsame⟩ | ⟨hu, hsame⟩
    · exact .inl ⟨hu.trans hcw, hchips.trans hsame⟩
    · exact .inr ⟨hu, (writeCw_sameChips hcw hchips _).trans hsame⟩

/-- A write that leaves a chip's reset bit leaves its registers. -/
theorem CwWrittenOrNot.file {g : Cfg} {w : CwWord} {s t : State} (h : CwWrittenOrNot g w s t) {p : PhysChip}
    (hp : resetBit g w p = resetBit g s.cw p) : t.regs.get p = s.regs.get p := by
  rcases h with ⟨-, hregs, -⟩ | ⟨-, hregs, -⟩
  · rw [hregs]
  · rw [hregs]
    exact (writeCw_get_of_same_reset hp).2

/-- The response changes no chip that does not listen. -/
theorem chipResponse_file (g : Cfg) {sel : List PhysChip} (tx : List Byte) (s : State) {p : PhysChip} (hp : p ∉ sel) :
    (chipResponse g sel tx s).2.regs.get p = s.regs.get p := by
  rcases chipResponse_state g sel tx s with e | e | ⟨a, v, -, e⟩ <;> rw [e]
  · rw [State.forget_get_regs, if_neg hp]
  · rw [State.latch_get_regs, if_neg hp]

/-! ## A chip that is not addressed -/

/-- Chip `p`, where it is not selected, stays so and keeps its registers. -/
def Unheard (g : Cfg) (p : PhysChip) (s t : State) : Prop :=
  isSelected g s.cw p = false → isSelected g t.cw p = false ∧ t.regs.get p = s.regs.get p

theorem Unheard.of_same {g : Cfg} {p : PhysChip} {s t : State} (hcw : t.cw = s.cw) (hregs : t.regs.get p = s.regs.get p) :
    Unheard g p s t := fun h => ⟨by rw [hcw, h], hregs⟩

theorem Unheard.refl (g : Cfg) (p : PhysChip) (s : State) : Unheard g p s s := Unheard.of_same rfl rfl

theorem Unheard.trans {g : Cfg} {p : PhysChip} {s t u : State} (h : Unheard g p s t) (k : Unheard g p t u) : Unheard g p s u :=
  fun hs => ⟨(k (h hs).1).1, (k (h hs).1).2.trans (h hs).2⟩

theorem Unheard.bind {α β : Type} {g : Cfg} {p : PhysChip} {s : State} {m : Res α} {k : α → State → Res β}
    (hm : m.post (Unheard g p s)) (hk : ∀ v t, (k v t).post (Unheard g p t)) : (m.bind k).post (Unheard g p s) :=
  Res.post_bind hm fun v t ht => Res.post_mono (hk v t) fun _ hu => ht.trans hu

theorem spiXfer_unheard (g : Cfg) (p : PhysChip) (tx : List Byte) (s : State) : (spiXfer g tx s).post (Unheard g p s) := by
  have hdeaf : isSelected g s.cw p = false → p ∉ selected g s.cw := fun h hm => by
    rw [mem_selected, h] at hm
    cases hm
  unfold spiXfer
  split
  · exact Unheard.refl g p s
  · dsimp only
    split
    · rename_i took u heq
      obtain ⟨e, rfl⟩ := drawIo_eq heq
      cases took with
      | true =>
        exact fun h => ⟨by rw [if_pos rfl, chipResponse_cw]; exact h,
          chipResponse_file g tx _ fun hm => hdeaf h (List.mem_of_mem_filter hm)⟩
      | false => exact Unheard.of_same rfl rfl
    · rename_i u heq
      obtain ⟨e, rfl⟩ := drawIo_eq heq
      split
      · exact Unheard.of_same rfl rfl
      · exact fun h => ⟨by rw [State.record_cw, chipResponse_cw]; exact h, chipResponse_file g tx _ (hdeaf h)⟩

/-- CS.ASSERT under either polarity is a write of the chip-select field (R186). -/
theorem csAssert_eq_fieldWrite (g : Cfg) (c : Chip) (s : State) :
    csAssert g c s = fieldWrite g .cs (fun v => selectField g v c) s := by
  unfold csAssert selectField
  cases g.csPolarity <;> rfl

/-- CS.DEASSERT under either polarity is a write of the chip-select field (R187). -/
theorem csDeassert_eq_fieldWrite (g : Cfg) (c : Chip) (s : State) :
    csDeassert g c s = fieldWrite g .cs (fun v => deselectField g v c) s := by
  unfold csDeassert deselectField
  cases g.csPolarity <;> rfl

section

variable {g : Cfg} (hg : g.wf)
include hg

/-- A write of another field than reset reaches no chip's registers, failed or not. -/
theorem fieldWrite_file {f : CwField} (hf : f ≠ .reset) (h : BitVec 4 → BitVec 4) (p : PhysChip) (s : State) :
    (fieldWrite g f h s).post fun t => t.regs.get p = s.regs.get p :=
  Res.post_mono (fieldWrite_chips g f h s) fun _ ht => ht.file (resetBit_putField_ne hg s.cw _ hf p)

/-- A write of the chip-select field that does not select the chip. -/
theorem csWrite_unheard {p : PhysChip} {h : BitVec 4 → BitVec 4} {s : State}
    (hsel : isSelected g s.cw p = false → isSelected g (putField g s.cw .cs (h (getField g s.cw .cs))) p = false) :
    (fieldWrite g .cs h s).post (Unheard g p s) := by
  refine Res.post_mono (fieldWrite_chips g .cs h s) fun t ht hs => ⟨?_, ht.file (resetBit_putField_ne hg s.cw _ (by decide) p)⟩
  rcases ht with ⟨hcw, -⟩ | ⟨hcw, -⟩
  · rw [hcw, hs]
  · rw [hcw, hsel hs]

theorem csAssert_unheard {c : Chip} {p : PhysChip} (hp : p ∉ members g c) (s : State) : (csAssert g c s).post (Unheard g p s) := by
  rw [csAssert_eq_fieldWrite]
  exact csWrite_unheard hg fun hs => by rw [isSelected_select hg, decide_eq_false hp, hs, Bool.or_self]

theorem csDeassert_unheard (c : Chip) (p : PhysChip) (s : State) : (csDeassert g c s).post (Unheard g p s) := by
  rw [csDeassert_eq_fieldWrite]
  exact csWrite_unheard hg fun hs => by rw [isSelected_deselect hg, hs, Bool.and_false]

section

variable {c : Chip} {p : PhysChip} (hp : p ∉ members g c)
include hp

theorem framed_unheard (tx : List Byte) (s : State) : (framed g c tx s).post (Unheard g p s) :=
  Unheard.bind (csAssert_unheard hg hp s) fun _ t => Unheard.bind (spiXfer_unheard g p tx t) fun _ u =>
    Unheard.bind (csDeassert_unheard hg c p u) fun _ v => Unheard.refl g p v

theorem attemptWrite_unheard (a : Nat) (vb : List Byte) (s : State) : (attemptWrite g c a vb s).post (Unheard g p s) :=
  Unheard.bind (framed_unheard hg hp _ s) fun _ t => Unheard.bind (framed_unheard hg hp _ t) fun _ u => Unheard.refl g p u

theorem attempts_unheard (a : Nat) (vb : List Byte) :
    ∀ (left k : Nat) (s : State), (attempts g c a vb k left s).post (Unheard g p s)
  | left, k, s => by
    unfold attempts
    refine Unheard.bind (s := s) (attemptWrite_unheard hg hp a vb { s with attempt := some k }) fun ok t => ?_
    split
    · exact Unheard.of_same rfl rfl
    · match left with
      | 0 => exact Unheard.refl g p t
      | left + 1 => exact attempts_unheard a vb left (k + 1) t

theorem verifiedWrite_unheard (a : Int) (vb : List Byte) (s : State) : (verifiedWrite g c a vb s).post (Unheard g p s) :=
  withAddr_post (Unheard.refl g p s) fun n => attempts_unheard hg hp n vb _ _ s

end

theorem programChunks_unheard {p q : PhysChip} (hp : p ∉ members g (asChip q)) :
    ∀ (cs : List (List Byte)) (i : Nat) (s : State), (programChunks g q i cs s).post (Unheard g p s)
  | [], _, s => Unheard.refl g p s
  | vb :: rest, i, s =>
    Unheard.bind (s := s) (verifiedWrite_unheard hg hp i vb { s with cursor := some (q, i) }) fun _ t =>
      programChunks_unheard hp rest (i + 1) t

theorem programChips_unheard {p : PhysChip} (cs : List (List Byte)) :
    ∀ (qs : List PhysChip) (s : State), (∀ q ∈ qs, p ∉ members g (asChip q)) → (programChips g cs qs s).post (Unheard g p s)
  | [], s, _ => Unheard.refl g p s
  | q :: qs, s, h => by
    obtain ⟨hq, hqs⟩ := List.forall_mem_cons.mp h
    refine Unheard.bind (programChunks_unheard hg hq cs 0 s) fun _ t =>
      Res.post_mono (programChips_unheard cs qs (t.configured q) hqs) fun u hu => ?_
    obtain ⟨l, hl⟩ := configured_only_life t q
    rw [hl] at hu
    exact hu

/-- A reset pulse of other chips leaves a chip's registers, failed or not. -/
theorem pulseReset_file {c : Chip} {p : PhysChip} (hp : p ∉ members g c) (d : Nat) (s : State) :
    (pulseReset g c d s).post fun t => t.regs.get p = s.regs.get p := by
  refine Res.post_bind (Res.post_mono (fieldWrite_chips g .reset _ s) fun t ht =>
    ht.file (resetBit_heldWord_of_not_mem hg s.cw hp)) fun _ t ht => ?_
  refine Res.post_bind (m := sleep d _) (P := fun u => u.regs.get p = s.regs.get p) ?_ fun _ u hu => ?_
  · show ((t.forget (members g c)).regs.get p) = _
    rw [State.forget_get_regs, if_neg hp, ht]
  · refine Res.post_bind (Res.post_mono (fieldWrite_chips g .reset _ u) fun v hv =>
      (hv.file (resetBit_releasedWord_of_not_mem hg u.cw hp)).trans hu) fun _ v hv => hv

end

/-! ## Who writes a chip's registers -/

/-- The operations that send chip `p` a frame or pulse its reset: transfers while it is selected, verified writes that it hears, and
RESET (R192, R196, R228, R255). -/
def Addresses (g : Cfg) (s : State) (p : PhysChip) : Instr → Prop
  | .spiXfer _ => isSelected g s.cw p = true
  | .frameW _ _ => isSelected g s.cw p = true
  | .frameR _ _ => isSelected g s.cw p = true
  | .wrv (.chip c) _ _ => p ∈ members g c ∨ isSelected g s.cw p = true
  | .prog (.chip c) (.bytes _) => p ∈ members g c ∨ isSelected g s.cw p = true
  | .reset (.chip c) _ => p ∈ members g c
  | _ => False

/-- The operations that may set the reset bit of chip `p` by a write of the field (R152, R153). -/
def MayHold (g : Cfg) (p : PhysChip) : Instr → Prop
  | .cwAssign (.cw .reset) _ => True
  | .cwSet (.cw .reset) (.chip c) => p ∈ members g c
  | _ => False

/-- The registers of chip `p` are as before, or the instruction addresses it or has set its reset bit. -/
def WrittenBy (g : Cfg) (i : Instr) (p : PhysChip) (s t : State) : Prop :=
  t.regs.get p = s.regs.get p ∨ Addresses g s p i ∨ resetBit g s.cw p = false ∧ resetBit g t.cw p = true ∧ MayHold g p i

theorem WrittenBy.keptAtEnd (g : Cfg) (i : Instr) (p : PhysChip) (s : State) : KeptAtEnd (WrittenBy g i p s) :=
  ⟨fun _ _ h => h, fun _ _ h => h⟩

theorem Res.post_of_forall {α : Type} {P : State → Prop} (h : ∀ t, P t) (m : Res α) : m.post P := by cases m <;> exact h _

/-- Steps that keep a chip's registers where they do not address it. -/
theorem WrittenBy.of_file {α : Type} {g : Cfg} {i : Instr} {p : PhysChip} {s : State} {m : Res α}
    (h : ¬ Addresses g s p i → m.post fun t => t.regs.get p = s.regs.get p) : m.post (WrittenBy g i p s) := by
  by_cases ha : Addresses g s p i
  · exact Res.post_of_forall (fun _ => .inr (.inl ha)) m
  · exact Res.post_mono (h ha) fun _ => .inl

/-- Steps that keep the registers of a chip that is not selected. -/
theorem WrittenBy.of_unheard {α : Type} {g : Cfg} {i : Instr} {p : PhysChip} {s : State} {m : Res α}
    (hsel : isSelected g s.cw p = true → Addresses g s p i) (h : ¬ Addresses g s p i → m.post (Unheard g p s)) :
    m.post (WrittenBy g i p s) :=
  WrittenBy.of_file fun ha => Res.post_mono (h ha) fun _ ht =>
    (ht (Bool.eq_false_iff.mpr fun hs => ha (hsel hs))).2

/-- A field write that can set a chip's reset bit only as `MayHold` says. -/
theorem fieldWrite_writtenBy {g : Cfg} {i : Instr} {p : PhysChip} {s : State} {f : CwField} {h : BitVec 4 → BitVec 4}
    (hrise : resetBit g s.cw p = false → resetBit g (putField g s.cw f (h (getField g s.cw f))) p = true → MayHold g p i) :
    (fieldWrite g f h s).post (WrittenBy g i p s) := by
  refine Res.post_mono (fieldWrite_chips g f h s) fun t ht => ?_
  rcases ht with ⟨-, hregs, -⟩ | ⟨hcw, hregs, -⟩
  · exact .inl (by rw [hregs])
  · by_cases hup : resetBit g (putField g s.cw f (h (getField g s.cw f))) p = true ∧ resetBit g s.cw p = false
    · exact .inr (.inr ⟨hup.2, by rw [hcw, hup.1], hrise hup.2 hup.1⟩)
    · refine .inl ?_
      rw [hregs, State.writeCw_get_regs, if_neg]
      simpa using hup

section

variable {g : Cfg} (hg : g.wf)
include hg

theorem cwSet_writtenBy {f : CwField} {c : Chip} {p : PhysChip} (s : State) :
    (cwSet g f c s).post (WrittenBy g (.cwSet (.cw f) (.chip c)) p s) := by
  refine fieldWrite_writtenBy fun hlow hhigh => ?_
  by_cases hf : f = .reset
  · subst hf
    rw [resetBit_set hg, hlow, Bool.or_false, decide_eq_true_iff] at hhigh
    exact hhigh
  · rw [resetBit_putField_ne hg _ _ hf, hlow] at hhigh
    cases hhigh

theorem cwClear_writtenBy {f : CwField} {c : Chip} {p : PhysChip} (s : State) :
    (cwClear g f c s).post (WrittenBy g (.cwClear (.cw f) (.chip c)) p s) := by
  refine fieldWrite_writtenBy fun hlow hhigh => ?_
  by_cases hf : f = .reset
  · subst hf
    rw [resetBit_clear hg, hlow, Bool.and_false] at hhigh
    cases hhigh
  · rw [resetBit_putField_ne hg _ _ hf, hlow] at hhigh
    cases hhigh

theorem cwAssign_writtenBy {f : CwField} {v : Int} (n : BitVec 4) {p : PhysChip} (s : State) :
    (cwAssign g f n s).post (WrittenBy g (.cwAssign (.cw f) v) p s) := by
  refine fieldWrite_writtenBy fun hlow hhigh => ?_
  by_cases hf : f = .reset
  · subst hf
    trivial
  · rw [resetBit_putField_ne hg _ _ hf, hlow] at hhigh
    cases hhigh

end

/-- A step that keeps the chips. -/
theorem WrittenBy.of_chips {α : Type} {g : Cfg} {i : Instr} {p : PhysChip} {s : State} {m : Res α}
    (h : m.post fun t => t.cw = s.cw ∧ SameChips s t) : m.post (WrittenBy g i p s) :=
  Res.post_mono h fun _ ⟨_, hregs, _⟩ => .inl (by rw [hregs])

/-- An operation, however it ends, changes the registers of a chip only where it addresses it or sets its reset bit (R79). -/
theorem execOf_writtenBy {g : Cfg} (hg : g.wf) (i : Instr) (s : State) (p : PhysChip) :
    Leaves (WrittenBy g i p s) (execOf g i s) := by
  have hP := WrittenBy.keptAtEnd g i p s
  have hs : WrittenBy g i p s s := .inl rfl
  have kept : ∀ (v : Result) (t : State), WrittenBy g i p s t → (Res.ok v t).post (WrittenBy g i p s) := fun _ _ h => h
  cases i <;> simp only [execOf]
  case frameW a v =>
    exact Leaves.admitted hP hs (Res.post_bind (WrittenBy.of_unheard id fun _ => spiXfer_unheard g p _ s) fun _ => kept _)
  case frameR a d =>
    exact Leaves.admitted hP hs (Res.post_bind (WrittenBy.of_unheard id fun _ => spiXfer_unheard g p _ s) fun _ => kept _)
  case openDev =>
    refine Leaves.finish hP ?_
    split_ifs
    · exact hs
    · exact hs
    · exact hs
    · exact hs
  case catSiglen a => exact Leaves.admitted hP hs (withAddr_post hs fun _ => hs)
  case catMask a => exact Leaves.admitted hP hs (withAddr_post hs fun _ => hs)
  case catLayout a => exact Leaves.admitted hP hs (withAddr_post hs fun _ => hs)
  case catPack a xs =>
    refine Leaves.admitted hP hs (withAddr_post hs fun n => ?_)
    split
    · exact hs
    · exact hs
  case catUnpack a v => exact Leaves.admitted hP hs (withAddr_post hs fun _ => hs)
  case cwRead f =>
    refine Leaves.admitted hP hs ?_
    cases f with
    | cw f => exact Res.post_bind (WrittenBy.of_chips (readReg_chips g _ s)) fun _ => kept _
    | sw f => exact hs
    | bad id => exact hs
  case cwAssign f v =>
    refine Leaves.admitted hP hs (withCwField_post hs fun f' hf => withNibble_post hs fun n => ?_)
    subst hf
    exact Res.post_bind (cwAssign_writtenBy hg n s) fun _ => kept _
  case cwSet f c =>
    cases c with
    | bad id => exact Leaves.admitted hP hs hs
    | chip c =>
      refine Leaves.admitted hP hs (withCwField_post hs fun f' hf => ?_)
      subst hf
      exact Res.post_bind (cwSet_writtenBy hg s) fun _ => kept _
  case cwClear f c =>
    cases c with
    | bad id => exact Leaves.admitted hP hs hs
    | chip c =>
      refine Leaves.admitted hP hs (withCwField_post hs fun f' hf => ?_)
      subst hf
      exact Res.post_bind (cwClear_writtenBy hg s) fun _ => kept _
  case swRead f =>
    refine Leaves.admitted hP hs ?_
    cases f with
    | sw f => exact Res.post_bind (Res.post_bind (WrittenBy.of_chips (readReg_chips g _ s)) fun _ _ h => h) fun _ => kept _
    | cw f => exact hs
    | bad id => exact hs
  case spiXfer tx =>
    exact Leaves.admitted hP hs (Res.post_bind (WrittenBy.of_unheard id fun _ => spiXfer_unheard g p _ s) fun _ => kept _)
  case csAssert c =>
    refine Leaves.admitted hP hs (withChip_post hs fun c => Res.post_bind (WrittenBy.of_file fun _ => ?_) fun _ => kept _)
    rw [csAssert_eq_fieldWrite]
    exact fieldWrite_file hg (by decide) _ p s
  case csDeassert c =>
    refine Leaves.admitted hP hs (withChip_post hs fun c => Res.post_bind (WrittenBy.of_file fun _ => ?_) fun _ => kept _)
    rw [csDeassert_eq_fieldWrite]
    exact fieldWrite_file hg (by decide) _ p s
  case vcmp a w r =>
    refine Leaves.admitted hP hs ?_
    split
    · exact hs
    · exact hs
  case wrv c a vb =>
    cases c with
    | bad id => exact Leaves.admitted hP hs hs
    | chip c =>
      refine Leaves.admitted hP hs ?_
      dsimp only [withChip]
      split
      · exact Res.post_bind (WrittenBy.of_unheard .inr fun hp => verifiedWrite_unheard hg (fun h => hp (.inl h)) a vb s) fun _ => kept _
      · exact hs
  case setClk code =>
    exact Leaves.admitted hP hs (withNibble_post hs fun v =>
      Res.post_bind (WrittenBy.of_file fun _ => fieldWrite_file hg (by decide) _ p s) fun _ => kept _)
  case reset c d =>
    cases c with
    | bad id => exact Leaves.admitted hP hs hs
    | chip c =>
      exact Leaves.admitted hP hs (withDuration_post hs fun n =>
        Res.post_bind (WrittenBy.of_file fun hp => pulseReset_file hg hp n s) fun _ => kept _)
  case setTrig m =>
    refine Leaves.admitted hP hs ?_
    cases m with
    | mode m => exact Res.post_bind (WrittenBy.of_file fun _ => fieldWrite_file hg (by decide) _ p s) fun _ _ h => h
    | bad id => exact hs
  case rdErr =>
    exact Leaves.admitted hP hs
      (Res.post_bind (Res.post_bind (WrittenBy.of_chips (readReg_chips g _ s)) fun _ _ h => h) fun _ => kept _)
  case rdTemp =>
    refine Leaves.admitted hP hs (WrittenBy.of_chips (Res.post_bind (readReg_chips g _ s) fun _ t ht =>
      Res.post_bind (Res.post_mono (readSecond_chips g t) fun u hu => ?_) fun _ _ h => h))
    exact ⟨hu.1.trans ht.1, ht.2.trans hu.2⟩
  case prog c b =>
    cases c with
    | bad id => exact Leaves.admitted hP hs hs
    | chip c =>
      cases b with
      | unreadable => exact Leaves.admitted hP hs hs
      | bytes bs =>
        refine Leaves.admitted hP hs (Res.post_bind (WrittenBy.of_unheard .inr fun hp => ?_) fun _ _ h => h)
        refine programChips_unheard hg _ _ s fun q hq hm => hp (.inl ?_)
        rw [(mem_members_asChip (members_hasChip hq) p).mp hm]
        exact hq
  case sleep d => exact Leaves.admitted hP hs (withDuration_post hs fun d => hs)

/-- Settles O57: an instruction that changes a chip's registers is one of those that `Addresses` and `MayHold` name. -/
theorem registerWriters : Obligations.RegisterWriters := by
  intro i s t p hx hne
  have hw : WrittenBy Config.cfg i p s t := (execOf_writtenBy Config.cfg_wf i s p).elim (.inl (execOf_cfg ▸ hx))
  rcases hw with h | h | ⟨hlow, hhigh, h⟩
  · exact absurd h hne
  · unfold Addresses at h
    split at h
    · exact .inl ⟨h, .inl ⟨_, rfl⟩⟩
    · exact .inl ⟨h, .inr (.inl ⟨_, _, rfl⟩)⟩
    · exact .inl ⟨h, .inr (.inr ⟨_, _, rfl⟩)⟩
    · exact .inr (.inl ⟨_, _, _, rfl, h⟩)
    · exact .inr (.inr (.inl ⟨_, _, rfl, h⟩))
    · exact .inr (.inr (.inr (.inl ⟨_, _, rfl, h⟩)))
    · exact h.elim
  · unfold MayHold at h
    refine .inr (.inr (.inr (.inr ⟨hlow, hhigh, ?_⟩)))
    split at h
    · exact .inl ⟨_, rfl⟩
    · exact .inr ⟨_, rfl, h⟩
    · exact h.elim

end Sys2Proof.Machine
end

section
/-! Proofs about the values of a layout (40_catalog.md, R135 and R136). -/

namespace Sys2Proof.Machine

/-! ## Packing -/

/-- One value a field, each below the power of its width (R135). -/
def FieldsFit (ws xs : List Nat) : Prop := List.Forall₂ (fun w x => x < 2 ^ w) ws xs

theorem fieldsFit_iff (ws xs : List Nat) :
    FieldsFit ws xs ↔ xs.length = ws.length ∧ ∀ j x w : Nat, xs[j]? = some x → ws[j]? = some w → x < 2 ^ w := by
  simp only [FieldsFit, List.forall₂_iff_get, List.get_eq_getElem, List.getElem?_eq_some_iff]
  constructor
  · rintro ⟨hlen, h⟩
    refine ⟨hlen.symm, ?_⟩
    rintro j x w ⟨hx, rfl⟩ ⟨hw, rfl⟩
    exact h j hw hx
  · rintro ⟨hlen, h⟩
    exact ⟨hlen.symm, fun j hw hx => h j _ _ ⟨hx, rfl⟩ ⟨hw, rfl⟩⟩

theorem packedValue_lt {ws xs : List Nat} (h : FieldsFit ws xs) : packedValue ws xs < 2 ^ ws.sum := by
  induction h with
  | nil => exact Nat.one_pos
  | @cons w x ws xs hx _ ih =>
    rw [packedValue, List.sum_cons, pow_add]
    calc x + 2 ^ w * packedValue ws xs < 2 ^ w + 2 ^ w * packedValue ws xs := Nat.add_lt_add_right hx _
      _ = 2 ^ w * (packedValue ws xs + 1) := by rw [Nat.mul_succ, Nat.add_comm]
      _ ≤ 2 ^ w * 2 ^ ws.sum := Nat.mul_le_mul_left _ ih

/-- A field's value stands below the value of the fields after it. -/
theorem shiftLeft_or_ofNat {w x : Nat} (hx : x < 2 ^ w) (pos v : Nat) :
    (BitVec.ofNat 32 x <<< pos) ||| BitVec.ofNat 32 (2 ^ (pos + w) * v) = BitVec.ofNat 32 (2 ^ pos * (x + 2 ^ w * v)) := by
  have hlow : 2 ^ pos * x < 2 ^ (pos + w) := by
    rw [pow_add]
    exact Nat.mul_lt_mul_of_pos_left hx (Nat.two_pow_pos pos)
  have hsum : 2 ^ pos * (x + 2 ^ w * v) = 2 ^ (pos + w) * v ||| 2 ^ pos * x := by
    rw [← Nat.two_pow_add_eq_or_of_lt hlow, pow_add]
    ring
  rw [hsum, BitVec.ofNat_or, BitVec.or_comm]
  congr 1
  apply BitVec.eq_of_toNat_eq
  simp [Nat.shiftLeft_eq, Nat.mul_comm]

/-- Fitting fields pack to the sum of their values at the sums of the earlier widths, from bit `pos` on. -/
theorem pack_of_fit : ∀ {l : Layout} {xs : List Nat} (pos : Nat), FieldsFit (l.map Prod.snd) xs →
    pack pos l xs = some (BitVec.ofNat 32 (2 ^ pos * packedValue (l.map Prod.snd) xs))
  | [], [], _, _ => by rfl
  | (_, w) :: l, x :: xs, pos, h => by
    obtain ⟨hx, hxs⟩ := List.forall₂_cons.mp h
    rw [pack, if_pos hx, pack_of_fit (pos + w) hxs, Option.map_some, shiftLeft_or_ofNat hx]
    rfl

/-- Only fitting fields pack (D38). -/
theorem fit_of_pack : ∀ {l : Layout} {xs : List Nat} {pos : Nat} {v : Word}, pack pos l xs = some v → FieldsFit (l.map Prod.snd) xs
  | [], [], _, _, _ => .nil
  | (_, w) :: l, x :: xs, pos, v, h => by
    rw [pack] at h
    split at h
    · rename_i hx
      obtain ⟨u, hu, -⟩ := Option.map_eq_some_iff.mp h
      exact .cons hx (fit_of_pack hu)
    · cases h

theorem pack_eq_none_iff {l : Layout} {xs : List Nat} (pos : Nat) : pack pos l xs = none ↔ ¬ FieldsFit (l.map Prod.snd) xs := by
  constructor
  · intro h hfit
    rw [pack_of_fit pos hfit] at h
    cases h
  · intro h
    cases e : pack pos l xs with
    | none => rfl
    | some v => exact absurd (fit_of_pack e) h

/-- Settles O10: the fields fit or they do not, and `pack` answers as R135 says in either case. -/
theorem packAnswer : Obligations.PackAnswer := by
  intro s n xs hm hs hn
  have hlt : n < Config.cfg.nreg := Nat.lt_succ_of_le hn
  refine ⟨fun hlen hfit => ?packed, fun hbad => ?refused⟩
  case packed =>
    have hfits := (fieldsFit_iff _ _).mpr ⟨hlen.trans (List.length_map _).symm, hfit⟩
    refine ⟨_, ?_, endsDone_complete s _, untouched_complete s _⟩
    rw [exec, execCatPack, admitted_withAddr_of_lt hm hs hlt, pack_of_fit 0 hfits, pow_zero, one_mul, finish_ok]
  case refused =>
    have hnone : pack 0 (Config.cfg.layout n) xs = none := by
      rw [pack_eq_none_iff, fieldsFit_iff, List.length_map]
      rintro ⟨hlen, hfit⟩
      rcases hbad with hbad | ⟨j, x, w, hx, hw, hle⟩
      · exact hbad hlen
      · exact absurd (hfit j x w hx hw) (Nat.not_lt.mpr hle)
    rw [exec, execCatPack, admitted_withAddr_of_lt hm hs hlt, hnone]
    rfl

/-! ## Unpacking -/

theorem unpack_head {w : Nat} (hw : w ≤ 32) (pos : Nat) (v : Word) :
    ((v >>> pos) &&& lowMask w).toNat = v.toNat / 2 ^ pos % 2 ^ w := by
  rw [toNat_and_lowMask hw, BitVec.toNat_ushiftRight, Nat.shiftRight_eq_div_pow]

theorem length_unpack : ∀ (pos : Nat) (l : Layout) (v : Word), (unpack pos l v).length = l.length
  | _, [], _ => rfl
  | pos, (_, w) :: l, v => congrArg (· + 1) (length_unpack (pos + w) l v)

/-- Field `j` is cut out of the value where the earlier widths end (R136). -/
theorem unpack_get : ∀ (pos : Nat) {l : Layout} (v : Word) (j w : Nat), (∀ f ∈ l, f.2 ≤ 32) → (l.map Prod.snd)[j]? = some w →
    (unpack pos l v)[j]? = some (v.toNat / 2 ^ (pos + ((l.map Prod.snd).take j).sum) % 2 ^ w)
  | pos, (n, w) :: l, v, 0, w', hl, h => by
    obtain rfl : w = w' := by simpa using h
    simp [unpack, unpack_head (hl _ List.mem_cons_self)]
  | pos, (n, w) :: l, v, j + 1, w', hl, h => by
    have ih := unpack_get (pos + w) v j w' (fun f hf => hl f (List.mem_cons_of_mem _ hf)) h
    rw [unpack, List.getElem?_cons_succ, ih, List.map_cons, List.take_succ_cons, List.sum_cons, Nat.add_assoc]

theorem width_le_of_fits {l : Layout} {bits : Nat} (h : l.fits bits) (hbits : bits ≤ 32) : ∀ f ∈ l, f.2 ≤ 32 := fun _ hf =>
  ((List.single_le_sum (fun _ _ => Nat.zero_le _) _ (List.mem_map_of_mem hf)).trans h.2).trans hbits

/-- Unpacking cuts the fields' own values out of their packed value. -/
theorem unpack_of_packed : ∀ {l : Layout} {xs : List Nat} (pos : Nat) (v : Word), (∀ f ∈ l, f.2 ≤ 32) →
    FieldsFit (l.map Prod.snd) xs →
    v.toNat / 2 ^ pos % 2 ^ (l.map Prod.snd).sum = packedValue (l.map Prod.snd) xs → unpack pos l v = xs
  | [], [], _, _, _, _, _ => rfl
  | (n, w) :: l, x :: xs, pos, v, hl, h, hv => by
    obtain ⟨hx, hxs⟩ := List.forall₂_cons.mp h
    rw [List.map_cons, List.sum_cons, packedValue, pow_add] at hv
    have hhead : v.toNat / 2 ^ pos % 2 ^ w = x := by
      rw [← Nat.mod_mul_right_mod _ _ (2 ^ (l.map Prod.snd).sum), hv, Nat.add_mul_mod_self_left, Nat.mod_eq_of_lt hx]
    have htail : v.toNat / 2 ^ (pos + w) % 2 ^ (l.map Prod.snd).sum = packedValue (l.map Prod.snd) xs := by
      rw [pow_add, ← Nat.div_div_eq_div_mul, ← Nat.mod_mul_right_div_self, hv, Nat.add_mul_div_left _ _ (Nat.two_pow_pos w),
        Nat.div_eq_of_lt hx, Nat.zero_add]
    rw [unpack, unpack_head (hl _ List.mem_cons_self), hhead,
      unpack_of_packed (pos + w) v (fun f hf => hl f (List.mem_cons_of_mem _ hf)) hxs htail]

/-- Settles O11: each field's value is a quotient's residue, which undoes the sum of the packed value. -/
theorem unpackAnswer : Obligations.UnpackAnswer := by
  refine ⟨fun s n v hm hs hn => ?answer, fun l xs v hl hpack => ?inverse⟩
  case answer =>
    have hfits : (Config.cfg.layout n).fits := Config.cfg_wf.layouts n
    refine ⟨_, unpack 0 (Config.cfg.layout n) v, admitted_withAddr_of_lt (g := Config.cfg) hm hs (Nat.lt_succ_of_le hn),
      endsDone_complete s _, untouched_complete s _, length_unpack 0 _ v, fun j w hw => ?_⟩
    rw [unpack_get 0 v j w (width_le_of_fits hfits le_rfl) hw, Nat.zero_add]
  case inverse =>
    have hfit := fit_of_pack hpack
    rw [pack_of_fit 0 hfit, pow_zero, one_mul, Option.some_inj] at hpack
    subst hpack
    have hlt : packedValue (l.map Prod.snd) xs < 2 ^ 32 :=
      (packedValue_lt hfit).trans_le (Nat.pow_le_pow_right Nat.two_pos hl.2)
    refine unpack_of_packed 0 _ (width_le_of_fits hl le_rfl) hfit ?_
    rw [pow_zero, Nat.div_one, BitVec.toNat_ofNat, Nat.mod_eq_of_lt hlt, Nat.mod_eq_of_lt (packedValue_lt hfit)]

end Sys2Proof.Machine
end

section
/-! Proofs about the control region (41_control_region.md): the accesses of the window, the reads of the control word and of the
status words, and the writes of one field. -/

namespace Sys2Proof.Machine

/-! ## The window -/

theorem windowReg_eq_cw {g : Cfg} {off n : Nat} : windowReg g off n = some .cw ↔ off = g.cwOffset ∧ n = g.cwBytes := by
  unfold windowReg
  split_ifs <;> simp_all

theorem windowReg_eq_none {g : Cfg} {off n : Nat} (hcw : ¬ (off = g.cwOffset ∧ n = g.cwBytes))
    (hsw : ∀ w, g.hasWord w = true → ¬ (off = g.swOffset w ∧ n = g.swBytes)) : windowReg g off n = none := by
  rw [windowReg, if_neg hcw, if_neg fun h => hsw .sw0 h.1 h.2, if_neg fun h => hsw .sw1 h.1 h.2]

/-- Settles O13: `windowReg` names the register of each access of R68 and none for any other. -/
theorem windowAccesses : Obligations.WindowAccesses := by
  refine ⟨fun g s off n v hg hio => ⟨?cw, ?status, ?writes, ?reads⟩, rfl, rfl, hasWord_cfg⟩
  case cw =>
    rintro ⟨rfl, rfl⟩
    exact ⟨(memRead_reg hg (r := .cw) (by simp) s).trans (readReg_eq g .cw hio),
      (memWrite_cw g v s).trans (writeCwReg_eq g _ hio)⟩
  case status =>
    rintro w hw ⟨rfl, rfl⟩
    exact (memRead_reg hg (r := .sw w) (fun _ h => by cases h; exact hw) s).trans (readReg_eq g (.sw w) hio)
  case writes =>
    intro hcw
    unfold memWrite
    split
    · rename_i h
      exact absurd (windowReg_eq_cw.mp h) hcw
    · rfl
  case reads =>
    intro hcw hsw
    rw [memRead, windowReg_eq_none hcw hsw]

/-! ## Reads -/

theorem endsDone_record (s : State) (e : Event) (r : Result) : EndsDone s ((s.record e).complete r) r [e] :=
  ⟨rfl, rfl, rfl, rfl, ⟨rfl, rfl⟩, ⟨rfl, rfl⟩, ⟨rfl, rfl, rfl⟩, rfl⟩

theorem untouched_record (s : State) (e : Event) (r : Result) : Untouched s ((s.record e).complete r) :=
  ⟨⟨rfl, rfl⟩, rfl, fun _ _ => rfl⟩

/-- CW.READ of an open device reads CW and answers the field (R155). -/
theorem execCwRead_of_ready (g : Cfg) {s : State} (hs : Ready s) (f : CwField) :
    execCwRead (.cw f) s g =
      .next ((s.record (.mmioR g.cwOffset g.cwBytes (s.cw.setWidth 64))).complete (.nibble (getField g s.cw f))) := by
  obtain ⟨hm, hspi, hio⟩ := hs
  simp only [execCwRead, admit_of_ready hm hspi, readReg_eq g .cw hio, Res.ok_bind, finish_ok, State.windowValue, setWidth_32_64_32]
  rfl

/-- A field is four bits of the word (R21). -/
theorem getField_eq_extractLsb' (g : Cfg) (w : CwWord) (f : CwField) : getField g w f = w.extractLsb' (g.cwLo f) 4 := by
  apply BitVec.eq_of_getLsbD_eq
  intro i hi
  rw [getField_bit g w f i hi, BitVec.getLsbD_extractLsb', decide_eq_true hi, Bool.true_and]

/-- Settles O14: the field stands at the default position of R21. -/
theorem cwReadAnswer : Obligations.CwReadAnswer := by
  intro s f hs
  refine ⟨_, execCwRead_of_ready Config.cfg hs f, ?_, untouched_record s _ _⟩
  rw [getField_eq_extractLsb']
  cases f <;> exact endsDone_record s _ _

/-- The value that a read of a status word shows (R160). -/
def State.statusWord (g : Cfg) (s : State) (w : SwWord) : WinVal := s.env.status.word g s.hist w

/-- SW.READ of an open device reads the field's word and answers the field (R160). -/
theorem execSwRead_of_ready (g : Cfg) {s : State} (hs : Ready s) (f : SwField) :
    execSwRead (.sw f) s g =
      .next ((s.record (.mmioR (g.swOffset (g.swPos f).word) g.swBytes (s.statusWord g (g.swPos f).word))).complete
        (.status (getStatus g f (s.statusWord g (g.swPos f).word)))) := by
  obtain ⟨hm, hspi, hio⟩ := hs
  simp only [execSwRead, admit_of_ready hm hspi, swRead, readReg_eq g _ hio, Res.ok_bind, finish_ok]
  rfl

theorem and_lowMask_idem {w : Nat} (v : BitVec w) (n : Nat) : v &&& lowMask n &&& lowMask n = v &&& lowMask n := by
  rw [BitVec.and_assoc, BitVec.and_self]

/-- A status word shows no bit beyond its width (R27). -/
theorem statusWord_masked (g : Cfg) (s : State) (w : SwWord) : s.statusWord g w &&& lowMask g.swBits = s.statusWord g w :=
  and_lowMask_idem _ _

/-- A fixed source shows its word, cut to the word's bits. -/
theorem statusWord_of_fixed (g : Cfg) {s : State} {w0 w1 : WinVal} (h : s.env.status = .fixed w0 w1) (w : SwWord) :
    s.statusWord g w = (match w with | .sw0 => w0 | .sw1 => w1) &&& lowMask g.swBits := by
  rw [State.statusWord, h]
  cases w <;> rfl

/-- The status fields at the default positions of R28. -/
theorem getStatus_cfg (f : SwField) (w : WinVal) :
    getStatus Config.cfg f w = match f with
      | .err => w &&& 0xF#64
      | .tempA => (w >>> 4) &&& 0xFFF#64
      | .tempB => (w >>> 16) &&& 0xFFF#64
      | .tempC => w &&& 0xFFF#64
      | .tempD => (w >>> 12) &&& 0xFFF#64 := by
  cases f
  case err => exact congrArg (· &&& _) (BitVec.ushiftRight_zero w)
  case tempA => rfl
  case tempB => rfl
  case tempC => exact congrArg (· &&& _) (BitVec.ushiftRight_zero w)
  case tempD => rfl

theorem getStatus_toNat {g : Cfg} (hg : g.wf) (f : SwField) (w : WinVal) :
    (getStatus g f w).toNat = w.toNat / 2 ^ (g.swPos f).lo % 2 ^ (g.swPos f).width := by
  obtain ⟨-, hfits⟩ := hg.swFits f
  obtain ⟨-, -, h64⟩ := hg.status
  rw [getStatus, toNat_and_lowMask (by omega), BitVec.toNat_ushiftRight, Nat.shiftRight_eq_div_pow]

theorem statusWord_lt {g : Cfg} (hg : g.wf) (s : State) (w : SwWord) : (s.statusWord g w).toNat < 2 ^ g.swBits := by
  obtain ⟨-, -, h64⟩ := hg.status
  rw [← statusWord_masked, toNat_and_lowMask h64]
  exact Nat.mod_lt _ (Nat.two_pow_pos _)

/-- The flag of a chip in the error mask is its bit of the word (R29). -/
theorem errFlag_and_nibble (w : WinVal) (p : PhysChip) : errFlag (w &&& 0xF#64) p = w.getLsbD (chipIdx p) := by
  rw [errFlag, BitVec.getLsbD_and]
  cases p <;> exact Bool.and_true _

/-- Settles O21: the operation makes one read, and the word that it shows is masked as the fixed source's is. -/
theorem statusReads : Obligations.StatusReads := by
  refine ⟨fun s hs => ⟨fun f => ?field, ?errors⟩, fun g s f hg hs => ?configured⟩
  case field =>
    refine ⟨_, s.statusWord Config.cfg (Config.cfg.swPos f).word, execSwRead_of_ready Config.cfg hs f, ?_, untouched_record s _ _,
      statusWord_masked Config.cfg s _, fun w0 w1 hw => ?_⟩
    · rw [getStatus_cfg]
      cases f <;> exact endsDone_record s _ _
    · rw [statusWord_of_fixed Config.cfg hw]
      cases f <;> rfl
  case errors =>
    refine ⟨_, s.statusWord Config.cfg .sw0, execSwRead_of_ready Config.cfg hs .err, ?_, untouched_record s _ _,
      statusWord_masked Config.cfg s _, ⟨errFlag_and_nibble _ .A, errFlag_and_nibble _ .B, errFlag_and_nibble _ .C,
        errFlag_and_nibble _ .D⟩, fun w0 w1 hw => statusWord_of_fixed Config.cfg hw .sw0⟩
    rw [getStatus_cfg]
    exact endsDone_record s _ _
  case configured =>
    exact ⟨_, _, _, execSwRead_of_ready g hs f, endsDone_record s _ _, untouched_record s _ _, statusWord_lt hg s _,
      getStatus_toNat hg f _⟩

/-- The state after a read of the first status word. -/
def State.readFirst (g : Cfg) (s : State) : State := s.record (.mmioR g.sw0Offset g.swBytes (s.statusWord g .sw0))

/-- RDTEMP of an open device with two status words reads both, the second one after the first (R266). -/
theorem execRdTemp_of_ready {s : State} (hs : Ready s) :
    execRdTemp s =
      .next (((s.readFirst Config.cfg).record
          (.mmioR Config.cfg.sw1Offset Config.cfg.swBytes ((s.readFirst Config.cfg).statusWord Config.cfg .sw1))).complete (.temps
        (getStatus Config.cfg .tempA (s.statusWord Config.cfg .sw0)) (getStatus Config.cfg .tempB (s.statusWord Config.cfg .sw0))
        (getStatus Config.cfg .tempC ((s.readFirst Config.cfg).statusWord Config.cfg .sw1))
        (getStatus Config.cfg .tempD ((s.readFirst Config.cfg).statusWord Config.cfg .sw1)))) := by
  obtain ⟨hm, hspi, hio⟩ := hs
  rw [execRdTemp, admit_of_ready hm hspi, readReg_eq _ _ hio, Res.ok_bind, readSecond, if_pos (hasWord_cfg _),
    readReg_eq (s := s.record _) _ _ hio, Res.ok_bind, finish_ok]
  rfl

/-- The statement takes the first word as a number: cast back it is the word. -/
theorem natCast_toNat_word (w : WinVal) : ((w.toNat : Nat) : WinVal) = w := by
  rw [BitVec.natCast_eq_ofNat, BitVec.ofNat_toNat, BitVec.setWidth_eq]

theorem natCast_toNat_shiftRight (w : WinVal) (k : Nat) : ((w.toNat >>> k : Nat) : WinVal) = w >>> k := by
  rw [← BitVec.toNat_ushiftRight, natCast_toNat_word]

/-- Settles O22: RDTEMP reads the words that are there, and every field is cut out of the word that holds it. -/
theorem temperaturesRead : Obligations.TemperaturesRead := by
  refine ⟨fun s hs => ?both, fun g s hg hs hone => ?single⟩
  case both =>
    refine ⟨_, (s.statusWord Config.cfg .sw0).toNat, (s.readFirst Config.cfg).statusWord Config.cfg .sw1, execRdTemp_of_ready hs, ?_,
      ⟨⟨rfl, rfl⟩, rfl, fun _ _ => rfl⟩, ?_⟩
    · simp only [natCast_toNat_shiftRight, natCast_toNat_word, getStatus_cfg]
      exact ⟨rfl, rfl, List.append_assoc _ _ _, rfl, ⟨rfl, rfl⟩, ⟨rfl, rfl⟩, ⟨rfl, rfl, rfl⟩, rfl⟩
    · simp only [natCast_toNat_word]
      exact ⟨statusWord_masked Config.cfg s _, statusWord_masked Config.cfg _ _, fun u0 u1 hu =>
        ⟨statusWord_of_fixed Config.cfg hu .sw0, statusWord_of_fixed Config.cfg (s := s.readFirst Config.cfg) hu .sw1⟩⟩
  case single =>
    obtain ⟨hm, hspi, hio⟩ := hs
    have hno : g.hasWord .sw1 = false := by simp [Cfg.hasWord, hone]
    have hword : ∀ f, (g.swPos f).word = .sw0 := by
      intro f
      have hw := (hg.swFits f).1
      cases e : (g.swPos f).word with
      | sw0 => rfl
      | sw1 => rw [e, hno] at hw; cases hw
    refine ⟨_, s.statusWord g .sw0, ?_, endsDone_record s _ _, untouched_record s _ _⟩
    rw [execRdTemp, admit_of_ready hm hspi, readReg_eq _ _ hio, Res.ok_bind, readSecond, hno]
    simp only [hword]
    rfl

end Sys2Proof.Machine
end

section
/-! Proofs about the writes of one control-word field (41_control_region.md, 42_spi_chipselect.md, 44_device_controller.md), and about
the operands that end an operation before any access (60_exceptions.md). -/

namespace Sys2Proof.Machine

/-! ## What a field write does to the chips -/

/-- A write of CW does to the chips what the table of R290 says. -/
theorem chipsFollow_writeCw (g : Cfg) (s : State) (w : CwWord) : ChipsFollow g s (s.writeCw g w) := by
  intro p
  rw [State.writeCw_get_life, State.writeCw_get_regs, State.writeCw_cw]
  refine ⟨fun hlow hhigh => ?_, fun hhigh hlow => ?_, fun hsame => ?_⟩
  · have hget := State.writeCw_get_regs g s w p
    simp only [hlow, hhigh, Bool.not_false, Bool.and_self, if_true] at hget ⊢
    exact ⟨trivial, fun a => by rw [State.reg, hget, RegFile.read]⟩
  · simp [hlow, hhigh]
  · rw [hsame]
    cases resetBit g w p <;> exact ⟨rfl, rfl⟩

section

variable {s : State}

/-- A field write as a whole operation (R151). -/
theorem finish_fieldWrite (g : Cfg) (f : CwField) (h : BitVec 4 → BitVec 4) (hio : s.env.ioFailure = none) :
    finish ((fieldWrite g f h s).bind fun _ s => .ok .none s) =
      .next ((s.wroteCw g (putField g s.cw f (h (getField g s.cw f)))).complete .none) := by
  rw [fieldWrite_eq g f h hio, Res.ok_bind, finish_ok]

/-- The two events of the write, the field's new value beside the other three, and the chips that follow their reset bits. -/
theorem fieldWritten (w : BitVec 4) (f : CwField) :
    let t := (s.wroteCw Config.cfg (putField Config.cfg s.cw f w)).complete .none
    EndsDone s t .none (cwWriteEvents Config.cfg s.cw t.cw) ∧ FieldSet Config.cfg s.cw t.cw f w ∧ ChipsFollow Config.cfg s t :=
  ⟨endsDone_wroteCw Config.cfg s _ _, fieldSet_putField Config.cfg_wf s.cw f w, chipsFollow_writeCw Config.cfg s _⟩

end

/-- Settles O15: the value passes the range check and is written, or it is refused there. -/
theorem cwAssignWrites : Obligations.CwAssignWrites := by
  refine fun s f v => ⟨fun hready h0 h15 => ?assigned, fun hm hs hout => ?refused⟩
  case assigned =>
    obtain ⟨hm, hs, hio⟩ := hready
    refine ⟨_, ?_, fieldWritten (BitVec.ofInt 4 v) f⟩
    rw [exec, execCwAssign, admit_of_ready hm hs, withCwField, withNibble_of_inside h0 h15]
    exact finish_fieldWrite Config.cfg f _ hio
  case refused =>
    rw [exec, execCwAssign, admit_of_ready hm hs, withCwField, withNibble_of_outside hout]
    rfl

/-- Settles O16: either operation is the write of one field, or ends at its chip operand. -/
theorem cwSetClearWrites : Obligations.CwSetClearWrites := by
  refine fun s f => ⟨fun c ⟨hm, hs, hio⟩ => ⟨?set, ?clear⟩, fun id hm hs => ⟨?badSet, ?badClear⟩⟩
  case set =>
    refine ⟨_, ?_, fieldWritten _ f⟩
    rw [exec, execCwSet, admit_of_ready hm hs, withChip, withCwField]
    exact finish_fieldWrite Config.cfg f _ hio
  case clear =>
    refine ⟨_, ?_, fieldWritten _ f⟩
    rw [exec, execCwClear, admit_of_ready hm hs, withChip, withCwField]
    exact finish_fieldWrite Config.cfg f _ hio
  case badSet =>
    have hrun : exec (.cwSet (.cw f) (.bad id)) s = .next (s.raise (.invalidChip id)) := admit_of_ready hm hs _
    exact ⟨_, hrun, endsInError_raise s _, untouched_raise s _⟩
  case badClear =>
    have hrun : exec (.cwClear (.cw f) (.bad id)) s = .next (s.raise (.invalidChip id)) := admit_of_ready hm hs _
    exact ⟨_, hrun, endsInError_raise s _, untouched_raise s _⟩

/-! ## The bits of the other chips -/

/-- Where a field write ends done, the control word has the field's new value (R151). -/
theorem cw_of_fieldWrite_next {g : Cfg} {f : CwField} {h : BitVec 4 → BitVec 4} {s t : State}
    (e : admitted s (fun s => (fieldWrite g f h s).bind fun _ s => .ok .none s) = .next t) :
    t.cw = putField g s.cw f (h (getField g s.cw f)) := by
  obtain ⟨-, -, hfinish⟩ := admit_next e
  have hnoError := fieldWrite_errorIn (E := fun _ => False) g f h s
  cases hw : fieldWrite g f h s with
  | ok v u =>
    rw [hw, Res.ok_bind, finish_ok] at hfinish
    cases hfinish
    have hcw : u.cw = putField g s.cw f (h (getField g s.cw f)) := fieldWrite_ok hw
    exact hcw
  | stop w u =>
    rw [hw] at hfinish hnoError
    cases w with
    | error e => exact hnoError.elim
    | fault k => cases hfinish
    | refuse r => cases hfinish

/-- Where a reset pulse goes through, both its writes did (R255). -/
theorem pulseReset_ok {g : Cfg} {c : Chip} {d : Nat} {s t : State} (e : pulseReset g c d s = .ok () t) :
    t.cw = releasedWord g (heldWord g s.cw c) c := by
  unfold pulseReset at e
  cases hset : cwSet g .reset c s with
  | stop w u => rw [hset] at e; cases e
  | ok v u =>
    rw [hset, Res.ok_bind, sleep, Res.ok_bind] at e
    have hu : u.cw = heldWord g s.cw c := fieldWrite_ok (h := fun old => old ||| amask g c) hset
    cases hclear : cwClear g .reset c (((u.forget (members g c)).setLife (members g c) .heldInReset).record (.sleep d)) with
    | stop w x => rw [hclear] at e; cases e
    | ok v x =>
      rw [hclear, Res.ok_bind] at e
      cases e
      have hx : x.cw = releasedWord g _ c := fieldWrite_ok (h := fun old => old &&& dmask g c) hclear
      rw [State.setLife_cw, hx, State.record_cw, State.setLife_cw, State.forget_cw, hu]

theorem cw_of_reset_next {g : Cfg} {c : Chip} {d : Nat} {s t : State} (e : execReset (.chip c) (.micros d) s g = .next t) :
    t.cw = releasedWord g (heldWord g s.cw c) c := by
  obtain ⟨-, -, hfinish⟩ := admit_next e
  have hnoError := pulseReset_errorIn (E := fun _ => False) g c d s
  rw [withChip, withDuration] at hfinish
  cases hp : pulseReset g c d s with
  | ok v u =>
    rw [hp, Res.ok_bind, finish_ok] at hfinish
    cases hfinish
    have hcw : u.cw = releasedWord g (heldWord g s.cw c) c := pulseReset_ok hp
    exact hcw
  | stop w u =>
    rw [hp] at hfinish hnoError
    cases w with
    | error e => exact hnoError.elim
    | fault k => cases hfinish
    | refuse r => cases hfinish

section

variable {g : Cfg} (hg : g.wf) {p : PhysChip} (hp : g.hasChip p = true) (v : BitVec 4)
include hg hp

theorem or_amask_bit (q : PhysChip) : (v ||| amask g (asChip p)).getLsbD (chipIdx q) = (decide (q = p) || v.getLsbD (chipIdx q)) := by
  rw [BitVec.getLsbD_or, amask_bit hg, decide_eq_decide.mpr (mem_members_asChip hp q), Bool.or_comm]

theorem and_dmask_bit (q : PhysChip) :
    (v &&& dmask g (asChip p)).getLsbD (chipIdx q) = (!decide (q = p) && v.getLsbD (chipIdx q)) := by
  rw [BitVec.getLsbD_and, dmask_eq, BitVec.getLsbD_not, amask_bit hg, decide_eq_decide.mpr (mem_members_asChip hp q),
    decide_eq_true (chipIdx_lt q), Bool.true_and, Bool.and_comm]

end

/-- Settles O18: the word that each operation leaves is its field write's, whose mask has the one bit of its chip. -/
theorem otherChipsKept : Obligations.OtherChipsKept := by
  have hg := Config.cfg_wf
  refine fun s t f p q d => ⟨fun h => ?set, fun h => ?clear, fun h => ?reset⟩
  case set =>
    have hcw : t.cw = putField Config.cfg s.cw f (getField Config.cfg s.cw f ||| amask Config.cfg (asChip p)) :=
      cw_of_fieldWrite_next (h := fun old => old ||| amask Config.cfg (asChip p)) h
    obtain ⟨hfield, hothers⟩ := fieldSet_putField hg s.cw f (getField Config.cfg s.cw f ||| amask Config.cfg (asChip p))
    rw [hcw, hfield, or_amask_bit hg (hasChip_cfg p)]
    exact ⟨rfl, hothers⟩
  case clear =>
    have hcw : t.cw = putField Config.cfg s.cw f (getField Config.cfg s.cw f &&& dmask Config.cfg (asChip p)) :=
      cw_of_fieldWrite_next (h := fun old => old &&& dmask Config.cfg (asChip p)) h
    obtain ⟨hfield, hothers⟩ := fieldSet_putField hg s.cw f (getField Config.cfg s.cw f &&& dmask Config.cfg (asChip p))
    rw [hcw, hfield, and_dmask_bit hg (hasChip_cfg p)]
    exact ⟨rfl, hothers⟩
  case reset =>
    have hcw := cw_of_reset_next (g := Config.cfg) h
    refine ⟨?_, fun f' hf => ?_⟩
    · rw [hcw, releasedWord, resetBit_clear hg, heldWord, resetBit_set hg, decide_eq_decide.mpr (mem_members_asChip (hasChip_cfg p) q)]
      cases decide (q = p) <;> rfl
    · rw [hcw, releasedWord, getField_putField_ne hg _ _ hf.symm, heldWord, getField_putField_ne hg _ _ hf.symm]

/-! ## Chip select -/

/-- The chips that an operand covers: the first `nchip` that it names (R90, R7). -/
theorem mem_members_iff (g : Cfg) (c : Chip) (p : PhysChip) :
    p ∈ members g c ↔ chipIdx p < g.nchip ∧ (c = .All ∨ c = asChip p) := by
  rw [members, List.mem_filter, Cfg.hasChip, decide_eq_true_iff, and_comm]
  exact and_congr_right fun _ => by cases c <;> cases p <;> decide

theorem execCsAssert_of_ready (g : Cfg) {s : State} (hs : Ready s) (c : Chip) :
    execCsAssert (.chip c) s g = .next ((s.wroteCw g (selectW g s.cw c)).complete .none) := by
  obtain ⟨hm, hspi, hio⟩ := hs
  rw [execCsAssert, admit_of_ready hm hspi, withChip, csAssert_eq g c hio, Res.ok_bind, finish_ok, selectW]

theorem execCsDeassert_of_ready (g : Cfg) {s : State} (hs : Ready s) (c : Chip) :
    execCsDeassert (.chip c) s g = .next ((s.wroteCw g (deselectW g s.cw c)).complete .none) := by
  obtain ⟨hm, hspi, hio⟩ := hs
  rw [execCsDeassert, admit_of_ready hm hspi, withChip, csDeassert_eq g c hio, Res.ok_bind, finish_ok, deselectW]

/-- Settles O29: both operations write the chip-select field alone, and the machine's polarity makes the write an OR or an AND. -/
theorem chipSelect : Obligations.ChipSelect := by
  refine ⟨fun g s c hg hs => ⟨?assert, ?deassert⟩, fun s c hs => ⟨?machineAssert, ?machineDeassert⟩⟩
  case assert =>
    refine ⟨_, execCsAssert_of_ready g hs c, endsDone_wroteCw g s _ _, sameChips_wroteCw hg s _ (by decide), fun p => ?_, fun f hf =>
      getField_selectW hg s.cw c hf⟩
    rw [decide_eq_decide.mpr (mem_members_iff g c p).symm]
    exact isSelected_selectW hg s.cw c p
  case deassert =>
    refine ⟨_, execCsDeassert_of_ready g hs c, endsDone_wroteCw g s _ _, sameChips_wroteCw hg s _ (by decide), fun p => ?_,
      fun f hf => getField_deselectW hg s.cw c hf⟩
    rw [decide_eq_decide.mpr (mem_members_iff g c p).symm]
    exact isSelected_deselectW hg s.cw c p
  case machineAssert =>
    exact ⟨_, execCsAssert_of_ready Config.cfg hs c, endsDone_wroteCw _ s _ _, sameChips_wroteCw Config.cfg_wf s _ (by decide),
      fieldSet_putField Config.cfg_wf s.cw .cs _⟩
  case machineDeassert =>
    exact ⟨_, execCsDeassert_of_ready Config.cfg hs c, endsDone_wroteCw _ s _ _, sameChips_wroteCw Config.cfg_wf s _ (by decide),
      fieldSet_putField Config.cfg_wf s.cw .cs _⟩

/-! ## The trigger mode -/

theorem triggered_of_set_up (m : TrigMode) {l : Life} (h : l = .configured ∨ ∃ k, l = .triggering k) :
    triggered m l = if m = .off then .configured else .triggering m := by
  rcases h with rfl | ⟨k, rfl⟩ <;> cases m <;> rfl

theorem triggered_of_other (m : TrigMode) {l : Life} (hc : l ≠ .configured) (ht : ∀ k, l ≠ .triggering k) : triggered m l = l := by
  cases l with
  | configured => exact absurd rfl hc
  | triggering k => exact absurd rfl (ht k)
  | heldInReset => cases m <;> rfl
  | released => cases m <;> rfl
  | unknown => cases m <;> rfl

/-- Settles O38: the write of hold reaches no chip, so each lifecycle moves by `triggered` alone. -/
theorem triggerMode : Obligations.TriggerMode := by
  refine fun s m ⟨hm, hs, hio⟩ => ⟨?_, fun m' hne h => hne (Config.cfg_wf.holdInj m' m h)⟩
  obtain ⟨hregs, hlife⟩ := sameChips_wroteCw Config.cfg_wf s (f := .hold) (Config.cfg.holdCode m) (by decide)
  refine ⟨(((s.wroteCw Config.cfg (putField Config.cfg s.cw .hold (Config.cfg.holdCode m))).setTrigger m).complete .none), ?_,
    ⟨rfl, rfl, rfl, rfl, ⟨rfl, rfl⟩, ⟨rfl, rfl⟩, ⟨rfl, rfl, rfl⟩, rfl⟩, fieldSet_putField Config.cfg_wf s.cw .hold _,
    hregs, fun p => ?_⟩
  · rw [exec, execSetTrig, admit_of_ready hm hs]
    simp only [cwAssign_eq _ _ _ hio, Res.ok_bind, finish_ok]
  · rw [State.complete_life, State.setTrigger_get_life, hlife]
    exact ⟨triggered_of_set_up m, triggered_of_other m⟩

/-! ## Operands that end an operation before any access -/

/-- Settles O17: the field is checked before anything is accessed; a CW.SET or CW.CLEAR has only checked its chip. -/
theorem fieldNamesRefused : Obligations.FieldNamesRefused := by
  refine fun s v c hm hs => ⟨fun h i hi => ?status, fun id f h i hi => ?unknown⟩
  case status => rcases hi with rfl | rfl | rfl <;> exact admit_of_ready hm hs _
  case unknown => rcases hi with rfl | rfl | rfl | rfl | rfl | rfl | rfl <;> exact admit_of_ready hm hs _

/-- Settles O44: SLEEP records its event and no more. -/
theorem sleepRecorded : Obligations.SleepRecorded := by
  intro s d hm hs
  have hrun : exec (.sleep (.micros d)) s = .next ((s.record (.sleep d)).complete .none) := by
    rw [exec, execSleep, admit_of_ready hm hs, withDuration, sleep, Res.ok_bind, finish_ok]
  exact ⟨_, hrun, endsDone_record s _ _, untouched_record s _ _⟩

/-- Settles O45: the chip operand is the first that every such operation checks. -/
theorem invalidChipRaised : Obligations.InvalidChipRaised := by
  intro s id i hm hs hi
  suffices hrun : exec i s = .next (s.raise (.invalidChip id)) from ⟨_, hrun, endsInError_raise s _, untouched_raise s _⟩
  rcases hi with ⟨f, rfl⟩ | ⟨f, rfl⟩ | rfl | rfl | ⟨a, vb, rfl⟩ | ⟨d, rfl⟩ | ⟨b, rfl⟩ <;> exact admit_of_ready hm hs _

/-- Settles O46: each operand is checked before anything is accessed. -/
theorem operandsRefused : Obligations.OperandsRefused := by
  refine fun s hm hs => ⟨fun c a vb hvb => ?value, fun id => admit_of_ready hm hs _, fun c id => admit_of_ready hm hs _,
    fun id => admit_of_ready hm hs _, fun n w r hn => ?address⟩
  case value =>
    rw [exec, execWrv, admit_of_ready hm hs, withChip, valueBytes_cfg, if_neg hvb]
    rfl
  case address =>
    have hout : ¬ n < Config.cfg.nreg := Nat.not_lt.mpr hn
    rw [exec, execVcmp, admit_of_ready hm hs, if_neg hout]
    rfl

end Sys2Proof.Machine
end

section
/-! Proofs about transfers (42_spi_chipselect.md): what the selected chips make of the bytes sent, and the three operations that send
them. -/

namespace Sys2Proof.Machine

/-! ## The chips' response -/

section

variable (g : Cfg) (sel : List PhysChip) (tx : List Byte) (s : State)

theorem junkBytes_length (k : Link) (hist : List Event) : (junkBytes k hist sel tx).length = tx.length := by
  rw [junkBytes, List.length_map, List.length_range]

theorem forget_nil : s.forget [] = s := by
  have h : (PerChip.ofFn fun p => s.regs.get p) = s.regs := rfl
  simp [State.forget, h]

/-- As many bytes are received as are sent (R180). -/
theorem chipResponse_length (hg : g.wf) : (chipResponse g sel tx s).1.length = tx.length := by
  unfold chipResponse
  split
  · exact junkBytes_length _ _ _ _
  · exact junkBytes_length _ _ _ _
  · rename_i p more c vb
    dsimp only
    split_ifs with hill hwrite
    · exact junkBytes_length _ _ _ _
    · exact junkBytes_length _ _ _ _
    · split
      · exact junkBytes_length _ _ _ _
      · have hlen : vb.length + 1 = g.frameLen := by
          by_contra h
          exact hill (.inl h)
        rw [List.length_cons, wireBytes_length, List.length_cons, hlen, frameLen_eq hg]

/-- The chips' response leaves all but the chips' registers (R190). -/
theorem chipResponse_keeps :
    ∃ regs, (chipResponse g sel tx s).2 = { s with regs := regs } := by
  rcases chipResponse_state g sel tx s with e | e | ⟨a, v, -, e⟩ <;> exact ⟨_, e⟩

/-- An ill-formed frame is junk to the chips that hear it: they lose their registers (R196). -/
theorem chipResponse_illFormed (htx : tx ≠ []) (h : tx.length ≠ g.frameLen ∨ g.nreg ≤ frameAddr (tx.headD 0#8)) :
    chipResponse g sel tx s = (junkBytes s.env.link s.hist sel tx, s.forget sel) := by
  obtain ⟨c, vb, rfl⟩ := List.exists_cons_of_ne_nil htx
  cases sel with
  | nil => rw [forget_nil, chipResponse]
  | cons p more => exact if_pos h

variable {g}

/-- The response to a read frame: junk and then the listener's value, or all junk where not exactly one chip listens (R193, R194). -/
theorem chipResponse_of_readFrame (hg : g.wf) {a : Nat} (ha : a < g.nreg) {d : List Byte} (hd : d.length = g.valueBytes) :
    ∃ vb, chipResponse g sel (cmdByte a false :: d) s = (Link.junk s.env.link s.hist sel (cmdByte a false :: d) 0 :: vb, s) ∧
      vb.length = g.valueBytes ∧ (∀ p, sel = [p] → vb = wireBytes g (Link.data g s.env.link s.hist p a (s.reg p a))) ∧
      ((∀ p, sel ≠ [p]) → Link.junk s.env.link s.hist sel (cmdByte a false :: d) 0 :: vb =
        junkBytes s.env.link s.hist sel (cmdByte a false :: d)) := by
  have h128 : a < 128 := ha.trans_le hg.regs.1
  have haddr : frameAddr (cmdByte a false) = a := frameAddr_cmdByte a false h128
  have hlen : d.length + 1 = g.frameLen := by rw [hd, frameLen_eq hg]
  have hjunk : junkBytes s.env.link s.hist sel (cmdByte a false :: d) = Link.junk s.env.link s.hist sel (cmdByte a false :: d) 0 ::
      (List.range d.length).map (fun j => Link.junk s.env.link s.hist sel (cmdByte a false :: d) (j + 1)) := by
    rw [junkBytes, List.length_cons, List.range_succ_eq_map, List.map_cons, List.map_map]
    rfl
  by_cases hone : ∃ p, sel = [p]
  · obtain ⟨p, rfl⟩ := hone
    refine ⟨_, chipResponse_read g p s ha h128 hlen, wireBytes_length g _, fun q hq => ?_, fun h => absurd rfl (h p)⟩
    cases hq
    rfl
  · have hne : ∀ p, sel ≠ [p] := fun p hp => hone ⟨p, hp⟩
    refine ⟨_, ?_, ?_, fun p hp => absurd hp (hne p), fun _ => hjunk.symm⟩
    · rw [← hjunk]
      rcases sel with _ | ⟨p, _ | ⟨q, more⟩⟩
      · rfl
      · exact absurd rfl (hne p)
      · simp [chipResponse, haddr, hlen, cmdByte_bit0, Nat.not_le.mpr ha]
    · rw [List.length_map, List.length_range, hd]

end

/-! ## The operations that send bytes -/

/-- The bytes received when `tx` is sent. -/
def State.received (g : Cfg) (s : State) (tx : List Byte) : List Byte := (chipResponse g (selected g s.cw) tx s).1

/-- The state after the transfer of `tx` (R190, R44). -/
def State.transferred (g : Cfg) (s : State) (tx : List Byte) : State :=
  (chipResponse g (selected g s.cw) tx s).2.record (.xfer (selected g s.cw) tx (s.received g tx))

section

variable {g : Cfg} {s : State}

theorem frameBytes_ne_nil (a : BitVec 7) (w : Bool) (v : Word) (g : Cfg) : frameBytes a w v g ≠ [] := List.cons_ne_nil _ _

section

variable (hs : Ready s) (hcan : CanTransfer g [] s)
include hs hcan

theorem spiXfer_of_canTransfer {tx : List Byte} (htx : tx ≠ []) : spiXfer g tx s = .ok (s.received g tx) (s.transferred g tx) :=
  spiXfer_eq g tx htx hs.2.2 fun p hp => hcan p (.inr ((mem_selected g s.cw p).mp hp))

theorem execSpiXfer_of_ready {tx : List Byte} (htx : tx ≠ []) :
    execSpiXfer tx s g = .next ((s.transferred g tx).complete (.bytes (s.received g tx))) := by
  rw [execSpiXfer, admit_of_ready hs.1 hs.2.1, spiXfer_of_canTransfer hs hcan htx, Res.ok_bind, finish_ok]

theorem execFrameW_of_ready (a : BitVec 7) (v : Word) :
    execFrameW a v s g = .next ((s.transferred g (frameBytes a true v g)).complete .none) := by
  rw [execFrameW, admit_of_ready hs.1 hs.2.1, spiXfer_of_canTransfer hs hcan (frameBytes_ne_nil a true v g), Res.ok_bind, finish_ok]

theorem execFrameR_of_ready (a : BitVec 7) (d : Word) :
    execFrameR a d s g = .next ((s.transferred g (frameBytes a false d g)).complete
      (.word (readBack g (s.received g (frameBytes a false d g))))) := by
  rw [execFrameR, admit_of_ready hs.1 hs.2.1, spiXfer_of_canTransfer hs hcan (frameBytes_ne_nil a false d g), Res.ok_bind, finish_ok]

end

theorem endsDone_transferred (g : Cfg) (s : State) (tx : List Byte) (r : Result) :
    EndsDone s ((s.transferred g tx).complete r) r [.xfer (selected g s.cw) tx (s.received g tx)] := by
  obtain ⟨regs, e⟩ := chipResponse_keeps g (selected g s.cw) tx s
  rw [State.transferred, e]
  exact ⟨rfl, rfl, rfl, rfl, ⟨rfl, rfl⟩, ⟨rfl, rfl⟩, ⟨rfl, rfl, rfl⟩, rfl⟩

/-- A transfer changes neither the window nor a lifecycle. -/
theorem transferred_keeps (g : Cfg) (s : State) (tx : List Byte) (r : Result) :
    SameWindow s ((s.transferred g tx).complete r) ∧ ((s.transferred g tx).complete r).life = s.life := by
  obtain ⟨regs, e⟩ := chipResponse_keeps g (selected g s.cw) tx s
  rw [State.transferred, e]
  exact ⟨sameWindow_of_cw rfl, rfl⟩

/-- A transfer leaves the registers that the chips' response leaves. -/
theorem transferred_regs {tx rx : List Byte} {t : State} (h : chipResponse g (selected g s.cw) tx s = (rx, t)) (r : Result) :
    ((s.transferred g tx).complete r).regs = t.regs ∧ s.received g tx = rx := by
  rw [State.transferred, State.received, h]
  exact ⟨rfl, rfl⟩

/-- Settles O23: the response is as long as what was sent and reaches only the chips that listen. -/
theorem transferCompletes : Obligations.TransferCompletes := by
  refine fun s => ⟨fun tx hs hcan htx => ?sent, fun hm hs => admit_of_ready hm hs _⟩
  case sent =>
    obtain ⟨hwindow, hlife⟩ := transferred_keeps Config.cfg s tx (.bytes (s.received Config.cfg tx))
    refine ⟨_, _, execSpiXfer_of_ready hs hcan htx, endsDone_transferred _ s tx _, chipResponse_length _ _ tx s Config.cfg_wf, hwindow,
      hlife, fun p hp => chipResponse_file Config.cfg tx s ?_⟩
    rw [mem_selected, hp]
    exact Bool.false_ne_true

/-! ### No listener -/

theorem canTransfer_of_none (hn : NoneSelected g s) : CanTransfer g [] s := by
  intro p hp
  rw [isSelected_of_none hn p] at hp
  rcases hp with h | h
  · cases h
  · cases h

/-- With no chip selected the bytes reach no chip (R191). -/
theorem chipResponse_none (hn : NoneSelected g s) (tx : List Byte) :
    chipResponse g (selected g s.cw) tx s = (junkBytes s.env.link s.hist [] tx, s) := by
  rw [show selected g s.cw = [] from hn, chipResponse]

theorem untouched_of_none (hn : NoneSelected g s) (tx : List Byte) (r : Result) : Untouched s ((s.transferred g tx).complete r) :=
  ⟨⟨(transferred_regs (chipResponse_none hn tx) r).1, (transferred_keeps g s tx r).2⟩, (transferred_keeps g s tx r).1⟩

theorem endsDone_of_none (hn : NoneSelected g s) (tx : List Byte) (r : Result) :
    EndsDone s ((s.transferred g tx).complete r) r [.xfer [] tx (s.received g tx)] := by
  have h := endsDone_transferred g s tx r
  rwa [show selected g s.cw = [] from hn] at h

/-- Settles O24: each of the three operations is a transfer that no chip hears. -/
theorem noListener : Obligations.NoListener := by
  intro s tx a v hs hn htx
  have hcan := canTransfer_of_none hn
  have hjunk : ∀ tx, s.received Config.cfg tx = junkBytes s.env.link s.hist [] tx := fun tx =>
    (transferred_regs (chipResponse_none hn tx) .none).2
  exact ⟨⟨_, _, execSpiXfer_of_ready hs hcan htx, endsDone_of_none hn _ _, untouched_of_none hn _ _, hjunk _⟩,
    ⟨_, _, execFrameW_of_ready hs hcan a v, endsDone_of_none hn _ _, untouched_of_none hn _ _, hjunk _⟩,
    ⟨_, _, execFrameR_of_ready hs hcan a v, endsDone_of_none hn _ _, untouched_of_none hn _ _, hjunk _⟩⟩

/-! ### Write frames -/

/-- What a write frame carries is the value sent, cut to the bits of a value (R101). -/
theorem chipResponse_writeFrame (hg : g.wf) {a : BitVec 7} (ha : a.toNat < g.nreg) (v : Word) (s : State) :
    chipResponse g (selected g s.cw) (frameBytes a true v g) s =
      (junkBytes s.env.link s.hist (selected g s.cw) (frameBytes a true v g),
        s.latch g (selected g s.cw) a.toNat (v &&& lowMask g.valueBits)) := by
  rw [← valueOf_wireBytes hg v]
  exact chipResponse_write g s ha a.isLt (by rw [wireBytes_length, frameLen_eq hg])

/-- The listeners hold what the link made them latch, and no other register has changed (R192, R194). -/
theorem latched_registers (s : State) (sel : List PhysChip) (a : Nat) (v : Word) {t : State}
    (ht : t.regs = (s.latch g sel a v).regs) :
    OnlyRegister s t sel a ∧ ∀ p ∈ sel, t.reg p a = .known (Link.latch g s.env.link s.hist p a v) := by
  refine ⟨fun q b hqb => ?_, fun p hp => ?_⟩
  · rw [State.reg, ht, State.latch_get_regs]
    split
    · rename_i hq
      exact RegFile.read_write_ne _ _ fun hb => hqb ⟨hq, hb⟩
    · rfl
  · rw [State.reg, ht, State.latch_get_regs, if_pos hp, RegFile.read_write_same]

/-- The links of R197 and R198 latch the significant bits of what was sent. -/
theorem latch_of_known_link {k : Link} (h : IdealLink g k ∨ k = .echo ∨ ∃ j, k = .flip j) (hist : List Event) (p : PhysChip) (a : Nat)
    (v : Word) : Link.latch g k hist p a v = v &&& sigMask g a := by
  rcases h with h | rfl | ⟨j, rfl⟩
  · exact h.1 hist p a v
  · rfl
  · rfl

/-- Settles O25: a write frame is well formed, and every listener latches what it carries. -/
theorem writeFrameLatches : Obligations.WriteFrameLatches := by
  refine ⟨fun s a v i hs hcan ha hi => ?machine, fun g s a v hg hs hcan ha hv => ?configured⟩
  case machine =>
    have hresponse := chipResponse_writeFrame Config.cfg_wf (g := Config.cfg) (s := s) (Nat.lt_succ_of_le ha) v
    rw [show v &&& lowMask Config.cfg.valueBits = v from and_lowMask_self v] at hresponse
    have hsent : ∀ r, EndsDone s ((s.transferred Config.cfg (frameBytes a true v)).complete r) r _ := endsDone_transferred _ s _
    have hlatched : ∀ r, _ := fun r => latched_registers s _ _ v (transferred_regs hresponse r).1
    have hvalue : ∀ r, ∀ p ∈ selected Config.cfg s.cw, ∃ y,
        ((s.transferred Config.cfg (frameBytes a true v)).complete r).reg p a.toNat = .known y ∧
          y &&& sigMask Config.cfg a.toNat = y ∧ y = Link.latch Config.cfg s.env.link s.hist p a.toNat v ∧
          ((IdealLink Config.cfg s.env.link ∨ s.env.link = .echo ∨ ∃ j, s.env.link = .flip j) →
            y = v &&& sigMask Config.cfg a.toNat) :=
      fun r p hp => ⟨_, (hlatched r).2 p hp, latch_masked _ _ _ _ _ _, rfl, fun hk => latch_of_known_link hk _ _ _ _⟩
    have hjunk := (transferred_regs hresponse .none).2
    rcases hi with rfl | rfl
    · exact ⟨_, .none, _, execFrameW_of_ready hs hcan a v, hsent _, fun _ => rfl, nofun, hjunk, (transferred_keeps _ s _ _).1,
        (transferred_keeps _ s _ _).2, (hlatched _).1, hvalue _⟩
    · exact ⟨_, .bytes _, _, execSpiXfer_of_ready hs hcan (frameBytes_ne_nil a true v _), hsent _, nofun, fun _ => rfl, hjunk,
        (transferred_keeps _ s _ _).1, (transferred_keeps _ s _ _).2, (hlatched _).1, hvalue _⟩
  case configured =>
    have hresponse := chipResponse_writeFrame hg (s := s) ha v
    rw [and_valueMask_of_isValue hg (decide_eq_true hv)] at hresponse
    obtain ⟨honly, hvalue⟩ := latched_registers s _ _ v (transferred_regs hresponse .none).1
    refine ⟨_, _, execFrameW_of_ready hs hcan a v, endsDone_transferred g s _ _, ?_, (transferred_keeps g s _ _).1,
      (transferred_keeps g s _ _).2, honly, hvalue⟩
    rw [frameBytes, List.length_cons, wireBytes_length, Nat.add_comm]
    rfl

/-! ### Read frames -/

theorem be32_valueOf_cfg {vb : List Byte} (h : vb.length = 4) : be32 (valueOf Config.cfg vb) = vb := by
  match vb, h with
  | [a, b, c, d], _ => rw [valueOf_cfg, be32_u32be]

/-- Settles O26: the listener's value is read back from the bytes in which the link put it. -/
theorem readFrameReturns : Obligations.ReadFrameReturns := by
  refine ⟨fun s a d i hs hcan ha hi => ?machine, fun g s a d hg hs hcan ha => ?configured⟩
  case machine =>
    obtain ⟨vb, hresponse, hlen, hlistener, hjunk⟩ := chipResponse_of_readFrame (selected Config.cfg s.cw) s Config.cfg_wf
      (Nat.lt_succ_of_le ha : a.toNat < Config.cfg.nreg) (wireBytes_length Config.cfg d)
    have hkept : ∀ r, Untouched s ((s.transferred Config.cfg (frameBytes a false d)).complete r) := fun r =>
      ⟨⟨(transferred_regs hresponse r).1, (transferred_keeps _ s _ r).2⟩, (transferred_keeps _ s _ r).1⟩
    have hrx := (transferred_regs hresponse .none).2
    have hback : readBack Config.cfg (s.received Config.cfg (frameBytes a false d)) = valueOf Config.cfg vb := by
      rw [show s.received Config.cfg (frameBytes a false d) = _ from hrx]
      rfl
    have hbytes : s.received Config.cfg (frameBytes a false d) =
        Link.junk s.env.link s.hist (selected Config.cfg s.cw) (frameBytes a false d) 0 :: be32 (valueOf Config.cfg vb) := by
      rw [be32_valueOf_cfg hlen]
      exact hrx
    have hvalue : ∀ p, selected Config.cfg s.cw = [p] →
        valueOf Config.cfg vb = Link.data Config.cfg s.env.link s.hist p a.toNat (s.reg p a.toNat) ∧
        (IdealLink Config.cfg s.env.link → ∀ y, s.reg p a.toNat = .known y → y &&& sigMask Config.cfg a.toNat = y →
          valueOf Config.cfg vb &&& sigMask Config.cfg a.toNat = y) := by
      intro p hp
      have hdata : valueOf Config.cfg vb = Link.data Config.cfg s.env.link s.hist p a.toNat (s.reg p a.toNat) := by
        rw [hlistener p hp, valueOf_wireBytes Config.cfg_wf]
        exact and_lowMask_self _
      refine ⟨hdata, fun hideal y hy hsig => ?_⟩
      rw [hdata, hy]
      exact hideal.2 _ _ _ _ hsig
    have hother : (∀ p, selected Config.cfg s.cw ≠ [p]) → s.received Config.cfg (frameBytes a false d) =
        junkBytes s.env.link s.hist (selected Config.cfg s.cw) (frameBytes a false d) := fun h => hrx.trans (hjunk h)
    rcases hi with rfl | rfl
    · exact ⟨_, _, valueOf Config.cfg vb, _, execFrameR_of_ready hs hcan a d, endsDone_transferred _ s _ _,
        fun _ => congrArg Result.word hback, nofun, hkept _, hbytes, hvalue, hother⟩
    · exact ⟨_, _, valueOf Config.cfg vb, _, execSpiXfer_of_ready hs hcan (frameBytes_ne_nil a false d _),
        endsDone_transferred _ s _ _, nofun, fun _ => rfl, hkept _, hbytes, hvalue, hother⟩
  case configured =>
    obtain ⟨vb, hresponse, hlen, hlistener, -⟩ := chipResponse_of_readFrame (selected g s.cw) s hg ha (wireBytes_length g d)
    have hrx := (transferred_regs hresponse .none).2
    refine ⟨_, _, _, execFrameR_of_ready hs hcan a d, endsDone_transferred g s _ _, ?_,
      ⟨⟨(transferred_regs hresponse _).1, (transferred_keeps g s _ _).2⟩, (transferred_keeps g s _ _).1⟩, fun p hp => ?_⟩
    · rw [show s.received g (frameBytes a false d g) = _ from hrx, List.length_cons, hlen, Nat.add_comm]
      rfl
    · obtain ⟨-, -, h32⟩ := hg.value
      rw [show s.received g (frameBytes a false d g) = _ from hrx, readBack, List.drop_one, List.tail_cons, hlistener p hp,
        valueOf_wireBytes hg, toNat_and_lowMask h32]

/-! ### Ill-formed frames -/

theorem frameAddr_frameBytes (a : BitVec 7) (w : Bool) (v : Word) (g : Cfg) : frameAddr ((frameBytes a w v g).headD 0#8) = a.toNat :=
  frameAddr_cmdByte a.toNat w a.isLt

/-- Settles O27: an ill-formed frame makes the listeners forget, whichever operation sends it. -/
theorem illFormedForgets : Obligations.IllFormedForgets := by
  intro s tx a v i hs hcan hi
  have hforgets : ∀ sent, sent ≠ [] → (sent.length ≠ Config.cfg.frameLen ∨ Config.cfg.nreg ≤ frameAddr (sent.headD 0#8)) → ∀ r,
      let t := (s.transferred Config.cfg sent).complete r
      s.received Config.cfg sent = junkBytes s.env.link s.hist (selected Config.cfg s.cw) sent ∧ SameWindow s t ∧ t.life = s.life ∧
        (∀ p, isSelected Config.cfg s.cw p = true → ∀ b, t.reg p b = .unknown) ∧
        ∀ p, isSelected Config.cfg s.cw p = false → t.regs.get p = s.regs.get p := by
    intro sent hne hill r
    obtain ⟨hregs, hrx⟩ := transferred_regs (chipResponse_illFormed Config.cfg (selected Config.cfg s.cw) sent s hne hill) r
    refine ⟨hrx, (transferred_keeps _ s _ r).1, (transferred_keeps _ s _ r).2, fun p hp b => ?_, fun p hp => ?_⟩
    · rw [State.reg, hregs, State.forget_get_regs, if_pos ((mem_selected _ _ _).mpr hp), RegFile.read]
    · rw [hregs, State.forget_get_regs, if_neg]
      rw [mem_selected, hp]
      exact Bool.false_ne_true
  rcases hi with ⟨rfl, htx, hill⟩ | ⟨ha, rfl | rfl⟩
  · exact ⟨_, _, tx, _, execSpiXfer_of_ready hs hcan htx, endsDone_transferred _ s _ _, fun _ => rfl, nofun, nofun,
      hforgets tx htx hill _⟩
  · exact ⟨_, _, _, _, execFrameW_of_ready hs hcan a v, endsDone_transferred _ s _ _, nofun, fun _ => rfl, nofun,
      hforgets _ (frameBytes_ne_nil a true v _) (.inr ((frameAddr_frameBytes a true v _).symm ▸ ha)) _⟩
  · exact ⟨_, _, _, _, execFrameR_of_ready hs hcan a v, endsDone_transferred _ s _ _, nofun, nofun, fun _ => rfl,
      hforgets _ (frameBytes_ne_nil a false v _) (.inr ((frameAddr_frameBytes a false v _).symm ▸ ha)) _⟩

/-! ### A listener in reset -/

/-- Settles O28: each operation that sends bytes stops at its transfer. -/
theorem transferInResetFaults : Obligations.TransferInResetFaults := by
  intro s p tx a v i ⟨hm, hs, hio⟩ hsel hheld hi
  have hstop : ∀ sent, sent ≠ [] → spiXfer Config.cfg sent s = .stop (.fault .spiWhileInReset) s := fun sent hne =>
    spiXfer_held Config.cfg sent hne hio ((mem_selected _ _ _).mpr hsel) ((Bool.not_eq_false _).mp hheld)
  rcases hi with ⟨rfl, htx⟩ | rfl | rfl
  · rw [exec, execSpiXfer, admit_of_ready hm hs, hstop tx htx]
    rfl
  · rw [exec, execFrameW, admit_of_ready hm hs, hstop _ (frameBytes_ne_nil a true v _)]
    rfl
  · rw [exec, execFrameR, admit_of_ready hm hs, hstop _ (frameBytes_ne_nil a false v _)]
    rfl

end

end Sys2Proof.Machine
end

section
/-! Proofs about the single listener (42_spi_chipselect.md, R188): what any run keeps that does not write the chip-select field. -/

namespace Sys2Proof.Machine

/-- Who is selected is told by the chip-select field alone (R24). -/
theorem selected_congr {g : Cfg} {w w' : CwWord} (h : getField g w' .cs = getField g w .cs) : selected g w' = selected g w := by
  have hsel : isSelected g w' = isSelected g w := by
    funext p
    rw [isSelected, isSelected, h]
  rw [selected, selected, hsel]

/-- `WritesCs` names every operation that may change the chip-select field. -/
theorem cwTarget_ne_cs {i : Instr} (h : ¬ WritesCs i) : cwTarget i ≠ some .cs := by
  intro ht
  apply h
  unfold cwTarget at ht
  unfold WritesCs
  split at ht <;> simp_all

/-- A next state of an operation of an open device is open as well, and draws no failure where none was drawn (R313). -/
theorem ready_of_exec {i : Instr} {s t : State} (hs : Ready s) (h : exec i s = .next t) : Ready t := by
  obtain ⟨hm, hspi, hio⟩ := hs
  by_cases hi : i = .openDev
  · subst hi
    have hrefused : exec .openDev s = .refused (s.decline .openNotFirst) := execOpen_of_later Config.cfg (.inl hm)
    rw [hrefused] at h
    cases h
  · obtain ⟨-, -, u, ⟨hwithin, -⟩, hend⟩ := exec_next hi h
    have hu : Ready u := ⟨hwithin.handles.1.trans hm, hwithin.handles.2.trans hspi, hwithin.draw hio⟩
    rcases hend with ⟨r, rfl⟩ | ⟨e, rfl⟩
    · exact hu
    · exact hu

/-- Operations that do not write the chip-select field keep the selection, and the device stays ready. -/
theorem reaches_keeps_selection : ∀ {is : List Instr} {s u : State}, (∀ i ∈ is, ¬ WritesCs i) → Ready s → Reaches is s u →
    Ready u ∧ selected Config.cfg u.cw = selected Config.cfg s.cw
  | [], s, u, _, hs, h => by
    obtain rfl : u = s := h
    exact ⟨hs, rfl⟩
  | i :: is, s, u, hcs, hs, h => by
    obtain ⟨hi, his⟩ := List.forall_mem_cons.mp hcs
    obtain ⟨t, hx, ht⟩ := h
    obtain ⟨hu, hsel⟩ := reaches_keeps_selection his (ready_of_exec hs hx) ht
    exact ⟨hu, hsel.trans (selected_congr ((exec_cwOnly i s).elim (.inl hx) .cs (cwTarget_ne_cs hi)))⟩

/-- Deselecting the one selected chip leaves none (R187). -/
theorem selected_deselectW_one {g : Cfg} (hg : g.wf) {w : CwWord} {p : PhysChip} (h : selected g w = [p]) (hp : g.hasChip p = true) :
    selected g (deselectW g w (asChip p)) = [] := by
  rw [List.eq_nil_iff_forall_not_mem]
  intro q hq
  rw [mem_selected, isSelected_deselectW hg, Bool.and_eq_true, Bool.not_eq_true', decide_eq_false_iff_not,
    mem_members_asChip hp, ← mem_selected, h, List.mem_singleton] at hq
  exact hq.1 hq.2

/-- Settles O30: the assert selects its chip, the operations after it keep the selection, and the deassert then empties it. -/
theorem singleListener : Obligations.SingleListener := by
  intro s p hs hnone
  have hassert : exec (.csAssert (.chip (asChip p))) s = _ := execCsAssert_of_ready Config.cfg hs (asChip p)
  have hone := selected_selectW_one Config.cfg_wf hnone (hasChip_cfg p)
  refine ⟨_, hassert, hone, fun is u hcs hreach => ?_⟩
  obtain ⟨hu, hsel⟩ := reaches_keeps_selection hcs (ready_of_exec hs hassert) hreach
  have hkept : selected Config.cfg u.cw = [p] := hsel.trans hone
  exact ⟨hkept, _, execCsDeassert_of_ready Config.cfg hu (asChip p), selected_deselectW_one Config.cfg_wf hkept (hasChip_cfg p)⟩

end Sys2Proof.Machine
end

section
/-! Proofs about the verified write (43_verified_write.md, R224 to R229): its attempts under any link and under the links of which
something is known, and how many accesses it makes however it ends. -/

namespace Sys2Proof.Machine

/-! ## The operation and its attempts -/

/-- WRV of a register address and a value's bytes is the loop of attempts (R224). -/
theorem execWrv_of_open {g : Cfg} {left : Nat} (hleft : g.maxAttempts - 1 = left) {s : State} (hm : s.mapOK = true) (hs : s.spiOK = true)
    (c : Chip) {a : Nat} (ha : a < g.nreg) {vb : List Byte} (hvb : vb.length = g.valueBytes) :
    execWrv (.chip c) a vb s g = finish ((attempts g c a vb 1 left s).bind fun _ s => .ok .none s) := by
  rw [execWrv, admit_of_ready hm hs, withChip, if_pos hvb, verifiedWrite, withAddr, checkAddr_of_lt ha, hleft]

section

variable {g : Cfg} {c : Chip} {a : Nat} {vb : List Byte} {s u : State} {es : List Event}

theorem Attempted.endsDone (h : Attempted g c a vb s u es) : EndsDone s (u.complete .none) .none es := by
  obtain ⟨hpc, -, -, hmap, hspi, hprogram, hpending, hnames, -⟩ := h.place
  exact ⟨congrArg (· + 1) hpc, rfl, h.hist, rfl, ⟨rfl, rfl⟩, ⟨hmap, hspi⟩, ⟨hprogram, hpending, hnames⟩, h.env⟩

theorem Attempted.endsInError (h : Attempted g c a vb s u es) (e : ArchError) : EndsInError s (u.raise e) e es := by
  obtain ⟨hpc, hresult, -, hmap, hspi, hprogram, hpending, hnames, -⟩ := h.place
  exact ⟨hpc, hresult, h.hist, rfl, ⟨rfl, rfl⟩, ⟨hmap, hspi⟩, ⟨hprogram, hpending, hnames⟩, h.env⟩

end

/-- Settles O34: the loop of attempts ends at its first match or after its third mismatch, as `attempts_spec` tells. -/
theorem wrvUnderAnyLink : Obligations.WrvUnderAnyLink := by
  intro s c a vb ⟨hm, hs, hio⟩ hrel ha hvb
  have ha' : a < Config.cfg.nreg := Nat.lt_succ_of_le ha
  have hexec : exec (.wrv (.chip c) a vb) s = _ := execWrv_of_open (g := Config.cfg) (left := 2) rfl hm hs c ha' hvb
  obtain ⟨u, ess, hone, hthree, hA, hevents, hheld, hmismatch, hend⟩ := attempts_spec Config.cfg_wf c ha' hvb 2 1 s hio hrel
  have hheld' : ∀ q ∈ members Config.cfg c ++ selected Config.cfg s.cw, ∃ y, u.reg q a = .known y ∧
      y &&& sigMask Config.cfg a = y ∧
      y = Link.latch Config.cfg s.env.link (s.hist ++ ess.flatten.take (10 * ess.length - 8)) q a (valueOf Config.cfg vb) ∧
      (IdealLink Config.cfg s.env.link → y = valueOf Config.cfg vb &&& sigMask Config.cfg a) :=
    fun q hq => ⟨_, hheld q hq, latch_masked _ _ _ _ _ _, rfl, fun hideal => hideal.1 _ _ _ _⟩
  rcases hend with ⟨hrun, -, hmatch⟩ | ⟨hlast, hall, hrun⟩
  · rw [hrun, Res.ok_bind, finish_ok] at hexec
    exact ⟨_, ess, hexec, hone, hthree, hevents, hmismatch, .inl ⟨hA.endsDone, hmatch⟩, hheld', hA.only, hA.life, hA.sel, hA.other⟩
  · rw [hrun, Res.stop_bind, finish_error] at hexec
    exact ⟨_, ess, hexec, hone, hthree, hevents, hmismatch, .inr ⟨hlast, hall, hA.endsInError _⟩, hheld', hA.only, hA.life, hA.sel,
      hA.other⟩

/-! ## One chip that alone listens -/

/-- The verdict of an attempt on `p` from `s` (R222). -/
def verdict (g : Cfg) (p : PhysChip) (a : Nat) (vb : List Byte) (s : State) : Bool :=
  vcmp g a (valueOf g vb) (readBack g (attemptRx g (asChip p) a (afterWrite g (asChip p) a vb s)))

/-- Nothing fails, no chip is selected and chip `p` is released: a verified write of `p` is heard by `p` alone (R188). -/
structure Lone (g : Cfg) (p : PhysChip) (s : State) : Prop where
  io       : s.env.ioFailure = none
  none     : NoneSelected g s
  released : Released g p s

/-- `m` attempts on chip `p` alone have been made from `s` to `u`, and its register holds the significant bits sent. -/
structure Landed (g : Cfg) (p : PhysChip) (a : Nat) (vb : List Byte) (s u : State) (es : List Event) (m : Nat) : Prop where
  attempted : Attempted g (asChip p) a vb s u es
  cw        : u.cw = s.cw
  shape     : es.map eventShape = attemptsShape g a vb m
  held      : u.reg p a = .known (valueOf g vb &&& sigMask g a)

section

variable {g : Cfg} (hg : g.wf) {p : PhysChip} (hp : g.hasChip p = true) {a : Nat} {vb : List Byte} {s t u : State} {es fs : List Event}
  {m n : Nat}

theorem Landed.trans (h : Landed g p a vb s t es m) (k : Landed g p a vb t u fs n) : Landed g p a vb s u (es ++ fs) (m + n) where
  attempted := h.attempted.trans k.attempted
  cw := k.cw.trans h.cw
  shape := by rw [List.map_append, h.shape, k.shape, attemptsShape, attemptsShape, attemptsShape, List.replicate_add, List.flatten_append]
  held := k.held

/-- The attempt counter is no part of what an attempt leaves. -/
theorem Landed.of_counters {k k' : Option Nat} (h : Landed g p a vb { s with attempt := k } u es m) :
    Landed g p a vb s { u with attempt := k' } es m :=
  ⟨⟨h.attempted.hist, h.attempted.life, h.attempted.env, h.attempted.place, h.attempted.sel, h.attempted.other,
      h.attempted.only⟩, h.cw, h.shape, h.held⟩

theorem Landed.lone (h : Landed g p a vb s u es m) (hs : Lone g p s) : Lone g p u :=
  ⟨by rw [h.attempted.env]; exact hs.io, by rw [NoneSelected, h.cw]; exact hs.none, by rw [Released, h.cw]; exact hs.released⟩

include hp

theorem mem_listeners (hs : NoneSelected g s) (q : PhysChip) : q ∈ members g (asChip p) ++ selected g s.cw ↔ q = p := by
  rw [show selected g s.cw = [] from hs, List.append_nil, mem_members_asChip hp]

theorem Lone.canTransfer (hs : Lone g p s) : CanTransfer g (members g (asChip p)) s := by
  intro q hq
  rcases hq with hq | hq
  · rw [(mem_members_asChip hp q).mp hq]
    exact hs.released
  · rw [isSelected_of_none hs.none] at hq
    cases hq

include hg

/-- An attempt lands its value where the link latches what was sent (R197, R198). -/
theorem landed_afterAttempt (hs : Lone g p s)
    (hlatch : ∀ hist q v, Link.latch g s.env.link hist q a v = v &&& sigMask g a) :
    ∃ es, Landed g p a vb s (afterAttempt g (asChip p) a vb s) es 1 := by
  obtain ⟨es, hA, hshape, -, hheld, -⟩ := afterAttempt_attempted hg (asChip p) a vb s
  have hcw : (afterAttempt g (asChip p) a vb s).cw = s.cw := by
    show pulsedW g (pulsedW g s.cw (asChip p)) (asChip p) = s.cw
    rw [pulsedW_of_none_selected hg hs.none, pulsedW_of_none_selected hg hs.none]
  refine ⟨es, hA, hcw, by rw [hshape, attemptsShape, List.replicate_one, List.flatten_singleton], ?_⟩
  rw [hheld p ((mem_listeners hp hs.none p).mpr rfl), hlatch]

/-- One attempt on `p` alone (R224). -/
theorem attemptWrite_lone (ha : a < g.nreg) (hvb : vb.length = g.valueBytes) (hs : Lone g p s) :
    attemptWrite g (asChip p) a vb s = .ok (verdict g p a vb s) (afterAttempt g (asChip p) a vb s) :=
  attemptWrite_eq hg (asChip p) ha hvb hs.io (hs.canTransfer hp)

/-- A first match ends the loop (R225). -/
theorem attempts_of_match (ha : a < g.nreg) (hvb : vb.length = g.valueBytes) (left k : Nat) (hs : Lone g p s)
    (hverdict : verdict g p a vb { s with attempt := some k } = true)
    (hlatch : ∀ hist q v, Link.latch g s.env.link hist q a v = v &&& sigMask g a) :
    ∃ u es, attempts g (asChip p) a vb k left s = .ok () u ∧ Landed g p a vb s u es 1 := by
  have hs' : Lone g p { s with attempt := some k } := ⟨hs.io, hs.none, hs.released⟩
  obtain ⟨es, hes⟩ := landed_afterAttempt hg hp (vb := vb) hs' hlatch
  refine ⟨_, es, ?_, hes.of_counters (k' := none)⟩
  rw [attempts, attemptWrite_lone hg hp ha hvb hs', hverdict, Res.ok_bind, if_pos rfl]

/-- A link on which every attempt mismatches makes the loop raise its error after the last one (R226). -/
theorem attempts_of_mismatch (ha : a < g.nreg) (hvb : vb.length = g.valueBytes) {link : Link}
    (hverdict : ∀ t, Lone g p t → t.env.link = link → verdict g p a vb t = false)
    (hlatch : ∀ hist q v, Link.latch g link hist q a v = v &&& sigMask g a) :
    ∀ (left k : Nat) (s : State), Lone g p s → s.env.link = link →
      ∃ u es, attempts g (asChip p) a vb k left s = .stop (.error (.writeVerification (asChip p) a)) u ∧
        Landed g p a vb s u es (left + 1)
  | left, k, s, hs, hlink => by
    have hs' : Lone g p { s with attempt := some k } := ⟨hs.io, hs.none, hs.released⟩
    obtain ⟨es, hes⟩ := landed_afterAttempt hg hp (vb := vb) hs' (hlink ▸ hlatch)
    have hes' : Landed g p a vb s _ es 1 := hes.of_counters (k' := some k)
    rw [attempts, attemptWrite_lone hg hp ha hvb hs', hverdict _ hs' hlink, Res.ok_bind, if_neg Bool.false_ne_true]
    match left with
    | 0 => exact ⟨_, es, rfl, hes'⟩
    | left + 1 =>
      obtain ⟨u, fs, hrun, hfs⟩ := attempts_of_mismatch ha hvb hverdict hlatch left (k + 1) _ (hes.lone hs')
        (by rw [hes.attempted.env, hlink])
      exact ⟨u, es ++ fs, hrun, Nat.add_comm 1 (left + 1) ▸ hes'.trans hfs⟩

end

/-! ## The links of which something is known -/

/-- Flipping a bit beyond the significant length changes no significant bit. -/
theorem flip_and_sigMask {g : Cfg} (hg : g.wf) {a j : Nat} (hj : sigLen g a ≤ j) (v : Word) :
    (v ^^^ (1#32 <<< j)) &&& sigMask g a = v &&& sigMask g a := by
  apply BitVec.eq_of_getLsbD_eq
  intro i hi
  rw [BitVec.getLsbD_and, BitVec.getLsbD_and, sigMask, lowMask_getLsbD _ _ (sigLen_le_32 hg a), BitVec.getLsbD_xor]
  by_cases hsig : i < sigLen g a
  · have hbit : (1#32 <<< j).getLsbD i = false := by
      rw [BitVec.getLsbD_shiftLeft, decide_eq_true (hsig.trans_le hj), Bool.not_true, Bool.and_false, Bool.false_and]
    rw [hbit, Bool.xor_false]
  · rw [decide_eq_false hsig, Bool.and_false, Bool.and_false]

/-- Flipping a significant bit is seen under the mask. -/
theorem flip_and_sigMask_ne {g : Cfg} (hg : g.wf) {a j : Nat} (hj : j < sigLen g a) (v : Word) :
    v &&& sigMask g a ≠ (v ^^^ (1#32 <<< j)) &&& sigMask g a := by
  have h32 := sigLen_le_32 hg a
  intro h
  have hbit := congrArg (BitVec.getLsbD · j) h
  simp only [BitVec.getLsbD_and, sigMask, lowMask_getLsbD _ _ h32, decide_eq_true hj, Bool.and_true, BitVec.getLsbD_xor] at hbit
  have hset : (1#32 <<< j).getLsbD j = true := by
    rw [BitVec.getLsbD_shiftLeft, decide_eq_true (hj.trans_le h32), decide_eq_false (lt_irrefl j), Nat.sub_self]
    rfl
  rw [hset, Bool.xor_true] at hbit
  exact Bool.not_ne_self _ hbit.symm

section

variable {g : Cfg} (hg : g.wf) {p : PhysChip} (hp : g.hasChip p = true) {a : Nat} (ha : a < g.nreg) {vb : List Byte}
  (hvb : vb.length = g.valueBytes) {s : State} (hs : NoneSelected g s)

include hg

/-- The compare sees nothing of a value beyond its bits (R101, R132). -/
theorem vcmp_and_valueMask (a : Nat) (w r : Word) : vcmp g a w (r &&& lowMask g.valueBits) = vcmp g a w r := by
  rw [Bool.eq_iff_iff, vcmp_iff, vcmp_iff, BitVec.and_assoc, valueMask_and_sigMask hg]

include hp ha hvb hs

/-- The echo link gives back what was sent, so the attempt matches (R198, R225). -/
theorem verdict_echo (hlink : s.env.link = .echo) : verdict g p a vb s = true := by
  obtain ⟨hist, hhist, hread⟩ := readBack_attempt (vb := vb) hg ha hs hp
  have hlast : lastWrite g hist p a = some (valueOf g vb) := hhist ▸ lastWrite_attempt hg hvb hs hp
  rw [verdict, hread, vcmp_and_valueMask hg, hlink, Link.data, echoed, hlast, vcmp_iff]

/-- A flip link gives back what was sent with its bit flipped (R198). -/
theorem verdict_flip {j : Nat} (hlink : s.env.link = .flip j) :
    verdict g p a vb s = vcmp g a (valueOf g vb) (valueOf g vb ^^^ (1#32 <<< j)) := by
  obtain ⟨hist, hhist, hread⟩ := readBack_attempt (vb := vb) hg ha hs hp
  have hlast : lastWrite g hist p a = some (valueOf g vb) := hhist ▸ lastWrite_attempt hg hvb hs hp
  rw [verdict, hread, vcmp_and_valueMask hg, hlink, Link.data, hlast]

end

/-- Settles O32: the verdict of every attempt is known of these links, so the loop ends after its first or after its third. -/
theorem wrvUnderSimulatedLinks : Obligations.WrvUnderSimulatedLinks := by
  intro s p a vb ⟨hm, hspi, hio⟩ hnone hrel ha hvb
  have hg := Config.cfg_wf
  have hp := hasChip_cfg p
  have ha' : a < Config.cfg.nreg := Nat.lt_succ_of_le ha
  have hs : Lone Config.cfg p s := ⟨hio, hnone, hrel⟩
  have hexec : exec (.wrv (.chip (asChip p)) a vb) s = _ := execWrv_of_open (g := Config.cfg) (left := 2) rfl hm hspi (asChip p) ha' hvb
  have honly : ∀ {u es m}, Landed Config.cfg p a vb s u es m → OnlyRegister s u [p] a := fun h q b hqb =>
    h.attempted.only q b fun hk => hqb ⟨List.mem_singleton.mpr ((mem_listeners hp hnone q).mp hk.1), hk.2⟩
  refine ⟨fun hlink => ?matched, fun ⟨j, hlink, hj⟩ => ?mismatched⟩
  case matched =>
    have hverdict : verdict Config.cfg p a vb { s with attempt := some 1 } = true := by
      rcases hlink with hideal | hecho | ⟨j, hflip, hj, -⟩
      · exact Calm.readBack_agrees hg (s := { s with attempt := some 1 }) ⟨hio, hnone, hideal⟩ hp ha' vb
      · exact verdict_echo hg hp ha' hvb (s := { s with attempt := some 1 }) hnone hecho
      · rw [verdict_flip hg hp ha' hvb (s := { s with attempt := some 1 }) hnone hflip, vcmp_iff, flip_and_sigMask hg hj]
    have hlatch : ∀ hist q v, Link.latch Config.cfg s.env.link hist q a v = v &&& sigMask Config.cfg a := fun hist q v =>
      latch_of_known_link (hlink.imp_right (Or.imp_right fun ⟨j, hflip, _⟩ => ⟨j, hflip⟩)) hist q a v
    obtain ⟨u, es, hrun, hL⟩ := attempts_of_match hg hp ha' hvb 2 1 hs hverdict hlatch
    rw [hrun, Res.ok_bind, finish_ok] at hexec
    have hO := honly hL
    refine ⟨_, es, hexec, hL.attempted.endsDone, ?_, hL.held, hO, hL.attempted.life, sameWindow_of_cw hL.cw⟩
    rw [hL.shape, attemptsShape, List.replicate_one, List.flatten_singleton]
  case mismatched =>
    have hverdict : ∀ t, Lone Config.cfg p t → t.env.link = .flip j → verdict Config.cfg p a vb t = false := by
      intro t ht hflip
      rw [verdict_flip hg hp ha' hvb ht.none hflip, ← Bool.not_eq_true, vcmp_iff]
      exact flip_and_sigMask_ne hg hj _
    obtain ⟨u, es, hrun, hL⟩ := attempts_of_mismatch hg hp ha' hvb hverdict (fun _ _ _ => rfl) 2 1 s hs hlink
    rw [hrun, Res.stop_bind, finish_error] at hexec
    have hO := honly hL
    refine ⟨_, es, hexec, hL.attempted.endsInError _, ?_, hL.held, hO, hL.attempted.life, sameWindow_of_cw hL.cw⟩
    rw [hL.shape]
    simp [attemptsShape, List.replicate_succ]

/-! ## How many accesses a verified write makes -/

/-- A verified write of any integer address (R130), whatever is drawn. -/
theorem verifiedWrite_ends_int {g : Cfg} (hg : g.wf) (hm : g.ioMayFail = true) (c : Chip) (a : Int) {vb : List Byte}
    (hvb : vb.length = g.valueBytes) (s : State) :
    (verifiedWrite g c a vb s).Ends
      (fun _ u => ∃ (n : Nat) (es : List Event) (m : Nat), m ≤ g.maxAttempts ∧ Tried g c n vb s u es m)
      (fun _ u => u = s ∨ ∃ (n : Nat) (es : List Event), Tried g c n vb s u es g.maxAttempts)
      (fun f u => ∃ (n : Nat) (es : List Event), CutShort g c n vb s u es 1 g.maxAttempts f) := by
  rcases Int.lt_or_le a 0 with ha | ha
  · rw [verifiedWrite, withAddr_of_outside (.inl ha)]
    exact .inl rfl
  · obtain ⟨n, rfl⟩ := Int.eq_ofNat_of_zero_le ha
    refine (verifiedWrite_ends hg hm c n hvb s).imp ?_ ?_ ?_
    · rintro - u ⟨-, es, m, -, hm, hT⟩
      exact ⟨n, es, m, hm, hT⟩
    · rintro e u (⟨-, -, rfl⟩ | ⟨-, -, es, hT⟩)
      · exact .inl rfl
      · exact .inr ⟨n, es, hT⟩
    · rintro f u ⟨-, es, hC⟩
      exact ⟨n, es, hC⟩

/-- Each way to end leaves a state of which `P` holds. -/
theorem Res.Ends.post {α : Type} {m : Res α} {ok : α → State → Prop} {er : ArchError → State → Prop}
    {fl : FaultKind → State → Prop} {P : State → Prop} (h : m.Ends ok er fl) (ho : ∀ v u, ok v u → P u) (he : ∀ e u, er e u → P u)
    (hf : ∀ f u, fl f u → P u) :
    m.post P := by
  match m with
  | .ok v u => exact ho v u h
  | .stop (.error e) u => exact he e u h
  | .stop (.fault f) u => exact hf f u h
  | .stop (.refuse r) u => exact h.elim

theorem attemptsShape_prefix (g : Cfg) (a : Nat) (vb : List Byte) {m n : Nat} (h : m ≤ n) :
    attemptsShape g a vb m <+: attemptsShape g a vb n := by
  obtain ⟨k, rfl⟩ := Nat.exists_eq_add_of_le h
  rw [attemptsShape, attemptsShape, List.replicate_add, List.flatten_append]
  exact List.prefix_append _ _

/-- The events from `s` to `t` have the shapes of the beginning of `m` attempts of a value of `n` bytes, or there are none. -/
def WithinAttempts (g : Cfg) (m n : Nat) (s t : State) : Prop :=
  ∃ es, t.hist = s.hist ++ es ∧ ∃ a vb, vb.length = n ∧ es.map eventShape <+: attemptsShape g a vb m

theorem WithinAttempts.keptAtEnd (g : Cfg) (m n : Nat) (s : State) : KeptAtEnd (WithinAttempts g m n s) :=
  ⟨fun _ _ h => h, fun _ _ h => h⟩

theorem WithinAttempts.refl (g : Cfg) (m n : Nat) (s : State) : WithinAttempts g m n s s :=
  ⟨[], (List.append_nil _).symm, 0, List.replicate n 0#8, List.length_replicate, List.nil_prefix⟩

theorem Tried.withinAttempts {g : Cfg} {c : Chip} {a : Nat} {vb : List Byte} {s u : State} {es : List Event} {m n : Nat}
    (h : Tried g c a vb s u es m) (hm : m ≤ n) : WithinAttempts g n vb.length s u :=
  ⟨es, h.leaves.part.hist, a, vb, rfl, h.shape ▸ attemptsShape_prefix g a vb hm⟩

/-- However a WRV ends, its events are within the attempts that it may make (R224, R229). -/
theorem execWrv_withinAttempts {g : Cfg} (hg : g.wf) (hm : g.ioMayFail = true) (c : ChipArg) (a : Int) (vb : List Byte) (s : State) :
    Leaves (WithinAttempts g g.maxAttempts g.valueBytes s) (execWrv c a vb s g) := by
  have hs := WithinAttempts.refl g g.maxAttempts g.valueBytes s
  refine Leaves.admitted (WithinAttempts.keptAtEnd g _ _ s) hs (withChip_post hs fun c => ?_)
  split
  · rename_i hvb
    refine Res.post_bind ?_ fun _ _ h => h
    refine (verifiedWrite_ends_int hg hm c a hvb s).post ?_ ?_ ?_
    · rintro - u ⟨n, es, m, hm, hT⟩
      exact hvb ▸ hT.withinAttempts hm
    · rintro - u (rfl | ⟨n, es, hT⟩)
      · exact hs
      · exact hvb ▸ hT.withinAttempts le_rfl
    · rintro f u ⟨n, es, hC⟩
      exact ⟨es, hC.leaves.part.hist, n, vb, hvb, hC.shape ▸ List.take_prefix _ _⟩
  · exact hs

theorem isXfer_comp_eventShape : isXfer ∘ eventShape = isXfer := by
  funext e
  cases e <;> rfl

theorem isWindow_comp_eventShape : isWindow ∘ eventShape = isWindow := by
  funext e
  cases e <;> rfl

theorem clockedBytes_comp_eventShape : clockedBytes ∘ eventShape = clockedBytes := by
  funext e
  cases e <;> rfl

/-- An attempt is two transfers, eight window accesses and two frames' bytes (R227). -/
theorem attemptShape_counts (g : Cfg) (a : Nat) (vb : List Byte) :
    (attemptShape g a vb).countP isXfer = 2 ∧ (attemptShape g a vb).countP isWindow = 8 ∧
      ((attemptShape g a vb).map clockedBytes).sum = vb.length + 1 + (g.valueBytes + 1) := by
  refine ⟨rfl, rfl, ?_⟩
  simp [attemptShape, cwShape, clockedBytes, writeFrame, readFrame]

theorem attemptsShape_counts (g : Cfg) (a : Nat) (vb : List Byte) (m : Nat) :
    (attemptsShape g a vb m).countP isXfer = 2 * m ∧ (attemptsShape g a vb m).countP isWindow = 8 * m ∧
      ((attemptsShape g a vb m).map clockedBytes).sum = (vb.length + 1 + (g.valueBytes + 1)) * m := by
  obtain ⟨hx, hw, hb⟩ := attemptShape_counts g a vb
  induction m with
  | zero => exact ⟨rfl, rfl, rfl⟩
  | succ m ih =>
    obtain ⟨ihx, ihw, ihb⟩ := ih
    rw [attemptsShape_succ, List.countP_append, List.countP_append, List.map_append, List.sum_append, hx, hw, hb, ihx, ihw, ihb,
      Nat.mul_succ, Nat.mul_succ, Nat.mul_succ]
    exact ⟨Nat.add_comm _ _, Nat.add_comm _ _, Nat.add_comm _ _⟩

/-- Settles O35: whatever is left has no more events than the three attempts, and those are counted. -/
theorem retryBound : Obligations.RetryBound := by
  intro c a vb s t es hends hhist
  obtain ⟨fs, hfs, n, w, hw, hprefix⟩ : WithinAttempts Config.cfg 3 4 s t :=
    (execWrv_withinAttempts Config.cfg_wf rfl c a vb s).elim hends
  obtain rfl : fs = es := List.append_cancel_left (hfs.symm.trans hhist)
  obtain ⟨hxfer, hwindow, hbytes⟩ := attemptsShape_counts Config.cfg n w 3
  have hsub := hprefix.sublist
  refine ⟨?_, ?_, ?_⟩
  · rw [← isXfer_comp_eventShape, ← List.countP_map]
    exact (hsub.countP_le).trans hxfer.le
  · rw [← isWindow_comp_eventShape, ← List.countP_map]
    exact (hsub.countP_le).trans hwindow.le
  · have hclocked : (fs.map clockedBytes).sum ≤ 30 := by
      rw [← clockedBytes_comp_eventShape, ← List.map_map]
      refine ((hsub.map clockedBytes).sum_le_sum fun _ _ => Nat.zero_le _).trans ?_
      rw [hbytes, hw]
      decide
    calc clockingMicros Config.cfg fs = (fs.map clockedBytes).sum * 80 := rfl
      _ ≤ 30 * 80 := Nat.mul_le_mul_right 80 hclocked

end Sys2Proof.Machine
end

section
/-! Proofs about PROG past the last register, and about WRV and PROG faced with a chip held in reset (44_device_controller.md
section 3, R228 (b), R273): what was programmed before the error or the fault. -/

namespace Sys2Proof.Machine

/-! ## The chunks and the chips in two parts -/

theorem programChunks_append (g : Cfg) (p : PhysChip) : ∀ (cs ds : List (List Byte)) (i : Nat) (s : State),
    programChunks g p i (cs ++ ds) s = (programChunks g p i cs s).bind fun _ u => programChunks g p (i + cs.length) ds u
  | [], ds, i, s => rfl
  | vb :: cs, ds, i, s => by
    simp only [List.cons_append, programChunks, Res.bind_assoc, programChunks_append g p cs ds, List.length_cons,
      Nat.add_assoc, Nat.add_comm 1]

theorem programChips_append (g : Cfg) (cs : List (List Byte)) : ∀ (ps qs : List PhysChip) (s : State),
    programChips g cs (ps ++ qs) s = (programChips g cs ps s).bind fun _ u => programChips g cs qs u
  | [], qs, s => rfl
  | p :: ps, qs, s => by
    simp only [List.cons_append, programChips, Res.bind_assoc, programChips_append g cs ps qs]

theorem members_cfg_cons (c : Chip) : ∃ p rest, members Config.cfg c = p :: rest := by
  cases c <;> exact ⟨_, _, rfl⟩

/-! ## More chunks than registers -/

section

variable {g : Cfg} (hg : g.wf) {p : PhysChip} (hp : g.hasChip p = true) {ch : Nat → List Byte} {cs : List (List Byte)} {s : State}

include hg hp

/-- Under the ideal link the chunks that have a register are stored, and the next one has no register (R272). -/
theorem programChunks_oversize (h4 : ∀ vb ∈ cs, vb.length = g.valueBytes) (hch : ∀ j (h : j < cs.length), cs[j] = ch j)
    (hmany : g.nreg < cs.length) (hs : Calm g s) (hrel : Released g p s) :
    ∃ u es, programChunks g p 0 cs s = .stop (.error (.unknownRegister g.nreg)) { u with cursor := some (p, g.nreg) } ∧
      Stored g ch (pairsFrom p 0 g.nreg) s u es ∧ u.life = s.life := by
  have hlen : (cs.take g.nreg).length = g.nreg := List.length_take_of_le hmany.le
  have hch' : ∀ j (h : j < (cs.take g.nreg).length), (cs.take g.nreg)[j] = ch (0 + j) := fun j h => by
    rw [List.getElem_take, hch, Nat.zero_add]
  obtain ⟨u, es, hrun, hU, hlife⟩ := programChunks_of_calm hg hp (cs.take g.nreg) 0 s (fun vb h => h4 vb (List.mem_of_mem_take h)) hch'
    (by rw [hlen, Nat.zero_add]) hs hrel
  rw [hlen] at hU
  refine ⟨u, es, ?_, hU, hlife⟩
  rw [← List.take_append_drop g.nreg cs, programChunks_append, hrun, Res.ok_bind, hlen, Nat.zero_add, List.drop_eq_getElem_cons hmany,
    programChunks, verifiedWrite, withAddr_of_outside (.inr le_rfl), Res.stop_bind]

end

/-- Settles O41: the first chip's turn stores 28 chunks and stops at the address after them. -/
theorem programOversize : Obligations.ProgramOversize := by
  intro s c bs ⟨hm, hs, hio⟩ hnone hrel hideal hmany
  obtain ⟨p, rest, hmembers⟩ := members_cfg_cons c
  obtain ⟨u, es, hrun, hU, hlife⟩ := programChunks_oversize (ch := chunkAt Config.cfg bs) Config.cfg_wf (hasChip_cfg p)
    (mem_chunks_length Config.cfg bs) (chunks_get bs) (by rw [length_chunks]; exact hmany) ⟨hio, hnone, hideal⟩
    (hrel p (hmembers ▸ List.mem_cons_self))
  have hexec : exec (.prog (.chip c) (.bytes bs)) s = _ := execProg_bytes hm hs Config.cfg c bs
  rw [hmembers, programChips, hrun, Res.stop_bind, Res.stop_bind, finish_error] at hexec
  refine ⟨_, es, p, hexec, hU.part.endsInError hU.env _, by rw [hmembers]; rfl, ?sent, fun i hi => ?inside, fun q hq => ?other, hlife,
    sameWindow_of_cw hU.cw⟩
  case sent =>
    rw [hU.sent, pairsFrom, List.map_map, List.range_eq_range']
    rfl
  case inside =>
    refine (hU.regs p i).trans (if_pos ?_)
    exact List.mem_map.mpr ⟨i, List.mem_range'_1.mpr ⟨Nat.zero_le i, Nat.lt_succ_of_le (Nat.zero_add 27 ▸ hi)⟩, rfl⟩
  case other => exact hU.files q fun h => hq ((mem_pairsFrom p q 0 _).mp h).2

/-! ## A chip held in reset -/

section

variable {g : Cfg} (hg : g.wf) {c : Chip} {s : State} (hio : s.env.ioFailure = none)
  (hheld : ∃ q, (q ∈ members g c ∨ isSelected g s.cw q = true) ∧ ¬ Released g q s)

include hg hio hheld

/-- The first transfer of a verified write that would reach a held chip faults; the chip-select write before it stands (R228 (b)). -/
theorem attempts_held (a : Nat) (vb : List Byte) (k left : Nat) :
    attempts g c a vb k left s = .stop (.fault .spiWhileInReset) (framedAt g c { s with attempt := some k }) := by
  obtain ⟨q, hq, hreset⟩ := hheld
  have hassert : csAssert g c { s with attempt := some k } = .ok () (framedAt g c { s with attempt := some k }) :=
    csAssert_state hg c (s := { s with attempt := some k }) hio
  have hxfer : spiXfer g (writeFrame a vb) (framedAt g c { s with attempt := some k }) =
      .stop (.fault .spiWhileInReset) (framedAt g c { s with attempt := some k }) := by
    refine spiXfer_held g _ (List.cons_ne_nil _ _) hio (p := q) ?_ ?_
    · rw [mem_selected, framedAt, isSelected_selectW hg, Bool.or_eq_true, decide_eq_true_iff]
      exact hq
    · rw [framedAt, resetBit_selectW hg]
      exact (Bool.not_eq_false _).mp hreset
  rw [attempts, attemptWrite, framed, hassert, Res.ok_bind, hxfer]
  rfl

/-- A verified write of a register (R224). -/
theorem verifiedWrite_held {a : Nat} (ha : a < g.nreg) (vb : List Byte) :
    verifiedWrite g c a vb s = .stop (.fault .spiWhileInReset) (framedAt g c { s with attempt := some 1 }) := by
  rw [verifiedWrite, withAddr, checkAddr_of_lt ha]
  exact attempts_held hg hio hheld a vb 1 _

end

/-- The turns of a `PROG` whose first chip meets a held one. -/
theorem programChips_held {g : Cfg} (hg : g.wf) {p : PhysChip} (hp : g.hasChip p = true) {s : State} (hio : s.env.ioFailure = none)
    (hheld : ∃ q, (q = p ∨ isSelected g s.cw q = true) ∧ ¬ Released g q s) (hregs : 0 < g.nreg) {cs : List (List Byte)}
    (hcs : cs ≠ []) (rest : List PhysChip) :
    programChips g cs (p :: rest) s =
      .stop (.fault .spiWhileInReset) (framedAt g (asChip p) { s with attempt := some 1, cursor := some (p, 0) }) := by
  obtain ⟨vb, cs, rfl⟩ := List.exists_cons_of_ne_nil hcs
  have hheld' : ∃ q, (q ∈ members g (asChip p) ∨ isSelected g s.cw q = true) ∧ ¬ Released g q s := by
    simpa only [mem_members_asChip hp] using hheld
  have hrun := verifiedWrite_held hg (c := asChip p) (s := { s with cursor := some (p, 0) }) hio hheld' (a := 0) hregs vb
  rw [programChips, programChunks, hrun]
  rfl

/-! ## The chips before a held one -/

/-- The chips that have their turn before `p`. -/
def chipsBefore (p : PhysChip) : List PhysChip := PhysChip.all.take (chipIdx p)

theorem chipsBefore_append (p : PhysChip) : ∃ rest, PhysChip.all = chipsBefore p ++ p :: rest := by
  cases p <;> exact ⟨_, rfl⟩

theorem mem_chipsBefore (p q : PhysChip) : q ∈ chipsBefore p ↔ chipIdx q < chipIdx p := by
  cases p <;> cases q <;> decide

theorem length_chipsBefore (p : PhysChip) : (chipsBefore p).length = chipIdx p := by
  cases p <;> rfl

theorem chipsBefore_nodup (p : PhysChip) : (chipsBefore p).Nodup := by
  cases p <;> decide

theorem length_pairsOf (qs : List PhysChip) (n : Nat) : (pairsOf qs n).length = qs.length * n := by
  simp [pairsOf, pairsFrom_length]

theorem pairsOf_take (ps qs : List PhysChip) (n : Nat) : (pairsOf (ps ++ qs) n).take (ps.length * n) = pairsOf ps n := by
  have happend : pairsOf (ps ++ qs) n = pairsOf ps n ++ pairsOf qs n := List.flatMap_append
  rw [← length_pairsOf, happend, List.take_left]

/-- Settles O36: the fault comes at the first transfer of the first verified write that a held chip would hear. -/
theorem wrvInResetFaults : Obligations.WrvInResetFaults := by
  have hg := Config.cfg_wf
  refine ⟨fun s i ps ⟨hm, hs, hio⟩ hheld hi => ?first,
    fun s p bs ⟨hm, hs, hio⟩ hinv hnone hideal hheld hbefore hbytes hfit => ?later⟩
  case first =>
    suffices hrun : ∃ c k cur, members Config.cfg c = ps ∧
        exec i s = .fault ((framedAt Config.cfg c { s with attempt := k, cursor := cur }).fail .spiWhileInReset) by
      obtain ⟨c, k, cur, rfl, hexec⟩ := hrun
      exact ⟨_, hexec, rfl, rfl, rfl, ⟨rfl, rfl⟩, rfl, rfl, isSelected_selectW hg s.cw c, fun f hf => getField_selectW hg s.cw c hf⟩
    rcases hi with ⟨c, a, vb, rfl, rfl, ha, hvb⟩ | ⟨c, bs, rfl, rfl, hbytes⟩
    · have hexec : exec (.wrv (.chip c) a vb) s = _ :=
        execWrv_of_open (g := Config.cfg) (left := 2) rfl hm hs c (Nat.lt_succ_of_le ha) hvb
      rw [attempts_held hg hio hheld] at hexec
      exact ⟨c, _, s.cursor, rfl, hexec⟩
    · obtain ⟨p, rest, hmembers⟩ := members_cfg_cons c
      have hexec : exec (.prog (.chip c) (.bytes bs)) s = _ := execProg_bytes hm hs Config.cfg c bs
      have hchunks : chunks Config.cfg bs ≠ [] := List.ne_nil_of_length_pos (by rw [length_chunks, chunkCount_cfg]; omega)
      simp only [hmembers, List.take_succ_cons, List.take_zero, List.mem_singleton] at hheld
      rw [hmembers, programChips_held hg (hasChip_cfg p) hio hheld (by decide) hchunks] at hexec
      exact ⟨asChip p, _, _, by rw [hmembers, members_asChip (hasChip_cfg p)]; rfl, hexec⟩
  case later =>
    obtain ⟨rest, hall⟩ := chipsBefore_append p
    have hlen : (chunks Config.cfg bs).length = bs.length / 4 := by rw [length_chunks, chunkCount_cfg]
    obtain ⟨u, es, hrun, hU, honly⟩ := programChips_of_calm (ch := chunkAt Config.cfg bs) hg (mem_chunks_length Config.cfg bs)
      (chunks_get bs) (by rw [hlen]; exact hfit) (chipsBefore p) s (chipsBefore_nodup p) (fun q _ => hasChip_cfg q) ⟨hio, hnone, hideal⟩
      fun q hq => hbefore q ((mem_chipsBefore p q).mp hq)
    rw [hlen] at hU
    have hnone' : selected Config.cfg u.cw = [] := by rw [hU.cw]; exact hnone
    have hexec : exec (.prog (.chip .All) (.bytes bs)) s = _ := execProg_bytes hm hs Config.cfg .All bs
    rw [members_cfg, show named .All = PhysChip.all from rfl, hall, programChips_append, hrun, Res.ok_bind,
      programChips_held hg (hasChip_cfg p) (by rw [hU.env, hio]) ⟨p, .inl rfl, by rw [Released, hU.cw]; exact hheld⟩ (by decide)
        (List.ne_nil_of_length_pos (by rw [hlen]; omega))] at hexec
    refine ⟨_, es ++ cwWriteEvents Config.cfg u.cw (selectW Config.cfg u.cw (asChip p)), hexec, rfl, hU.part.place.1, ?hist, ?sent,
      fun q hq => ⟨?life, fun i hi => ?inside, fun i hi => ?outside⟩, fun q hq => ⟨?otherLife, ?otherFile⟩,
      selected_selectW_one hg hnone' (hasChip_cfg p), fun f hf => (getField_selectW hg u.cw _ hf).trans (hU.part.other f hf)⟩
    case hist =>
      rw [← List.append_assoc, ← hU.part.hist]
      rfl
    case sent =>
      rw [writeFrames_append, hU.sent, progOrder_eq, members_cfg, show named .All = PhysChip.all from rfl, hall,
        ← length_chipsBefore, pairsOf_take]
      exact List.append_nil _
    case life =>
      have hlive : s.life.get q ≠ .heldInReset := fun h => by
        have hreset := (hinv.held q).mp h
        rw [hbefore q hq] at hreset
        cases hreset
      exact (honly q).trans (if_pos ⟨(mem_chipsBefore p q).mpr hq, hlive⟩)
    case inside => exact (hU.regs q i).trans (if_pos ((mem_pairsOf_iff _ _ q i).mpr ⟨(mem_chipsBefore p q).mpr hq, hi⟩))
    case outside => exact (hU.regs q i).trans (if_neg fun h => absurd ((mem_pairsOf_iff _ _ q i).mp h).2 (Nat.not_lt.mpr hi))
    case otherLife => exact (honly q).trans (if_neg fun h => absurd ((mem_chipsBefore p q).mp h.1) (Nat.not_lt.mpr hq))
    case otherFile =>
      refine hU.files q fun h => ?_
      obtain ⟨x, hx, rfl⟩ := List.mem_map.mp h
      exact absurd ((mem_chipsBefore p x.1).mp (mem_pairsOf hx).1) (Nat.not_lt.mpr hq)

end Sys2Proof.Machine
end

section
/-! Proofs about a fault inside WRV or PROG (10_state.md section 5, 60_exceptions.md section 3, R313): where it stands, and a failure
drawn at any access. -/

namespace Sys2Proof.Machine

/-! ## How a step ends and why it faults -/

theorem Res.Ends.cases {α : Type} {m : Res α} {ok : α → State → Prop} {er : ArchError → State → Prop} {fl : FaultKind → State → Prop}
    (h : m.Ends ok er fl) :
    (∃ v u, m = .ok v u ∧ ok v u) ∨ (∃ e u, m = .stop (.error e) u ∧ er e u) ∨ ∃ f u, m = .stop (.fault f) u ∧ fl f u := by
  match m with
  | .ok v u => exact .inl ⟨v, u, rfl, h⟩
  | .stop (.error e) u => exact .inr (.inl ⟨e, u, rfl, h⟩)
  | .stop (.fault f) u => exact .inr (.inr ⟨f, u, rfl, h⟩)
  | .stop (.refuse r) u => exact h.elim

section

variable {g : Cfg} {ps : List PhysChip} {s : State} {n : Nat} {took : Bool}

/-- With a failure drawn after `n` accesses and no held chip to reach, a fault is that failure, and it comes after `n` accesses. -/
theorem FaultAt.of_failsAfter {k : Nat} {f : FaultKind} (h : FaultAt g ps s k f) (hdraw : FailsAfter n took s)
    (hrel : CanTransfer g ps s) : f = .ioFault ∧ k = n := by
  obtain ⟨-, -, hio⟩ := hdraw
  rcases h with ⟨rfl, took', hio'⟩ | ⟨-, q, hq, hheld⟩
  · rw [hio] at hio'
    injection hio' with hio'
    injection hio' with hn
    exact ⟨rfl, hn.symm⟩
  · rw [show resetBit g s.cw q = false from hrel q hq] at hheld
    cases hheld

/-- What did not fail made no more accesses than the drawn failure allows. -/
theorem Spent.le_of_failsAfter {e : Env} {k : Nat} (h : Spent s.env e k) (hdraw : FailsAfter n took s) : k ≤ n :=
  (h.some n took hdraw.2.2).1

end

/-! ## Inside a verified write -/

/-- The events of an attempt are ten (R227). -/
theorem Tried.length {g : Cfg} {c : Chip} {a : Nat} {vb : List Byte} {s u : State} {es : List Event} {m : Nat}
    (h : Tried g c a vb s u es m) : es.length = 10 * m := by
  rw [← List.length_map (f := eventShape), h.shape, attemptsShape_length]

/-- A failure drawn at any access of WRV ends it there, or comes too late (R313). -/
theorem execWrv_of_failsAfter {s : State} {n : Nat} {took : Bool} (hdraw : FailsAfter n took s) {c : Chip}
    (hrel : CanTransfer Config.cfg (members Config.cfg c) s) {a : Nat} (ha : a < Config.cfg.nreg) {vb : List Byte} (hvb : vb.length = 4) :
    (∃ u es, exec (.wrv (.chip c) a vb) s = .fault (u.fail .ioFault) ∧ es.length = n ∧
      CutShort Config.cfg c a vb s u es 1 3 .ioFault) ∨
    ∃ t es m, exec (.wrv (.chip c) a vb) s = .next t ∧ t.hist = s.hist ++ es ∧ es.length = 10 * m ∧ 1 ≤ m ∧ es.length ≤ n ∧
      (t.outcome = .done ∨ t.outcome = .error (.writeVerification c a)) := by
  obtain ⟨hm, hs, -⟩ := id hdraw
  have hexec : exec (.wrv (.chip c) a vb) s = _ := execWrv_of_open (g := Config.cfg) (left := 2) rfl hm hs c ha hvb
  rcases (attempts_ends Config.cfg_wf rfl c ha hvb 2 1 s).cases with
    ⟨_, u, hrun, es, m, h1, -, hT⟩ | ⟨e, u, hrun, rfl, es, hT⟩ | ⟨f, u, hrun, es, hC⟩
  · rw [hrun] at hexec
    exact .inr ⟨_, es, m, hexec, hT.leaves.part.hist, hT.length, h1, hT.spent.le_of_failsAfter hdraw, .inl rfl⟩
  · rw [hrun] at hexec
    exact .inr ⟨_, es, 3, hexec, hT.leaves.part.hist, hT.length, by decide, hT.spent.le_of_failsAfter hdraw, .inr rfl⟩
  · obtain ⟨rfl, hn⟩ := hC.fault.of_failsAfter hdraw hrel
    rw [hrun] at hexec
    exact .inl ⟨u, es, hexec, hn, hC⟩

/-! ## Inside a `PROG` -/

/-- Written pairs have made at least the ten events of one attempt. -/
theorem Wrote.ten_le {g : Cfg} {ps : List PhysChip} {hear : PhysChip → List PhysChip} {ch : Nat → List Byte}
    {xs : List (PhysChip × Nat)} {s u : State} {es : List Event} {ks : List Nat} (h : Wrote g ps hear ch xs s u es ks) (hxs : xs ≠ []) :
    10 ≤ es.length := by
  have hcount := h.count
  have htries := h.tries
  have hshape := congrArg List.length h.shape
  match xs, ks with
  | [], _ => exact absurd rfl hxs
  | x :: xs, [] => cases hcount
  | x :: xs, k :: ks =>
    have h1 := (htries k List.mem_cons_self).1
    rw [List.length_map, runShape, List.zip_cons_cons, List.map_cons, List.flatten_cons, List.length_append,
      attemptsShape_length] at hshape
    omega

section

variable {s t u : State} {c : Chip} {bs : List Byte} {es fs : List Event} {ks : List Nat} {x : PhysChip × Nat} {rest : List Event}
  {m : Nat} {f : FaultKind}

/-- The state that the fault leaves stands at the same pair. -/
theorem ProgStands.faultedState {g : Cfg} (h : ProgStands g s u c bs es ks x rest) (f : FaultKind) :
    ProgStands g s (faultedState u f) c bs es ks x rest :=
  ⟨h.hist, h.tries, h.current, h.events, h.partway, h.sent, h.life, h.regs, h.select, h.fields⟩

/-- The pairs before `x` are written and the verified write of `x` is cut short: the `PROG` stands at `x` (R272). -/
theorem progStands_of_cutShort (hx : (progOrder Config.cfg c (chunkCount Config.cfg bs))[m]? = some x)
    (hW : Wrote Config.cfg (members Config.cfg c) (progListeners Config.cfg s c) (chunkAt Config.cfg bs)
      ((progOrder Config.cfg c (chunkCount Config.cfg bs)).take m) s t es ks)
    (hlife : ConfiguredOnly s t ((members Config.cfg c).takeWhile (· != x.1)))
    (hsel : ∀ q, q ≠ x.1 →
      isSelected Config.cfg t.cw q = (!((members Config.cfg c).takeWhile (· != x.1)).contains q && isSelected Config.cfg s.cw q))
    (hhear : progListeners Config.cfg s c x.1 = selected Config.cfg (selectW Config.cfg t.cw (asChip x.1)))
    (hC : CutShort Config.cfg (asChip x.1) x.2 (chunkAt Config.cfg bs x.2) t u fs 1 3 f) :
    ProgStands Config.cfg s u c bs (es ++ fs) ks x (fs.map eventShape) := by
  obtain ⟨hmlt, hget⟩ := List.getElem?_eq_some_iff.mp hx
  have hks : ks.length = m := by rw [← hW.count, List.length_take, Nat.min_eq_left hmlt.le]
  subst hks
  have htake : (progOrder Config.cfg c (chunkCount Config.cfg bs)).take (ks.length + 1) =
      (progOrder Config.cfg c (chunkCount Config.cfg bs)).take ks.length ++ [x] := by
    rw [List.take_add_one, hx]
    rfl
  have hmem : members Config.cfg (asChip x.1) = [x.1] := members_asChip (hasChip_cfg x.1)
  exact {
    hist := by rw [hC.leaves.part.hist, hW.part.hist, List.append_assoc]
    tries := hW.tries
    current := hx
    events := by
      rw [List.map_append, hW.shape, runShape, zip_take _ _ _ le_rfl]
      rfl
    partway := ⟨hC.shape ▸ List.take_prefix _ _, by rw [List.length_map]; exact hC.short⟩
    sent := by
      refine ⟨by rw [List.length_append]; exact hmlt, ?_⟩
      have hsent : writeFrames (es ++ fs) = runFrames (progListeners Config.cfg s c) (chunkAt Config.cfg bs)
          ((progOrder Config.cfg c (chunkCount Config.cfg bs)).take (ks.length + 1)) (ks ++ [(fs.length + 7) / 10]) := by
        rw [writeFrames_append, hW.sent, hC.sent, htake, runFrames_append _ _ hW.count, heardFrames, ← hhear]
        simp [runFrames]
      rw [hsent, runFrames, zip_take _ _ _ (by rw [List.length_append]; exact le_rfl), List.length_map]
      rfl
    life := by rw [ConfiguredOnly, hC.leaves.life]; exact hlife
    regs := fun q b hn => by
      rw [htake] at hn
      refine (hC.leaves.only q b fun hqb => hn x (List.mem_append_right _ (List.mem_singleton.mpr rfl)) ⟨hqb.2, ?_⟩).trans
        (hW.regs q b fun y hy => hn y (List.mem_append_left _ hy))
      rw [hhear, mem_selected, isSelected_selectW Config.cfg_wf, Bool.or_eq_true, decide_eq_true_iff]
      exact hqb.1
    select := fun q hq => (hC.leaves.part.stays q (by rw [hmem, List.mem_singleton]; exact hq)).trans (hsel q hq)
    fields := fun f hf => (hC.leaves.part.other f hf).trans (hW.part.other f hf) }

end

/-- What a `PROG` that did not fault has done: every access it made succeeded, and a chunk took at least one attempt. -/
def RanThrough (s : State) (bs : List Byte) (u : State) : Prop :=
  ∃ es, u.hist = s.hist ++ es ∧ Spent s.env u.env es.length ∧ (4 ≤ bs.length → 10 ≤ es.length)

/-- Where a fault has stopped a `PROG`, and why. -/
def StoppedInside (s : State) (c : Chip) (bs : List Byte) (f : FaultKind) (u : State) : Prop :=
  ∃ (es : List Event) (ks : List Nat) (x : PhysChip × Nat) (rest : List Event), ProgStands Config.cfg s u c bs es ks x rest ∧
    u.attempt = some (rest.length / 10 + 1) ∧ u.cursor = some x ∧ FaultAt Config.cfg (members Config.cfg c) s es.length f

theorem Wrote.ranThrough {s u : State} {hear : PhysChip → List PhysChip} {ch : Nat → List Byte} {c : Chip} {bs : List Byte}
    {xs : List (PhysChip × Nat)} {es : List Event} {ks : List Nat} (h : Wrote Config.cfg (members Config.cfg c) hear ch xs s u es ks)
    (hxs : 4 ≤ bs.length → xs ≠ []) : RanThrough s bs u :=
  ⟨es, h.part.hist, h.spent, fun hbytes => h.ten_le (hxs hbytes)⟩

/-- The pairs of a `PROG` of at least one chunk (R270). -/
theorem progOrder_ne_nil (c : Chip) {bs : List Byte} (hbytes : 4 ≤ bs.length) :
    progOrder Config.cfg c (chunkCount Config.cfg bs) ≠ [] := by
  obtain ⟨p, rest, hmembers⟩ := members_cfg_cons c
  have hcount : 1 ≤ bs.length / 4 := by omega
  refine List.ne_nil_of_mem (a := (p, 0)) ?_
  rw [progOrder_eq, mem_pairsOf_iff, hmembers]
  exact ⟨List.mem_cons_self, hcount⟩

/-- The turns of a `PROG`, whatever is drawn, as the statements about its faults need them. -/
theorem programChips_stands (s : State) (c : Chip) (bs : List Byte) :
    (programChips Config.cfg (chunks Config.cfg bs) (members Config.cfg c) s).Ends (fun _ u => RanThrough s bs u)
      (fun _ u => RanThrough s bs u) (StoppedInside s c bs) := by
  have hends := programChips_ends Config.cfg_wf rfl (mem_chunks_length Config.cfg bs) (chunks_get bs) (members Config.cfg c) s
    (members_nodup Config.cfg c) fun q hq => members_hasChip hq
  simp only [length_chunks, ← progOrder_eq, ← progListeners_eq] at hends
  refine hends.imp ?done ?error ?fault
  case done =>
    rintro - u ⟨es, ks, hW, -, -⟩
    exact hW.ranThrough (progOrder_ne_nil c)
  case error =>
    rintro e u ⟨m, es, ks, hm, hW, -, hend⟩
    have hpos : 0 < m := by
      rcases hend with ⟨x, h1, -⟩ | ⟨-, rfl, -⟩
      · exact h1
      · decide
    refine hW.ranThrough fun _ => List.ne_nil_of_length_pos ?_
    rwa [List.length_take, Nat.min_eq_left hm]
  case fault =>
    rintro f u ⟨m, x, t, es, ks, fs, hx, hW, -, hlife, hsel, hcursor, hhear, hC⟩
    refine ⟨es ++ fs, ks, x, fs.map eventShape, progStands_of_cutShort hx hW hlife hsel hhear hC, ?_, hC.leaves.cursor.trans hcursor, ?_⟩
    · rw [hC.attempt, List.length_map, Nat.add_comm]
    · have hx1 : x.1 ∈ members Config.cfg c := by
        rw [progOrder_eq] at hx
        exact (mem_pairsOf (List.mem_of_getElem? hx)).1
      have hmem : ∀ q ∈ members Config.cfg (asChip x.1), q ∈ members Config.cfg c := fun q hq => by
        rwa [(mem_members_asChip (hasChip_cfg x.1) q).mp hq]
      rw [List.length_append]
      exact (hC.fault.mono hmem).after hW.part hW.spent

/-- A failure drawn at any access of PROG ends it there, or comes too late (R313). -/
theorem execProg_of_failsAfter {s : State} {n : Nat} {took : Bool} (hdraw : FailsAfter n took s) {c : Chip}
    (hrel : CanTransfer Config.cfg (members Config.cfg c) s) (bs : List Byte) :
    (∃ u, exec (.prog (.chip c) (.bytes bs)) s = .fault (u.fail .ioFault) ∧ ∃ es ks x rest, es.length = n ∧
      ProgStands Config.cfg s u c bs es ks x rest) ∨
    ∃ t es, exec (.prog (.chip c) (.bytes bs)) s = .next t ∧ t.hist = s.hist ++ es ∧ es.length ≤ n ∧
      (4 ≤ bs.length → 10 ≤ es.length) ∧ (t.outcome = .done ∨ ∃ e, t.outcome = .error e) := by
  obtain ⟨hm, hs, -⟩ := id hdraw
  have hexec : exec (.prog (.chip c) (.bytes bs)) s = _ := execProg_bytes hm hs Config.cfg c bs
  rcases (programChips_stands s c bs).cases with
    ⟨_, u, hrun, es, hhist, hspent, hten⟩ | ⟨e, u, hrun, es, hhist, hspent, hten⟩ | ⟨f, u, hrun, es, ks, x, rest, hP, -, -, hF⟩ <;>
    rw [hrun] at hexec
  · exact .inr ⟨_, es, hexec, hhist, hspent.le_of_failsAfter hdraw, hten, .inl rfl⟩
  · exact .inr ⟨_, es, hexec, hhist, hspent.le_of_failsAfter hdraw, hten, .inr ⟨e, rfl⟩⟩
  · obtain ⟨rfl, hn⟩ := hF.of_failsAfter hdraw hrel
    exact .inl ⟨u, hexec, es, ks, x, rest, hn, hP⟩

/-! ## After a fault -/

/-- The state that a fault leaves. -/
def Fault.finalState : Fault → State
  | .ioFault s => s
  | .spiWhileInReset s => s

/-- What every fault leaves (R312): no counter, no cursor, and `pc` where it was. -/
theorem exec_fault_leaves {i : Instr} {s : State} {f : Fault} (h : exec i s = .fault f) :
    f.finalState.attempt = none ∧ f.finalState.cursor = none ∧ f.finalState.pc = s.pc := by
  rw [← execOf_cfg] at h
  obtain ⟨k, u, ⟨hwithin, -⟩, rfl⟩ := execOf_fault Config.cfg_wf h
  cases k <;> exact ⟨rfl, rfl, hwithin.pc⟩

/-- Settles O33: the endings of the loop of attempts and of the turns say where a fault stands, and a drawn failure comes after
exactly its accesses. -/
theorem faultsInsideComposites : Obligations.FaultsInsideComposites := by
  have hg := Config.cfg_wf
  refine ⟨fun s u c a vb f hvb hrun => ?attempt, fun s u c bs f hrun => ?cursor, fun i s left hfault => ?after,
    fun s c a vb n took hdraw hrel ha hvb => ?wrv, fun s c bs n took hdraw hrel => ?prog⟩
  case attempt =>
    have hends := verifiedWrite_ends_int hg rfl c a hvb s
    rw [hrun] at hends
    obtain ⟨b, es, hC⟩ := hends
    exact ⟨es, hC.leaves.part.hist, hC.short, hC.attempt.trans (congrArg some (Nat.add_comm _ _))⟩
  case cursor =>
    have hends := programChips_stands s c bs
    rw [hrun] at hends
    obtain ⟨es, ks, x, rest, hP, hattempt, hcursor, -⟩ := hends
    exact ⟨es, ks, x, rest, hP, hattempt, hcursor⟩
  case after =>
    rcases hfault with h | h <;> exact exec_fault_leaves h
  case wrv =>
    rcases execWrv_of_failsAfter hdraw hrel (Nat.lt_succ_of_le ha) hvb with
      ⟨u, es, hexec, hn, hC⟩ | ⟨t, es, m, hexec, hhist, hlen, h1, hle, houtcome⟩
    · refine .inl ⟨_, es, hexec, rfl, hC.leaves.part.hist, hn, hC.shape ▸ List.take_prefix _ _, ?_, hC.leaves.life, fun q b hqb => ?_,
        hC.leaves.part.other⟩
      · rw [hC.sent, heardFrames, selected_selectW hg, hn]
      · refine hC.leaves.only q b fun h => hqb ⟨?_, h.2⟩
        rw [List.mem_append, mem_selected]
        exact h.1
    · exact .inr ⟨t, es, hexec, hhist, by omega, hle, houtcome⟩
  case prog =>
    rcases execProg_of_failsAfter hdraw hrel bs with ⟨u, hexec, es, ks, x, rest, hn, hP⟩ | hlate
    · exact .inl ⟨_, es, ks, x, rest, hexec, rfl, hn, hP.faultedState .ioFault⟩
    · exact .inr hlate

end Sys2Proof.Machine
end

section
/-! Proofs about a drawn access failure in the operations of at most four accesses (60_exceptions.md section 3, R313): what each access
of theirs leaves when it fails. -/

namespace Sys2Proof.Machine

/-! ## The accesses under a drawn failure -/

/-- One access before the drawn failure has been made. -/
def State.drawn (s : State) (n : Nat) (took : Bool) : State := { s with env := { s.env with ioFailure := some ⟨n, took⟩ } }

/-- What a failed write of CW leaves: the old word, or where it took effect the new one and what that does to the chips (U29). -/
def State.cwIfTook (g : Cfg) (s : State) (took : Bool) (w : CwWord) : State := if took then s.writeCw g w else s

/-- The chips that a failed transfer can have reached (notes/assumptions/21.md). -/
def reachable (g : Cfg) (s : State) : List PhysChip := (selected g s.cw).filter fun p => !resetBit g s.cw p

section

variable {g : Cfg} (hm : g.ioMayFail = true) {s : State} {n : Nat} {took : Bool}

include hm

theorem drawIo_failing (hio : s.env.ioFailure = some ⟨0, took⟩) : drawIo g s = (some took, s) := by
  rw [drawIo, if_pos hm, hio]

theorem drawIo_counting (hio : s.env.ioFailure = some ⟨n + 1, took⟩) : drawIo g s = (none, s.drawn n took) := by
  rw [drawIo, if_pos hm, hio]
  rfl

theorem readReg_failing (r : WinReg) (hio : s.env.ioFailure = some ⟨0, took⟩) : readReg g r s = .stop (.fault .ioFault) s := by
  rw [readReg, drawIo_failing hm hio]

theorem readReg_counting (r : WinReg) (hio : s.env.ioFailure = some ⟨n + 1, took⟩) :
    readReg g r s = .ok ((s.drawn n took).windowValue g r)
      ((s.drawn n took).record (.mmioR (r.offset g) (r.width g) ((s.drawn n took).windowValue g r))) := by
  rw [readReg, drawIo_counting hm hio]

theorem writeCwReg_failing (w : CwWord) (hio : s.env.ioFailure = some ⟨0, took⟩) :
    writeCwReg g w s = .stop (.fault .ioFault) (s.cwIfTook g took w) := by
  rw [writeCwReg, drawIo_failing hm hio, State.cwIfTook]

theorem writeCwReg_counting (w : CwWord) (hio : s.env.ioFailure = some ⟨n + 1, took⟩) :
    writeCwReg g w s =
      .ok () (((s.drawn n took).writeCw g w).record (.mmioW (WinReg.cw.offset g) (WinReg.cw.width g) (w.setWidth 64))) := by
  rw [writeCwReg, drawIo_counting hm hio]

/-- The state after the read of CW that a field write begins with (R151). -/
theorem fieldWrite_counting_read (f : CwField) (h : BitVec 4 → BitVec 4) (hio : s.env.ioFailure = some ⟨n + 1, took⟩) :
    fieldWrite g f h s = writeCwReg g (putField g s.cw f (h (getField g s.cw f)))
      ((s.drawn n took).record (.mmioR g.cwOffset g.cwBytes (s.cw.setWidth 64))) := by
  rw [fieldWrite, readReg_counting hm .cw hio, Res.ok_bind]
  show writeCwReg g (putField g ((s.cw.setWidth 64).setWidth 32) f (h (getField g ((s.cw.setWidth 64).setWidth 32) f))) _ = _
  rw [setWidth_32_64_32]
  rfl

theorem fieldWrite_failing_read (f : CwField) (h : BitVec 4 → BitVec 4) (hio : s.env.ioFailure = some ⟨0, took⟩) :
    fieldWrite g f h s = .stop (.fault .ioFault) s := by
  rw [fieldWrite, readReg_failing hm .cw hio, Res.stop_bind]

theorem fieldWrite_failing_write (f : CwField) (h : BitVec 4 → BitVec 4) (hio : s.env.ioFailure = some ⟨1, took⟩) :
    fieldWrite g f h s = .stop (.fault .ioFault)
      (((s.drawn 0 took).record (.mmioR g.cwOffset g.cwBytes (s.cw.setWidth 64))).cwIfTook g took
        (putField g s.cw f (h (getField g s.cw f)))) := by
  rw [fieldWrite_counting_read hm f h hio, writeCwReg_failing hm (s := (s.drawn 0 took).record _) _ rfl]

theorem fieldWrite_counting (f : CwField) (h : BitVec 4 → BitVec 4) (hio : s.env.ioFailure = some ⟨n + 2, took⟩) :
    fieldWrite g f h s = .ok () ((s.drawn n took).wroteCw g (putField g s.cw f (h (getField g s.cw f)))) := by
  rw [fieldWrite_counting_read hm f h hio, writeCwReg_counting hm (s := (s.drawn (n + 1) took).record _) _ rfl]
  congr 1
  simp [State.wroteCw, State.record, State.writeCw, State.drawn, cwWriteEvents, WinReg.offset, WinReg.width]

/-- A failed transfer reaches no chip, or the released ones that are selected (R313, U29). -/
theorem spiXfer_failing {tx : List Byte} (htx : tx ≠ []) (hio : s.env.ioFailure = some ⟨0, took⟩) :
    spiXfer g tx s = .stop (.fault .ioFault)
      (if took then (chipResponse g (reachable g s) tx s).2 else s) := by
  simp only [spiXfer, if_neg htx, drawIo_failing hm hio, reachable]

end

/-! ## The operations that begin with a write of one field -/

/-- Operation `i` from `s` begins with a write of field `f` that gives it the value `v`. -/
def BeginsWithWrite (s : State) (i : Instr) (f : CwField) (v : BitVec 4) : Prop :=
  ∃ h k, h (getField Config.cfg s.cw f) = v ∧ exec i s = finish ((fieldWrite Config.cfg f h s).bind k)

section

variable {s : State} (hm : s.mapOK = true) (hs : s.spiOK = true)

include hm hs

theorem cwAssign_begins (f : CwField) (v : BitVec 4) : BeginsWithWrite s (.cwAssign (.cw f) v.toNat) f v :=
  ⟨fun _ => v, _, rfl, by rw [exec, execCwAssign, admit_of_ready hm hs, withCwField, withNibble_toNat, cwAssign]⟩

theorem setClk_begins (v : BitVec 4) : BeginsWithWrite s (.setClk v.toNat) .sysclk v :=
  ⟨fun _ => v, _, rfl, by rw [exec, execSetClk, admit_of_ready hm hs, withNibble_toNat, cwAssign]⟩

theorem setTrig_begins (m : TrigMode) : BeginsWithWrite s (.setTrig (.mode m)) .hold (Config.cfg.holdCode m) :=
  ⟨fun _ => Config.cfg.holdCode m, _, rfl, by rw [exec, execSetTrig, admit_of_ready hm hs]; rfl⟩

theorem cwSet_begins (f : CwField) (c : Chip) :
    BeginsWithWrite s (.cwSet (.cw f) (.chip c)) f (getField Config.cfg s.cw f ||| amask Config.cfg c) :=
  ⟨fun old => old ||| amask Config.cfg c, _, rfl, by rw [exec, execCwSet, admit_of_ready hm hs, withChip, withCwField, cwSet]⟩

theorem cwClear_begins (f : CwField) (c : Chip) :
    BeginsWithWrite s (.cwClear (.cw f) (.chip c)) f (getField Config.cfg s.cw f &&& dmask Config.cfg c) :=
  ⟨fun old => old &&& dmask Config.cfg c, _, rfl, by rw [exec, execCwClear, admit_of_ready hm hs, withChip, withCwField, cwClear]⟩

theorem csAssert_begins (c : Chip) :
    BeginsWithWrite s (.csAssert (.chip c)) .cs (getField Config.cfg s.cw .cs ||| amask Config.cfg c) :=
  ⟨fun old => old ||| amask Config.cfg c, _, rfl, by rw [exec, execCsAssert, admit_of_ready hm hs, withChip]; rfl⟩

theorem csDeassert_begins (c : Chip) :
    BeginsWithWrite s (.csDeassert (.chip c)) .cs (getField Config.cfg s.cw .cs &&& dmask Config.cfg c) :=
  ⟨fun old => old &&& dmask Config.cfg c, _, rfl, by rw [exec, execCsDeassert, admit_of_ready hm hs, withChip]; rfl⟩

theorem reset_begins (c : Chip) (d : Nat) :
    BeginsWithWrite s (.reset (.chip c) (.micros d)) .reset (getField Config.cfg s.cw .reset ||| amask Config.cfg c) :=
  ⟨fun old => old ||| amask Config.cfg c, _, rfl, by
    rw [exec, execReset, admit_of_ready hm hs, withChip, withDuration, pulseReset, Res.bind_assoc, cwSet]⟩

end

section

variable {s : State} {took : Bool} {i : Instr} {f : CwField} {v : BitVec 4}

/-- A failing read leaves all as it was. -/
theorem BeginsWithWrite.fails_at_read (h : BeginsWithWrite s i f v) (hdraw : FailsAfter 0 took s) :
    exec i s = .fault (.ioFault (faultedState s .ioFault)) := by
  obtain ⟨m, k, -, hexec⟩ := h
  rw [hexec, fieldWrite_failing_read rfl f m hdraw.2.2]
  rfl

/-- A failing write leaves the old word or the new one (R313). -/
theorem BeginsWithWrite.fails_at_write (h : BeginsWithWrite s i f v) (hdraw : FailsAfter 1 took s) :
    exec i s = .fault (.ioFault (faultedState
      (((s.drawn 0 took).record (.mmioR Config.cfg.cwOffset Config.cfg.cwBytes (s.cw.setWidth 64))).cwIfTook Config.cfg took
        (putField Config.cfg s.cw f v)) .ioFault)) := by
  obtain ⟨m, k, rfl, hexec⟩ := h
  rw [hexec, fieldWrite_failing_write rfl f m hdraw.2.2]
  rfl

end

/-! ## The failing write -/

/-- What a failing write leaves in the control word and the chips (R290, U29). -/
theorem cwIfTook_leaves {s u : State} (hcw : u.cw = s.cw) (hchips : SameChips s u) (took : Bool) (f : CwField) (v : BitVec 4) :
    let left := faultedState (u.cwIfTook Config.cfg took (putField Config.cfg s.cw f v)) .ioFault
    (took = false → SameChips s left ∧ left.cw = s.cw) ∧
      (took = true → FieldSet Config.cfg s.cw left.cw f v ∧ ChipsFollow Config.cfg s left) := by
  obtain ⟨hregs, hlife⟩ := writeCw_sameChips (g := Config.cfg) hcw hchips (putField Config.cfg s.cw f v)
  constructor <;> rintro rfl
  · exact ⟨hchips, hcw⟩
  · refine ⟨fieldSet_putField Config.cfg_wf s.cw f v, ?_⟩
    have hfollow := chipsFollow_writeCw Config.cfg s (putField Config.cfg s.cw f v)
    unfold ChipsFollow at hfollow ⊢
    simp only [State.reg, ← hregs, ← hlife] at hfollow
    exact hfollow

theorem cwIfTook_hist (g : Cfg) (s : State) (took : Bool) (w : CwWord) : (s.cwIfTook g took w).hist = s.hist := by
  cases took <;> rfl

theorem cwIfTook_pc (g : Cfg) (s : State) (took : Bool) (w : CwWord) : (s.cwIfTook g took w).pc = s.pc := by
  cases took <;> rfl

/-! ## The failing transfer -/

/-- What a failing transfer leaves: as an operation it ends there, whatever is made of the bytes received. -/
theorem transferFails {s : State} {took : Bool} (hdraw : FailsAfter 0 took s) {tx : List Byte} (htx : tx ≠ [])
    (k : List Byte → State → Res Result) :
    ∃ left, finish ((spiXfer Config.cfg tx s).bind k) = .fault (.ioFault left) ∧ left.outcome = .fault .ioFault ∧ left.hist = s.hist ∧
      SameWindow s left ∧ left.life = s.life ∧ left.pc = s.pc ∧ (took = false → left.regs = s.regs) ∧
      ∀ p, isSelected Config.cfg s.cw p = false ∨ ¬ Released Config.cfg p s → left.regs.get p = s.regs.get p := by
  rw [spiXfer_failing rfl htx hdraw.2.2, Res.stop_bind, finish_fault]
  cases took with
  | false => exact ⟨_, rfl, rfl, rfl, sameWindow_of_cw rfl, rfl, rfl, fun _ => rfl, fun _ _ => rfl⟩
  | true =>
    have hfile : ∀ p, p ∉ reachable Config.cfg s → _ := fun p => chipResponse_file Config.cfg tx s
    obtain ⟨regs, e⟩ := chipResponse_keeps Config.cfg (reachable Config.cfg s) tx s
    rw [if_pos rfl, e]
    rw [e] at hfile
    refine ⟨_, rfl, rfl, rfl, sameWindow_of_cw rfl, rfl, rfl, nofun, fun p hp => hfile p fun hmem => ?_⟩
    obtain ⟨hsel, hfree⟩ := List.mem_filter.mp hmem
    rcases hp with hp | hp
    · rw [mem_selected, hp] at hsel
      cases hsel
    · exact hp (by rw [Released, ← Bool.not_eq_true', hfree])

/-! ## The second phase of a reset -/

/-- The first write of the pulse goes through where the failure comes later (R255). -/
theorem pulseReset_counting {g : Cfg} (hm : g.ioMayFail = true) (c : Chip) (d : Nat) {s : State} {n : Nat} {took : Bool}
    (hio : s.env.ioFailure = some ⟨n + 2, took⟩) :
    pulseReset g c d s = (cwClear g .reset c ((s.drawn n took).pulseHeld g c d)).bind fun _ s =>
      .ok () (s.setLife (members g c) .released) := by
  rw [pulseReset, cwSet, fieldWrite_counting hm .reset (fun old => old ||| amask g c) hio, Res.ok_bind, sleep, Res.ok_bind]
  rfl

/-- In the middle of the pulse the chips of the operand are held with no register known, and the others are as before (R255, R256). -/
theorem pulseHeld_of_mem (g : Cfg) (s : State) {c : Chip} (d : Nat) {p : PhysChip} (hp : p ∈ members g c) :
    (s.pulseHeld g c d).life.get p = .heldInReset ∧ (s.pulseHeld g c d).regs.get p = [] := by
  rw [State.pulseHeld, State.record_life, State.record_regs, State.setLife_get_life, if_pos hp, State.setLife_regs,
    State.forget_get_regs, if_pos hp]
  exact ⟨rfl, rfl⟩

theorem pulseHeld_of_not_mem {g : Cfg} (hg : g.wf) (s : State) {c : Chip} (d : Nat) {p : PhysChip} (hp : p ∉ members g c) :
    (s.pulseHeld g c d).life.get p = s.life.get p ∧ (s.pulseHeld g c d).regs.get p = s.regs.get p := by
  obtain ⟨hlife, hregs⟩ := writeCw_get_of_same_reset (s := s) (resetBit_heldWord_of_not_mem hg s.cw hp)
  rw [State.pulseHeld, State.record_life, State.record_regs, State.setLife_get_life, if_neg hp, State.setLife_regs,
    State.forget_life, State.forget_get_regs, if_neg hp]
  exact ⟨hlife, hregs⟩

theorem pulseHeld_hist (g : Cfg) (s : State) (c : Chip) (d : Nat) :
    (s.pulseHeld g c d).hist = s.hist ++ cwWriteEvents g s.cw (heldWord g s.cw c) ++ [.sleep d] := by
  simp only [State.pulseHeld, State.setLife_hist, State.wroteCw_hist, State.record_hist, State.forget_hist]

/-- The last write of the pulse releases the held chips of the operand, whose registers stay unknown, and no other chip. -/
theorem releasedWrite_of_mem {g : Cfg} (hg : g.wf) (s : State) {c : Chip} (d : Nat) {p : PhysChip} (hp : p ∈ members g c) :
    ((s.pulseHeld g c d).writeCw g (releasedWord g (heldWord g s.cw c) c)).life.get p = .released ∧
      ((s.pulseHeld g c d).writeCw g (releasedWord g (heldWord g s.cw c) c)).regs.get p = [] := by
  obtain ⟨hlife, hregs⟩ := pulseHeld_of_mem g s d hp
  have hheld : resetBit g (s.pulseHeld g c d).cw p = true := by
    show resetBit g (heldWord g s.cw c) p = true
    rw [heldWord, resetBit_set hg, decide_eq_true hp, Bool.true_or]
  rw [State.writeCw_get_life, State.writeCw_get_regs, resetBit_releasedWord_of_mem hg _ hp, hheld, hlife, hregs]
  exact ⟨rfl, rfl⟩

theorem releasedWrite_of_not_mem {g : Cfg} (hg : g.wf) (s : State) {c : Chip} (d : Nat) {p : PhysChip} (hp : p ∉ members g c) :
    ((s.pulseHeld g c d).writeCw g (releasedWord g (heldWord g s.cw c) c)).life.get p = s.life.get p ∧
      ((s.pulseHeld g c d).writeCw g (releasedWord g (heldWord g s.cw c) c)).regs.get p = s.regs.get p := by
  obtain ⟨hlife, hregs⟩ := pulseHeld_of_not_mem hg s d hp
  obtain ⟨hlife', hregs'⟩ := writeCw_get_of_same_reset (s := s.pulseHeld g c d)
    (resetBit_releasedWord_of_not_mem hg (heldWord g s.cw c) hp)
  exact ⟨hlife'.trans hlife, hregs'.trans hregs⟩

/-- RESET whose failure comes after its first write ends in the second one (R255, R313): at its read, or at its write. -/
theorem execReset_failing {s : State} {n : Nat} {took : Bool} (hdraw : FailsAfter (n + 2) took s) (c : Chip) (d : Nat)
    {left : State}
    (hclear : cwClear Config.cfg .reset c ((s.drawn n took).pulseHeld Config.cfg c d) = .stop (.fault .ioFault) left) :
    exec (.reset (.chip c) (.micros d)) s = .fault (.ioFault (faultedState left .ioFault)) := by
  obtain ⟨hm, hs, hio⟩ := hdraw
  rw [exec, execReset, admit_of_ready hm hs, withChip, withDuration, pulseReset_counting rfl c d hio, hclear]
  rfl

theorem unknown_of_file {s : State} {p : PhysChip} (h : s.regs.get p = []) (a : Nat) : s.reg p a = .unknown := by
  rw [State.reg, h, RegFile.read]

/-- RDTEMP whose failure comes after its first read ends in the second one (R266, R313). -/
theorem execRdTemp_failing {s : State} {took : Bool} (hdraw : FailsAfter 1 took s) :
    exec .rdTemp s = .fault (.ioFault (faultedState ((s.drawn 0 took).record
      (.mmioR Config.cfg.sw0Offset Config.cfg.swBytes ((s.drawn 0 took).windowValue Config.cfg (.sw .sw0)))) .ioFault)) := by
  obtain ⟨hm, hs, hio⟩ := hdraw
  rw [exec, execRdTemp, admit_of_ready hm hs, readReg_counting rfl _ hio, Res.ok_bind, readSecond, if_pos (hasWord_cfg _),
    readReg_failing (s := (s.drawn 0 took).record _) rfl _ rfl]
  rfl

/-- Settles O48: each access of each operation fails where its draw says, and leaves what is made of the accesses before it. -/
theorem ioFaultEnds : Obligations.IoFaultEnds := by
  have hg := Config.cfg_wf
  refine fun s took i => ⟨fun hdraw hi => ?firstAccess, fun hdraw hi => ?transfer, fun hdraw f v hi => ?write,
    fun c d n hdraw hn hi => ?secondPhase, fun hdraw hi => ?secondRead⟩
  case firstAccess =>
    obtain ⟨hm, hs, hio⟩ := id hdraw
    rcases hi with ⟨f, rfl⟩ | ⟨f, rfl⟩ | rfl | rfl | ⟨f, v, rfl⟩ | ⟨v, rfl⟩ | ⟨f, c, rfl⟩ | ⟨f, c, rfl⟩ | ⟨c, rfl⟩ | ⟨c, rfl⟩ |
      ⟨c, d, rfl⟩ | ⟨m, rfl⟩
    · rw [exec, execCwRead, admit_of_ready hm hs]
      simp only [readReg_failing (g := Config.cfg) rfl _ hio]
      rfl
    · rw [exec, execSwRead, admit_of_ready hm hs]
      simp only [swRead, readReg_failing (g := Config.cfg) rfl _ hio]
      rfl
    · rw [exec, execRdErr, admit_of_ready hm hs, swRead, readReg_failing rfl _ hio]
      rfl
    · rw [exec, execRdTemp, admit_of_ready hm hs, readReg_failing rfl _ hio]
      rfl
    · exact (cwAssign_begins hm hs f v).fails_at_read hdraw
    · exact (setClk_begins hm hs v).fails_at_read hdraw
    · exact (cwSet_begins hm hs f c).fails_at_read hdraw
    · exact (cwClear_begins hm hs f c).fails_at_read hdraw
    · exact (csAssert_begins hm hs c).fails_at_read hdraw
    · exact (csDeassert_begins hm hs c).fails_at_read hdraw
    · exact (reset_begins hm hs c d).fails_at_read hdraw
    · exact (setTrig_begins hm hs m).fails_at_read hdraw
  case transfer =>
    obtain ⟨hm, hs, -⟩ := id hdraw
    rcases hi with ⟨tx, rfl, htx⟩ | ⟨a, v, rfl⟩ | ⟨a, v, rfl⟩
    · rw [exec, execSpiXfer, admit_of_ready hm hs]
      exact transferFails hdraw htx _
    · rw [exec, execFrameW, admit_of_ready hm hs]
      exact transferFails hdraw (frameBytes_ne_nil _ _ _ _) _
    · rw [exec, execFrameR, admit_of_ready hm hs]
      exact transferFails hdraw (frameBytes_ne_nil _ _ _ _) _
  case write =>
    obtain ⟨hm, hs, -⟩ := id hdraw
    have hbegins : BeginsWithWrite s i f v := by
      rcases hi with rfl | ⟨c, rfl | ⟨rfl, rfl⟩ | ⟨rfl, d, rfl⟩, rfl⟩ | ⟨c, rfl | ⟨rfl, rfl⟩, rfl⟩ | ⟨rfl, rfl⟩ | ⟨rfl, m, rfl, rfl⟩
      · exact cwAssign_begins hm hs f v
      · exact cwSet_begins hm hs f c
      · exact csAssert_begins hm hs c
      · exact reset_begins hm hs c d
      · exact cwClear_begins hm hs f c
      · exact csDeassert_begins hm hs c
      · exact setClk_begins hm hs v
      · exact setTrig_begins hm hs m
    refine ⟨_, hbegins.fails_at_write hdraw, rfl, cwIfTook_hist _ _ _ _, cwIfTook_pc _ _ _ _, ?_⟩
    exact cwIfTook_leaves (u := (s.drawn 0 took).record _) rfl ⟨rfl, rfl⟩ took f v
  case secondPhase =>
    subst hi
    refine hn.elim ?_ ?_ <;> rintro rfl
    · have hclear := fieldWrite_failing_read (g := Config.cfg) rfl .reset (fun old => old &&& dmask Config.cfg c)
        (s := (s.drawn 0 took).pulseHeld Config.cfg c d) rfl
      refine ⟨_, heldWord Config.cfg s.cw c, execReset_failing hdraw c d hclear, rfl, rfl, fieldSet_putField hg s.cw .reset _, ?_, rfl,
        fun p hp => ?_, fun p hp => pulseHeld_of_not_mem hg (s.drawn 0 took) d hp⟩
      · rw [if_neg (by decide), List.append_nil]
        exact pulseHeld_hist Config.cfg (s.drawn 0 took) c d
      · obtain ⟨hlife, hregs⟩ := pulseHeld_of_mem Config.cfg (s.drawn 0 took) d hp
        exact ⟨hlife, unknown_of_file hregs⟩
    · have hclear := fieldWrite_failing_write (g := Config.cfg) rfl .reset (fun old => old &&& dmask Config.cfg c)
        (s := (s.drawn 1 took).pulseHeld Config.cfg c d) rfl
      refine ⟨_, heldWord Config.cfg s.cw c, execReset_failing hdraw c d hclear, rfl, cwIfTook_pc _ _ _ _,
        fieldSet_putField hg s.cw .reset _, ?_, ?_⟩
      · rw [if_pos rfl]
        refine (cwIfTook_hist _ _ _ _).trans ?_
        exact congrArg (· ++ _) (pulseHeld_hist Config.cfg (s.drawn 1 took) c d)
      · cases took with
        | false =>
          refine ⟨rfl, fun p hp => ?_, fun p hp => pulseHeld_of_not_mem hg (s.drawn 1 false) d hp⟩
          obtain ⟨hlife, hregs⟩ := pulseHeld_of_mem Config.cfg (s.drawn 1 false) d hp
          exact ⟨hlife, unknown_of_file hregs⟩
        | true =>
          refine ⟨fieldSet_putField hg _ .reset _, fun p hp => ?_, fun p hp => releasedWrite_of_not_mem hg (s.drawn 1 true) d hp⟩
          obtain ⟨hlife, hregs⟩ := releasedWrite_of_mem hg (s.drawn 1 true) d hp
          exact ⟨hlife, unknown_of_file hregs⟩
  case secondRead =>
    subst hi
    exact ⟨_, _, execRdTemp_failing hdraw, rfl, rfl, rfl, ⟨rfl, rfl⟩, sameWindow_of_cw rfl⟩

end Sys2Proof.Machine
end
